-- ==== Sys2Proof/Word.lean ====
section
/-! DEFINITION. The word type: every data unit of the block is one unsigned 8-bit byte (00_scope.md R10, R18). -/

namespace Sys2Proof

/-- A byte: the only word of the block (00_scope.md R10 "byte width = 8 bits", R18). Bit 0 is the least significant (R14). -/
abbrev Byte := BitVec 8

end Sys2Proof
end

