-- ==== Sys2Proof/Config.lean ====
section
/-! DEFINITION. The parameters of 00_scope.md section 4, the fixed constants of R10, and the free values. -/

namespace Sys2Proof

/-- DATA_OUT_INIT and the initial level of a CFG to OUT (00_scope.md R13): LOW, HIGH, or ANY (the level is a draw). -/
inductive InitLevel where
  | low
  | high
  | any
  deriving DecidableEq, Repr

/-- The configuration, "fixed at construction, and no operation writes it" (10_state.md R49). -/
structure Config where
  /-- PIN_CLK, PIN_DATA, PIN_RST: logical pin ids (R7). -/
  pinClk : Nat
  pinData : Nat
  pinRst : Nat
  /-- GPIO_HANDLE: opaque, "no rule reads it" (R8). -/
  gpioHandle : Nat
  /-- T_SETTLE in nanoseconds (R9; DESIGN CHOICE of the unit, log 16). -/
  tSettle : Nat
  /-- PAD_BYTE (R11). -/
  padByte : Byte
  /-- CENTURY_BASE (R12). -/
  centuryBase : Nat
  /-- DATA_OUT_INIT (R13). -/
  dataOutInit : InitLevel
  deriving DecidableEq, Repr

namespace Config

/-- The defaults of 00_scope.md section 4; the pin ids and the handle are DESIGN CHOICE (log 4). -/
def standard : Config :=
  { pinClk := 0, pinData := 1, pinRst := 2, gpioHandle := 0, tSettle := 5000, padByte := 0x00#8,
    centuryBase := 2000, dataOutInit := .any }

/-- "They must be pairwise distinct" (00_scope.md R7). -/
def pinsDistinct (c : Config) : Bool :=
  c.pinClk != c.pinData && c.pinData != c.pinRst && c.pinClk != c.pinRst

/-- FRAME_LEN (00_scope.md R10). -/
abbrev frameLen : Nat := 7

/-- RAM_LEN (00_scope.md R10). -/
abbrev ramLen : Nat := 31

/-- PAD_COUNT (00_scope.md R10). -/
abbrev padCount : Nat := 2

/-- FREE VALUE: whether the capability answers `Err` to its n-th pin call when nothing else says (R16, R88; log 1). -/
opaque freeFails : Nat → Bool

/-- FREE VALUE: the level the n-th pin call yields when it is a GET that nothing else answers (R16, R141; log 1). -/
opaque freeLevel : Nat → Bool

/-- FREE VALUE: BUF cell k at the start of the n-th data operation (10_state.md R36 "unspecified"; log 3). -/
opaque freeBufCell : Nat → Nat → Byte

/-- FREE VALUE: YEAR_OF_YY under a CENTURY_BASE of a number above 99, which R167 of 42_bcd_codec.md leaves unstated (log 28). -/
opaque freeYear : Nat → Nat → Nat

end Config

end Sys2Proof
end

