-- ==== Sys2Proof/Syntax.lean ====
section
/-! DEFINITION. The instructions: one constructor per row of spec/opcode_table.json, with typed operands. -/

namespace Sys2Proof

/-- The eight command bytes of 30_encoding.md R90 to R97, in the order of the source's table. -/
inductive Command where
  | wpRead
  | wpWrite
  | tcRead
  | tcWrite
  | clockBurstRead
  | clockBurstWrite
  | ramBurstRead
  | ramBurstWrite
  deriving DecidableEq, Repr

/-- A calendar value, the 7-tuple (sec, min, hour, day, month, wday, yy) of naturals (30_encoding.md R110). -/
structure Calendar where
  sec : Nat
  min : Nat
  hour : Nat
  day : Nat
  month : Nat
  wday : Nat
  yy : Nat
  deriving DecidableEq, Repr

/-- A register frame: 7 bytes in wire order (00_scope.md R10, 20_memory.md R61). -/
structure Frame where
  sec : Byte
  min : Byte
  hour : Byte
  day : Byte
  month : Byte
  wday : Byte
  yy : Byte
  deriving DecidableEq, Repr

/-- One byte of a transaction's body: a WRBYTE with its byte, or an RDBYTE (40_transaction_framer.md R122). -/
inductive ByteOp where
  | wr (v : Byte)
  | rd
  deriving DecidableEq, Repr

/-- The instructions, in the order of spec/opcode_table.json. -/
inductive Instr where
  /-- CMD_WP_READ, 0x8F, FMT-R(1) (R90). -/
  | cmdWpRead
  /-- CMD_WP_WRITE, 0x8E, FMT-W(1) (R91); `d` is the data byte. -/
  | cmdWpWrite (d : Byte)
  /-- CMD_TC_READ, 0x91, FMT-R(1) (R92). -/
  | cmdTcRead
  /-- CMD_TC_WRITE, 0x90, FMT-W(1) (R93); `d` is the data byte. -/
  | cmdTcWrite (d : Byte)
  /-- CMD_CLOCK_BURST_READ, 0xBF, FMT-R(7) (R94). -/
  | cmdClockBurstRead
  /-- CMD_CLOCK_BURST_WRITE, 0xBE, FMT-W(9): the frame, then the two padding bytes (R95). -/
  | cmdClockBurstWrite (f : Frame) (pad1 pad2 : Byte)
  /-- CMD_RAM_BURST_READ, 0xFF, FMT-R(31) (R96). -/
  | cmdRamBurstRead
  /-- CMD_RAM_BURST_WRITE, 0xFE, FMT-W(n), n ≤ 31 (R97). -/
  | cmdRamBurstWrite (data : List Byte)
  /-- INIT (44_lifecycle.md R220). -/
  | init
  /-- READ_DATETIME (43_register_codec.md R190). -/
  | readDatetime
  /-- WRITE_DATETIME(cv) (R191). -/
  | writeDatetime (cv : Calendar)
  /-- READ_RAM (R192). -/
  | readRam
  /-- WRITE_RAM(block), a list of bytes of any length (R193, R111). -/
  | writeRam (block : List Byte)
  /-- TEARDOWN (44_lifecycle.md R221). -/
  | teardown
  /-- BEGIN (40_transaction_framer.md R120). -/
  | txnBegin
  /-- END (R121). -/
  | txnEnd
  /-- TRANSACTION(body) (R122). -/
  | transaction (body : List ByteOp)
  /-- WRBYTE(v) (41_bit_transport.md R140). -/
  | wrByte (v : Byte)
  /-- RDBYTE (R141). -/
  | rdByte
  /-- BCD_ENC(v) (42_bcd_codec.md R160). -/
  | bcdEnc (v : Nat)
  /-- BCD_DEC(b) (R161). -/
  | bcdDec (b : Byte)
  /-- FRAME_ENC(cv) (R164). -/
  | frameEnc (cv : Calendar)
  /-- FRAME_DEC(raw) (R165). -/
  | frameDec (raw : Frame)
  /-- YY_OF_YEAR(year) (R166). -/
  | yyOfYear (year : Nat)
  /-- YEAR_OF_YY(yy), yy in 0..99 (R167). -/
  | yearOfYy (yy : Nat)
  deriving DecidableEq, Repr

end Sys2Proof
end

