-- ==== Sys2Proof/Decode.lean ====
section
/-! DEFINITION. The decoder, total on any bytes, and the encoder: the wire image of a command's transaction
(30_encoding.md R90 to R101), and the line form of the host operations and micro-ops (R109). -/

namespace Sys2Proof

/-- Why the decoder gives no instruction. -/
inductive Reject where
  /-- No byte at all: a transaction always writes a command byte (R100). -/
  | empty
  /-- The first byte is none of the eight command bytes (R98, R99). -/
  | unknownCommand (b : Byte)
  /-- The number of data bytes is not the one the command's format fixes (R101). -/
  | wrongLength (c : Command) (given : Nat)
  /-- The line is none of the forms of R109. -/
  | badLine
  deriving DecidableEq, Repr

/-! ### The command bytes (R90 to R98) -/

/-- The command byte, written out as R90 to R97 give it. -/
def Command.code : Command → Byte
  | .wpRead => 0x8F#8
  | .wpWrite => 0x8E#8
  | .tcRead => 0x91#8
  | .tcWrite => 0x90#8
  | .clockBurstRead => 0xBF#8
  | .clockBurstWrite => 0xBE#8
  | .ramBurstRead => 0xFF#8
  | .ramBurstWrite => 0xFE#8

/-- "Every command is matched by all 8 bits (mask 0xFF)" (R98). -/
def Command.mask (_c : Command) : Byte := 0xFF#8

/-- "The eight bytes of rules R90 to R97 are the whole command set" (R98). -/
def Command.all : List Command :=
  [.wpRead, .wpWrite, .tcRead, .tcWrite, .clockBurstRead, .clockBurstWrite, .ramBurstRead, .ramBurstWrite]

/-- The command whose byte this is; none for the 248 other values (R99). -/
def Command.ofByte (b : Byte) : Option Command :=
  Command.all.find? (fun c => b &&& c.mask == c.code)

/-- The number of data bytes the block reads in the command's format: n of FMT-R(n), 0 in FMT-W (R101). -/
def Command.readCount : Command → Nat
  | .wpRead => 1
  | .wpWrite => 0
  | .tcRead => 1
  | .tcWrite => 0
  | .clockBurstRead => Config.frameLen
  | .clockBurstWrite => 0
  | .ramBurstRead => Config.ramLen
  | .ramBurstWrite => 0

/-- The number of data bytes the block drives after the command byte in its shortest form: n of FMT-W(n); for a RAM burst
write any number up to 31, so 0 (R101). -/
def Command.writeCount : Command → Nat
  | .wpRead => 0
  | .wpWrite => 1
  | .tcRead => 0
  | .tcWrite => 1
  | .clockBurstRead => 0
  | .clockBurstWrite => Config.frameLen + Config.padCount
  | .ramBurstRead => 0
  | .ramBurstWrite => 0

/-! ### Wire images: the bytes the block drives in one transaction -/

/-- The data bytes of a frame in wire order (20_memory.md R61, R67). -/
def Frame.toList (f : Frame) : List Byte :=
  [f.sec, f.min, f.hour, f.day, f.month, f.wday, f.yy]

/-- A format in which the block drives no data byte: FMT-R(n). -/
def decodeNone (c : Command) (i : Instr) : List Byte → Except Reject Instr
  | [] => .ok i
  | d :: ds => .error (.wrongLength c (d :: ds).length)

/-- A format in which the block drives one data byte: FMT-W(1). -/
def decodeOne (c : Command) (f : Byte → Instr) : List Byte → Except Reject Instr
  | [d] => .ok (f d)
  | data => .error (.wrongLength c data.length)

/-- The nine data bytes of a register burst write: FMT-W(9). -/
def decodeNine : List Byte → Except Reject Instr
  | [s, m, h, d, mo, w, y, p, q] => .ok (.cmdClockBurstWrite ⟨s, m, h, d, mo, w, y⟩ p q)
  | data => .error (.wrongLength .clockBurstWrite data.length)

/-- The data bytes of a RAM burst write: FMT-W(n), n ≤ 31. -/
def decodeUpTo31 (data : List Byte) : Except Reject Instr :=
  if data.length ≤ Config.ramLen then .ok (.cmdRamBurstWrite data) else .error (.wrongLength .ramBurstWrite data.length)

/-- The instruction of a command and the data bytes driven after it (R101). -/
def decodeData (c : Command) (data : List Byte) : Except Reject Instr :=
  match c with
  | .wpRead => decodeNone .wpRead .cmdWpRead data
  | .wpWrite => decodeOne .wpWrite .cmdWpWrite data
  | .tcRead => decodeNone .tcRead .cmdTcRead data
  | .tcWrite => decodeOne .tcWrite .cmdTcWrite data
  | .clockBurstRead => decodeNone .clockBurstRead .cmdClockBurstRead data
  | .clockBurstWrite => decodeNine data
  | .ramBurstRead => decodeNone .ramBurstRead .cmdRamBurstRead data
  | .ramBurstWrite => decodeUpTo31 data

/-- Decode the wire image of one transaction: the command byte, then the data bytes the block drives, first byte first. -/
def decode : List Byte → Except Reject Instr
  | [] => .error .empty
  | b :: data =>
    match Command.ofByte b with
    | none => .error (.unknownCommand b)
    | some c => decodeData c data

/-- The wire image of a command row. The other rows have no binary encoding: "The source gives them no numeric operation
code, and this spec does not invent one" (R104). -/
def encode : Instr → Option (List Byte)
  | .cmdWpRead => some [0x8F#8]
  | .cmdWpWrite d => some [0x8E#8, d]
  | .cmdTcRead => some [0x91#8]
  | .cmdTcWrite d => some [0x90#8, d]
  | .cmdClockBurstRead => some [0xBF#8]
  | .cmdClockBurstWrite f p q => some (0xBE#8 :: (f.toList ++ [p, q]))
  | .cmdRamBurstRead => some [0xFF#8]
  | .cmdRamBurstWrite data => some (0xFE#8 :: data)
  | .init => none
  | .readDatetime => none
  | .writeDatetime _ => none
  | .readRam => none
  | .writeRam _ => none
  | .teardown => none
  | .txnBegin => none
  | .txnEnd => none
  | .transaction _ => none
  | .wrByte _ => none
  | .rdByte => none
  | .bcdEnc _ => none
  | .bcdDec _ => none
  | .frameEnc _ => none
  | .frameDec _ => none
  | .yyOfYear _ => none
  | .yearOfYy _ => none

/-- The n low bytes of a number, least significant first. -/
def lowBytes : Nat → Nat → List Byte
  | 0, _ => []
  | n + 1, w => BitVec.ofNat 8 w :: lowBytes n (w / 256)

/-- The number of bytes laid out first byte lowest: how spec/opcode_table.json numbers the bits of an instruction's words. -/
def wordOfBytes : List Byte → Nat
  | [] => 0
  | b :: bs => b.toNat + 256 * wordOfBytes bs

/-- The bytes of a table word of nbits bits, first byte lowest, with the data bytes its command's format adds filled with
zeros (log 6). -/
def tableBytes (nbits w : Nat) : List Byte :=
  match lowBytes (nbits / 8) w with
  | [] => []
  | b :: data =>
    match Command.ofByte b with
    | none => b :: data
    | some c => b :: (data ++ List.replicate (c.writeCount - data.length) 0#8)

/-- The instruction the decoder reads from a table word. -/
def decodeTableWord (nbits w : Nat) : Option Instr :=
  match decode (tableBytes nbits w) with
  | .ok i => some i
  | .error _ => none

/-! ### The line form of R109 (one operation a line; no effect on semantics, D27) -/

/-- The pieces of a line: words of letters, digits and `_`, and the three punctuation marks R109 uses. -/
inductive Token where
  | word (cs : List Char)
  | comma
  | opening
  | closing
  deriving DecidableEq, Repr

/-- A character of a word. -/
def isWordChar (c : Char) : Bool := c.isAlphanum || c == '_'

/-- The word collected so far, newest character first, as a token. -/
def flushWord (acc : List Char) : List Token :=
  match acc with
  | [] => []
  | _ :: _ => [.word acc.reverse]

/-- Split a line into tokens; `;` starts a comment; another character than those of R109 is refused. -/
def lexFrom : List Char → List Char → Option (List Token)
  | acc, [] => some (flushWord acc)
  | acc, c :: cs =>
    if c = ';' then some (flushWord acc)
    else if c = ' ' then (lexFrom [] cs).map (flushWord acc ++ ·)
    else if c = ',' then (lexFrom [] cs).map (flushWord acc ++ [.comma] ++ ·)
    else if c = '[' then (lexFrom [] cs).map (flushWord acc ++ [.opening] ++ ·)
    else if c = ']' then (lexFrom [] cs).map (flushWord acc ++ [.closing] ++ ·)
    else if isWordChar c then lexFrom (c :: acc) cs
    else none

/-- The tokens of a line. -/
def lexLine (cs : List Char) : Option (List Token) := lexFrom [] cs

/-- The value of a decimal digit. -/
def decDigit (c : Char) : Option Nat :=
  if '0' ≤ c ∧ c ≤ '9' then some (c.toNat - 48) else none

/-- The value of a hexadecimal digit, capital or small. -/
def hexDigit (c : Char) : Option Nat :=
  if '0' ≤ c ∧ c ≤ '9' then some (c.toNat - 48)
  else if 'A' ≤ c ∧ c ≤ 'F' then some (c.toNat - 55)
  else if 'a' ≤ c ∧ c ≤ 'f' then some (c.toNat - 87)
  else none

/-- A decimal natural, most significant digit first, with the value read so far. -/
def decFrom : Nat → List Char → Option Nat
  | v, [] => some v
  | v, c :: cs =>
    match decDigit c with
    | none => none
    | some d => decFrom (10 * v + d) cs

/-- A decimal natural of at least one digit ("decimal naturals", R109). -/
def parseNat : List Char → Option Nat
  | [] => none
  | c :: cs => decFrom 0 (c :: cs)

/-- A byte of two hexadecimal digits ("hex bytes", R109). -/
def parseHexByte : List Char → Option Byte
  | [h, l] =>
    match hexDigit h, hexDigit l with
    | some a, some b => some (BitVec.ofNat 8 (16 * a + b))
    | _, _ => none
  | _ => none

/-- The seven comma-separated fields of WRITE_DATETIME, in the order of R110. -/
def parseCalendar : List Token → Option Calendar
  | [.word a, .comma, .word b, .comma, .word c, .comma, .word d, .comma, .word e, .comma, .word f, .comma, .word g] =>
    match parseNat a, parseNat b, parseNat c, parseNat d, parseNat e, parseNat f, parseNat g with
    | some a, some b, some c, some d, some e, some f, some g => some ⟨a, b, c, d, e, f, g⟩
    | _, _, _, _, _, _, _ => none
  | _ => none

/-- The bytes of a RAM block after its first: each preceded by a comma, closed by `]`. -/
def parseMoreBytes : List Token → Option (List Byte)
  | [.closing] => some []
  | .comma :: .word w :: rest =>
    match parseHexByte w, parseMoreBytes rest with
    | some b, some bs => some (b :: bs)
    | _, _ => none
  | _ => none

/-- A RAM block: `[b0, b1, ...]`, of any length n ≥ 0 (R109). -/
def parseBlock : List Token → Option (List Byte)
  | [.opening, .closing] => some []
  | .opening :: .word w :: rest =>
    match parseHexByte w, parseMoreBytes rest with
    | some b, some bs => some (b :: bs)
    | _, _ => none
  | _ => none

/-- The operation names of R109, written out. -/
def kwInit : List Char := ['I', 'N', 'I', 'T']
def kwTeardown : List Char := ['T', 'E', 'A', 'R', 'D', 'O', 'W', 'N']
def kwReadDatetime : List Char := ['R', 'E', 'A', 'D', '_', 'D', 'A', 'T', 'E', 'T', 'I', 'M', 'E']
def kwWriteDatetime : List Char := ['W', 'R', 'I', 'T', 'E', '_', 'D', 'A', 'T', 'E', 'T', 'I', 'M', 'E']
def kwReadRam : List Char := ['R', 'E', 'A', 'D', '_', 'R', 'A', 'M']
def kwWriteRam : List Char := ['W', 'R', 'I', 'T', 'E', '_', 'R', 'A', 'M']
def kwBegin : List Char := ['B', 'E', 'G', 'I', 'N']
def kwEnd : List Char := ['E', 'N', 'D']
def kwWrByte : List Char := ['W', 'R', 'B', 'Y', 'T', 'E']
def kwRdByte : List Char := ['R', 'D', 'B', 'Y', 'T', 'E']

/-- WRBYTE's operand, `0xNN`. -/
def parseWrByte : List Token → Option Byte
  | [.word ('0' :: 'x' :: hex)] => parseHexByte hex
  | _ => none

/-- The operation of a line's tokens. -/
def parseTokens : List Token → Option Instr
  | [.word w] =>
    if w = kwInit then some .init
    else if w = kwTeardown then some .teardown
    else if w = kwReadDatetime then some .readDatetime
    else if w = kwReadRam then some .readRam
    else if w = kwBegin then some .txnBegin
    else if w = kwEnd then some .txnEnd
    else if w = kwRdByte then some .rdByte
    else none
  | .word w :: rest =>
    if w = kwWriteDatetime then (parseCalendar rest).map .writeDatetime
    else if w = kwWriteRam then (parseBlock rest).map .writeRam
    else if w = kwWrByte then (parseWrByte rest).map .wrByte
    else none
  | _ => none

/-- The operation a line of R109 names. -/
def parseLine (cs : List Char) : Except Reject Instr :=
  match (lexLine cs).bind parseTokens with
  | some i => .ok i
  | none => .error .badLine

/-- The character of a hexadecimal digit, capital. -/
def hexChar (n : Nat) : Char := if n < 10 then Char.ofNat (48 + n) else Char.ofNat (55 + n)

/-- The digits of a natural, in front of `acc`; `fuel` bounds their number. -/
def decDigitsFrom : Nat → Nat → List Char → List Char
  | 0, _, acc => acc
  | fuel + 1, n, acc =>
    if n < 10 then hexChar n :: acc else decDigitsFrom fuel (n / 10) (hexChar (n % 10) :: acc)

/-- A natural in decimal. -/
def printNat (n : Nat) : List Char := decDigitsFrom (n + 1) n []

/-- A byte as two hexadecimal digits. -/
def printHexByte (b : Byte) : List Char := [hexChar (b.toNat / 16), hexChar (b.toNat % 16)]

/-- Items with `, ` between them, as R109 writes them. -/
def printSeparated : List (List Char) → List Char
  | [] => []
  | [x] => x
  | x :: y :: rest => x ++ [',', ' '] ++ printSeparated (y :: rest)

/-- The line of an operation that R109 gives a line form; the other rows have none. -/
def printLine : Instr → Option (List Char)
  | .cmdWpRead => none
  | .cmdWpWrite _ => none
  | .cmdTcRead => none
  | .cmdTcWrite _ => none
  | .cmdClockBurstRead => none
  | .cmdClockBurstWrite _ _ _ => none
  | .cmdRamBurstRead => none
  | .cmdRamBurstWrite _ => none
  | .init => some kwInit
  | .readDatetime => some kwReadDatetime
  | .writeDatetime cv =>
    some (kwWriteDatetime ++ [' '] ++
      printSeparated [printNat cv.sec, printNat cv.min, printNat cv.hour, printNat cv.day, printNat cv.month,
        printNat cv.wday, printNat cv.yy])
  | .readRam => some kwReadRam
  | .writeRam block => some (kwWriteRam ++ [' ', '['] ++ printSeparated (block.map printHexByte) ++ [']'])
  | .teardown => some kwTeardown
  | .txnBegin => some kwBegin
  | .txnEnd => some kwEnd
  | .transaction _ => none
  | .wrByte v => some (kwWrByte ++ [' ', '0', 'x'] ++ printHexByte v)
  | .rdByte => some kwRdByte
  | .bcdEnc _ => none
  | .bcdDec _ => none
  | .frameEnc _ => none
  | .frameDec _ => none
  | .yyOfYear _ => none
  | .yearOfYy _ => none

end Sys2Proof
end

