-- ==== Sys2Proof/Machine/State.lean ====
section
/-! DEFINITION. The state: the block's (10_state.md), its configuration, its environment's, and the host's queue. Plain data. -/

namespace Sys2Proof.Machine

/-! ### Pins, pin calls, events -/

/-- The three pins (00_scope.md R7), by role: two roles are never one pin. -/
inductive Pin where
  | clk
  | data
  | rst
  deriving DecidableEq, Repr

/-- A pin's configured direction in the block's shadow (10_state.md R37). -/
inductive PinMode where
  | unconf
  | input
  | output
  | unknown
  deriving DecidableEq, Repr

/-- A pin's level in the block's shadow: 0, 1 or X (R38). -/
inductive Level where
  | low
  | high
  | x
  deriving DecidableEq, Repr

/-- The shadow of one pin. -/
structure PinShadow where
  mode : PinMode
  lvl : Level
  deriving DecidableEq, Repr

/-- The shadow of the three pins (R37, R38). -/
structure Shadow where
  clk : PinShadow
  data : PinShadow
  rst : PinShadow
  deriving DecidableEq, Repr

/-- The direction argument of configureMode. -/
inductive Dir where
  | input
  | output
  deriving DecidableEq, Repr

/-- The pin calls of the consumed capability (00_scope.md R16, 60_exceptions.md R257). `lvl` is absent (`-`) for a CFG to IN. -/
inductive Call where
  | cfg (pins : List Pin) (dir : Dir) (lvl : Option InitLevel)
  | set (pin : Pin) (level : Bool)
  | get (pin : Pin)
  | rel (pins : List Pin)
  deriving DecidableEq, Repr

/-- The capability's response to a pin call: `Ok`, `Ok(level)` for GET, or `Err` (R16). -/
inductive Response where
  | ok
  | level (l : Bool)
  | err
  deriving DecidableEq, Repr

/-- An event of the trace: a pin call with its response, or WAIT(t) (10_state.md R42). -/
inductive Event where
  | call (c : Call) (r : Response)
  | wait (t : Nat)
  deriving DecidableEq, Repr

/-! ### Operations, errors, results -/

/-- The lifecycle (R31). -/
inductive Lifecycle where
  | uninit
  | ready
  | closed
  deriving DecidableEq, Repr

/-- The operation in progress: a host op, a micro-op a harness invoked, or a harness transaction of a command row. -/
inductive Op where
  | init
  | readDatetime
  | writeDatetime
  | readRam
  | writeRam
  | teardown
  | txnBegin
  | txnEnd
  | transaction
  | wrByte
  | rdByte
  | command (c : Command)
  deriving DecidableEq, Repr

/-- The sequencer position (op, j): j is the index of the next event in the operation's event sequence (R35). -/
structure SeqPos where
  op : Op
  j : Nat
  deriving DecidableEq, Repr

/-- The reason of a DecodeError (42_bcd_codec.md R165). -/
inductive DecodeReason where
  | badDigit
  | outOfRange
  deriving DecidableEq, Repr

/-- The errors and what each records (60_exceptions.md R240 to R243). -/
inductive OpError where
  /-- LifecycleError: records (op, lifecycle, init_attempted). -/
  | lifecycle (op : Op) (lc : Lifecycle) (initAttempted : Bool)
  /-- PinAccessError: records the failing event, its index in the trace, and the operation with the event's index in the
  operation's own sequence (log 8). -/
  | pinAccess (event : Call) (traceIndex : Nat) (position : Option SeqPos)
  /-- DecodeError: records (slot k, raw byte, reason); BCD_DEC alone knows no slot (log 19). -/
  | decode (slot : Option Nat) (byte : Byte) (reason : DecodeReason)
  /-- EncodeError: records (slot k, value); BCD_ENC alone knows no slot (log 19). -/
  | encode (slot : Option Nat) (value : Nat)
  deriving DecidableEq, Repr

/-- The value of an `Ok` result (10_state.md R43): none, a calendar value, 31 bytes, or the flag `truncated` (R44). -/
inductive Value where
  | none
  | calendar (cv : Calendar)
  | bytes (bs : List Byte)
  | truncated (t : Bool)
  deriving DecidableEq, Repr

/-- The outcome of a host operation (R43). -/
inductive Result where
  | ok (v : Value)
  | error (e : OpError)
  deriving DecidableEq, Repr

/-- What a micro-op a harness invoked, or a codec function, hands its caller (R105, R106; the MODEL's own, log 7). -/
inductive Returned where
  /-- BEGIN or WRBYTE completed. -/
  | done
  /-- RDBYTE or BCD_ENC: one byte. -/
  | byte (b : Byte)
  /-- TRANSACTION or a command row: the bytes read. -/
  | bytes (bs : List Byte)
  /-- END: "none, or the first failure inside END" (40_transaction_framer.md R121). -/
  | endStatus (e : Option OpError)
  /-- BCD_DEC, YY_OF_YEAR, YEAR_OF_YY: a natural. -/
  | number (n : Nat)
  /-- FRAME_ENC. -/
  | frame (f : Frame)
  /-- FRAME_DEC. -/
  | calendar (cv : Calendar)
  /-- The error it raised. -/
  | error (e : OpError)
  deriving DecidableEq, Repr

/-! ### The environment: not the block's state (R3, R48) -/

/-- The counterpart's storage: (address, byte) cells in one canonical form (Machine/Memory.lean; log 14). -/
abbrev Memory := List Host.Cell

/-- The reference counterpart (20_memory.md R80 to R86): its storage, whether a transaction is open (CE), the command byte
once complete, the index of the next data byte, the bits collected of the current written byte (oldest first), the number of
RDBYTEs begun and of GETs answered in the current one. -/
structure Chip where
  mem : Memory
  ce : Bool
  cmd : Option Byte
  index : Nat
  bits : List Bool
  reads : Nat
  gets : Nat
  deriving DecidableEq, Repr

/-- What is attached to the pins: nothing the model knows (every answer is a draw), the loopback harness with its FIFO, oldest
bit first (R87), or the reference counterpart (R80). -/
inductive Device where
  | absent
  | loopback (fifo : List Bool)
  | counterpart (chip : Chip)
  deriving DecidableEq, Repr

/-- A scripted answer to one pin call: leave it to what is attached, answer `Ok` (with this level for a GET), or `Err`. -/
inductive Answer where
  | defer
  | ok (level : Bool)
  | err
  deriving DecidableEq, Repr

/-- The environment of the pins: the answers scripted for the next pin calls, oldest first, what is attached, and the number
of pin calls answered so far, at which the free values are read (log 1). -/
structure Env where
  plan : List Answer
  device : Device
  draws : Nat
  deriving DecidableEq, Repr

/-! ### The host's queue -/

/-- A pending invocation: an operation by name with its typed operands (30_encoding.md R104, R105), the wire image of a
transaction (R100, R101), or a line of R109. The queue and its three forms are the MODEL's (log 9), and so is that a harness's
invocations come by it too: a micro-op, TRANSACTION, a command row or a codec function in it is a harness's (log 30). -/
inductive Request where
  | call (i : Instr)
  | wire (bytes : List Byte)
  | line (text : List Char)
  deriving DecidableEq, Repr

/-! ### Stops -/

/-- The machine never stops with a fault: every error of the block is a result, and the host may invoke the next operation
(60_exceptions.md R244, R248; 93_implementation_defined.md section 1 "No behaviour of this block is `stuck`"). No constructor,
so no definition raises one (log 24). -/
inductive Fault where
  deriving DecidableEq, Repr

/-- Why a step has no run. Each is safe: the model stops where the spec has no run or no instruction. -/
inductive Refusal where
  /-- Raised by exec's arm of an instruction that has no meaning yet; no arm does. Safe. -/
  | notModelled (mnemonic : String)
  /-- Raised by the step: the configuration repeats a pin; "refused, and the model has no instance for it" (00_scope.md R7). Safe. -/
  | repeatedPins
  /-- Raised by every meaning that issues pin calls, while another operation is in progress: "An overlapping invocation has no
  meaning in the model and is refused" (20_memory.md R71). Safe. -/
  | overlappingInvocation
  /-- Raised by every host op, TRANSACTION and command row, with a transaction open: "refused as nesting" (10_state.md R33). Safe. -/
  | nestedTransaction
  /-- Raised by the step: the invocation names no instruction. Its bytes are no transaction of the command set ("A model of the
  block has no operation that opens a transaction with any other byte", 30_encoding.md R99; 93_implementation_defined.md item 26;
  formats of a fixed length, R101), or its text is no line of R109. Safe. -/
  | undecodable (why : Reject)
  /-- Raised by the step: an operand outside the instruction's domain (WellFormed.lean). Safe. -/
  | illFormed
  deriving DecidableEq, Repr

/-! ### The state -/

/-- The whole state. -/
structure State where
  /-- The configuration (R49): no operation writes it. -/
  cfg : Config
  /-- R31. -/
  lifecycle : Lifecycle
  /-- R32. -/
  initAttempted : Bool
  /-- R33. -/
  txnOpen : Bool
  /-- SR (R34). -/
  sr : Byte
  /-- BC (R34). -/
  bc : Nat
  /-- BUF[0..30] (R36). -/
  buf : List Byte
  /-- The sequencer position; none while the block is idle (R35). -/
  seq : Option SeqPos
  /-- The shadow of the pins (R37, R38). -/
  pins : Shadow
  /-- The trace, oldest event first (R42). -/
  trace : List Event
  /-- The result of the last host operation; none before the first (R43). -/
  result : Option Result
  /-- What the last micro-op or codec call handed its caller (the MODEL's own, log 7). -/
  returned : Option Returned
  /-- The environment of the pins (not the block's). -/
  env : Env
  /-- The pending invocations of the host and of a test harness, oldest first (the MODEL's own, log 9, log 30). -/
  requests : List Request
  /-- The number of data operations begun (the MODEL's own, log 3). -/
  opCount : Nat
  deriving DecidableEq, Repr

/-- A pin the block does not drive and has not configured (10_state.md R37, R38). -/
def PinShadow.released : PinShadow := { mode := .unconf, lvl := .x }

/-- Construction, before INIT (70_reset_and_hazards.md R270 and the table of 10_state.md section 7). SR, BC and BUF, which the
spec leaves unspecified, hold the values of log 2 and log 3 (DESIGN CHOICE). -/
def State.reset : State :=
  { cfg := Config.standard
    lifecycle := .uninit
    initAttempted := false
    txnOpen := false
    sr := 0#8
    bc := 0
    buf := List.replicate Config.ramLen 0#8
    seq := none
    pins := { clk := PinShadow.released, data := PinShadow.released, rst := PinShadow.released }
    trace := []
    result := none
    returned := none
    env := { plan := [], device := .absent, draws := 0 }
    requests := []
    opCount := 0 }

end Sys2Proof.Machine
end

