-- ==== Sys2Proof/Machine/Memory.lean ====
section
/-! DEFINITION. The reference counterpart's storage (20_memory.md R60 to R64, R80): sorted cells in one canonical form. The
block itself has no memory (00_scope.md section 5). -/

namespace Sys2Proof.Machine

/-- The four chip-side regions (20_memory.md R60). -/
inductive Region where
  | clock
  | ram
  | wp
  | tc
  deriving DecidableEq, Repr

/-- The byte slots of a region (R61 to R64). -/
def Region.size : Region → Nat
  | .clock => 9
  | .ram => 31
  | .wp => 1
  | .tc => 1

/-- The address of a region's slot 0; the spec addresses storage by (region, index), the numbering is the model's (DESIGN
CHOICE, log 14). -/
def Region.base : Region → Nat
  | .clock => 0
  | .ram => 9
  | .wp => 40
  | .tc => 41

/-- One past the last address. -/
def Memory.size : Nat := 42

/-- What an address that is not listed holds (DESIGN CHOICE, log 14: a canonical form of full contents, not a reset value). -/
def Memory.unlisted : Byte := 0x00#8

/-- The byte at an address. -/
def Memory.read : Memory → Nat → Byte
  | [], _ => Memory.unlisted
  | (b, w) :: m, a => if a = b then w else Memory.read m a

/-- Put a cell where it belongs; a cell equal to what an unlisted address holds is not listed. -/
def Memory.write : Memory → Nat → Byte → Memory
  | [], a, v => if v = Memory.unlisted then [] else [(a, v)]
  | (b, w) :: m, a, v =>
    if a < b then (if v = Memory.unlisted then (b, w) :: m else (a, v) :: (b, w) :: m)
    else if a = b then (if v = Memory.unlisted then m else (a, v) :: m)
    else (b, w) :: Memory.write m a v

/-- Every address is above `lo` and below the size, the addresses rise, and no cell equals what is unlisted. -/
def Memory.wfAbove : Nat → Memory → Bool
  | _, [] => true
  | lo, (a, v) :: m => decide (lo ≤ a) && decide (a < Memory.size) && (v != Memory.unlisted) && Memory.wfAbove (a + 1) m

/-- The canonical form. -/
def Memory.wf (m : Memory) : Bool := Memory.wfAbove 0 m

/-- MemRead((region, index), 1) (00_scope.md section 5). -/
def Memory.readSlot (m : Memory) (r : Region) (k : Nat) : Byte := Memory.read m (r.base + k)

/-- MemWrite((region, index), 1, v), for an index of the region; an index beyond it changes nothing. -/
def Memory.writeSlot (m : Memory) (r : Region) (k : Nat) (v : Byte) : Memory :=
  if k < r.size then Memory.write m (r.base + k) v else m

end Sys2Proof.Machine
end

