-- ==== Sys2Proof/Machine/Operands.lean ====
section
/-! DEFINITION. Operand forms: the bits of a byte, the shift register's moves, BUF's cells, the fields of a frame. -/

namespace Sys2Proof.Machine

/-- `b[i]`: bit i of a byte, bit 0 the least significant (00_scope.md R14). -/
def bitAt (b : Byte) (i : Nat) : Bool := b.getLsbD i

/-- The bits of a byte in the order they travel, least significant first (20_memory.md R66). -/
def byteBits (b : Byte) : List Bool :=
  [bitAt b 0, bitAt b 1, bitAt b 2, bitAt b 3, bitAt b 4, bitAt b 5, bitAt b 6, bitAt b 7]

/-- The byte of bits given least significant first. -/
def byteOfBits : List Bool → Byte
  | [] => 0#8
  | b :: bs => (byteOfBits bs <<< 1) ||| BitVec.setWidth 8 (BitVec.ofBool b)

/-- "SR <- SR >> 1" (41_bit_transport.md R140). -/
def shiftOut (sr : Byte) : Byte := sr >>> 1

/-- "SR <- SR | (zext_8(b) << i)" (R141). -/
def orBit (sr : Byte) (b : Bool) (i : Nat) : Byte := sr ||| (BitVec.setWidth 8 (BitVec.ofBool b) <<< i)

/-- b[7:4] as a number: the tens digit (30_encoding.md R103). -/
def highNibble (b : Byte) : Nat := (b.extractLsb' 4 4).toNat

/-- b[3:0] as a number: the units digit (R103). -/
def lowNibble (b : Byte) : Nat := (b.extractLsb' 0 4).toNat

/-- BUF[k] (10_state.md R36). -/
def bufCell (buf : List Byte) (k : Nat) : Byte := buf.getD k 0#8

/-- BUF[k], BUF[k+1], ... <- the bytes, in order. -/
def storeFrom : Nat → List Byte → List Byte → List Byte
  | _, [], buf => buf
  | k, v :: vs, buf => storeFrom (k + 1) vs (buf.set k v)

/-- BUF[0..6] as a frame in wire order (43_register_codec.md R190). -/
def frameOfBuf (buf : List Byte) : Frame :=
  { sec := bufCell buf 0, min := bufCell buf 1, hour := bufCell buf 2, day := bufCell buf 3, month := bufCell buf 4,
    wday := bufCell buf 5, yy := bufCell buf 6 }

/-- BUF at the start of the n-th data operation: "unspecified (X) ... at the start of every host operation" (R36), so each
cell is a free value (log 3). -/
def unspecifiedBuf (n : Nat) : List Byte := (List.range Config.ramLen).map (Config.freeBufCell n)

/-- The pins a call names (60_exceptions.md R257). -/
def Call.pins : Call → List Pin
  | .cfg pins _ _ => pins
  | .set p _ => [p]
  | .get p => [p]
  | .rel pins => pins

/-- An `Ok` response to a call: a GET's carries the level (00_scope.md R16). -/
def Call.okWith (c : Call) (level : Bool) : Response :=
  match c with
  | .get _ => .level level
  | .cfg _ _ _ => .ok
  | .set _ _ => .ok
  | .rel _ => .ok

end Sys2Proof.Machine
end

