-- ==== Sys2Proof/Machine/Counterpart.lean ====
section
/-! DEFINITION. The test environments of 20_memory.md section 6: the reference counterpart (R80 to R86) and the loopback
harness (R87). "A model of the block must not build any of these rules into the block": the block's meanings never read them,
they only answer its pin calls. -/

namespace Sys2Proof.Machine

/-- "`protected` is true when WP ≠ 0x00" (R84). -/
def Chip.isProtected (c : Chip) : Bool := c.mem.readSlot .wp 0 != 0x00#8

/-- The response byte R(k) of an RDBYTE; none where it is a draw (R82). -/
def Chip.responseByte (c : Chip) (k : Nat) : Option Byte :=
  match c.cmd.bind Command.ofByte with
  | some .clockBurstRead => if k ≤ 8 then some (c.mem.readSlot .clock k) else none
  | some .ramBurstRead => if k ≤ 30 then some (c.mem.readSlot .ram k) else none
  | some .wpRead => if k = 0 then some (c.mem.readSlot .wp 0) else none
  | some .tcRead => if k = 0 then some (c.mem.readSlot .tc 0) else none
  | some .wpWrite => none
  | some .tcWrite => none
  | some .clockBurstWrite => none
  | some .ramBurstWrite => none
  | none => none

/-- The level the counterpart answers its next GET with: "GET number i (i = 0..7) of that RDBYTE returns R(k)[i]" (R82); none
where it is a draw. -/
def Chip.line (c : Chip) : Option Bool :=
  match c.ce, c.reads with
  | true, k + 1 => if c.gets < 8 then (c.responseByte k).map (fun b => bitAt b c.gets) else none
  | true, 0 => none
  | false, _ => none

/-- Data byte k with value v after command byte cmd (R83). -/
def Chip.apply (c : Chip) (cmd : Byte) (k : Nat) (v : Byte) : Chip :=
  match Command.ofByte cmd with
  | some .clockBurstWrite =>
    if k ≤ 6 ∧ c.isProtected = false then { c with mem := c.mem.writeSlot .clock k v } else c
  | some .ramBurstWrite =>
    if k ≤ 30 ∧ c.isProtected = false then { c with mem := c.mem.writeSlot .ram k v } else c
  | some .wpWrite => if k = 0 then { c with mem := c.mem.writeSlot .wp 0 v } else c
  | some .tcWrite => if k = 0 ∧ c.isProtected = false then { c with mem := c.mem.writeSlot .tc 0 v } else c
  | some .wpRead => c
  | some .tcRead => c
  | some .clockBurstRead => c
  | some .ramBurstRead => c
  | none => c

/-- One written bit at a rising edge; the byte is applied at its 8th (R81, R85), and the first byte is the command. -/
def Chip.shiftIn (c : Chip) (b : Bool) : Chip :=
  if c.bits.length < 7 then { c with bits := c.bits ++ [b] }
  else
    match c.cmd with
    | none => { c with cmd := some (byteOfBits (c.bits ++ [b])), bits := [] }
    | some cmd => { (c.apply cmd c.index (byteOfBits (c.bits ++ [b]))) with index := c.index + 1, bits := [] }

/-- A whole written byte: what its 8 bits do when none was collected before (R81, R83). -/
def Chip.byteIn (c : Chip) (v : Byte) : Chip :=
  match c.cmd with
  | none => { c with cmd := some v }
  | some cmd => { (c.apply cmd c.index v) with index := c.index + 1 }

/-- Bits written one after another. -/
def Chip.feed (c : Chip) (bits : List Bool) : Chip := bits.foldl Chip.shiftIn c

/-- A transaction opens: "A new transaction starts with the command byte again, since a failed state must be reset via a fresh
transaction, not resumed" (R85). -/
def Chip.openTxn (c : Chip) : Chip :=
  { c with ce := true, cmd := none, index := 0, bits := [], reads := 0, gets := 0 }

/-- CE drops: "the bits collected for the byte are discarded. Bytes applied earlier ... stay applied" (R85). -/
def Chip.closeTxn (c : Chip) : Chip :=
  { c with ce := false, cmd := none, index := 0, bits := [], reads := 0, gets := 0 }

/-- The level at a rising edge, a draw where the shadow does not know it. -/
def Level.sample (l : Level) (free : Bool) : Bool :=
  match l with
  | .low => false
  | .high => true
  | .x => free

/-- What a pin call answered `Ok` does to the counterpart; `sh` is the shadow before the call (R81, R82; log 13). A SET of CE to 1
opens a fresh transaction, also where an END that failed has left one open: "Nothing resumes the failed one"
(70_reset_and_hazards.md R287). -/
def Chip.react (c : Chip) (sh : Shadow) (free : Bool) : Call → Chip
  | .set .rst true => c.openTxn
  | .set .rst false => c.closeTxn
  | .set .clk true =>
    if c.ce = true ∧ sh.clk.lvl = .low ∧ sh.data.mode = .output then c.shiftIn (sh.data.lvl.sample free) else c
  | .set .clk false => c
  | .set .data _ => c
  | .cfg pins .input _ => if .data ∈ pins then { c with reads := c.reads + 1, gets := 0 } else c
  | .cfg _ .output _ => c
  | .get .data => { c with gets := c.gets + 1 }
  | .get .clk => c
  | .get .rst => c
  | .rel _ => c

/-- The loopback FIFO at a call answered `Ok`: a SET of PIN_DATA while it is an output appends its level, a GET removes the
oldest bit (R87). -/
def fifoReact (fifo : List Bool) (sh : Shadow) : Call → List Bool
  | .set .data b => if sh.data.mode = .output then fifo ++ [b] else fifo
  | .set .clk _ => fifo
  | .set .rst _ => fifo
  | .get .data => fifo.tail
  | .get .clk => fifo
  | .get .rst => fifo
  | .cfg _ _ _ => fifo
  | .rel _ => fifo

/-- What an `Ok` call does to what is attached. -/
def Device.react (d : Device) (sh : Shadow) (free : Bool) (c : Call) : Device :=
  match d with
  | .absent => .absent
  | .loopback fifo => .loopback (fifoReact fifo sh c)
  | .counterpart chip => .counterpart (chip.react sh free c)

/-- The level a GET of PIN_DATA finds; none where it is a draw. -/
def Device.line : Device → Option Bool
  | .absent => none
  | .loopback fifo => fifo.head?
  | .counterpart chip => chip.line

/-- The level of a GET of pin p. -/
def Device.levelOf (d : Device) (draw : Nat) : Call → Bool
  | .get .data => d.line.getD (Config.freeLevel draw)
  | .get .clk => Config.freeLevel draw
  | .get .rst => Config.freeLevel draw
  | .set _ _ => false
  | .cfg _ _ _ => false
  | .rel _ => false

/-- The answer of what is attached: a harness or the counterpart answers every call `Ok` (R87, R88), an unknown capability
answers by a draw (00_scope.md R16; log 1). -/
def Device.answer (d : Device) (draw : Nat) (c : Call) : Response :=
  match d with
  | .absent => if Config.freeFails draw then .err else c.okWith (d.levelOf draw c)
  | .loopback _ => c.okWith (d.levelOf draw c)
  | .counterpart _ => c.okWith (d.levelOf draw c)

/-- The response to the next pin call: as scripted, else as what is attached answers (20_memory.md R88). -/
def Env.answer (e : Env) (c : Call) : Response :=
  match e.plan with
  | [] => e.device.answer e.draws c
  | .defer :: _ => e.device.answer e.draws c
  | .ok l :: _ => c.okWith l
  | .err :: _ => .err

/-- The environment after a pin call with that response, `sh` the shadow before it: a call answered `Err` reaches nothing that
is attached (log 12, 13). -/
def Env.after (e : Env) (sh : Shadow) (c : Call) (r : Response) : Env :=
  { plan := e.plan.tail
    device := if r = .err then e.device else e.device.react sh (Config.freeLevel e.draws) c
    draws := e.draws + 1 }

/-- The storage attached, for claims about memory: the counterpart's cells, or no cell. -/
def Env.storage (e : Env) : Memory :=
  match e.device with
  | .absent => []
  | .loopback _ => []
  | .counterpart chip => chip.mem

end Sys2Proof.Machine
end

