-- ==== Sys2Proof/Machine/Flags.lean ====
section
/-! DEFINITION. The Boolean state and the checks on it. "The block has no condition codes and no arithmetic flags. Its Boolean
state is init_attempted, txn_open and the per-result flag truncated" (10_state.md R50). -/

namespace Sys2Proof.Machine

/-- `truncated`: "true exactly when the supplied block is longer than 31 bytes" (R44). -/
def truncatedFlag (len : Nat) : Bool := decide (Config.ramLen < len)

/-- The code of an error kind (60_exceptions.md R247). -/
def OpError.code : OpError → Nat
  | .lifecycle _ _ _ => 1
  | .pinAccess _ _ _ => 2
  | .decode _ _ _ => 3
  | .encode _ _ => 4

/-- The code of a result: 0 for `Ok` (R247). -/
def Result.code : Result → Nat
  | .ok _ => 0
  | .error e => e.code

/-- "The data operations ... are permitted only in READY" (R31, 43_register_codec.md R194). -/
def Lifecycle.permitsData : Lifecycle → Bool
  | .uninit => false
  | .ready => true
  | .closed => false

/-- INIT's guard: "st.lifecycle = UNINIT and st.init_attempted = false" (44_lifecycle.md R220, 10_state.md R32). -/
def State.permitsInit (s : State) : Bool := decide (s.lifecycle = .uninit) && !s.initAttempted

/-- Why an operation that issues pin calls has no run: another one is in progress (20_memory.md R71). -/
def State.overlapRefusal (s : State) : Option Refusal :=
  match s.seq with
  | some _ => some .overlappingInvocation
  | none => none

/-- Why a host operation or a transaction has no run: the above, or "A start with txn_open = true is refused as nesting"
(10_state.md R33; log 10). -/
def State.startRefusal (s : State) : Option Refusal :=
  match s.seq with
  | some _ => some .overlappingInvocation
  | none => if s.txnOpen then some .nestedTransaction else none

end Sys2Proof.Machine
end

