-- ==== Sys2Proof/Machine/Ops.lean ====
section
/-! DEFINITION. The shared operations: the pin shadow, `call` and `wait` (00_scope.md R16, R17), raising an error and returning
from an operation (60_exceptions.md R244, R248), and how an operation starts. -/

namespace Sys2Proof.Machine

/-! ### The shadow (10_state.md R37 to R41) -/

/-- The level a CFG to OUT leaves in the shadow: "lvl[p] <- X when l is ANY" (R40). -/
def levelOfInit : Option InitLevel → Level
  | some .low => .low
  | some .high => .high
  | some .any => .x
  | none => .x

/-- The level of a SET. -/
def Level.ofBool (b : Bool) : Level := if b then .high else .low

/-- The shadow of one pin. -/
def Shadow.at (sh : Shadow) : Pin → PinShadow
  | .clk => sh.clk
  | .data => sh.data
  | .rst => sh.rst

/-- Replace the shadow of one pin. -/
def Shadow.put (sh : Shadow) (p : Pin) (v : PinShadow) : Shadow :=
  match p with
  | .clk => { sh with clk := v }
  | .data => { sh with data := v }
  | .rst => { sh with rst := v }

/-- Replace the shadow of every pin of a list. -/
def Shadow.putAll (sh : Shadow) (v : PinShadow) : List Pin → Shadow
  | [] => sh
  | p :: ps => (sh.put p v).putAll v ps

/-- A pin call answered `Ok` (R40). A SET on a pin whose mode is not OUT changes nothing (UNKNOWN: R40; UNCONF or IN, which only
a harness can reach: log 11). -/
def Shadow.onOk (sh : Shadow) : Call → Shadow
  | .cfg pins .output l => sh.putAll { mode := .output, lvl := levelOfInit l } pins
  | .cfg pins .input _ => sh.putAll { mode := .input, lvl := .x } pins
  | .set p l => if (sh.at p).mode = .output then sh.put p { mode := .output, lvl := Level.ofBool l } else sh
  | .get _ => sh
  | .rel pins => sh.putAll { mode := .unconf, lvl := .x } pins

/-- A pin call answered `Err`: every pin it names becomes UNKNOWN with level X (R41). -/
def Shadow.onErr (sh : Shadow) (c : Call) : Shadow := sh.putAll { mode := .unknown, lvl := .x } c.pins

/-- The shadow after a pin call with its response. -/
def Shadow.after (sh : Shadow) (c : Call) (r : Response) : Shadow :=
  if r = .err then sh.onErr c else sh.onOk c

/-! ### Events -/

/-- The sequencer moves to the next event: "j starts at 0 and goes up by one per event" (R35). -/
def SeqPos.next (p : SeqPos) : SeqPos := { p with j := p.j + 1 }

/-- Append an event to the trace and move the sequencer on (R42, R35). -/
def State.record (s : State) (e : Event) : State :=
  { s with trace := s.trace ++ [e], seq := s.seq.map SeqPos.next }

/-- `wait(T_SETTLE)`: the event WAIT(T_SETTLE); it cannot fail (00_scope.md R17, 41_bit_transport.md R143). -/
def State.settle (s : State) : State := s.record (.wait s.cfg.tSettle)

/-- The outcome of a part of an operation: a value, or the error raised, and the state reached: raising "undoes nothing already
done" (60_exceptions.md R244). -/
inductive Attempt (α : Type) where
  | done (a : α) (s : State)
  | failed (e : OpError) (s : State)

/-- Go on after a part that was done; an error ends the whole (R244). -/
def Attempt.andThen {α β : Type} (x : Attempt α) (f : α → State → Attempt β) : Attempt β :=
  match x with
  | .done a s => f a s
  | .failed e s => .failed e s

/-- The state an attempt reached. -/
def Attempt.state {α : Type} : Attempt α → State
  | .done _ s => s
  | .failed _ s => s

/-- The error an attempt raised. -/
def Attempt.error? {α : Type} : Attempt α → Option OpError
  | .done _ _ => none
  | .failed e _ => some e

/-- The state after a pin call and its response: the trace event, the shadow, the environment. -/
def State.afterCall (s : State) (c : Call) (r : Response) : State :=
  { (s.record (.call c r)) with pins := s.pins.after c r, env := s.env.after s.pins c r }

/-- `call E` (00_scope.md R16): append the event, obtain the response, on `Err` raise PinAccessError recording the event, its
index in the trace and the operation's position (R241; log 8); the value is the level of a GET. -/
def pinCall (c : Call) (s : State) : Attempt Bool :=
  match s.env.answer c with
  | .err => .failed (.pinAccess c s.trace.length s.seq) (s.afterCall c .err)
  | .ok => .done false (s.afterCall c .ok)
  | .level l => .done l (s.afterCall c (.level l))

/-- `call E` where the level is not used. -/
def callThen {β : Type} (c : Call) (s : State) (f : State → Attempt β) : Attempt β :=
  (pinCall c s).andThen fun _ t => f t

/-! ### Raising and returning (60_exceptions.md R244, R248) -/

/-- `raise Err(info)` at the end of a host operation: "sets st.result <- Error(Err, info) and returns to the caller. It undoes
nothing already done" (R244); the block is idle again (10_state.md R35). -/
def State.raise (s : State) (e : OpError) : State :=
  { s with result := some (.error e), seq := none }

/-- A host operation returns `Ok(v)` (10_state.md R43). "The 'return from trap' is simply the next host operation the caller
invokes" (R248), so nothing else is restored. -/
def State.complete (s : State) (v : Value) : State :=
  { s with result := some (.ok v), seq := none }

/-- A micro-op hands its value or its error to the harness; `result` is a host operation's alone (R43; log 7). -/
def State.handBack (s : State) (r : Returned) : State :=
  { s with returned := some r, seq := none }

/-- The end of a host operation. -/
def finishHost : Attempt Value → State
  | .done v s => s.complete v
  | .failed e s => s.raise e

/-- The end of a micro-op invoked by a harness. -/
def finishHarness : Attempt Returned → State
  | .done r s => s.handBack r
  | .failed e s => s.handBack (.error e)

/-! ### Starting an operation -/

/-- The sequencer at the first event of an operation (10_state.md R35). -/
def State.startOp (s : State) (op : Op) : State := { s with seq := some { op := op, j := 0 } }

/-- A host operation: refused with another in progress or a transaction open (20_memory.md R71, 10_state.md R33), else run from
its first event to its result. -/
def hostOp (op : Op) (run : State → Attempt Value) (s : State) : Host.Outcome State Fault Refusal :=
  match s.startRefusal with
  | some r => .refused r
  | none => .next (finishHost (run (s.startOp op)))

/-- A transaction a harness invokes: the same start (40_transaction_framer.md R122 "require st.txn_open = false else refuse"). -/
def harnessTransaction (op : Op) (run : State → Attempt Returned) (s : State) : Host.Outcome State Fault Refusal :=
  match s.startRefusal with
  | some r => .refused r
  | none => .next (finishHarness (run (s.startOp op)))

/-- A micro-op a harness invokes: "does no lifecycle check" (30_encoding.md R105), and reads no txn_open (log 25). -/
def microOp (op : Op) (run : State → Attempt Returned) (s : State) : Host.Outcome State Fault Refusal :=
  match s.overlapRefusal with
  | some r => .refused r
  | none => .next (finishHarness (run (s.startOp op)))

/-- A codec function: "Each writes no state and issues no pin call" (R106); its value goes to the caller (log 7). -/
def codecCall (r : Returned) (s : State) : Host.Outcome State Fault Refusal :=
  .next { s with returned := some r }

/-- The LifecycleError of an operation: records (op, lifecycle, init_attempted) (60_exceptions.md R240). -/
def State.lifecycleError (s : State) (op : Op) : OpError := .lifecycle op s.lifecycle s.initAttempted

/-- The lifecycle gate of a data operation, before any other step (43_register_codec.md R194). -/
def dataGate (op : Op) (run : State → Attempt Value) (s : State) : Attempt Value :=
  if s.lifecycle.permitsData then run s else .failed (s.lifecycleError op) s

/-- BUF's cells are unspecified at the start of a data operation (10_state.md R36; log 3). -/
def State.beginBuf (s : State) : State :=
  { s with buf := unspecifiedBuf s.opCount, opCount := s.opCount + 1 }

end Sys2Proof.Machine
end

