-- ==== Sys2Proof/Machine/Transport.lean ====
section
/-! DEFINITION. The Bit-Level Transport: WRBYTE and RDBYTE (41_bit_transport.md R140, R141). -/

namespace Sys2Proof.Machine

/-- "SR <- v ; BC <- 0". -/
def State.loadSr (s : State) (v : Byte) : State := { s with sr := v, bc := 0 }

/-- "SR <- SR >> 1". -/
def State.shiftSr (s : State) : State := { s with sr := shiftOut s.sr }

/-- "SR <- SR | (zext_8(b) << i)". -/
def State.orSr (s : State) (b : Bool) (i : Nat) : State := { s with sr := orBit s.sr b i }

/-- "BC <- BC + 1". -/
def State.countBit (s : State) : State := { s with bc := s.bc + 1 }

/-- One cell of a write byte: clock low, wait, data level SR[0], shift, clock high, wait, count (R140). -/
def writeCell (s : State) : Attempt Unit :=
  callThen (.set .clk false) s fun s =>
  callThen (.set .data (bitAt s.settle.sr 0)) s.settle fun s =>
  callThen (.set .clk true) s.shiftSr fun s =>
  .done () s.settle.countBit

/-- n cells of a write byte. -/
def writeCells : Nat → State → Attempt Unit
  | 0, s => .done () s
  | n + 1, s => (writeCell s).andThen fun _ t => writeCells n t

/-- WRBYTE(v) (R140). -/
def writeByte (v : Byte) (s : State) : Attempt Unit :=
  callThen (.cfg [.data] .output (some s.cfg.dataOutInit)) s fun s => writeCells 8 (s.loadSr v)

/-- Cell i of a read byte: clock high, wait, clock low, wait, sample into SR[i], count (R141; the sample comes after the second
wait, D4). -/
def readCell (i : Nat) (s : State) : Attempt Unit :=
  callThen (.set .clk true) s fun s =>
  callThen (.set .clk false) s.settle fun s =>
  (pinCall (.get .data) s.settle).andThen fun b s =>
  .done () (s.orSr b i).countBit

/-- n cells of a read byte, from cell i. -/
def readCells : Nat → Nat → State → Attempt Unit
  | 0, _, s => .done () s
  | n + 1, i, s => (readCell i s).andThen fun _ t => readCells n (i + 1) t

/-- RDBYTE (R141). -/
def readByte (s : State) : Attempt Byte :=
  callThen (.cfg [.data] .input none) s fun s =>
  (readCells 8 0 (s.loadSr 0x00#8)).andThen fun _ t => .done t.sr t

/-- WRBYTE invoked by a harness (R105, R140). -/
def execWrByte (v : Byte) (s : State) : Host.Outcome State Fault Refusal :=
  microOp .wrByte (fun s => (writeByte v s).andThen fun _ t => .done .done t) s

/-- RDBYTE invoked by a harness (R105, R141). -/
def execRdByte (s : State) : Host.Outcome State Fault Refusal :=
  microOp .rdByte (fun s => (readByte s).andThen fun b t => .done (.byte b) t) s

end Sys2Proof.Machine
end

