-- ==== Sys2Proof/Machine/Framer.lean ====
section
/-! DEFINITION. The Transaction Framer: BEGIN, END and the scoped transaction (40_transaction_framer.md R120 to R122). -/

namespace Sys2Proof.Machine

/-- BEGIN (R120): clock low, then CE high; no wait. -/
def beginTxn (s : State) : Attempt Unit :=
  callThen (.set .clk false) s fun s =>
  callThen (.set .rst true) s fun s =>
  .done () s

/-- One call of END: "try: call ev; catch PinAccessError e: if first = none then first <- e" (R121). -/
def tryCall (c : Call) (first : Option OpError) (s : State) : Option OpError × State :=
  match pinCall c s with
  | .done _ t => (first, t)
  | .failed e t => (first.orElse fun _ => some e, t)

/-- The three calls of END, in order (R121). -/
def endCalls : List Call := [.cfg [.data] .input none, .set .clk false, .set .rst false]

/-- Issue calls one after another whatever fails; the first failure. -/
def tryCalls : List Call → Option OpError → State → Option OpError × State
  | [], first, s => (first, s)
  | c :: cs, first, s => tryCalls cs (tryCall c first s).1 (tryCall c first s).2

/-- END (R121): release the data pin, clock low, CE low; a failed call does not stop the later ones; "none, or the first
failure inside END". -/
def endTxn (s : State) : Option OpError × State := tryCalls endCalls none s

/-- "BUF[k] <- b", where the operation keeps what it reads. -/
def State.keepByte (s : State) (toBuf : Bool) (k : Nat) (b : Byte) : State :=
  if toBuf then { s with buf := s.buf.set k b } else s

/-- The bytes of a transaction's body in order, and the bytes read. With `toBuf`, the byte read by the k-th RDBYTE is also
stored: "BUF[k] <- RDBYTE()" (43_register_codec.md R190, R192; 20_memory.md R67). -/
def runBody (toBuf : Bool) : Nat → List ByteOp → State → Attempt (List Byte)
  | _, [], s => .done [] s
  | k, .wr v :: ops, s => (writeByte v s).andThen fun _ t => runBody toBuf k ops t
  | k, .rd :: ops, s =>
    (readByte s).andThen fun b t =>
    (runBody toBuf (k + 1) ops (t.keepByte toBuf k b)).andThen fun bs u =>
    .done (b :: bs) u

/-- "st.txn_open <- true". -/
def State.openTxn (s : State) : State := { s with txnOpen := true }

/-- "st.txn_open <- false". -/
def State.closeTxn (s : State) : State := { s with txnOpen := false }

/-- The position of END's first event in a transaction of m bytes that starts at this position: 2 events of BEGIN and 41 of
each byte before it (30_encoding.md R102). -/
def SeqPos.endOf (p : SeqPos) (m : Nat) : SeqPos := { p with j := p.j + (2 + 41 * m) }

/-- "An error moves it to the first event of END" (10_state.md R35; log 22): the sequencer of `s`, for a transaction of m bytes
that started at `start`. -/
def State.seekEnd (s : State) (start : Option SeqPos) (m : Nat) : State :=
  { s with seq := start.map (fun p => p.endOf m) }

/-- TRANSACTION(body) (R122), less the nesting check, which the operations that open one make at their start: END runs after
BEGIN and the body, and after a failure in either; the first failure is raised (60_exceptions.md R245, R249). -/
def runTransaction (toBuf : Bool) (body : List ByteOp) (s : State) : Attempt (List Byte) :=
  match (beginTxn s.openTxn).andThen fun _ t => runBody toBuf 0 body t with
  | .done v t =>
    match (endTxn t).1 with
    | none => .done v (endTxn t).2.closeTxn
    | some e => .failed e (endTxn t).2.closeTxn
  | .failed e t => .failed e (endTxn (t.seekEnd s.seq body.length)).2.closeTxn

/-- BEGIN invoked by a harness (R105, R120). -/
def execTxnBegin (s : State) : Host.Outcome State Fault Refusal :=
  microOp .txnBegin (fun s => (beginTxn s).andThen fun _ t => .done .done t) s

/-- END invoked by a harness (R105, R121): "END itself raises nothing. It returns its first failure". -/
def execTxnEnd (s : State) : Host.Outcome State Fault Refusal :=
  microOp .txnEnd (fun s => .done (.endStatus (endTxn s).1) (endTxn s).2) s

/-- TRANSACTION(body) invoked by a harness (R122): "the bytes read, if any". Which bodies a harness may give is the model's choice:
any list, empty, with RDBYTE first, with mixed directions, or with a first byte outside R98 (log 29). -/
def execTransaction (body : List ByteOp) (s : State) : Host.Outcome State Fault Refusal :=
  harnessTransaction .transaction (fun s => (runTransaction false body s).andThen fun bs t => .done (.bytes bs) t) s

end Sys2Proof.Machine
end

