-- ==== Sys2Proof/Machine/Command.lean ====
section
/-! DEFINITION. The command rows (30_encoding.md R90 to R97): each is the transaction of its format (R100, R101), as a test
harness builds it from the micro-ops (R99, R105; log 5). -/

namespace Sys2Proof.Machine

/-- FMT-R(n): "BEGIN, WRBYTE(cmd), then n × RDBYTE, then END" (R101). -/
def readFormat (c : Command) : List ByteOp := .wr c.code :: List.replicate c.readCount .rd

/-- FMT-W(n): "BEGIN, WRBYTE(cmd), then WRBYTE(d0), ..., WRBYTE(d(n-1)), then END" (R101). -/
def writeFormat (c : Command) (data : List Byte) : List ByteOp := .wr c.code :: data.map .wr

/-- A command's transaction; it hands back the bytes read. -/
def commandTransaction (c : Command) (body : List ByteOp) (s : State) : Host.Outcome State Fault Refusal :=
  harnessTransaction (.command c) (fun s => (runTransaction false body s).andThen fun bs t => .done (.bytes bs) t) s

/-- 0x8F, FMT-R(1) (R90). -/
def execCmdWpRead (s : State) : Host.Outcome State Fault Refusal :=
  commandTransaction .wpRead (readFormat .wpRead) s

/-- 0x8E, FMT-W(1) (R91). -/
def execCmdWpWrite (d : Byte) (s : State) : Host.Outcome State Fault Refusal :=
  commandTransaction .wpWrite (writeFormat .wpWrite [d]) s

/-- 0x91, FMT-R(1) (R92). -/
def execCmdTcRead (s : State) : Host.Outcome State Fault Refusal :=
  commandTransaction .tcRead (readFormat .tcRead) s

/-- 0x90, FMT-W(1) (R93). -/
def execCmdTcWrite (d : Byte) (s : State) : Host.Outcome State Fault Refusal :=
  commandTransaction .tcWrite (writeFormat .tcWrite [d]) s

/-- 0xBF, FMT-R(7) (R94). -/
def execCmdClockBurstRead (s : State) : Host.Outcome State Fault Refusal :=
  commandTransaction .clockBurstRead (readFormat .clockBurstRead) s

/-- 0xBE, FMT-W(9): "the 7 frame bytes, then PAD_BYTE twice" (R95), the padding bytes as the harness gives them. -/
def execCmdClockBurstWrite (f : Frame) (pad1 pad2 : Byte) (s : State) : Host.Outcome State Fault Refusal :=
  commandTransaction .clockBurstWrite (writeFormat .clockBurstWrite (f.toList ++ [pad1, pad2])) s

/-- 0xFF, FMT-R(31) (R96). -/
def execCmdRamBurstRead (s : State) : Host.Outcome State Fault Refusal :=
  commandTransaction .ramBurstRead (readFormat .ramBurstRead) s

/-- 0xFE, FMT-W(n) (R97). -/
def execCmdRamBurstWrite (data : List Byte) (s : State) : Host.Outcome State Fault Refusal :=
  commandTransaction .ramBurstWrite (writeFormat .ramBurstWrite data) s

end Sys2Proof.Machine
end

