-- ==== Sys2Proof/Machine/LifecycleOps.lean ====
section
/-! DEFINITION. The lifecycle operations INIT and TEARDOWN (44_lifecycle.md R220, R221). -/

namespace Sys2Proof.Machine

/-- "st.init_attempted <- true" (10_state.md R32). -/
def State.markInit (s : State) : State := { s with initAttempted := true }

/-- "st.lifecycle <- READY". -/
def State.becomeReady (s : State) : State := { s with lifecycle := .ready }

/-- "st.lifecycle <- CLOSED". -/
def State.becomeClosed (s : State) : State := { s with lifecycle := .closed }

/-- INIT past its guard (R220): clock and CE as outputs at 0, then the transaction 8E 00, then 90 00. -/
def runInitSequence (s : State) : Attempt Value :=
  callThen (.cfg [.clk, .rst] .output (some .low)) s.markInit fun s =>
  (runTransaction false (writeFormat .wpWrite [0x00#8]) s).andThen fun _ s =>
  (runTransaction false (writeFormat .tcWrite [0x00#8]) s).andThen fun _ s =>
  .done .none s.becomeReady

/-- INIT (R220): "require st.lifecycle = UNINIT and st.init_attempted = false else raise LifecycleError". -/
def runInit (s : State) : Attempt Value :=
  if s.permitsInit then runInitSequence s else .failed (s.lifecycleError .init) s

/-- TEARDOWN (R221): CLOSED first, then one REL of the three pins; nothing when already CLOSED. -/
def runTeardown (s : State) : Attempt Value :=
  if s.lifecycle = .closed then .done .none s
  else callThen (.rel [.clk, .data, .rst]) s.becomeClosed fun s => .done .none s

/-- INIT (R220). -/
def execInit (s : State) : Host.Outcome State Fault Refusal := hostOp .init runInit s

/-- TEARDOWN (R221). -/
def execTeardown (s : State) : Host.Outcome State Fault Refusal := hostOp .teardown runTeardown s

end Sys2Proof.Machine
end

