-- ==== Sys2Proof/Machine/Codec.lean ====
section
/-! DEFINITION. The BCD encoder and decoder for time fields (42_bcd_codec.md R160 to R169) and the year adapters. -/

namespace Sys2Proof.Machine

/-- The BCD code of v ≤ 99: "((v div 10) << 4) | (v mod 10)" (R160). -/
def bcdCode (v : Nat) : Byte := (BitVec.ofNat 8 (v / 10) <<< 4) ||| BitVec.ofNat 8 (v % 10)

/-- BCD_ENC(v) (R160); the error records the value, and the slot where FRAME_ENC knows it. -/
def bcdEncode (slot : Option Nat) (v : Nat) : Except OpError Byte :=
  if v ≤ 99 then .ok (bcdCode v) else .error (.encode slot v)

/-- BCD_DEC(b) (R161). -/
def bcdDecode (slot : Option Nat) (b : Byte) : Except OpError Nat :=
  if 9 < highNibble b ∨ 9 < lowNibble b then .error (.decode slot b .badDigit)
  else .ok (10 * highNibble b + lowNibble b)

/-- min(k) (R163). -/
def fieldMin : Nat → Nat
  | 0 => 0
  | 1 => 0
  | 2 => 0
  | 3 => 1
  | 4 => 1
  | 5 => 1
  | _ => 0

/-- max(k) (R163). -/
def fieldMax : Nat → Nat
  | 0 => 59
  | 1 => 59
  | 2 => 23
  | 3 => 31
  | 4 => 12
  | 5 => 7
  | _ => 99

/-- Whether a value is in the range of slot k (R163); "Fields are checked one at a time" (R169). -/
def fieldInRange (k v : Nat) : Bool := decide (fieldMin k ≤ v) && decide (v ≤ fieldMax k)

/-- The components of a calendar value, "Frame slot k holds the k-th component" (30_encoding.md R110). -/
def calendarFields (cv : Calendar) : List Nat := [cv.sec, cv.min, cv.hour, cv.day, cv.month, cv.wday, cv.yy]

/-- The first slot from k on whose value is out of range: "raise EncodeError(k, cv[k])" (R164). -/
def firstBadField : Nat → List Nat → Option OpError
  | _, [] => none
  | k, v :: vs => if fieldInRange k v then firstBadField (k + 1) vs else some (.encode (some k) v)

/-- FRAME_ENC(cv) (R164): every range is checked before a byte is made. -/
def frameEncode (cv : Calendar) : Except OpError Frame :=
  match firstBadField 0 (calendarFields cv) with
  | some e => .error e
  | none =>
    .ok { sec := bcdCode cv.sec, min := bcdCode cv.min, hour := bcdCode cv.hour, day := bcdCode cv.day,
          month := bcdCode cv.month, wday := bcdCode cv.wday, yy := bcdCode cv.yy }

/-- Slot k of FRAME_DEC (R165): the digits first, then the range. -/
def fieldDecode (k : Nat) (b : Byte) : Except OpError Nat :=
  match bcdDecode (some k) b with
  | .error e => .error e
  | .ok v => if fieldInRange k v then .ok v else .error (.decode (some k) b .outOfRange)

/-- The slots from k on, in wire order; the first failing slot is reported (R165). -/
def fieldsDecode : Nat → List Byte → Except OpError (List Nat)
  | _, [] => .ok []
  | k, b :: bs =>
    match fieldDecode k b with
    | .error e => .error e
    | .ok v =>
      match fieldsDecode (k + 1) bs with
      | .error e => .error e
      | .ok vs => .ok (v :: vs)

/-- A calendar value of its components in slot order. -/
def calendarOf (vs : List Nat) : Calendar :=
  { sec := vs.getD 0 0, min := vs.getD 1 0, hour := vs.getD 2 0, day := vs.getD 3 0, month := vs.getD 4 0,
    wday := vs.getD 5 0, yy := vs.getD 6 0 }

/-- FRAME_DEC(raw) (R165). -/
def frameDecode (raw : Frame) : Except OpError Calendar :=
  match fieldsDecode 0 raw.toList with
  | .error e => .error e
  | .ok vs => .ok (calendarOf vs)

/-- YY_OF_YEAR(year) (R166). -/
def yyOfYear (base year : Nat) : Except OpError Nat :=
  if base ≤ year ∧ year ≤ base + 99 then .ok (year - base) else .error (.encode (some 6) year)

/-- YEAR_OF_YY(yy) = CENTURY_BASE + yy, "for yy in 0..99" (R167); beyond, the spec states no value (log 28). -/
def yearOfYy (base yy : Nat) : Nat := if yy ≤ 99 then base + yy else Config.freeYear base yy

/-- What a codec function hands its caller: its value, or the error it raises. -/
def handed {α : Type} (f : α → Returned) : Except OpError α → Returned
  | .ok a => f a
  | .error e => .error e

/-- BCD_ENC (R160). -/
def execBcdEnc (v : Nat) (s : State) : Host.Outcome State Fault Refusal :=
  codecCall (handed .byte (bcdEncode none v)) s

/-- BCD_DEC (R161). -/
def execBcdDec (b : Byte) (s : State) : Host.Outcome State Fault Refusal :=
  codecCall (handed .number (bcdDecode none b)) s

/-- FRAME_ENC (R164). -/
def execFrameEnc (cv : Calendar) (s : State) : Host.Outcome State Fault Refusal :=
  codecCall (handed .frame (frameEncode cv)) s

/-- FRAME_DEC (R165). -/
def execFrameDec (raw : Frame) (s : State) : Host.Outcome State Fault Refusal :=
  codecCall (handed .calendar (frameDecode raw)) s

/-- YY_OF_YEAR (R166), under the configuration's CENTURY_BASE. -/
def execYyOfYear (year : Nat) (s : State) : Host.Outcome State Fault Refusal :=
  codecCall (handed .number (yyOfYear s.cfg.centuryBase year)) s

/-- YEAR_OF_YY (R167); "It raises no error". -/
def execYearOfYy (yy : Nat) (s : State) : Host.Outcome State Fault Refusal :=
  codecCall (.number (yearOfYy s.cfg.centuryBase yy)) s

end Sys2Proof.Machine
end

