-- ==== Sys2Proof/Machine/RegisterCodec.lean ====
section
/-! DEFINITION. The four data operations of the Register Codec (43_register_codec.md R190 to R194). -/

namespace Sys2Proof.Machine

/-- BUF[0..] <- the bytes (10_state.md R36). -/
def State.storeBuf (s : State) (bytes : List Byte) : State := { s with buf := storeFrom 0 bytes s.buf }

/-- BUF[0..n-1], the data bytes of a write (20_memory.md R67). -/
def State.bufBytes (s : State) (n : Nat) : List Byte := (List.range n).map (bufCell s.buf)

/-- READ_DATETIME after its gate (R190): the transaction BF and 7 reads into BUF[0..6], then, after END, FRAME_DEC. -/
def runReadDatetime (s : State) : Attempt Value :=
  (runTransaction true (readFormat .clockBurstRead) s.beginBuf).andThen fun _ t =>
  match frameDecode (frameOfBuf t.buf) with
  | .ok cv => .done (.calendar cv) t
  | .error e => .failed e t

/-- The data bytes of WRITE_DATETIME: BUF[0..6], "then two trailing padding bytes" (R191). -/
def datetimeBytes (s : State) : List Byte := s.bufBytes Config.frameLen ++ [s.cfg.padByte, s.cfg.padByte]

/-- WRITE_DATETIME after its gate (R191): "EncodeError before any pin call". -/
def runWriteDatetime (cv : Calendar) (s : State) : Attempt Value :=
  match frameEncode cv with
  | .error e => .failed e s.beginBuf
  | .ok f =>
    (runTransaction false (writeFormat .clockBurstWrite (datetimeBytes (s.beginBuf.storeBuf f.toList)))
      (s.beginBuf.storeBuf f.toList)).andThen fun _ t =>
    .done .none t

/-- READ_RAM after its gate (R192): the transaction FF and 31 reads into BUF[0..30]. -/
def runReadRam (s : State) : Attempt Value :=
  (runTransaction true (readFormat .ramBurstRead) s.beginBuf).andThen fun _ t =>
  .done (.bytes (t.bufBytes Config.ramLen)) t

/-- WRITE_RAM after its gate (R193): "the first n bytes; bytes n..L-1 are dropped", n = min(L, 31). -/
def runWriteRam (block : List Byte) (s : State) : Attempt Value :=
  (runTransaction false
    (writeFormat .ramBurstWrite
      ((s.beginBuf.storeBuf (block.take Config.ramLen)).bufBytes (min block.length Config.ramLen)))
    (s.beginBuf.storeBuf (block.take Config.ramLen))).andThen fun _ t =>
  .done (.truncated (truncatedFlag block.length)) t

/-- READ_DATETIME (R190). -/
def execReadDatetime (s : State) : Host.Outcome State Fault Refusal :=
  hostOp .readDatetime (dataGate .readDatetime runReadDatetime) s

/-- WRITE_DATETIME(cv) (R191). -/
def execWriteDatetime (cv : Calendar) (s : State) : Host.Outcome State Fault Refusal :=
  hostOp .writeDatetime (dataGate .writeDatetime (runWriteDatetime cv)) s

/-- READ_RAM (R192). -/
def execReadRam (s : State) : Host.Outcome State Fault Refusal :=
  hostOp .readRam (dataGate .readRam runReadRam) s

/-- WRITE_RAM(block) (R193). -/
def execWriteRam (block : List Byte) (s : State) : Host.Outcome State Fault Refusal :=
  hostOp .writeRam (dataGate .writeRam (runWriteRam block)) s

end Sys2Proof.Machine
end

