-- ==== Sys2Proof/Machine/Dispatch.lean ====
section
/-! DEFINITION. exec: one arm per instruction. -/

namespace Sys2Proof.Machine

def exec (i : Instr) (s : State) : Host.Outcome State Fault Refusal :=
  match i with
  -- CMD8
  | .cmdWpRead => Sys2Proof.Machine.execCmdWpRead s
  | .cmdWpWrite d => Sys2Proof.Machine.execCmdWpWrite d s
  | .cmdTcRead => Sys2Proof.Machine.execCmdTcRead s
  | .cmdTcWrite d => Sys2Proof.Machine.execCmdTcWrite d s
  | .cmdClockBurstRead => Sys2Proof.Machine.execCmdClockBurstRead s
  | .cmdClockBurstWrite f pad1 pad2 => Sys2Proof.Machine.execCmdClockBurstWrite f pad1 pad2 s
  | .cmdRamBurstRead => Sys2Proof.Machine.execCmdRamBurstRead s
  | .cmdRamBurstWrite data => Sys2Proof.Machine.execCmdRamBurstWrite data s
  -- HOSTOP
  | .init => Sys2Proof.Machine.execInit s
  | .readDatetime => Sys2Proof.Machine.execReadDatetime s
  | .writeDatetime cv => Sys2Proof.Machine.execWriteDatetime cv s
  | .readRam => Sys2Proof.Machine.execReadRam s
  | .writeRam block => Sys2Proof.Machine.execWriteRam block s
  | .teardown => Sys2Proof.Machine.execTeardown s
  -- MICRO
  | .txnBegin => Sys2Proof.Machine.execTxnBegin s
  | .txnEnd => Sys2Proof.Machine.execTxnEnd s
  | .transaction body => Sys2Proof.Machine.execTransaction body s
  | .wrByte v => Sys2Proof.Machine.execWrByte v s
  | .rdByte => Sys2Proof.Machine.execRdByte s
  -- CODEC
  | .bcdEnc v => Sys2Proof.Machine.execBcdEnc v s
  | .bcdDec b => Sys2Proof.Machine.execBcdDec b s
  | .frameEnc cv => Sys2Proof.Machine.execFrameEnc cv s
  | .frameDec raw => Sys2Proof.Machine.execFrameDec raw s
  | .yyOfYear year => Sys2Proof.Machine.execYyOfYear year s
  | .yearOfYy yy => Sys2Proof.Machine.execYearOfYy yy s

end Sys2Proof.Machine
end

