-- ==== Sys2Proof/WellFormed.lean ====
section
/-! DEFINITION. The operand checks an instruction meets before the step runs it. -/

namespace Sys2Proof

/-- The operands are in the domain the spec gives the instruction. One row bounds an operand that its Lean type does not: the
data of a RAM burst write ("FMT-W(n), n ≤ 31", 30_encoding.md R97, R101). Calendar fields and BCD_ENC's argument are unbounded
here: the spec answers an EncodeError outside their range (R160, R164). So is YEAR_OF_YY's: beyond 99 its value is free (log 28). TRANSACTION takes any body,
which is the model's choice (log 29). -/
def Instr.wellFormed : Instr → Bool
  | .cmdWpRead => true
  | .cmdWpWrite _ => true
  | .cmdTcRead => true
  | .cmdTcWrite _ => true
  | .cmdClockBurstRead => true
  | .cmdClockBurstWrite _ _ _ => true
  | .cmdRamBurstRead => true
  | .cmdRamBurstWrite data => decide (data.length ≤ Config.ramLen)
  | .init => true
  | .readDatetime => true
  | .writeDatetime _ => true
  | .readRam => true
  | .writeRam _ => true
  | .teardown => true
  | .txnBegin => true
  | .txnEnd => true
  | .transaction _ => true
  | .wrByte _ => true
  | .rdByte => true
  | .bcdEnc _ => true
  | .bcdDec _ => true
  | .frameEnc _ => true
  | .frameDec _ => true
  | .yyOfYear _ => true
  | .yearOfYy _ => true

end Sys2Proof
end

