-- ==== Sys2Proof/Machine/Step.lean ====
section
/-! DEFINITION. The step: the host's oldest pending invocation, decoded and run. -/

namespace Sys2Proof.Machine

/-- The instruction a request names: by name, by its wire image, or by its line (30_encoding.md R104, R100, R109). -/
def readRequest : Request → Except Reject Instr
  | .call i => .ok i
  | .wire bytes => decode bytes
  | .line text => parseLine text

/-- The oldest request leaves the queue. -/
def State.popRequest (s : State) : State := { s with requests := s.requests.tail }

/-- Run what a request was read as. -/
def runRead (s : State) : Except Reject Instr → Host.Outcome State Fault Refusal
  | .error why => .refused (.undecodable why)
  | .ok i => if i.wellFormed then exec i s else .refused .illFormed

/-- One step. With no pending invocation the block waits, unchanged ("After reset the block waits for a host operation",
70_reset_and_hazards.md R271; log 9). A configuration with repeated pins has no run (00_scope.md R7). -/
def step (s : State) : Host.Outcome State Fault Refusal :=
  if s.cfg.pinsDistinct then
    match s.requests with
    | [] => .next s
    | r :: _ => runRead s.popRequest (readRequest r)
  else .refused .repeatedPins

/-- The state whose next step runs the instruction of a table word: its wire image stands first in the queue (log 9). -/
def State.withFetchWord (s : State) (nbits w : Nat) : State :=
  { s with requests := .wire (tableBytes nbits w) :: s.requests }

end Sys2Proof.Machine
end

