-- ==== Sys2Proof/Machine/Layout.lean ====
section
/-! DEFINITION. The event layouts the spec fixes (30_encoding.md R100 to R102, 43_register_codec.md, 44_lifecycle.md): the
events of each operation when no call is answered `Err`, less the responses, written out apart from the meanings. "The sequence
of events depends only on the operation and its arguments" (10_state.md R35). -/

namespace Sys2Proof.Machine

/-- An event less its response. -/
inductive Shape where
  | call (c : Call)
  | wait (t : Nat)
  deriving DecidableEq, Repr

/-- The shape of an event. -/
def Event.shape : Event → Shape
  | .call c _ => .call c
  | .wait t => .wait t

/-- Whether a shape is a pin call. -/
def Shape.isCall : Shape → Bool
  | .call _ => true
  | .wait _ => false

/-- The pin calls of a layout. -/
def callCount (ss : List Shape) : Nat := ss.countP Shape.isCall

/-- The waits of a layout. -/
def waitCount (ss : List Shape) : Nat := ss.countP (fun x => !x.isCall)

/-- A cell of a write byte (R102). -/
def writeCellLayout (cfg : Config) (b : Bool) : List Shape :=
  [.call (.set .clk false), .wait cfg.tSettle, .call (.set .data b), .call (.set .clk true), .wait cfg.tSettle]

/-- A write byte: 41 events, cell i carrying bit i (R102). -/
def writeByteLayout (cfg : Config) (v : Byte) : List Shape :=
  .call (.cfg [.data] .output (some cfg.dataOutInit)) :: (byteBits v).flatMap (writeCellLayout cfg)

/-- A cell of a read byte (R102). -/
def readCellLayout (cfg : Config) : List Shape :=
  [.call (.set .clk true), .wait cfg.tSettle, .call (.set .clk false), .wait cfg.tSettle, .call (.get .data)]

/-- A read byte: 41 events (R102). -/
def readByteLayout (cfg : Config) : List Shape :=
  .call (.cfg [.data] .input none) :: (List.replicate 8 (readCellLayout cfg)).flatten

/-- A byte of a body. -/
def byteLayout (cfg : Config) : ByteOp → List Shape
  | .wr v => writeByteLayout cfg v
  | .rd => readByteLayout cfg

/-- BEGIN: "clock low, then CE high" (R100). -/
def beginLayout : List Shape := [.call (.set .clk false), .call (.set .rst true)]

/-- END: "data released, clock low, CE low" (R100). -/
def endLayout : List Shape := [.call (.cfg [.data] .input none), .call (.set .clk false), .call (.set .rst false)]

/-- One transaction (R100). -/
def transactionLayout (cfg : Config) (body : List ByteOp) : List Shape :=
  beginLayout ++ body.flatMap (byteLayout cfg) ++ endLayout

/-- The body of a data operation or a command row, by the formats of R101; none for the other instructions. -/
def bodyOf (cfg : Config) : Instr → Option (List ByteOp)
  | .cmdWpRead => some [.wr 0x8F#8, .rd]
  | .cmdWpWrite d => some [.wr 0x8E#8, .wr d]
  | .cmdTcRead => some [.wr 0x91#8, .rd]
  | .cmdTcWrite d => some [.wr 0x90#8, .wr d]
  | .cmdClockBurstRead => some (.wr 0xBF#8 :: List.replicate 7 .rd)
  | .cmdClockBurstWrite f p q => some (.wr 0xBE#8 :: (f.toList ++ [p, q]).map .wr)
  | .cmdRamBurstRead => some (.wr 0xFF#8 :: List.replicate 31 .rd)
  | .cmdRamBurstWrite data => some (.wr 0xFE#8 :: data.map .wr)
  | .init => none
  | .readDatetime => some (.wr 0xBF#8 :: List.replicate 7 .rd)
  | .writeDatetime cv =>
    match frameEncode cv with
    | .ok f => some (.wr 0xBE#8 :: (f.toList ++ [cfg.padByte, cfg.padByte]).map .wr)
    | .error _ => none
  | .readRam => some (.wr 0xFF#8 :: List.replicate 31 .rd)
  | .writeRam block => some (.wr 0xFE#8 :: (block.take 31).map .wr)
  | .teardown => none
  | .txnBegin => none
  | .txnEnd => none
  | .transaction body => some body
  | .wrByte _ => none
  | .rdByte => none
  | .bcdEnc _ => none
  | .bcdDec _ => none
  | .frameEnc _ => none
  | .frameDec _ => none
  | .yyOfYear _ => none
  | .yearOfYy _ => none

/-- The transaction of a body. -/
def layoutOfBody (cfg : Config) : Option (List ByteOp) → List Shape
  | some body => transactionLayout cfg body
  | none => []

/-- The events of an operation that its checks let run, when no call is answered `Err` (TEARDOWN in CLOSED issues none,
R221); the codec functions and a WRITE_DATETIME refused with EncodeError have none. -/
def eventLayout (cfg : Config) (i : Instr) : List Shape :=
  match i with
  | .cmdWpRead => layoutOfBody cfg (bodyOf cfg i)
  | .cmdWpWrite _ => layoutOfBody cfg (bodyOf cfg i)
  | .cmdTcRead => layoutOfBody cfg (bodyOf cfg i)
  | .cmdTcWrite _ => layoutOfBody cfg (bodyOf cfg i)
  | .cmdClockBurstRead => layoutOfBody cfg (bodyOf cfg i)
  | .cmdClockBurstWrite _ _ _ => layoutOfBody cfg (bodyOf cfg i)
  | .cmdRamBurstRead => layoutOfBody cfg (bodyOf cfg i)
  | .cmdRamBurstWrite _ => layoutOfBody cfg (bodyOf cfg i)
  | .init =>
    .call (.cfg [.clk, .rst] .output (some .low)) ::
      (transactionLayout cfg [.wr 0x8E#8, .wr 0x00#8] ++ transactionLayout cfg [.wr 0x90#8, .wr 0x00#8])
  | .readDatetime => layoutOfBody cfg (bodyOf cfg i)
  | .writeDatetime _ => layoutOfBody cfg (bodyOf cfg i)
  | .readRam => layoutOfBody cfg (bodyOf cfg i)
  | .writeRam _ => layoutOfBody cfg (bodyOf cfg i)
  | .teardown => [.call (.rel [.clk, .data, .rst])]
  | .txnBegin => beginLayout
  | .txnEnd => endLayout
  | .transaction _ => layoutOfBody cfg (bodyOf cfg i)
  | .wrByte v => writeByteLayout cfg v
  | .rdByte => readByteLayout cfg
  | .bcdEnc _ => []
  | .bcdDec _ => []
  | .frameEnc _ => []
  | .frameDec _ => []
  | .yyOfYear _ => []
  | .yearOfYy _ => []

/-- The operation an instruction runs as; a codec function is none. -/
def opOf : Instr → Option Op
  | .cmdWpRead => some (.command .wpRead)
  | .cmdWpWrite _ => some (.command .wpWrite)
  | .cmdTcRead => some (.command .tcRead)
  | .cmdTcWrite _ => some (.command .tcWrite)
  | .cmdClockBurstRead => some (.command .clockBurstRead)
  | .cmdClockBurstWrite _ _ _ => some (.command .clockBurstWrite)
  | .cmdRamBurstRead => some (.command .ramBurstRead)
  | .cmdRamBurstWrite _ => some (.command .ramBurstWrite)
  | .init => some .init
  | .readDatetime => some .readDatetime
  | .writeDatetime _ => some .writeDatetime
  | .readRam => some .readRam
  | .writeRam _ => some .writeRam
  | .teardown => some .teardown
  | .txnBegin => some .txnBegin
  | .txnEnd => some .txnEnd
  | .transaction _ => some .transaction
  | .wrByte _ => some .wrByte
  | .rdByte => some .rdByte
  | .bcdEnc _ => none
  | .bcdDec _ => none
  | .frameEnc _ => none
  | .frameDec _ => none
  | .yyOfYear _ => none
  | .yearOfYy _ => none

/-- What a transaction of m bytes still issues after its event n was answered `Err`: END, if that was in BEGIN or the body; the
rest of END, if that was in END (40_transaction_framer.md R121, R122). -/
def txnAfterFailure (m n : Nat) : List Shape :=
  if n < 2 + 41 * m then endLayout else endLayout.drop (n - (2 + 41 * m) + 1)

/-- The same for a body, if there is one. -/
def bodyAfterFailure (body : Option (List ByteOp)) (n : Nat) : List Shape :=
  match body with
  | some b => txnAfterFailure b.length n
  | none => []

/-- What an operation still issues after its event n was answered `Err`: "followed by END's events when a transaction was open"
(60_exceptions.md R250). INIT's event 0 is its CFG, and its two transactions have 87 events each (44_lifecycle.md R220). -/
def afterFailure (cfg : Config) (i : Instr) (n : Nat) : List Shape :=
  match i with
  | .cmdWpRead => bodyAfterFailure (bodyOf cfg i) n
  | .cmdWpWrite _ => bodyAfterFailure (bodyOf cfg i) n
  | .cmdTcRead => bodyAfterFailure (bodyOf cfg i) n
  | .cmdTcWrite _ => bodyAfterFailure (bodyOf cfg i) n
  | .cmdClockBurstRead => bodyAfterFailure (bodyOf cfg i) n
  | .cmdClockBurstWrite _ _ _ => bodyAfterFailure (bodyOf cfg i) n
  | .cmdRamBurstRead => bodyAfterFailure (bodyOf cfg i) n
  | .cmdRamBurstWrite _ => bodyAfterFailure (bodyOf cfg i) n
  | .init => if n = 0 then [] else txnAfterFailure 2 ((n - 1) % 87)
  | .readDatetime => bodyAfterFailure (bodyOf cfg i) n
  | .writeDatetime _ => bodyAfterFailure (bodyOf cfg i) n
  | .readRam => bodyAfterFailure (bodyOf cfg i) n
  | .writeRam _ => bodyAfterFailure (bodyOf cfg i) n
  | .teardown => []
  | .txnBegin => []
  | .txnEnd => endLayout.drop (n + 1)
  | .transaction _ => bodyAfterFailure (bodyOf cfg i) n
  | .wrByte _ => []
  | .rdByte => []
  | .bcdEnc _ => []
  | .bcdDec _ => []
  | .frameEnc _ => []
  | .frameDec _ => []
  | .yyOfYear _ => []
  | .yearOfYy _ => []

end Sys2Proof.Machine
end

