-- ==== Sys2Proof/Machine/Lines.lean ====
section
/-! DEFINITION. The physical lines and the clock edges a trace produces (10_state.md R39), the levels it samples, and its
minimum time (70_reset_and_hazards.md R290, R291). -/

namespace Sys2Proof.Machine

/-- SCLK (R39). -/
def Shadow.sclk (sh : Shadow) : Level := sh.clk.lvl

/-- CE (R39). -/
def Shadow.ce (sh : Shadow) : Level := sh.rst.lvl

/-- IO as the block drives it: the shadow level while PIN_DATA is an output; X while the block does not drive it (R39). -/
def Shadow.io (sh : Shadow) : Level := if sh.data.mode = .output then sh.data.lvl else .x

/-- The shadow after one event. -/
def Shadow.afterEvent (sh : Shadow) : Event → Shadow
  | .call c r => sh.after c r
  | .wait _ => sh

/-- The shadow after a list of events. -/
def Shadow.replay (sh : Shadow) : List Event → Shadow
  | [] => sh
  | e :: es => (sh.afterEvent e).replay es

/-- The environment after a list of events, `sh` the shadow before them: it is moved by the pin calls alone. -/
def Env.replay (e : Env) (sh : Shadow) : List Event → Env
  | [] => e
  | .call c r :: es => (e.after sh c r).replay (sh.after c r) es
  | .wait _ :: es => e.replay sh es

/-- Every response in a list of events is the one the environment gave (00_scope.md R16). -/
def Env.gave (e : Env) (sh : Shadow) : List Event → Bool
  | [] => true
  | .call c r :: es => decide (r = e.answer c) && (e.after sh c r).gave (sh.after c r) es
  | .wait _ :: es => e.gave sh es

/-- An edge of SCLK. -/
inductive Edge where
  | rising
  | falling
  deriving DecidableEq, Repr

/-- The edge an event produces, `sh` the shadow before it: a SET of PIN_CLK that changes the shadow level (R39; a call answered
`Err` is no edge, log 12). -/
def edgeOf (sh : Shadow) : Event → Option Edge
  | .call (.set .clk true) r => if r ≠ .err ∧ sh.clk.lvl = .low then some .rising else none
  | .call (.set .clk false) r => if r ≠ .err ∧ sh.clk.lvl = .high then some .falling else none
  | .call (.set .data _) _ => none
  | .call (.set .rst _) _ => none
  | .call (.cfg _ _ _) _ => none
  | .call (.get _) _ => none
  | .call (.rel _) _ => none
  | .wait _ => none

/-- The edges of a list of events, one entry an event. -/
def edges (sh : Shadow) : List Event → List (Option Edge)
  | [] => []
  | e :: es => edgeOf sh e :: edges (sh.afterEvent e) es

/-- How many of the entries are this edge. -/
def countEdge (k : Edge) (es : List (Option Edge)) : Nat := es.count (some k)

/-- The level of IO at each rising edge, in order. -/
def levelsAtRising (sh : Shadow) : List Event → List Level
  | [] => []
  | e :: es =>
    if edgeOf sh e = some .rising then sh.io :: levelsAtRising (sh.afterEvent e) es
    else levelsAtRising (sh.afterEvent e) es

/-- Whether an event is a pin call answered `Err`. -/
def Event.isErr : Event → Bool
  | .call _ .err => true
  | .call _ .ok => false
  | .call _ (.level _) => false
  | .wait _ => false

/-- No pin call of the list was answered `Err`. -/
def noErr (es : List Event) : Bool := es.all (fun e => !e.isErr)

/-- The first pin call answered `Err` among events, with its index in the list. -/
def firstErr : List Event → Option (Nat × Call)
  | [] => none
  | .call c .err :: _ => some (0, c)
  | .call _ .ok :: es => (firstErr es).map fun p => (p.1 + 1, p.2)
  | .call _ (.level _) :: es => (firstErr es).map fun p => (p.1 + 1, p.2)
  | .wait _ :: es => (firstErr es).map fun p => (p.1 + 1, p.2)

/-- Every SET among events meets a pin that is an output, or that an earlier `Err` left UNKNOWN (R40). -/
def setsDriven (sh : Shadow) : List Event → Bool
  | [] => true
  | .call (.set p l) r :: es =>
    (decide ((sh.at p).mode = .output) || decide ((sh.at p).mode = .unknown)) && setsDriven (sh.after (.set p l) r) es
  | .call (.cfg ps d l) r :: es => setsDriven (sh.after (.cfg ps d l) r) es
  | .call (.get p) r :: es => setsDriven (sh.after (.get p) r) es
  | .call (.rel ps) r :: es => setsDriven (sh.after (.rel ps) r) es
  | .wait _ :: es => setsDriven sh es

/-- Among events PIN_DATA is an output at every SET of it and an input at every GET (41_bit_transport.md R142,
70_reset_and_hazards.md R281). -/
def directionClear (sh : Shadow) : List Event → Bool
  | [] => true
  | .call (.set .data l) r :: es => decide (sh.data.mode = .output) && directionClear (sh.after (.set .data l) r) es
  | .call (.get p) r :: es => decide (sh.data.mode = .input) && directionClear (sh.after (.get p) r) es
  | .call (.set .clk l) r :: es => directionClear (sh.after (.set .clk l) r) es
  | .call (.set .rst l) r :: es => directionClear (sh.after (.set .rst l) r) es
  | .call (.cfg ps d l) r :: es => directionClear (sh.after (.cfg ps d l) r) es
  | .call (.rel ps) r :: es => directionClear (sh.after (.rel ps) r) es
  | .wait _ :: es => directionClear sh es

/-- The levels the GETs of a list returned, in order. -/
def getLevels : List Event → List Bool
  | [] => []
  | .call _ (.level l) :: es => l :: getLevels es
  | .call _ .ok :: es => getLevels es
  | .call _ .err :: es => getLevels es
  | .wait _ :: es => getLevels es

/-- The bytes of levels read, eight to a byte, first lowest (41_bit_transport.md R141). -/
def bytesOfLevels : List Bool → List Byte
  | a :: b :: c :: d :: e :: f :: g :: h :: rest => byteOfBits [a, b, c, d, e, f, g, h] :: bytesOfLevels rest
  | _ => []

/-- The sum of the waits: the least time the events take (R290, R291), in the unit of T_SETTLE. -/
def waitTotal : List Event → Nat
  | [] => 0
  | .wait t :: es => t + waitTotal es
  | .call _ _ :: es => waitTotal es

/-! ### The written form of an event (30_encoding.md R109) -/

/-- The name of a pin in a trace. -/
def pinText : Pin → List Char
  | .clk => ['C', 'L', 'K']
  | .data => ['D', 'A', 'T', 'A']
  | .rst => ['R', 'S', 'T']

/-- A list of pins in brackets. -/
def pinsText (ps : List Pin) : List Char := ['['] ++ List.intercalate [','] (ps.map pinText) ++ [']']

/-- A level, `0` or `1`. -/
def bitText (b : Bool) : List Char := if b then ['1'] else ['0']

/-- The level argument of a CFG: `0`, `1`, `ANY`, or `-`. -/
def initText : Option InitLevel → List Char
  | some .low => ['0']
  | some .high => ['1']
  | some .any => ['A', 'N', 'Y']
  | none => ['-']

/-- A direction, `IN` or `OUT`. -/
def dirText : Dir → List Char
  | .input => ['I', 'N']
  | .output => ['O', 'U', 'T']

/-- A pin call. -/
def callText : Call → List Char
  | .cfg ps d l => ['C', 'F', 'G', '('] ++ pinsText ps ++ [','] ++ dirText d ++ [','] ++ initText l ++ [')']
  | .set p l => ['S', 'E', 'T', '('] ++ pinText p ++ [','] ++ bitText l ++ [')']
  | .get p => ['G', 'E', 'T', '('] ++ pinText p ++ [')']
  | .rel ps => ['R', 'E', 'L', '('] ++ pinsText ps ++ [')']

/-- A response: nothing for a plain `Ok`, the level of a GET, or `Err`. -/
def responseText : Response → List Char
  | .ok => []
  | .level l => [' ', '→', ' '] ++ bitText l
  | .err => [' ', '→', ' ', 'E', 'r', 'r']

/-- An event as the spec's tables write it. -/
def eventText : Event → List Char
  | .call c r => callText c ++ responseText r
  | .wait t => ['W', 'A', 'I', 'T', '('] ++ printNat t ++ [')']

end Sys2Proof.Machine
end

