-- ==== Sys2Proof/Safety.lean ====
section
/-! DEFINITION. The terms claims use: an idle block, an ideal capability, what a part of an operation leaves alone, and the
invariants of a safe run. -/

namespace Sys2Proof.Machine

/-- No operation in progress and no transaction open: how every host operation finds the block (10_state.md R33, R35). -/
def State.Idle (s : State) : Prop := s.seq = none ∧ s.txnOpen = false

/-- A scripted `Ok`. -/
def Answer.isOk : Answer → Bool
  | .defer => false
  | .ok _ => true
  | .err => false

/-- Not a scripted `Err`. -/
def Answer.notErr : Answer → Bool
  | .defer => true
  | .ok _ => true
  | .err => false

/-- The next n pin calls will be answered `Ok`: "An ideal capability is one that answers every call `Ok`" (20_memory.md R88). -/
def Env.idealFor (e : Env) (n : Nat) : Bool :=
  match e.device with
  | .absent => decide (n ≤ e.plan.length) && (e.plan.take n).all Answer.isOk
  | .loopback _ => (e.plan.take n).all Answer.notErr
  | .counterpart _ => (e.plan.take n).all Answer.notErr

/-- The operation in progress, or being run, meets an ideal capability for all its pin calls. -/
abbrev State.IdealFor (s : State) (i : Instr) : Prop := s.env.idealFor (callCount (eventLayout s.cfg i)) = true

/-- A pin's level is X whenever its mode is not OUT (10_state.md R38). -/
def PinShadow.ok (p : PinShadow) : Bool := decide (p.mode = .output) || decide (p.lvl = .x)

/-- R38 for the three pins; PIN_CLK and PIN_RST are never IN (R37). -/
def Shadow.ok (sh : Shadow) : Bool :=
  sh.clk.ok && sh.data.ok && sh.rst.ok && decide (sh.clk.mode ≠ .input) && decide (sh.rst.mode ≠ .input)

/-- A READY block's clock and CE pins have been configured: neither is UNCONF (44_lifecycle.md R220, 10_state.md R40). -/
def State.pinsOwned (s : State) : Prop :=
  s.lifecycle = .ready → s.pins.clk.mode ≠ .unconf ∧ s.pins.rst.mode ≠ .unconf

/-- The invariant every step keeps: the block is idle between steps (R33, R35), BC is in 0..8 (R34), BUF has 31 cells (R36),
READY was reached through INIT (R31, R32) and its pins are configured, the shadow is as R37 and R38 say, and the counterpart's
storage keeps its form. -/
def State.Inv (s : State) : Prop :=
  s.seq = none ∧ s.txnOpen = false ∧ s.bc ≤ 8 ∧ s.buf.length = Config.ramLen ∧
  (s.lifecycle = .ready → s.initAttempted = true) ∧ s.pinsOwned ∧ s.pins.ok = true ∧ s.env.storage.wf = true

/-- The shadow between host operations when no pin call was ever answered `Err` (R46). -/
def State.QuietShadow (s : State) : Prop :=
  match s.lifecycle with
  | .uninit => s.pins = { clk := PinShadow.released, data := PinShadow.released, rst := PinShadow.released } ∧ s.initAttempted = false
  | .ready =>
    s.pins = { clk := { mode := .output, lvl := .low }, data := { mode := .input, lvl := .x }, rst := { mode := .output, lvl := .low } }
  | .closed => s.pins = { clk := PinShadow.released, data := PinShadow.released, rst := PinShadow.released }

/-- The host operations (30_encoding.md R104). -/
def isHostOp : Instr → Bool
  | .cmdWpRead => false
  | .cmdWpWrite _ => false
  | .cmdTcRead => false
  | .cmdTcWrite _ => false
  | .cmdClockBurstRead => false
  | .cmdClockBurstWrite _ _ _ => false
  | .cmdRamBurstRead => false
  | .cmdRamBurstWrite _ => false
  | .init => true
  | .readDatetime => true
  | .writeDatetime _ => true
  | .readRam => true
  | .writeRam _ => true
  | .teardown => true
  | .txnBegin => false
  | .txnEnd => false
  | .transaction _ => false
  | .wrByte _ => false
  | .rdByte => false
  | .bcdEnc _ => false
  | .bcdDec _ => false
  | .frameEnc _ => false
  | .frameDec _ => false
  | .yyOfYear _ => false
  | .yearOfYy _ => false

/-- The four data operations (43_register_codec.md R194). -/
def isDataOp : Instr → Bool
  | .cmdWpRead => false
  | .cmdWpWrite _ => false
  | .cmdTcRead => false
  | .cmdTcWrite _ => false
  | .cmdClockBurstRead => false
  | .cmdClockBurstWrite _ _ _ => false
  | .cmdRamBurstRead => false
  | .cmdRamBurstWrite _ => false
  | .init => false
  | .readDatetime => true
  | .writeDatetime _ => true
  | .readRam => true
  | .writeRam _ => true
  | .teardown => false
  | .txnBegin => false
  | .txnEnd => false
  | .transaction _ => false
  | .wrByte _ => false
  | .rdByte => false
  | .bcdEnc _ => false
  | .bcdDec _ => false
  | .frameEnc _ => false
  | .frameDec _ => false
  | .yyOfYear _ => false
  | .yearOfYy _ => false

/-- The codec functions (30_encoding.md R106). -/
def isCodecFn : Instr → Bool
  | .cmdWpRead => false
  | .cmdWpWrite _ => false
  | .cmdTcRead => false
  | .cmdTcWrite _ => false
  | .cmdClockBurstRead => false
  | .cmdClockBurstWrite _ _ _ => false
  | .cmdRamBurstRead => false
  | .cmdRamBurstWrite _ => false
  | .init => false
  | .readDatetime => false
  | .writeDatetime _ => false
  | .readRam => false
  | .writeRam _ => false
  | .teardown => false
  | .txnBegin => false
  | .txnEnd => false
  | .transaction _ => false
  | .wrByte _ => false
  | .rdByte => false
  | .bcdEnc _ => true
  | .bcdDec _ => true
  | .frameEnc _ => true
  | .frameDec _ => true
  | .yyOfYear _ => true
  | .yearOfYy _ => true

/-- The command rows (30_encoding.md R90 to R97). -/
def isCommandRow : Instr → Bool
  | .cmdWpRead => true
  | .cmdWpWrite _ => true
  | .cmdTcRead => true
  | .cmdTcWrite _ => true
  | .cmdClockBurstRead => true
  | .cmdClockBurstWrite _ _ _ => true
  | .cmdRamBurstRead => true
  | .cmdRamBurstWrite _ => true
  | .init => false
  | .readDatetime => false
  | .writeDatetime _ => false
  | .readRam => false
  | .writeRam _ => false
  | .teardown => false
  | .txnBegin => false
  | .txnEnd => false
  | .transaction _ => false
  | .wrByte _ => false
  | .rdByte => false
  | .bcdEnc _ => false
  | .bcdDec _ => false
  | .frameEnc _ => false
  | .frameDec _ => false
  | .yyOfYear _ => false
  | .yearOfYy _ => false

/-- The operations that start only with no transaction open (10_state.md R33): host operations, and the transactions a
harness invokes. -/
def startsAlone : Instr → Bool
  | .cmdWpRead => true
  | .cmdWpWrite _ => true
  | .cmdTcRead => true
  | .cmdTcWrite _ => true
  | .cmdClockBurstRead => true
  | .cmdClockBurstWrite _ _ _ => true
  | .cmdRamBurstRead => true
  | .cmdRamBurstWrite _ => true
  | .init => true
  | .readDatetime => true
  | .writeDatetime _ => true
  | .readRam => true
  | .writeRam _ => true
  | .teardown => true
  | .txnBegin => false
  | .txnEnd => false
  | .transaction _ => true
  | .wrByte _ => false
  | .rdByte => false
  | .bcdEnc _ => false
  | .bcdDec _ => false
  | .frameEnc _ => false
  | .frameDec _ => false
  | .yyOfYear _ => false
  | .yearOfYy _ => false

/-- The legal moves of the lifecycle, staying put among them (10_state.md R31, 44_lifecycle.md R222). -/
def Lifecycle.mayBecome : Lifecycle → Lifecycle → Bool
  | .uninit, .uninit => true
  | .uninit, .ready => true
  | .uninit, .closed => true
  | .ready, .uninit => false
  | .ready, .ready => true
  | .ready, .closed => true
  | .closed, .uninit => false
  | .closed, .ready => false
  | .closed, .closed => true

/-- Everything but what events move (trace, shadow, environment, sequencer) and the transfer registers SR and BC is as before. -/
structure SameButTransfer (s t : State) : Prop where
  cfg : t.cfg = s.cfg
  lifecycle : t.lifecycle = s.lifecycle
  initAttempted : t.initAttempted = s.initAttempted
  txnOpen : t.txnOpen = s.txnOpen
  buf : t.buf = s.buf
  result : t.result = s.result
  returned : t.returned = s.returned
  requests : t.requests = s.requests
  opCount : t.opCount = s.opCount

/-- `t` is reached from `s` by issuing the events `evs`: they are appended to the trace, the shadow and the environment are
moved by them alone, each response is the one the environment gave, and the configuration stands (10_state.md R40 to R42, R49). -/
structure Issues (s t : State) (evs : List Event) : Prop where
  trace : t.trace = s.trace ++ evs
  pins : t.pins = s.pins.replay evs
  env : t.env = s.env.replay s.pins evs
  gave : s.env.gave s.pins evs = true
  cfg : t.cfg = s.cfg

/-- The state with other values in the hidden transfer registers and the buffer (10_state.md R34, R36). -/
def State.withHidden (s : State) (sr : Byte) (bc : Nat) (buf : List Byte) : State :=
  { s with sr := sr, bc := bc, buf := buf }

/-- Why an instruction has no run in this state: another operation is in progress (20_memory.md R71), or a transaction is open
(10_state.md R33). A codec function always runs (30_encoding.md R106). -/
def State.busyFor (s : State) (i : Instr) : Option Refusal :=
  if isCodecFn i then none
  else if s.seq ≠ none then some .overlappingInvocation
  else if startsAlone i ∧ s.txnOpen = true then some .nestedTransaction
  else none

/-- `t` is what `i` reaches from `s` when no pin call fails: `exec` answers it, by exactly the events of the layout of `i`, none
answered `Err`, and the block is idle again. -/
structure Completes (i : Instr) (s t : State) (evs : List Event) : Prop where
  next : exec i s = .next t
  issues : Issues s t evs
  layout : evs.map Event.shape = eventLayout s.cfg i
  clean : noErr evs = true
  seq : t.seq = none

/-- The frame of a host operation: everything it leaves as it was. SR, BC and what events move (trace, shadow, environment) are
not in it, nor is `result`, which every host operation writes (10_state.md R43). -/
structure HostFrame (s t : State) : Prop where
  cfg : t.cfg = s.cfg
  txnOpen : t.txnOpen = s.txnOpen
  returned : t.returned = s.returned
  requests : t.requests = s.requests

/-- The frame of what a harness invokes: a micro-op, TRANSACTION, or a command row. -/
structure HarnessFrame (s t : State) : Prop where
  cfg : t.cfg = s.cfg
  lifecycle : t.lifecycle = s.lifecycle
  initAttempted : t.initAttempted = s.initAttempted
  txnOpen : t.txnOpen = s.txnOpen
  buf : t.buf = s.buf
  result : t.result = s.result
  requests : t.requests = s.requests
  opCount : t.opCount = s.opCount

/-- The error in a result. -/
def Result.error? : Result → Option OpError
  | .ok _ => none
  | .error e => some e

/-- The error in what was handed back. -/
def Returned.error? : Returned → Option OpError
  | .done => none
  | .byte _ => none
  | .bytes _ => none
  | .endStatus e => e
  | .number _ => none
  | .frame _ => none
  | .calendar _ => none
  | .error e => some e

/-- The error an instruction reported in the state it reached: in `result` for a host operation, to the harness otherwise. -/
def State.reported (t : State) (i : Instr) : Option OpError :=
  if isHostOp i then t.result.bind Result.error? else t.returned.bind Returned.error?

/-- The events of an operation that succeeds from `s`: its layout, but none for TEARDOWN in CLOSED (44_lifecycle.md R221). -/
def State.layoutFor (s : State) (i : Instr) : List Shape :=
  if i = .teardown ∧ s.lifecycle = .closed then [] else eventLayout s.cfg i

/-- The trace of an operation, by the error it reports: "the exact prefix of its full event sequence up to and including the
failing call, followed by END's events when a transaction was open" for a PinAccessError, with that call's index and position;
"the full sequence" for a DecodeError and for none; "empty" for a LifecycleError or an EncodeError (60_exceptions.md R250). -/
def State.traceFits (s : State) (i : Instr) (evs : List Event) : Option OpError → Prop
  | none => evs.map Event.shape = s.layoutFor i ∧ noErr evs = true
  | some (.decode _ _ _) => evs.map Event.shape = s.layoutFor i ∧ noErr evs = true
  | some (.lifecycle _ _ _) => evs = []
  | some (.encode _ _) => evs = []
  | some (.pinAccess c idx pos) =>
    ∃ n, firstErr evs = some (n, c) ∧ idx = s.trace.length + n ∧ pos = (opOf i).map (fun op => { op := op, j := n }) ∧
      (evs.take (n + 1)).map Event.shape = (eventLayout s.cfg i).take (n + 1) ∧
      (evs.drop (n + 1)).map Event.shape = afterFailure s.cfg i n

/-- The ranges of 42_bcd_codec.md R163, written out: (min, max) by slot. -/
def rangeTable : List (Nat × Nat) := [(0, 59), (0, 59), (0, 23), (1, 31), (1, 12), (1, 7), (0, 99)]

/-- A value is within the range of slot k; a slot beyond 6 has none. -/
abbrev inRange (k v : Nat) : Prop := (rangeTable.getD k (1, 0)).1 ≤ v ∧ v ≤ (rangeTable.getD k (1, 0)).2

/-- Component k of a calendar value (30_encoding.md R110). -/
def fieldOf (cv : Calendar) (k : Nat) : Nat :=
  [cv.sec, cv.min, cv.hour, cv.day, cv.month, cv.wday, cv.yy].getD k 0

/-- Byte k of a frame (20_memory.md R61). -/
def slotOf (f : Frame) (k : Nat) : Byte :=
  [f.sec, f.min, f.hour, f.day, f.month, f.wday, f.yy].getD k 0#8

/-- Every field is within its range. -/
def validCalendar (cv : Calendar) : Prop := ∀ k, k < 7 → inRange k (fieldOf cv k)

/-- The bytes a body writes, in order: the command byte, then the data bytes (20_memory.md R67). -/
def writesOf : List ByteOp → List Byte
  | [] => []
  | .wr v :: ops => v :: writesOf ops
  | .rd :: ops => writesOf ops

/-- The slot data byte k of a command is stored to, if any (20_memory.md R83). -/
def storeSlot (cmd : Byte) (k : Nat) : Option (Region × Nat) :=
  match Command.ofByte cmd with
  | some .clockBurstWrite => if k ≤ 6 then some (.clock, k) else none
  | some .ramBurstWrite => if k ≤ 30 then some (.ram, k) else none
  | some .wpWrite => if k = 0 then some (.wp, 0) else none
  | some .tcWrite => if k = 0 then some (.tc, 0) else none
  | some .wpRead => none
  | some .tcRead => none
  | some .clockBurstRead => none
  | some .ramBurstRead => none
  | none => none

/-- The slots the data bytes of a transaction's written bytes are stored to. -/
def storeSlots : List Byte → List (Region × Nat)
  | [] => []
  | cmd :: data => (List.range data.length).filterMap (storeSlot cmd)

/-- The slot a WRBYTE a harness invokes may store to: that of the counterpart's next data byte. -/
def Env.nextSlot (e : Env) : List (Region × Nat) :=
  match e.device with
  | .absent => []
  | .loopback _ => []
  | .counterpart chip =>
    match chip.cmd with
    | none => []
    | some cmd => (storeSlot cmd chip.index).toList

/-- The slots of a body, if there is one. -/
def bodySlots : Option (List ByteOp) → List (Region × Nat)
  | some body => storeSlots (writesOf body)
  | none => []

/-- The slots of the counterpart an instruction may store to. The other instructions store nothing. -/
def State.slotsOf (s : State) (i : Instr) : List (Region × Nat) :=
  match i with
  | .cmdWpRead => bodySlots (bodyOf s.cfg i)
  | .cmdWpWrite _ => bodySlots (bodyOf s.cfg i)
  | .cmdTcRead => bodySlots (bodyOf s.cfg i)
  | .cmdTcWrite _ => bodySlots (bodyOf s.cfg i)
  | .cmdClockBurstRead => bodySlots (bodyOf s.cfg i)
  | .cmdClockBurstWrite _ _ _ => bodySlots (bodyOf s.cfg i)
  | .cmdRamBurstRead => bodySlots (bodyOf s.cfg i)
  | .cmdRamBurstWrite _ => bodySlots (bodyOf s.cfg i)
  | .init => [(.wp, 0), (.tc, 0)]
  | .readDatetime => bodySlots (bodyOf s.cfg i)
  | .writeDatetime _ => bodySlots (bodyOf s.cfg i)
  | .readRam => bodySlots (bodyOf s.cfg i)
  | .writeRam _ => bodySlots (bodyOf s.cfg i)
  | .teardown => []
  | .txnBegin => []
  | .txnEnd => []
  | .transaction _ => bodySlots (bodyOf s.cfg i)
  | .wrByte _ => s.env.nextSlot
  | .rdByte => []
  | .bcdEnc _ => []
  | .bcdDec _ => []
  | .frameEnc _ => []
  | .frameDec _ => []
  | .yyOfYear _ => []
  | .yearOfYy _ => []

/-- The byte of the attached counterpart's storage at a slot. -/
def Env.slot (e : Env) (r : Region) (k : Nat) : Byte := e.storage.readSlot r k

/-- READY between operations, with a reference counterpart attached that from now on is ideal (20_memory.md R80, R88), the clock an
output. Calls may have failed before, an END among them: the pins of CE and data may be UNKNOWN, and a transaction that failed may
still stand open at the counterpart, with bytes and bits of it collected (70_reset_and_hazards.md R287). -/
structure State.ReadyWithChip (s : State) (chip : Chip) : Prop where
  idle : s.Idle
  ready : s.lifecycle = .ready
  clock : s.pins.clk.mode = .output
  attached : s.env.device = .counterpart chip
  ideal : s.env.plan = []
  wf : chip.mem.wf = true

end Sys2Proof.Machine
end

