-- ==== Sys2Proof/Certificates/Slice0/Obligations.lean ====
section
/-! DEFINITION. The statements for the provers, each formalising a rule of spec/ or derived from its sections. -/

open Sys2Proof Sys2Proof.Machine

/-! ### Encoding -/

/-- The eight words of 30_encoding.md R90 to R97, with data bytes where the format has them, decode to their rows. The model's
choice: the opcode table gives no data bits, and a table word is filled with zero bytes to its format's length, log 6; the last two
clauses are that choice. -/
def Obligations.CommandWordsDecode : Prop :=
  decode [0b10001111#8] = .ok .cmdWpRead ∧
  decode [0b10001110#8, 0x80#8] = .ok (.cmdWpWrite 0x80#8) ∧
  decode [0b10010001#8] = .ok .cmdTcRead ∧
  decode [0b10010000#8, 0xA5#8] = .ok (.cmdTcWrite 0xA5#8) ∧
  decode [0b10111111#8] = .ok .cmdClockBurstRead ∧
  decode [0b10111110#8, 0x45#8, 0x30#8, 0x10#8, 0x15#8, 0x01#8, 0x02#8, 0x24#8, 0x00#8, 0xFF#8] =
    .ok (.cmdClockBurstWrite ⟨0x45#8, 0x30#8, 0x10#8, 0x15#8, 0x01#8, 0x02#8, 0x24#8⟩ 0x00#8 0xFF#8) ∧
  decode [0b11111111#8] = .ok .cmdRamBurstRead ∧
  decode [0b11111110#8, 0x01#8, 0x02#8] = .ok (.cmdRamBurstWrite [0x01#8, 0x02#8]) ∧
  decodeTableWord 8 0x8F = some .cmdWpRead ∧
  decodeTableWord 8 0x8E = some (.cmdWpWrite 0x00#8) ∧
  decodeTableWord 8 0xFE = some (.cmdRamBurstWrite [])

/-- R98: the eight bytes are the whole command set, matched by all 8 bits, with the pattern the rule reads off the table: bit 7,
the read bit, each read command one above its write command, and bits 6..1 of each pair. -/
def Obligations.CommandSetIsTheEight : Prop :=
  (∀ b, (Command.ofByte b).isSome = true ↔
    b ∈ [0x8F#8, 0x8E#8, 0x91#8, 0x90#8, 0xBF#8, 0xBE#8, 0xFF#8, 0xFE#8]) ∧
  (∀ b c, Command.ofByte b = some c ↔ b &&& 0xFF#8 = c.code) ∧
  (∀ c : Command, bitAt c.code 7 = true) ∧
  (∀ c ∈ [Command.wpRead, .tcRead, .clockBurstRead, .ramBurstRead], bitAt c.code 0 = true) ∧
  (∀ c ∈ [Command.wpWrite, .tcWrite, .clockBurstWrite, .ramBurstWrite], bitAt c.code 0 = false) ∧
  (∀ p ∈ [(Command.wpRead, Command.wpWrite, 0b000111#6), (.tcRead, .tcWrite, 0b001000#6),
      (.clockBurstRead, .clockBurstWrite, 0b011111#6), (.ramBurstRead, .ramBurstWrite, 0b111111#6)],
    p.1.code = p.2.1.code + 1#8 ∧ p.1.code.extractLsb' 1 6 = p.2.2 ∧ p.2.1.code.extractLsb' 1 6 = p.2.2)

/-- Decoding the encoding of a well-formed instruction gives it back, from its bytes and from its table word. -/
def Obligations.WireRoundTrip : Prop :=
  ∀ (i : Instr) (bytes : List Byte), encode i = some bytes → i.wellFormed = true →
    decode bytes = .ok i ∧ decodeTableWord (8 * bytes.length) (wordOfBytes bytes) = some i

/-- Each wire image the decoder accepts is the encoding of the instruction it gives, and that instruction is well formed. -/
def Obligations.WireDecodingExact : Prop :=
  ∀ (bytes : List Byte) (i : Instr), decode bytes = .ok i → encode i = some bytes ∧ i.wellFormed = true

/-- Reading the line of an operation (R109), with or without a comment after it, gives the operation back. The model's choices:
log 18. -/
def Obligations.LineRoundTrip : Prop :=
  ∀ (i : Instr) (text comment : List Char), printLine i = some text →
    parseLine text = .ok i ∧ parseLine (text ++ [' ', ';'] ++ comment) = .ok i

/-! ### The step -/

/-- With distinct pins the step runs the oldest request, decoded: by name, by its wire image, or by its line; and the request
leaves the queue. A table word placed first in the queue is what runs next. The queue is the model's, log 9. -/
def Obligations.StepRunsDecodedInstruction : Prop :=
  (∀ (s : State) (r : Request) (rest : List Request) (i : Instr), s.cfg.pinsDistinct = true → s.requests = r :: rest →
    readRequest r = .ok i → i.wellFormed = true → step s = exec i { s with requests := rest }) ∧
  (∀ (s : State) (nbits w : Nat) (i : Instr), s.cfg.pinsDistinct = true → decodeTableWord nbits w = some i →
    i.wellFormed = true → step (s.withFetchWord nbits w) = exec i s)

/-- The other steps: with no request the block waits unchanged (R271; the idle step is log 9's); a configuration that repeats a
pin is refused (R7, log 17); so are bytes that are no transaction of the command set (R99, R101), text that is no line of R109 (as
log 18 reads lines), and an operand outside its domain (log 20). -/
def Obligations.StepWaitsOrRefuses : Prop :=
  ∀ (s : State),
    (s.cfg.pinsDistinct = true → s.requests = [] → step s = .next s) ∧
    (s.cfg.pinsDistinct = false → step s = .refused .repeatedPins) ∧
    (∀ r rest, s.cfg.pinsDistinct = true → s.requests = r :: rest →
      (∀ why, readRequest r = .error why → step s = .refused (.undecodable why)) ∧
      (∀ i, readRequest r = .ok i → i.wellFormed = false → step s = .refused .illFormed))

/-- Every instruction answers a next state exactly where nothing stands in its way, and else is refused by name: an overlapping
invocation (R71), a start with a transaction open (R33). No instruction ever faults. The model's choices: the order of the
checks (log 10), and that a micro-op reads no txn_open (log 25). -/
def Obligations.RefusedExactlyWhenBusy : Prop :=
  ∀ (i : Instr) (s : State),
    (s.busyFor i = none → ∃ t, exec i s = .next t) ∧ (∀ r, s.busyFor i = some r → exec i s = .refused r)

/-- Every step only appends events to the trace, each response the one the environment gave, moves the shadow and the environment
by those events alone, and leaves the configuration (R42, R40, R41, R49). -/
def Obligations.StepOnlyIssuesEvents : Prop :=
  ∀ (s t : State), step s = .next t → ∃ evs, Issues s t evs

/-! ### The shadow -/

/-- R41. -/
def Obligations.FailedCallLosesItsPins : Prop :=
  ∀ (sh : Shadow) (c : Call) (p : Pin),
    (p ∈ c.pins → (sh.after c .err).at p = { mode := .unknown, lvl := .x }) ∧
    (p ∉ c.pins → (sh.after c .err).at p = sh.at p)

/-- The bullets of R40: what each call answered `Ok` does to the shadow of each pin. A CFG to OUT leaves level 0 for 0, 1 for 1 and
X for ANY; a SET leaves its level on an output. -/
def Obligations.AnsweredCallMovesShadow : Prop :=
  ∀ (sh : Shadow) (r : Response), r ≠ .err → ∀ (p : Pin),
    (∀ ps, p ∈ ps →
      (sh.after (.cfg ps .output (some .low)) r).at p = { mode := .output, lvl := .low } ∧
      (sh.after (.cfg ps .output (some .high)) r).at p = { mode := .output, lvl := .high } ∧
      (sh.after (.cfg ps .output (some .any)) r).at p = { mode := .output, lvl := .x } ∧
      ∀ l, ((sh.after (.cfg ps .output l) r).at p).mode = .output) ∧
    (∀ ps l, p ∈ ps → (sh.after (.cfg ps .input l) r).at p = { mode := .input, lvl := .x }) ∧
    (∀ ps, p ∈ ps → (sh.after (.rel ps) r).at p = { mode := .unconf, lvl := .x }) ∧
    ((sh.at p).mode = .output →
      (sh.after (.set p false) r).at p = { mode := .output, lvl := .low } ∧
      (sh.after (.set p true) r).at p = { mode := .output, lvl := .high }) ∧
    (∀ b, (sh.at p).mode = .unknown → sh.after (.set p b) r = sh) ∧
    (∀ q, sh.after (.get q) r = sh) ∧
    (∀ c : Call, p ∉ c.pins → (sh.after c r).at p = sh.at p)

/-- The block sets only pins that are outputs, or that an earlier failure left UNKNOWN: in every host operation from a state that
meets the invariant (R40). -/
def Obligations.BlockSetsOnlyOutputs : Prop :=
  ∀ (i : Instr) (s t : State) (evs : List Event), isHostOp i = true → s.Inv → exec i s = .next t → Issues s t evs →
    setsDriven s.pins evs = true

/-- PIN_DATA is an output at every SET of it and an input at every GET, in every operation that moves whole bytes, whatever fails
and whatever the pins were before (R142, R281). -/
def Obligations.DataDirectionIsClear : Prop :=
  ∀ (i : Instr) (s t : State) (evs : List Event), exec i s = .next t → Issues s t evs → directionClear s.pins evs = true

/-! ### The Bit-Level Transport -/

/-- WRBYTE(v) (R140) when no call fails: 41 events, SR 0x00 and BC 8 at the end, PIN_DATA an output at v[7], the clock at 1
where it is an output, and nothing else written. The model's choices: what is handed back stands in `returned` (log 7); a clock that is
UNCONF or IN keeps its shadow (log 11). -/
def Obligations.WriteByteCompletes : Prop :=
  ∀ (v : Byte) (s : State), s.seq = none → s.IdealFor (.wrByte v) →
    ∃ t evs, Completes (.wrByte v) s t evs ∧ evs.length = 41 ∧ t.returned = some .done ∧ t.sr = 0x00#8 ∧ t.bc = 8 ∧
      t.pins.data = { mode := .output, lvl := Level.ofBool (bitAt v 7) } ∧
      t.pins.clk = (if s.pins.clk.mode = .output then { mode := .output, lvl := .high } else s.pins.clk) ∧
      t.pins.rst = s.pins.rst ∧ HarnessFrame s t

/-- The clock edges of WRBYTE (R140, R45): the bits of v, least significant first, are on IO at its 8 rising edges; its first
SET of the clock to 0 is a falling edge exactly when the clock was at 1; it leaves the clock at 1. -/
def Obligations.WriteByteDrivesLsbFirst : Prop :=
  ∀ (v : Byte) (s : State), s.seq = none → s.IdealFor (.wrByte v) → s.pins.clk.mode = .output →
    ∃ t evs, Completes (.wrByte v) s t evs ∧
      levelsAtRising s.pins evs = (List.range 8).map (fun k => Level.ofBool (bitAt v k)) ∧
      countEdge .rising (edges s.pins evs) = 8 ∧
      countEdge .falling (edges s.pins evs) = (if s.pins.clk.lvl = .high then 8 else 7) ∧ t.pins.clk.lvl = .high

/-- RDBYTE (R141) when no call fails: 41 events, 8 levels read, the byte whose bit i is the i-th level, in SR and handed back,
BC 8, PIN_DATA an input, the clock at 0 where it is an output, and nothing else written. The model's choices: what is handed back
stands in `returned` (log 7); a clock that is UNCONF or IN keeps its shadow (log 11). -/
def Obligations.ReadByteCompletes : Prop :=
  ∀ (s : State), s.seq = none → s.IdealFor .rdByte →
    ∃ t evs b, Completes .rdByte s t evs ∧ evs.length = 41 ∧ t.returned = some (.byte b) ∧ t.sr = b ∧ t.bc = 8 ∧
      (List.range 8).map (bitAt b) = getLevels evs ∧ t.pins.data = { mode := .input, lvl := .x } ∧
      t.pins.clk = (if s.pins.clk.mode = .output then { mode := .output, lvl := .low } else s.pins.clk) ∧
      t.pins.rst = s.pins.rst ∧ HarnessFrame s t

/-- The clock edges of RDBYTE (R141, R283): 8 falling edges; 8 rising edges when the clock was at 0, else 7; it leaves the clock at
0 (R45). -/
def Obligations.ReadByteClockEdges : Prop :=
  ∀ (s : State), s.seq = none → s.IdealFor .rdByte → s.pins.clk.mode = .output →
    ∃ t evs, Completes .rdByte s t evs ∧ countEdge .falling (edges s.pins evs) = 8 ∧
      countEdge .rising (edges s.pins evs) = (if s.pins.clk.lvl = .low then 8 else 7) ∧ t.pins.clk.lvl = .low

/-- R144: under the loopback harness with an empty FIFO, WRBYTE(v) then RDBYTE returns v. -/
def Obligations.LoopbackReturnsTheByte : Prop :=
  ∀ (v : Byte) (s : State), s.seq = none → s.env.plan = [] → s.env.device = .loopback [] →
    ∃ t u, exec (.wrByte v) s = .next t ∧ exec .rdByte t = .next u ∧ u.returned = some (.byte v)

/-! ### The Transaction Framer -/

/-- BEGIN (R120): clock low, then CE high, two events and no wait; if the first call fails the second is not issued; with the
clock already at 0 there is no edge. The model's choices: `returned` (log 7), the position an error records beside the trace index
(log 8), txn_open left alone (log 25). -/
def Obligations.BeginDrivesClockLowThenCeHigh : Prop :=
  ∀ (s : State), s.seq = none →
    ∃ t evs, exec .txnBegin s = .next t ∧ Issues s t evs ∧ HarnessFrame s t ∧ t.seq = none ∧ t.sr = s.sr ∧ t.bc = s.bc ∧
      (s.IdealFor .txnBegin → noErr evs = true) ∧
      ((evs = [.call (.set .clk false) .ok, .call (.set .rst true) .ok] ∧ t.returned = some .done ∧
          (s.pins.clk.mode = .output → t.pins.clk = { mode := .output, lvl := .low }) ∧
          (s.pins.rst.mode = .output → t.pins.rst = { mode := .output, lvl := .high }) ∧ t.pins.data = s.pins.data) ∨
        (evs = [.call (.set .clk false) .err] ∧
          t.returned = some (.error (.pinAccess (.set .clk false) s.trace.length (some { op := .txnBegin, j := 0 })))) ∨
        (evs = [.call (.set .clk false) .ok, .call (.set .rst true) .err] ∧
          t.returned = some (.error (.pinAccess (.set .rst true) (s.trace.length + 1) (some { op := .txnBegin, j := 1 }))))) ∧
      (s.pins.clk.lvl = .low → ∀ e ∈ edges s.pins evs, e = none)

/-- END (R121): its three calls in order whatever fails; it raises nothing and returns its first failure; each pin is released,
low, or UNKNOWN if its call failed; its SET of the clock is a falling edge exactly when the clock was at 1. The model's choices:
`returned` (log 7), the position an error records beside the trace index (log 8), a failed SET of the clock is no edge (log 12),
txn_open left alone (log 25). -/
def Obligations.EndReleasesThenDropsCe : Prop :=
  ∀ (s : State), s.seq = none →
    ∃ t r1 r2 r3, exec .txnEnd s = .next t ∧
      Issues s t [.call (.cfg [.data] .input none) r1, .call (.set .clk false) r2, .call (.set .rst false) r3] ∧
      HarnessFrame s t ∧ t.seq = none ∧ t.sr = s.sr ∧ t.bc = s.bc ∧
      (s.IdealFor .txnEnd → r1 = .ok ∧ r2 = .ok ∧ r3 = .ok) ∧
      t.returned = some (.endStatus
        (if r1 = .err then some (.pinAccess (.cfg [.data] .input none) s.trace.length (some { op := .txnEnd, j := 0 }))
        else if r2 = .err then some (.pinAccess (.set .clk false) (s.trace.length + 1) (some { op := .txnEnd, j := 1 }))
        else if r3 = .err then some (.pinAccess (.set .rst false) (s.trace.length + 2) (some { op := .txnEnd, j := 2 }))
        else none)) ∧
      t.pins.data = (if r1 = .err then { mode := .unknown, lvl := .x } else { mode := .input, lvl := .x }) ∧
      (s.pins.clk.mode = .output →
        t.pins.clk = (if r2 = .err then { mode := .unknown, lvl := .x } else { mode := .output, lvl := .low })) ∧
      (s.pins.rst.mode = .output →
        t.pins.rst = (if r3 = .err then { mode := .unknown, lvl := .x } else { mode := .output, lvl := .low })) ∧
      edges s.pins [.call (.cfg [.data] .input none) r1, .call (.set .clk false) r2, .call (.set .rst false) r3] =
        [none, if r2 ≠ .err ∧ s.pins.clk.lvl = .high then some .falling else none, none]

/-- TRANSACTION(body) when no call fails (R122): BEGIN, the bytes, END; it returns the bytes read, one for each RDBYTE; txn_open
is false again; 5 + 41 m events; and nothing else is written. The model's choices: what is handed back stands in `returned` (log 7);
a harness's TRANSACTION takes any body, empty, RDBYTE first, mixed, or with a first byte outside R98 (log 29). -/
def Obligations.TransactionCompletes : Prop :=
  ∀ (body : List ByteOp) (s : State), s.Idle → s.IdealFor (.transaction body) →
    ∃ t evs, Completes (.transaction body) s t evs ∧ evs.map Event.shape = transactionLayout s.cfg body ∧
      evs.length = 5 + 41 * body.length ∧ t.returned = some (.bytes (bytesOfLevels (getLevels evs))) ∧
      (getLevels evs).length = 8 * body.count .rd ∧ t.pins.data = { mode := .input, lvl := .x } ∧ HarnessFrame s t

/-- Every command row when no call fails (R90 to R97, R101): the transaction of its format, the command byte first, returning
the bytes read: one, 7 or 31 for a read row and none for a write row. The model's choices: how a row runs (log 5), `returned`
(log 7). -/
def Obligations.CommandRowsComplete : Prop :=
  ∀ (i : Instr) (s : State), isCommandRow i = true → i.wellFormed = true → s.Idle → s.IdealFor i →
    ∃ t evs body, Completes i s t evs ∧ bodyOf s.cfg i = some body ∧
      evs.map Event.shape = transactionLayout s.cfg body ∧ encode i = some (writesOf body) ∧ t.returned = some (.bytes (bytesOfLevels (getLevels evs))) ∧
      (bytesOfLevels (getLevels evs)).length =
        (match i with
          | .cmdWpRead => 1
          | .cmdTcRead => 1
          | .cmdClockBurstRead => 7
          | .cmdRamBurstRead => 31
          | _ => 0) ∧
      t.pins.data = { mode := .input, lvl := .x } ∧ HarnessFrame s t

/-- R123, R47: in a transaction with no `Err`, from a state with CE an output and the clock not at 1, `SET(PIN_RST, 1)` is the second
event, `SET(PIN_RST, 0)` the last, CE is 1 in between, every clock edge lies strictly between the two, and PIN_DATA is switched to
input two events before CE drops. And in every operation made of transactions, INIT's two among them, every clock edge finds CE at 1
and every `SET(PIN_RST, 0)` finds PIN_DATA an input. -/
def Obligations.TransactionFramesItsEdges : Prop :=
  (∀ (i : Instr) (body : List ByteOp) (s t : State) (evs : List Event), bodyOf s.cfg i = some body → exec i s = .next t →
    Issues s t evs → noErr evs = true → evs ≠ [] → s.pins.rst.mode = .output → s.pins.clk.lvl ≠ .high →
    evs.length = 5 + 41 * body.length ∧
    evs[1]? = some (.call (.set .rst true) .ok) ∧
    evs[evs.length - 1]? = some (.call (.set .rst false) .ok) ∧
    evs[evs.length - 3]? = some (.call (.cfg [.data] .input none) .ok) ∧
    (∀ k e, (edges s.pins evs)[k]? = some (some e) → 1 < k ∧ k < evs.length - 1) ∧
    (∀ k, 2 ≤ k → k < evs.length → (s.pins.replay (evs.take k)).ce = .high)) ∧
  (∀ (i : Instr) (s t : State) (evs : List Event), startsAlone i = true → exec i s = .next t → Issues s t evs → noErr evs = true →
    (i = .init ∨ s.pins.rst.mode = .output ∧ s.pins.clk.lvl ≠ .high) →
    (∀ k e, (edges s.pins evs)[k]? = some (some e) → (s.pins.replay (evs.take k)).ce = .high) ∧
    (∀ k r, evs[k]? = some (.call (.set .rst false) r) → (s.pins.replay (evs.take k)).data.mode = .input))

/-! ### The BCD codec -/

/-- R106: a codec function reads only its arguments, and CENTURY_BASE for the year adapters; it writes no state of the block and
issues no pin call (what it hands its caller is the MODEL's own field, log 7). -/
def Obligations.CodecFunctionsArePure : Prop :=
  ∀ (i : Instr), isCodecFn i = true →
    (∀ s, ∃ r, exec i s = .next { s with returned := some r }) ∧
    (∀ s s' t t', exec i s = .next t → exec i s' = .next t' → s.cfg.centuryBase = s'.cfg.centuryBase → t.returned = t'.returned) ∧
    ((∀ year, i ≠ .yyOfYear year) → (∀ yy, i ≠ .yearOfYy yy) →
      ∀ s s' t t', exec i s = .next t → exec i s' = .next t' → t.returned = t'.returned)

/-- BCD_ENC (R160): the tens digit in the high nibble and the units digit in the low one; EncodeError(v) above 99. The model's
choices: `returned` (log 7), no slot recorded (log 19). -/
def Obligations.BcdEncoderResult : Prop :=
  ∀ (v : Nat) (s : State),
    (v ≤ 99 → ∃ b : Byte, exec (.bcdEnc v) s = .next { s with returned := some (.byte b) } ∧
      b.toNat = 16 * (v / 10) + v % 10 ∧ highNibble b ≤ 9 ∧ lowNibble b ≤ 9) ∧
    (99 < v → exec (.bcdEnc v) s = .next { s with returned := some (.error (.encode none v)) })

/-- BCD_DEC (R161): 10 × b[7:4] + b[3:0]; DecodeError(BAD_DIGIT, b) when either nibble is above 9; exactly 100 bytes decode. The
model's choices: `returned` (log 7), no slot recorded (log 19). -/
def Obligations.BcdDecoderResult : Prop :=
  (∀ (b : Byte) (s : State),
    (b.toNat / 16 ≤ 9 ∧ b.toNat % 16 ≤ 9 →
      exec (.bcdDec b) s = .next { s with returned := some (.number (10 * (b.toNat / 16) + b.toNat % 16)) }) ∧
    (9 < b.toNat / 16 ∨ 9 < b.toNat % 16 →
      exec (.bcdDec b) s = .next { s with returned := some (.error (.decode none b .badDigit)) })) ∧
  ((List.range 256).filter (fun n => (bcdDecode none (BitVec.ofNat 8 n)).toOption.isSome)).length = 100

/-- R162: BCD_DEC and BCD_ENC are inverse on 0..99 and on the bytes whose nibbles are digits, so a bijection between them, and
BCD_ENC is strictly increasing. -/
def Obligations.BcdCodesAreABijection : Prop :=
  ∀ (k k' : Option Nat),
    (∀ v, v ≤ 99 → ∃ b, bcdEncode k v = .ok b ∧ bcdDecode k' b = .ok v ∧ highNibble b ≤ 9 ∧ lowNibble b ≤ 9) ∧
    (∀ b, highNibble b ≤ 9 → lowNibble b ≤ 9 → ∃ v, v ≤ 99 ∧ bcdDecode k' b = .ok v ∧ bcdEncode k v = .ok b) ∧
    (∀ v w b c, bcdEncode k v = .ok b → bcdEncode k w = .ok c → (v < w ↔ b.toNat < c.toNat))

/-- FRAME_ENC (R164, under the ranges of R163): every field in range, slot k is the BCD code of component k; else EncodeError(k,
cv[k]) for the first slot out of range. The value is handed back in `returned`, the model's (log 7). -/
def Obligations.FrameEncoderResult : Prop :=
  ∀ (cv : Calendar) (s : State),
    (validCalendar cv → ∃ f, exec (.frameEnc cv) s = .next { s with returned := some (.frame f) } ∧
      ∀ k, k < 7 → bcdEncode none (fieldOf cv k) = .ok (slotOf f k)) ∧
    (∀ k, k < 7 → (∀ j, j < k → inRange j (fieldOf cv j)) → ¬ inRange k (fieldOf cv k) →
      exec (.frameEnc cv) s = .next { s with returned := some (.error (.encode (some k) (fieldOf cv k))) })

/-- FRAME_DEC (R165, under the ranges of R163): every slot decodes to a value in range, component k is it; else DecodeError(k,
raw[k], reason) for the first failing slot, BAD_DIGIT for a nibble above 9 and OUT_OF_RANGE for a value outside the range. The
value is handed back in `returned`, the model's (log 7). -/
def Obligations.FrameDecoderResult : Prop :=
  ∀ (raw : Frame) (s : State),
    ((∀ k, k < 7 → ∃ v, bcdDecode none (slotOf raw k) = .ok v ∧ inRange k v) →
      ∃ cv, exec (.frameDec raw) s = .next { s with returned := some (.calendar cv) } ∧
        ∀ k, k < 7 → bcdDecode none (slotOf raw k) = .ok (fieldOf cv k)) ∧
    (∀ k, k < 7 → (∀ j, j < k → ∃ v, bcdDecode none (slotOf raw j) = .ok v ∧ inRange j v) →
      ((9 < highNibble (slotOf raw k) ∨ 9 < lowNibble (slotOf raw k)) →
        exec (.frameDec raw) s = .next { s with returned := some (.error (.decode (some k) (slotOf raw k) .badDigit)) }) ∧
      (∀ v, bcdDecode none (slotOf raw k) = .ok v → ¬ inRange k v →
        exec (.frameDec raw) s = .next { s with returned := some (.error (.decode (some k) (slotOf raw k) .outOfRange)) }))

/-- R168: FRAME_DEC(FRAME_ENC(cv)) = cv for every calendar value within its ranges, and FRAME_ENC(FRAME_DEC(raw)) = raw for every
frame FRAME_DEC accepts. -/
def Obligations.FrameRoundTrip : Prop :=
  (∀ cv, validCalendar cv → ∃ f, frameEncode cv = .ok f ∧ frameDecode f = .ok cv) ∧
  (∀ raw cv, frameDecode raw = .ok cv → validCalendar cv ∧ frameEncode cv = .ok raw)

/-- The year adapters (R166, R167), under any CENTURY_BASE: YY_OF_YEAR on the anchored century and EncodeError(6, year) outside
it; YEAR_OF_YY adds the base; and one undoes the other. The value is handed back in `returned`, the model's (log 7). -/
def Obligations.YearAdaptersResult : Prop :=
  ∀ (s : State),
    (∀ year, s.cfg.centuryBase ≤ year → year ≤ s.cfg.centuryBase + 99 → ∃ yy, yy ≤ 99 ∧ s.cfg.centuryBase + yy = year ∧
      exec (.yyOfYear year) s = .next { s with returned := some (.number yy) } ∧
      exec (.yearOfYy yy) s = .next { s with returned := some (.number year) }) ∧
    (∀ year, year < s.cfg.centuryBase ∨ s.cfg.centuryBase + 99 < year →
      exec (.yyOfYear year) s = .next { s with returned := some (.error (.encode (some 6) year)) }) ∧
    (∀ yy, yy ≤ 99 → exec (.yearOfYy yy) s = .next { s with returned := some (.number (s.cfg.centuryBase + yy)) })

/-! ### The data operations -/

/-- R194: outside READY a data operation is refused with LifecycleError, issues no pin call, and writes nothing but `result` (the
sequencer is at rest before and after). -/
def Obligations.DataOpsAreGated : Prop :=
  ∀ (i : Instr) (op : Op) (s : State), isDataOp i = true → opOf i = some op → s.Idle → s.lifecycle ≠ .ready →
    exec i s = .next { s with result := some (.error (.lifecycle op s.lifecycle s.initAttempted)) }

/-- READ_DATETIME in READY when no call fails (R190): 333 events, 7 bytes read into BUF[0..6], the result FRAME_DEC of them.
BUF's other cells are free values (log 3). -/
def Obligations.ReadDatetimeCompletes : Prop :=
  ∀ (s : State), s.Idle → s.lifecycle = .ready → s.IdealFor .readDatetime →
    ∃ t evs raw, Completes .readDatetime s t evs ∧ evs.length = 333 ∧
      raw.toList = bytesOfLevels (getLevels evs) ∧ t.buf.length = 31 ∧ t.buf.take 7 = raw.toList ∧
      t.result = some (match frameDecode raw with
        | .ok cv => .ok (.calendar cv)
        | .error e => .error e) ∧
      t.pins.data = { mode := .input, lvl := .x } ∧ t.lifecycle = .ready ∧ t.initAttempted = s.initAttempted ∧ HostFrame s t

/-- WRITE_DATETIME(cv) in READY when no call fails (R191): 415 events, the bytes BE, the frame of cv, PAD_BYTE twice; the frame
stands in BUF[0..6]; the result is Ok. BUF's other cells are free values (log 3). -/
def Obligations.WriteDatetimeCompletes : Prop :=
  ∀ (cv : Calendar) (f : Frame) (s : State), frameEncode cv = .ok f → s.Idle → s.lifecycle = .ready →
    s.IdealFor (.writeDatetime cv) →
    ∃ t evs, Completes (.writeDatetime cv) s t evs ∧ evs.length = 415 ∧
      evs.map Event.shape = transactionLayout s.cfg
        (([0xBE#8] ++ f.toList ++ [s.cfg.padByte, s.cfg.padByte]).map .wr) ∧
      t.buf.length = 31 ∧ t.buf.take 7 = f.toList ∧ t.result = some (.ok .none) ∧
      t.pins.data = { mode := .input, lvl := .x } ∧ t.lifecycle = .ready ∧ t.initAttempted = s.initAttempted ∧ HostFrame s t

/-- WRITE_DATETIME in READY of a value with a field out of range (R191, R249): EncodeError of the first such slot, no event, and
no register but `result` and BUF's unspecified cells is written. Those are free values (log 3). -/
def Obligations.WriteDatetimeRefusesBadFields : Prop :=
  ∀ (cv : Calendar) (k : Nat) (s : State), s.Idle → s.lifecycle = .ready → k < 7 → (∀ j, j < k → inRange j (fieldOf cv j)) →
    ¬ inRange k (fieldOf cv k) →
    ∃ t, exec (.writeDatetime cv) s = .next t ∧ t.result = some (.error (.encode (some k) (fieldOf cv k))) ∧
      Issues s t [] ∧ t.seq = none ∧ t.sr = s.sr ∧ t.bc = s.bc ∧ t.lifecycle = .ready ∧ t.initAttempted = s.initAttempted ∧
      HostFrame s t

/-- READ_RAM in READY when no call fails (R192): 1317 events, the result the 31 bytes read, which are in BUF[0..30]. BUF starts
as free values (log 3). -/
def Obligations.ReadRamCompletes : Prop :=
  ∀ (s : State), s.Idle → s.lifecycle = .ready → s.IdealFor .readRam →
    ∃ t evs blk, Completes .readRam s t evs ∧ evs.length = 1317 ∧ blk = bytesOfLevels (getLevels evs) ∧ blk.length = 31 ∧
      t.buf = blk ∧ t.result = some (.ok (.bytes blk)) ∧
      t.pins.data = { mode := .input, lvl := .x } ∧ t.lifecycle = .ready ∧ t.initAttempted = s.initAttempted ∧ HostFrame s t

/-- WRITE_RAM(block) in READY when no call fails (R193, R44): with n = min(length, 31), 46 + 41 n events, the bytes FE and the
first n of the block, which stand in BUF[0..n-1]; `truncated` is true exactly when the block is longer than 31 bytes. -/
def Obligations.WriteRamCompletes : Prop :=
  ∀ (block : List Byte) (s : State), s.Idle → s.lifecycle = .ready → s.IdealFor (.writeRam block) →
    ∃ t evs, Completes (.writeRam block) s t evs ∧ evs.length = 46 + 41 * min block.length 31 ∧
      evs.map Event.shape = transactionLayout s.cfg ((0xFE#8 :: block.take 31).map .wr) ∧
      t.buf.length = 31 ∧ t.buf.take (min block.length 31) = block.take 31 ∧
      t.result = some (.ok (.truncated (decide (31 < block.length)))) ∧
      t.pins.data = { mode := .input, lvl := .x } ∧ t.lifecycle = .ready ∧ t.initAttempted = s.initAttempted ∧ HostFrame s t

/-- R195: a data operation issues at most 1317 events and opens at most one transaction, whatever fails. -/
def Obligations.DataOpsAreBounded : Prop :=
  ∀ (i : Instr) (s t : State) (evs : List Event), isDataOp i = true → exec i s = .next t → Issues s t evs →
    evs.length ≤ 1317 ∧ (evs.map Event.shape).count (.call (.set .rst true)) ≤ 1

/-! ### The lifecycle -/

/-- INIT from UNINIT, not attempted before, when no call fails (R220): 175 events, the CFG of clock and CE as outputs at
0, then the transactions 8E 00 and 90 00; it ends READY, result Ok, the pins as R46 says. That BUF stands is the model's
choice, log 3. -/
def Obligations.InitCompletes : Prop :=
  ∀ (s : State), s.Idle → s.lifecycle = .uninit → s.initAttempted = false → s.IdealFor .init →
    ∃ t evs, Completes .init s t evs ∧ evs.length = 175 ∧
      evs.map Event.shape = .call (.cfg [.clk, .rst] .output (some .low)) ::
        (transactionLayout s.cfg [.wr 0x8E#8, .wr 0x00#8] ++ transactionLayout s.cfg [.wr 0x90#8, .wr 0x00#8]) ∧
      t.lifecycle = .ready ∧ t.initAttempted = true ∧ t.result = some (.ok .none) ∧ t.sr = 0x00#8 ∧ t.bc = 8 ∧
      t.pins = { clk := { mode := .output, lvl := .low }, data := { mode := .input, lvl := .x },
                 rst := { mode := .output, lvl := .low } } ∧
      t.buf = s.buf ∧ t.opCount = s.opCount ∧ HostFrame s t

/-- INIT's guard and its failures (R220, R32): refused with LifecycleError when attempted before or not in UNINIT; after any
failure the block stays UNINIT with init_attempted true, so no later INIT runs. -/
def Obligations.InitRunsAtMostOnce : Prop :=
  (∀ (s : State), s.Idle → (s.lifecycle ≠ .uninit ∨ s.initAttempted = true) →
    exec .init s = .next { s with result := some (.error (.lifecycle .init s.lifecycle s.initAttempted)) }) ∧
  (∀ (s t : State), s.Idle → s.lifecycle = .uninit → s.initAttempted = false → exec .init s = .next t →
    t.initAttempted = true ∧ (t.lifecycle = .ready ↔ t.result = some (.ok .none)) ∧
    (t.lifecycle ≠ .ready → t.lifecycle = .uninit ∧
      exec .init t = .next { t with result := some (.error (.lifecycle .init .uninit true)) }))

/-- TEARDOWN (R221): nothing but Ok in CLOSED; else CLOSED first, then one REL of the three pins, UNCONF on success; CLOSED all
the same when it fails. The model's choices: BUF stands (log 3), the position the error records beside the trace index (log 8). -/
def Obligations.TeardownReleasesOnce : Prop :=
  ∀ (s : State), s.Idle →
    (s.lifecycle = .closed → exec .teardown s = .next { s with result := some (.ok .none) }) ∧
    (s.lifecycle ≠ .closed → ∃ t r, exec .teardown s = .next t ∧ Issues s t [.call (.rel [.clk, .data, .rst]) r] ∧
      (s.IdealFor .teardown → r = .ok) ∧
      t.lifecycle = .closed ∧ t.initAttempted = s.initAttempted ∧ t.seq = none ∧ t.sr = s.sr ∧ t.bc = s.bc ∧ t.buf = s.buf ∧
      t.opCount = s.opCount ∧ HostFrame s t ∧
      (r = .ok → t.result = some (.ok .none) ∧
        ∀ p, t.pins.at p = { mode := .unconf, lvl := .x }) ∧
      (r ≠ .ok → t.result = some (.error (.pinAccess (.rel [.clk, .data, .rst]) s.trace.length
        (some { op := .teardown, j := 0 }))) ∧ ∀ p, t.pins.at p = { mode := .unknown, lvl := .x }))

/-- R222: the lifecycle moves only as the table says, at every instruction; and once an INIT was attempted it stays so. -/
def Obligations.LifecycleMovesAsTheTable : Prop :=
  ∀ (i : Instr) (s t : State), exec i s = .next t →
    s.lifecycle.mayBecome t.lifecycle = true ∧ (s.initAttempted = true → t.initAttempted = true) ∧
    (i = .init → s.permitsInit = true → t.initAttempted = true ∧
      t.lifecycle = (if t.result = some (.ok .none) then .ready else .uninit)) ∧
    (i = .init → s.permitsInit = false → t.lifecycle = s.lifecycle ∧ t.trace = s.trace ∧
      t.result = some (.error (.lifecycle .init s.lifecycle s.initAttempted))) ∧
    (isDataOp i = true → t.lifecycle = s.lifecycle ∧ (s.lifecycle ≠ .ready → t.trace = s.trace ∧
      ∃ op, t.result = some (.error (.lifecycle op s.lifecycle s.initAttempted)))) ∧
    (i = .teardown → t.lifecycle = .closed ∧
      (if s.lifecycle = .closed then t.trace = s.trace
        else ∃ r, t.trace = s.trace ++ [.call (.rel [.clk, .data, .rst]) r])) ∧
    (isHostOp i = false → t.lifecycle = s.lifecycle)

/-! ### Errors -/

/-- Errors are precise: the trace of a failed operation is R250's, and the error records the failing call and its trace index
(60_exceptions.md R241, R250). The model's choice: the position recorded beside the index (log 8). -/
def Obligations.ErrorsArePrecise : Prop :=
  ∀ (i : Instr) (s t : State), exec i s = .next t → ∃ evs, Issues s t evs ∧ s.traceFits i evs (t.reported i)

/-- R249: of the errors that apply to one host operation exactly one is reported: LifecycleError before all, with no event; for
WRITE_DATETIME, EncodeError of the lowest bad slot, with no event; then the first failing pin call; DecodeError only when no call
failed, of the lowest bad slot as FRAME_DEC reports it; and the flag `truncated` only with an Ok. -/
def Obligations.ErrorPrecedence : Prop :=
  ∀ (i : Instr) (s t : State) (evs : List Event), isHostOp i = true → exec i s = .next t → Issues s t evs →
    (isDataOp i = true → ((∃ op lc a, t.result = some (.error (.lifecycle op lc a))) ↔ s.lifecycle ≠ .ready)) ∧
    (i = .init → ((∃ op lc a, t.result = some (.error (.lifecycle op lc a))) ↔ s.permitsInit = false)) ∧
    (∀ op lc a, t.result = some (.error (.lifecycle op lc a)) → evs = []) ∧
    (∀ cv, i = .writeDatetime cv → s.lifecycle = .ready → ¬ validCalendar cv → evs = [] ∧
      ∃ k, k < 7 ∧ (∀ j, j < k → inRange j (fieldOf cv j)) ∧ ¬ inRange k (fieldOf cv k) ∧
        t.result = some (.error (.encode (some k) (fieldOf cv k)))) ∧
    (∀ n c, firstErr evs = some (n, c) → ∃ pos, t.result = some (.error (.pinAccess c (s.trace.length + n) pos))) ∧
    (firstErr evs = none → ∀ c idx pos, t.result ≠ some (.error (.pinAccess c idx pos))) ∧
    (∀ k b why, t.result = some (.error (.decode k b why)) → i = .readDatetime ∧ firstErr evs = none ∧
      ∃ raw : Frame, raw.toList = bytesOfLevels (getLevels evs) ∧ frameDecode raw = .error (.decode k b why)) ∧
    (∀ b, t.result = some (.ok (.truncated b)) → firstErr evs = none ∧
      ∃ block, i = .writeRam block ∧ b = decide (31 < block.length))

/-- After every host operation, failed or not, the block is idle with no transaction open and has exactly one result, and what a
harness was handed is untouched; after an error the lifecycle is what it was, but for TEARDOWN, which closes all the same; a failed
INIT leaves init_attempted true; and the next host operation is not blocked (R251, R252). -/
def Obligations.HostOpsLeaveTheBlockIdle : Prop :=
  ∀ (i : Instr) (s t : State), isHostOp i = true → exec i s = .next t →
    t.Idle ∧ t.result.isSome = true ∧ t.returned = s.returned ∧ t.requests = s.requests ∧
    (t.reported i ≠ none → i ≠ .teardown → t.lifecycle = s.lifecycle) ∧
    (t.reported i ≠ none → i = .init → t.initAttempted = true ∨ s.lifecycle ≠ .uninit) ∧
    (∀ i', ∃ u, exec i' t = .next u)

/-- R291: the events and waits of each host operation under an ideal capability, and so the least time it takes, in the unit of
T_SETTLE. -/
def Obligations.EventAndWaitCounts : Prop :=
  ∀ (i : Instr) (s t : State) (evs : List Event), exec i s = .next t → Issues s t evs → noErr evs = true →
    (i = .init → s.permitsInit = true → evs.length = 175 ∧ waitTotal evs = 64 * s.cfg.tSettle) ∧
    (i = .readDatetime → s.lifecycle = .ready → evs.length = 333 ∧ waitTotal evs = 128 * s.cfg.tSettle) ∧
    (∀ cv, i = .writeDatetime cv → validCalendar cv → s.lifecycle = .ready →
      evs.length = 415 ∧ waitTotal evs = 160 * s.cfg.tSettle) ∧
    (i = .readRam → s.lifecycle = .ready → evs.length = 1317 ∧ waitTotal evs = 512 * s.cfg.tSettle) ∧
    (∀ block, i = .writeRam block → s.lifecycle = .ready → evs.length = 46 + 41 * min block.length 31 ∧
      waitTotal evs = 16 * (1 + min block.length 31) * s.cfg.tSettle) ∧
    (i = .teardown → evs.length = (if s.lifecycle = .closed then 0 else 1) ∧ waitTotal evs = 0)

/-- R143: every wait of every operation is `wait(T_SETTLE)`, and WRBYTE and RDBYTE have 2 a bit and 16 a byte. -/
def Obligations.EveryWaitIsTheSettleDelay : Prop :=
  (∀ (i : Instr) (s t : State) (evs : List Event), exec i s = .next t → Issues s t evs →
    ∀ w, .wait w ∈ evs → w = s.cfg.tSettle) ∧
  (∀ (v : Byte) (s : State), waitCount (eventLayout s.cfg (.wrByte v)) = 16 ∧ waitCount (eventLayout s.cfg .rdByte) = 16 ∧
    ∀ b, waitCount (writeCellLayout s.cfg b) = 2 ∧ waitCount (readCellLayout s.cfg) = 2)

/-! ### Invariants, reset, and what is not read -/

/-- The invariant `State.Inv` holds of every state a step reaches from one where it holds. The form of the storage is the
model's, log 14. -/
def Obligations.StepKeepsInv : Prop := ∀ (s t : State), s.Inv → step s = .next t → t.Inv

/-- It holds at reset. It rests on the model's reset values of BC and BUF, log 2 and log 3. -/
def Obligations.ResetMeetsInv : Prop := State.reset.Inv

/-- R270: the fields the spec gives a reset value have it (SR, BC and BUF, which it leaves unspecified, are not named here). -/
def Obligations.ResetValues : Prop :=
  State.reset.lifecycle = .uninit ∧ State.reset.initAttempted = false ∧ State.reset.txnOpen = false ∧
  (∀ p, State.reset.pins.at p = { mode := .unconf, lvl := .x }) ∧ State.reset.trace = [] ∧ State.reset.result = none ∧
  State.reset.seq = none

/-- R46: the shadow between host operations when no pin call was ever answered `Err`: it holds at reset, and every host operation
that meets no `Err` keeps it. -/
def Obligations.QuietShadowIsKept : Prop :=
  State.reset.QuietShadow ∧
  ∀ (i : Instr) (s t : State) (evs : List Event), isHostOp i = true → s.QuietShadow → exec i s = .next t → Issues s t evs →
    noErr evs = true → t.QuietShadow ∧ t.txnOpen = false

/-- No rule reads SR, BC or BUF before it writes them (R34, R36): what they hold before an operation shows in nothing but
themselves after it. The free values of BUF are the model's form of "unspecified", log 3. -/
def Obligations.HiddenRegistersAreUnread : Prop :=
  ∀ (i : Instr) (s t : State) (sr : Byte) (bc : Nat) (buf : List Byte), exec i s = .next t →
    ∃ t', exec i (s.withHidden sr bc buf) = .next t' ∧ t'.withHidden t.sr t.bc t.buf = t ∧
      (isDataOp i = true → s.lifecycle = .ready → t'.buf = t.buf)

/-- "GPIO_HANDLE is opaque": no rule reads it (00_scope.md R8). -/
def Obligations.GpioHandleIsUnread : Prop :=
  ∀ (s t : State) (h : Nat), step s = .next t →
    step { s with cfg := { s.cfg with gpioHandle := h } } = .next { t with cfg := { t.cfg with gpioHandle := h } }

/-! ### The counterpart's storage -/

/-- Storage the instruction does not store to is unchanged: every address of the attached counterpart but those of `slotsOf i`,
also where a transaction that failed still stands open at it (20_memory.md R82, R83, R85; 70_reset_and_hazards.md R287). The
addresses and some corners are the model's, log 14, log 12 and log 13. -/
def Obligations.StorageOutsideStoredSlotsStands : Prop :=
  ∀ (i : Instr) (s t : State) (a : Nat), exec i s = .next t →
    (∀ r k, (r, k) ∈ s.slotsOf i → a ≠ r.base + k) → t.env.storage.read a = s.env.storage.read a

/-- The read rows hand back what the counterpart holds (20_memory.md R82), also after a transaction that failed and stands open at it:
the fresh transaction resumes nothing (R85, 70_reset_and_hazards.md R287). How a row runs is the model's, log 5 and log 13. -/
def Obligations.ReadRowsReturnStorage : Prop :=
  ∀ (s : State) (chip : Chip), s.ReadyWithChip chip →
    (∃ t, exec .cmdWpRead s = .next t ∧ t.returned = some (.bytes [chip.mem.readSlot .wp 0])) ∧
    (∃ t, exec .cmdTcRead s = .next t ∧ t.returned = some (.bytes [chip.mem.readSlot .tc 0])) ∧
    (∃ t, exec .cmdClockBurstRead s = .next t ∧ t.returned = some (.bytes ((List.range 7).map (chip.mem.readSlot .clock)))) ∧
    (∃ t, exec .cmdRamBurstRead s = .next t ∧ t.returned = some (.bytes ((List.range 31).map (chip.mem.readSlot .ram))))

/-- The write rows store what they carry (20_memory.md R83): WP whatever it held; the others when WP is 0x00, and nothing when
it is not; also after a transaction that failed and stands open at the counterpart (R85, 70_reset_and_hazards.md R287). How a row runs
is the model's, log 5 and log 13. -/
def Obligations.WriteRowsStoreTheirData : Prop :=
  ∀ (s : State) (chip : Chip), s.ReadyWithChip chip →
    (∀ d, ∃ t, exec (.cmdWpWrite d) s = .next t ∧ t.env.slot .wp 0 = d) ∧
    (∀ d, ∃ t, exec (.cmdTcWrite d) s = .next t ∧
      t.env.slot .tc 0 = (if chip.mem.readSlot .wp 0 = 0x00#8 then d else chip.mem.readSlot .tc 0)) ∧
    (∀ f p q, ∃ t, exec (.cmdClockBurstWrite f p q) s = .next t ∧ ∀ k, k < 7 →
      t.env.slot .clock k = (if chip.mem.readSlot .wp 0 = 0x00#8 then slotOf f k else chip.mem.readSlot .clock k)) ∧
    (∀ data : List Byte, data.length ≤ 31 → ∃ t, exec (.cmdRamBurstWrite data) s = .next t ∧ ∀ k, k < 31 →
      t.env.slot .ram k = (if chip.mem.readSlot .wp 0 = 0x00#8 ∧ k < data.length then data.getD k 0#8
        else chip.mem.readSlot .ram k))

/-- The end-to-end property of 43_register_codec.md R197, for every valid calendar value, whatever an earlier failure left open at the
counterpart. That part is no clause of R197: the next transaction starts afresh (20_memory.md R85, 70_reset_and_hazards.md R287), by the
model's reading, log 13 (DEDUCED). -/
def Obligations.DatetimeWrittenIsReadBack : Prop :=
  ∀ (cv : Calendar) (s : State) (chip : Chip), validCalendar cv → s.ReadyWithChip chip → chip.mem.readSlot .wp 0 = 0x00#8 →
    ∃ t u, exec (.writeDatetime cv) s = .next t ∧ t.result = some (.ok .none) ∧
      exec .readDatetime t = .next u ∧ u.result = some (.ok (.calendar cv))

/-- The RAM truncation property of 43_register_codec.md R196, whatever an earlier failure left open at the counterpart. That part is no
clause of R196: the next transaction starts afresh (20_memory.md R85, 70_reset_and_hazards.md R287), by the model's reading, log 13
(DEDUCED). -/
def Obligations.RamWritesTruncateAndKeepTheRest : Prop :=
  ∀ (a b : List Byte) (s : State) (chip : Chip), a.length = 40 → b.length = 10 → s.ReadyWithChip chip →
    chip.mem.readSlot .wp 0 = 0x00#8 →
    ∃ t u, exec (.writeRam a) s = .next t ∧ t.result = some (.ok (.truncated true)) ∧
      (∀ k, k < 31 → t.env.slot .ram k = a.getD k 0#8) ∧
      exec (.writeRam b) t = .next u ∧ u.result = some (.ok (.truncated false)) ∧
      (∀ k, k < 10 → u.env.slot .ram k = b.getD k 0#8) ∧ (∀ k, 10 ≤ k → k < 31 → u.env.slot .ram k = t.env.slot .ram k)

/-- R70, R191, R193, R220: whatever calls fail, a host operation that writes has changed a prefix of the slots it was writing, in
their order, and nothing else: WRITE_RAM the first slots of RAM, WRITE_DATETIME those of CLOCK 0 to 6, to the BCD codes of its fields,
INIT first WP and then TC, to 0x00. The whole of them when it ends Ok (with the clock an output and WP 0x00, for the first two). That a
failed call reaches nothing is the model's reading, log 12 and log 13. -/
def Obligations.WritesReachAPrefix : Prop :=
  ∀ (s t : State) (chip : Chip), s.env.device = .counterpart chip → chip.mem.wf = true →
    (∀ block, exec (.writeRam block) s = .next t →
      ∃ m, m ≤ min block.length 31 ∧ (∀ k, k < m → t.env.slot .ram k = block.getD k 0#8) ∧
        (∀ k, m ≤ k → k < 31 → t.env.slot .ram k = chip.mem.readSlot .ram k) ∧
        (∀ r k, r ≠ .ram → k < r.size → t.env.slot r k = chip.mem.readSlot r k) ∧
        ((∃ b, t.result = some (.ok (.truncated b))) → s.pins.clk.mode = .output → chip.mem.readSlot .wp 0 = 0x00#8 →
          m = min block.length 31)) ∧
    (∀ cv, exec (.writeDatetime cv) s = .next t →
      ∃ m, m ≤ 7 ∧ (∀ k, k < m → bcdEncode none (fieldOf cv k) = .ok (t.env.slot .clock k)) ∧
        (∀ k, m ≤ k → k < 9 → t.env.slot .clock k = chip.mem.readSlot .clock k) ∧
        (∀ r k, r ≠ .clock → k < r.size → t.env.slot r k = chip.mem.readSlot r k) ∧
        (t.result = some (.ok .none) → s.pins.clk.mode = .output → chip.mem.readSlot .wp 0 = 0x00#8 → m = 7)) ∧
    (exec .init s = .next t →
      ∃ m, m ≤ 2 ∧ t.env.slot .wp 0 = (if 1 ≤ m then 0x00#8 else chip.mem.readSlot .wp 0) ∧
        t.env.slot .tc 0 = (if m = 2 then 0x00#8 else chip.mem.readSlot .tc 0) ∧
        (∀ r k, r ≠ .wp → r ≠ .tc → k < r.size → t.env.slot r k = chip.mem.readSlot r k) ∧
        (t.result = some (.ok .none) → m = 2))

/-- INIT clears the write protection and then the charge control of an ideal counterpart (R220, 20_memory.md R63, R64), whatever it
held and whatever stood open at it. That the transaction then starts afresh (20_memory.md R85, 70_reset_and_hazards.md R287) is the
model's reading, log 13 (DEDUCED). -/
def Obligations.InitClearsProtection : Prop :=
  ∀ (s : State) (chip : Chip), s.Idle → s.lifecycle = .uninit → s.initAttempted = false → s.env.device = .counterpart chip →
    s.env.plan = [] → chip.mem.wf = true →
    ∃ t, exec .init s = .next t ∧ t.result = some (.ok .none) ∧ t.env.slot .wp 0 = 0x00#8 ∧ t.env.slot .tc 0 = 0x00#8
end

