-- ==== Sys2Proof/Laws/Codec.lean ====
section
/-! SUPPORT. The BCD codec, once: digits, ranges, and frames slot by slot (42_bcd_codec.md). -/

namespace Sys2Proof.Machine

/-- The code of a value: tens in the high nibble, units in the low one (R160). -/
theorem bcdCode_toNat (v : Nat) (h : v ≤ 99) : (bcdCode v).toNat = 16 * (v / 10) + v % 10 := by
  interval_cases v <;> rfl

/-- The tens digit of a byte. -/
theorem highNibble_eq (b : Byte) : highNibble b = b.toNat / 16 := by
  unfold highNibble
  have := b.isLt
  simp [BitVec.extractLsb'_toNat, Nat.shiftRight_eq_div_pow]; omega

/-- The units digit of a byte. -/
theorem lowNibble_eq (b : Byte) : lowNibble b = b.toNat % 16 := by
  unfold lowNibble
  simp [BitVec.extractLsb'_toNat]

/-- Decoding a code gives its value back (R162). -/
theorem bcdDecode_bcdCode (k : Option Nat) (v : Nat) (h : v ≤ 99) : bcdDecode k (bcdCode v) = .ok v := by
  unfold bcdDecode
  rw [highNibble_eq, lowNibble_eq, bcdCode_toNat v h, if_neg (by omega)]
  congr 1; omega

/-- Encoding the value of two digits gives the byte back (R162). -/
theorem bcdCode_of_digits (b : Byte) (h1 : highNibble b ≤ 9) (h2 : lowNibble b ≤ 9) : bcdCode (10 * highNibble b + lowNibble b) = b := by
  apply BitVec.eq_of_toNat_eq
  rw [bcdCode_toNat _ (by omega)]
  rw [highNibble_eq, lowNibble_eq] at *
  omega

/-- The range check of the meanings is the range of R163. -/
theorem fieldInRange_iff (k v : Nat) (hk : k < 7) : fieldInRange k v = true ↔ inRange k v := by
  interval_cases k <;> simp [fieldInRange, inRange, fieldMin, fieldMax, rangeTable]

/-- Every range of R163 lies in 0..99. -/
theorem inRange_le (k v : Nat) (h : inRange k v) : v ≤ 99 := by
  by_cases hk : k < 7
  · unfold inRange at h; interval_cases k <;> simp [rangeTable] at h <;> omega
  · have h1 : rangeTable.getD k (1,0) = (1,0) := by
      rw [List.getD_eq_getElem?_getD, List.getElem?_eq_none (by simp [rangeTable]; omega)]; rfl
    unfold inRange at h; rw [h1] at h; simp only at h; omega

/-- No field is reported exactly when every field is in range (R164). -/
theorem firstBadField_none (k : Nat) (vs : List Nat) :
    firstBadField k vs = none ↔ ∀ j (h : j < vs.length), fieldInRange (k + j) vs[j] = true := by
  induction vs generalizing k with
  | nil => simp [firstBadField]
  | cons v vs ih =>
    unfold firstBadField
    by_cases h : fieldInRange k v = true
    · rw [if_pos h, ih]
      constructor
      · intro hh j hj
        cases j with
        | zero => exact h
        | succ j => have := hh j (by simpa using hj); simp only [List.getElem_cons_succ]; rwa [show k + (j+1) = k + 1 + j by omega]
      · intro hh j hj
        have := hh (j+1) (by simpa using hj); simp only [List.getElem_cons_succ] at this; rwa [show k + (j+1) = k + 1 + j by omega] at this
    · simp only [h]
      constructor
      · intro hh; cases hh
      · intro hh; exact absurd (hh 0 (by simp)) h

/-- The field reported is the first out of range (R164). -/
theorem firstBadField_some (k : Nat) (vs : List Nat) (j : Nat) (hj : j < vs.length) (hb : fieldInRange (k + j) vs[j] = false)
    (hok : ∀ i (h : i < j), fieldInRange (k + i) (vs[i]'(by omega)) = true) : firstBadField k vs = some (.encode (some (k + j)) vs[j]) := by
  induction vs generalizing k j with
  | nil => simp at hj
  | cons v vs ih =>
    unfold firstBadField
    cases j with
    | zero => simp at hb; simp [hb]
    | succ j =>
      have h0 := hok 0 (by omega)
      simp at h0
      rw [if_pos h0]
      have := ih (k+1) j (by simpa using hj) (by simp only [List.getElem_cons_succ] at hb; rwa [show k + 1 + j = k + (j+1) by omega])
        (fun i hi => by have := hok (i+1) (by omega); simp only [List.getElem_cons_succ] at this; rwa [show k + 1 + i = k + (i+1) by omega])
      rw [this]; simp only [List.getElem_cons_succ]; rw [show k + 1 + j = k + (j+1) by omega]

/-- The fields of a calendar value in slot order. -/
theorem calendarFields_get (cv : Calendar) (j : Nat) (h : j < (calendarFields cv).length) : (calendarFields cv)[j] = fieldOf cv j := by
  have : j < 7 := h
  interval_cases j <;> rfl

/-- FRAME_ENC of a value within its ranges (R164). -/
theorem frameEncode_valid (cv : Calendar) (h : validCalendar cv) : frameEncode cv = .ok ⟨bcdCode cv.sec, bcdCode cv.min, bcdCode cv.hour, bcdCode cv.day, bcdCode cv.month, bcdCode cv.wday, bcdCode cv.yy⟩ := by
  unfold frameEncode
  have : firstBadField 0 (calendarFields cv) = none := by
    rw [firstBadField_none]
    intro j hj
    rw [calendarFields_get, Nat.zero_add, fieldInRange_iff _ _ hj]
    exact h j hj
  rw [this]

/-- FRAME_ENC of a value with a first field out of range (R164). -/
theorem frameEncode_bad (cv : Calendar) (k : Nat) (hk : k < 7) (hok : ∀ j, j < k → inRange j (fieldOf cv j)) (hb : ¬ inRange k (fieldOf cv k)) :
    frameEncode cv = .error (.encode (some k) (fieldOf cv k)) := by
  unfold frameEncode
  have hk' : k < (calendarFields cv).length := hk
  have := firstBadField_some 0 (calendarFields cv) k hk' (by rw [calendarFields_get, Nat.zero_add]; rw [← fieldInRange_iff _ _ hk] at hb; simpa using hb)
    (fun i hi => by rw [calendarFields_get, Nat.zero_add, fieldInRange_iff _ _ (by omega)]; exact hok i hi)
  rw [this, calendarFields_get, Nat.zero_add]

/-- A slot whose value is in range decodes to it (R165). -/
theorem fieldDecode_ok (k : Nat) (b : Byte) (v : Nat) (hk : k < 7) (h : bcdDecode none b = .ok v) (hr : inRange k v) : fieldDecode k b = .ok v := by
  unfold bcdDecode at h
  unfold fieldDecode bcdDecode
  split at h <;> rename_i hh <;> cases h
  simp only [hh, if_false]
  rw [if_pos ((fieldInRange_iff k _ hk).2 hr)]

/-- A slot that decodes is the code of a value in range (R165, R162). -/
theorem fieldDecode_inv (k : Nat) (b : Byte) (v : Nat) (hk : k < 7) (h : fieldDecode k b = .ok v) : inRange k v ∧ v ≤ 99 ∧ bcdCode v = b := by
  unfold fieldDecode bcdDecode at h
  split at h
  · cases h
  · rename_i w hw
    split at hw
    · cases hw
    · cases hw
      split at h
      · cases h
        rename_i h1 h2
        refine ⟨(fieldInRange_iff k _ hk).1 h2, by omega, bcdCode_of_digits b (by omega) (by omega)⟩
      · cases h

/-- Slots decode one by one (R165). -/
theorem fieldsDecode_ok (k : Nat) (bs : List Byte) (vs : List Nat) (hl : bs.length = vs.length) (h : ∀ j (h : j < bs.length), fieldDecode (k + j) bs[j] = .ok (vs[j]'(by omega))) :
    fieldsDecode k bs = .ok vs := by
  induction bs generalizing k vs with
  | nil => cases vs with | nil => rfl | cons => simp at hl
  | cons b bs ih =>
    cases vs with
    | nil => simp at hl
    | cons v vs =>
      unfold fieldsDecode
      have h0 := h 0 (by simp)
      simp at h0
      rw [h0]
      rw [ih (k+1) vs (by simpa using hl) (fun j hj => by have := h (j+1) (by simpa using hj); simp only [List.getElem_cons_succ] at this; rwa [show k + 1 + j = k + (j+1) by omega])]

/-- The first failing slot is reported (R165). -/
theorem fieldsDecode_err (k : Nat) (bs : List Byte) (j : Nat) (e : OpError) (hj : j < bs.length) (hok : ∀ i (h : i < j), ∃ v, fieldDecode (k + i) (bs[i]'(by omega)) = .ok v)
   (he : fieldDecode (k + j) bs[j] = .error e) : fieldsDecode k bs = .error e := by
  induction bs generalizing k j with
  | nil => simp at hj
  | cons b bs ih =>
    unfold fieldsDecode
    cases j with
    | zero => simp at he; rw [he]
    | succ j =>
      obtain ⟨v, h0⟩ := hok 0 (by omega)
      simp at h0
      rw [h0]
      rw [ih (k+1) j (by simpa using hj) (fun i hi => by have := hok (i+1) (by omega); simp only [List.getElem_cons_succ] at this; rwa [show k + 1 + i = k + (i+1) by omega])
        (by simp only [List.getElem_cons_succ] at he; rwa [show k + 1 + j = k + (j+1) by omega])]

/-- Slots that decode, decode one by one (R165). -/
theorem fieldsDecode_inv (k : Nat) (bs : List Byte) (vs : List Nat) (h : fieldsDecode k bs = .ok vs) :
    bs.length = vs.length ∧ ∀ j (h : j < bs.length) (h' : j < vs.length), fieldDecode (k + j) bs[j] = .ok vs[j] := by
  induction bs generalizing k vs with
  | nil => cases h; exact ⟨rfl, fun j hj => by simp at hj⟩
  | cons b bs ih =>
    unfold fieldsDecode at h
    split at h
    · cases h
    · split at h
      · cases h
      · cases h
        rename_i v hv _ vs hvs
        obtain ⟨h1, h2⟩ := ih _ _ hvs
        refine ⟨by simp [h1], fun j hj hj' => ?_⟩
        cases j with
        | zero => simpa using hv
        | succ j => have := h2 j (by simpa using hj) (by simpa using hj'); simp only [List.getElem_cons_succ]; rwa [show k + (j+1) = k + 1 + j by omega]

/-- The bytes of a frame in slot order. -/
theorem Frame.toList_get (f : Frame) (j : Nat) (h : j < f.toList.length) : f.toList[j] = slotOf f j := by
  have : j < 7 := h
  interval_cases j <;> rfl

/-- What FRAME_ENC accepts is valid, and every slot of the frame is the BCD code of its field (R164). -/
theorem frameEncode_slots {cv : Calendar} {f : Frame} (h : frameEncode cv = .ok f) :
    validCalendar cv ∧ ∀ k, k < 7 → bcdEncode none (fieldOf cv k) = .ok (slotOf f k) := by
  have hv : validCalendar cv := by
    intro k hk
    unfold frameEncode at h
    cases hb : firstBadField 0 (calendarFields cv) with
    | some e => rw [hb] at h; cases h
    | none =>
      have hk' : k < (calendarFields cv).length := hk
      have := (firstBadField_none 0 _).1 hb k hk'
      rw [calendarFields_get cv k hk', Nat.zero_add] at this
      exact (fieldInRange_iff k _ hk).1 this
  refine ⟨hv, fun k hk => ?_⟩
  rw [frameEncode_valid cv hv] at h
  simp only [Except.ok.injEq] at h
  subst h
  have := inRange_le _ _ (hv k hk)
  interval_cases k <;> simp only [bcdEncode] <;> rw [if_pos this] <;> rfl

end Sys2Proof.Machine
end

