-- ==== Sys2Proof/Laws/State.lean ====
section
/-! SUPPORT. One lemma per field per named update of State, true by rfl. -/

namespace Sys2Proof.Machine

variable (s : State)

/-! ### record -/
@[simp] theorem State.record_cfg (e : Event) : (s.record e).cfg = s.cfg := rfl
@[simp] theorem State.record_lifecycle (e : Event) : (s.record e).lifecycle = s.lifecycle := rfl
@[simp] theorem State.record_initAttempted (e : Event) : (s.record e).initAttempted = s.initAttempted := rfl
@[simp] theorem State.record_txnOpen (e : Event) : (s.record e).txnOpen = s.txnOpen := rfl
@[simp] theorem State.record_sr (e : Event) : (s.record e).sr = s.sr := rfl
@[simp] theorem State.record_bc (e : Event) : (s.record e).bc = s.bc := rfl
@[simp] theorem State.record_buf (e : Event) : (s.record e).buf = s.buf := rfl
@[simp] theorem State.record_seq (e : Event) : (s.record e).seq = s.seq.map SeqPos.next := rfl
@[simp] theorem State.record_pins (e : Event) : (s.record e).pins = s.pins := rfl
@[simp] theorem State.record_trace (e : Event) : (s.record e).trace = s.trace ++ [e] := rfl
@[simp] theorem State.record_result (e : Event) : (s.record e).result = s.result := rfl
@[simp] theorem State.record_returned (e : Event) : (s.record e).returned = s.returned := rfl
@[simp] theorem State.record_env (e : Event) : (s.record e).env = s.env := rfl
@[simp] theorem State.record_requests (e : Event) : (s.record e).requests = s.requests := rfl
@[simp] theorem State.record_opCount (e : Event) : (s.record e).opCount = s.opCount := rfl

/-! ### settle -/
@[simp] theorem State.settle_cfg : s.settle.cfg = s.cfg := rfl
@[simp] theorem State.settle_lifecycle : s.settle.lifecycle = s.lifecycle := rfl
@[simp] theorem State.settle_initAttempted : s.settle.initAttempted = s.initAttempted := rfl
@[simp] theorem State.settle_txnOpen : s.settle.txnOpen = s.txnOpen := rfl
@[simp] theorem State.settle_sr : s.settle.sr = s.sr := rfl
@[simp] theorem State.settle_bc : s.settle.bc = s.bc := rfl
@[simp] theorem State.settle_buf : s.settle.buf = s.buf := rfl
@[simp] theorem State.settle_seq : s.settle.seq = s.seq.map SeqPos.next := rfl
@[simp] theorem State.settle_pins : s.settle.pins = s.pins := rfl
@[simp] theorem State.settle_trace : s.settle.trace = s.trace ++ [.wait s.cfg.tSettle] := rfl
@[simp] theorem State.settle_result : s.settle.result = s.result := rfl
@[simp] theorem State.settle_returned : s.settle.returned = s.returned := rfl
@[simp] theorem State.settle_env : s.settle.env = s.env := rfl
@[simp] theorem State.settle_requests : s.settle.requests = s.requests := rfl
@[simp] theorem State.settle_opCount : s.settle.opCount = s.opCount := rfl

/-! ### afterCall -/
@[simp] theorem State.afterCall_cfg (c : Call) (r : Response) : (s.afterCall c r).cfg = s.cfg := rfl
@[simp] theorem State.afterCall_lifecycle (c : Call) (r : Response) : (s.afterCall c r).lifecycle = s.lifecycle := rfl
@[simp] theorem State.afterCall_initAttempted (c : Call) (r : Response) : (s.afterCall c r).initAttempted = s.initAttempted := rfl
@[simp] theorem State.afterCall_txnOpen (c : Call) (r : Response) : (s.afterCall c r).txnOpen = s.txnOpen := rfl
@[simp] theorem State.afterCall_sr (c : Call) (r : Response) : (s.afterCall c r).sr = s.sr := rfl
@[simp] theorem State.afterCall_bc (c : Call) (r : Response) : (s.afterCall c r).bc = s.bc := rfl
@[simp] theorem State.afterCall_buf (c : Call) (r : Response) : (s.afterCall c r).buf = s.buf := rfl
@[simp] theorem State.afterCall_seq (c : Call) (r : Response) : (s.afterCall c r).seq = s.seq.map SeqPos.next := rfl
@[simp] theorem State.afterCall_pins (c : Call) (r : Response) : (s.afterCall c r).pins = s.pins.after c r := rfl
@[simp] theorem State.afterCall_trace (c : Call) (r : Response) : (s.afterCall c r).trace = s.trace ++ [.call c r] := rfl
@[simp] theorem State.afterCall_result (c : Call) (r : Response) : (s.afterCall c r).result = s.result := rfl
@[simp] theorem State.afterCall_returned (c : Call) (r : Response) : (s.afterCall c r).returned = s.returned := rfl
@[simp] theorem State.afterCall_env (c : Call) (r : Response) : (s.afterCall c r).env = s.env.after s.pins c r := rfl
@[simp] theorem State.afterCall_requests (c : Call) (r : Response) : (s.afterCall c r).requests = s.requests := rfl
@[simp] theorem State.afterCall_opCount (c : Call) (r : Response) : (s.afterCall c r).opCount = s.opCount := rfl

/-! ### raise -/
@[simp] theorem State.raise_cfg (e : OpError) : (s.raise e).cfg = s.cfg := rfl
@[simp] theorem State.raise_lifecycle (e : OpError) : (s.raise e).lifecycle = s.lifecycle := rfl
@[simp] theorem State.raise_initAttempted (e : OpError) : (s.raise e).initAttempted = s.initAttempted := rfl
@[simp] theorem State.raise_txnOpen (e : OpError) : (s.raise e).txnOpen = s.txnOpen := rfl
@[simp] theorem State.raise_sr (e : OpError) : (s.raise e).sr = s.sr := rfl
@[simp] theorem State.raise_bc (e : OpError) : (s.raise e).bc = s.bc := rfl
@[simp] theorem State.raise_buf (e : OpError) : (s.raise e).buf = s.buf := rfl
@[simp] theorem State.raise_seq (e : OpError) : (s.raise e).seq = none := rfl
@[simp] theorem State.raise_pins (e : OpError) : (s.raise e).pins = s.pins := rfl
@[simp] theorem State.raise_trace (e : OpError) : (s.raise e).trace = s.trace := rfl
@[simp] theorem State.raise_result (e : OpError) : (s.raise e).result = some (.error e) := rfl
@[simp] theorem State.raise_returned (e : OpError) : (s.raise e).returned = s.returned := rfl
@[simp] theorem State.raise_env (e : OpError) : (s.raise e).env = s.env := rfl
@[simp] theorem State.raise_requests (e : OpError) : (s.raise e).requests = s.requests := rfl
@[simp] theorem State.raise_opCount (e : OpError) : (s.raise e).opCount = s.opCount := rfl

/-! ### complete -/
@[simp] theorem State.complete_cfg (v : Value) : (s.complete v).cfg = s.cfg := rfl
@[simp] theorem State.complete_lifecycle (v : Value) : (s.complete v).lifecycle = s.lifecycle := rfl
@[simp] theorem State.complete_initAttempted (v : Value) : (s.complete v).initAttempted = s.initAttempted := rfl
@[simp] theorem State.complete_txnOpen (v : Value) : (s.complete v).txnOpen = s.txnOpen := rfl
@[simp] theorem State.complete_sr (v : Value) : (s.complete v).sr = s.sr := rfl
@[simp] theorem State.complete_bc (v : Value) : (s.complete v).bc = s.bc := rfl
@[simp] theorem State.complete_buf (v : Value) : (s.complete v).buf = s.buf := rfl
@[simp] theorem State.complete_seq (v : Value) : (s.complete v).seq = none := rfl
@[simp] theorem State.complete_pins (v : Value) : (s.complete v).pins = s.pins := rfl
@[simp] theorem State.complete_trace (v : Value) : (s.complete v).trace = s.trace := rfl
@[simp] theorem State.complete_result (v : Value) : (s.complete v).result = some (.ok v) := rfl
@[simp] theorem State.complete_returned (v : Value) : (s.complete v).returned = s.returned := rfl
@[simp] theorem State.complete_env (v : Value) : (s.complete v).env = s.env := rfl
@[simp] theorem State.complete_requests (v : Value) : (s.complete v).requests = s.requests := rfl
@[simp] theorem State.complete_opCount (v : Value) : (s.complete v).opCount = s.opCount := rfl

/-! ### handBack -/
@[simp] theorem State.handBack_cfg (r : Returned) : (s.handBack r).cfg = s.cfg := rfl
@[simp] theorem State.handBack_lifecycle (r : Returned) : (s.handBack r).lifecycle = s.lifecycle := rfl
@[simp] theorem State.handBack_initAttempted (r : Returned) : (s.handBack r).initAttempted = s.initAttempted := rfl
@[simp] theorem State.handBack_txnOpen (r : Returned) : (s.handBack r).txnOpen = s.txnOpen := rfl
@[simp] theorem State.handBack_sr (r : Returned) : (s.handBack r).sr = s.sr := rfl
@[simp] theorem State.handBack_bc (r : Returned) : (s.handBack r).bc = s.bc := rfl
@[simp] theorem State.handBack_buf (r : Returned) : (s.handBack r).buf = s.buf := rfl
@[simp] theorem State.handBack_seq (r : Returned) : (s.handBack r).seq = none := rfl
@[simp] theorem State.handBack_pins (r : Returned) : (s.handBack r).pins = s.pins := rfl
@[simp] theorem State.handBack_trace (r : Returned) : (s.handBack r).trace = s.trace := rfl
@[simp] theorem State.handBack_result (r : Returned) : (s.handBack r).result = s.result := rfl
@[simp] theorem State.handBack_returned (r : Returned) : (s.handBack r).returned = some r := rfl
@[simp] theorem State.handBack_env (r : Returned) : (s.handBack r).env = s.env := rfl
@[simp] theorem State.handBack_requests (r : Returned) : (s.handBack r).requests = s.requests := rfl
@[simp] theorem State.handBack_opCount (r : Returned) : (s.handBack r).opCount = s.opCount := rfl

/-! ### startOp -/
@[simp] theorem State.startOp_cfg (op : Op) : (s.startOp op).cfg = s.cfg := rfl
@[simp] theorem State.startOp_lifecycle (op : Op) : (s.startOp op).lifecycle = s.lifecycle := rfl
@[simp] theorem State.startOp_initAttempted (op : Op) : (s.startOp op).initAttempted = s.initAttempted := rfl
@[simp] theorem State.startOp_txnOpen (op : Op) : (s.startOp op).txnOpen = s.txnOpen := rfl
@[simp] theorem State.startOp_sr (op : Op) : (s.startOp op).sr = s.sr := rfl
@[simp] theorem State.startOp_bc (op : Op) : (s.startOp op).bc = s.bc := rfl
@[simp] theorem State.startOp_buf (op : Op) : (s.startOp op).buf = s.buf := rfl
@[simp] theorem State.startOp_seq (op : Op) : (s.startOp op).seq = some ⟨op, 0⟩ := rfl
@[simp] theorem State.startOp_pins (op : Op) : (s.startOp op).pins = s.pins := rfl
@[simp] theorem State.startOp_trace (op : Op) : (s.startOp op).trace = s.trace := rfl
@[simp] theorem State.startOp_result (op : Op) : (s.startOp op).result = s.result := rfl
@[simp] theorem State.startOp_returned (op : Op) : (s.startOp op).returned = s.returned := rfl
@[simp] theorem State.startOp_env (op : Op) : (s.startOp op).env = s.env := rfl
@[simp] theorem State.startOp_requests (op : Op) : (s.startOp op).requests = s.requests := rfl
@[simp] theorem State.startOp_opCount (op : Op) : (s.startOp op).opCount = s.opCount := rfl

/-! ### beginBuf -/
@[simp] theorem State.beginBuf_cfg : s.beginBuf.cfg = s.cfg := rfl
@[simp] theorem State.beginBuf_lifecycle : s.beginBuf.lifecycle = s.lifecycle := rfl
@[simp] theorem State.beginBuf_initAttempted : s.beginBuf.initAttempted = s.initAttempted := rfl
@[simp] theorem State.beginBuf_txnOpen : s.beginBuf.txnOpen = s.txnOpen := rfl
@[simp] theorem State.beginBuf_sr : s.beginBuf.sr = s.sr := rfl
@[simp] theorem State.beginBuf_bc : s.beginBuf.bc = s.bc := rfl
@[simp] theorem State.beginBuf_buf : s.beginBuf.buf = unspecifiedBuf s.opCount := rfl
@[simp] theorem State.beginBuf_seq : s.beginBuf.seq = s.seq := rfl
@[simp] theorem State.beginBuf_pins : s.beginBuf.pins = s.pins := rfl
@[simp] theorem State.beginBuf_trace : s.beginBuf.trace = s.trace := rfl
@[simp] theorem State.beginBuf_result : s.beginBuf.result = s.result := rfl
@[simp] theorem State.beginBuf_returned : s.beginBuf.returned = s.returned := rfl
@[simp] theorem State.beginBuf_env : s.beginBuf.env = s.env := rfl
@[simp] theorem State.beginBuf_requests : s.beginBuf.requests = s.requests := rfl
@[simp] theorem State.beginBuf_opCount : s.beginBuf.opCount = s.opCount + 1 := rfl

/-! ### storeBuf -/
@[simp] theorem State.storeBuf_cfg (bs : List Byte) : (s.storeBuf bs).cfg = s.cfg := rfl
@[simp] theorem State.storeBuf_lifecycle (bs : List Byte) : (s.storeBuf bs).lifecycle = s.lifecycle := rfl
@[simp] theorem State.storeBuf_initAttempted (bs : List Byte) : (s.storeBuf bs).initAttempted = s.initAttempted := rfl
@[simp] theorem State.storeBuf_txnOpen (bs : List Byte) : (s.storeBuf bs).txnOpen = s.txnOpen := rfl
@[simp] theorem State.storeBuf_sr (bs : List Byte) : (s.storeBuf bs).sr = s.sr := rfl
@[simp] theorem State.storeBuf_bc (bs : List Byte) : (s.storeBuf bs).bc = s.bc := rfl
@[simp] theorem State.storeBuf_buf (bs : List Byte) : (s.storeBuf bs).buf = storeFrom 0 bs s.buf := rfl
@[simp] theorem State.storeBuf_seq (bs : List Byte) : (s.storeBuf bs).seq = s.seq := rfl
@[simp] theorem State.storeBuf_pins (bs : List Byte) : (s.storeBuf bs).pins = s.pins := rfl
@[simp] theorem State.storeBuf_trace (bs : List Byte) : (s.storeBuf bs).trace = s.trace := rfl
@[simp] theorem State.storeBuf_result (bs : List Byte) : (s.storeBuf bs).result = s.result := rfl
@[simp] theorem State.storeBuf_returned (bs : List Byte) : (s.storeBuf bs).returned = s.returned := rfl
@[simp] theorem State.storeBuf_env (bs : List Byte) : (s.storeBuf bs).env = s.env := rfl
@[simp] theorem State.storeBuf_requests (bs : List Byte) : (s.storeBuf bs).requests = s.requests := rfl
@[simp] theorem State.storeBuf_opCount (bs : List Byte) : (s.storeBuf bs).opCount = s.opCount := rfl

/-! ### loadSr -/
@[simp] theorem State.loadSr_cfg (v : Byte) : (s.loadSr v).cfg = s.cfg := rfl
@[simp] theorem State.loadSr_lifecycle (v : Byte) : (s.loadSr v).lifecycle = s.lifecycle := rfl
@[simp] theorem State.loadSr_initAttempted (v : Byte) : (s.loadSr v).initAttempted = s.initAttempted := rfl
@[simp] theorem State.loadSr_txnOpen (v : Byte) : (s.loadSr v).txnOpen = s.txnOpen := rfl
@[simp] theorem State.loadSr_sr (v : Byte) : (s.loadSr v).sr = v := rfl
@[simp] theorem State.loadSr_bc (v : Byte) : (s.loadSr v).bc = 0 := rfl
@[simp] theorem State.loadSr_buf (v : Byte) : (s.loadSr v).buf = s.buf := rfl
@[simp] theorem State.loadSr_seq (v : Byte) : (s.loadSr v).seq = s.seq := rfl
@[simp] theorem State.loadSr_pins (v : Byte) : (s.loadSr v).pins = s.pins := rfl
@[simp] theorem State.loadSr_trace (v : Byte) : (s.loadSr v).trace = s.trace := rfl
@[simp] theorem State.loadSr_result (v : Byte) : (s.loadSr v).result = s.result := rfl
@[simp] theorem State.loadSr_returned (v : Byte) : (s.loadSr v).returned = s.returned := rfl
@[simp] theorem State.loadSr_env (v : Byte) : (s.loadSr v).env = s.env := rfl
@[simp] theorem State.loadSr_requests (v : Byte) : (s.loadSr v).requests = s.requests := rfl
@[simp] theorem State.loadSr_opCount (v : Byte) : (s.loadSr v).opCount = s.opCount := rfl

/-! ### shiftSr -/
@[simp] theorem State.shiftSr_cfg : s.shiftSr.cfg = s.cfg := rfl
@[simp] theorem State.shiftSr_lifecycle : s.shiftSr.lifecycle = s.lifecycle := rfl
@[simp] theorem State.shiftSr_initAttempted : s.shiftSr.initAttempted = s.initAttempted := rfl
@[simp] theorem State.shiftSr_txnOpen : s.shiftSr.txnOpen = s.txnOpen := rfl
@[simp] theorem State.shiftSr_sr : s.shiftSr.sr = shiftOut s.sr := rfl
@[simp] theorem State.shiftSr_bc : s.shiftSr.bc = s.bc := rfl
@[simp] theorem State.shiftSr_buf : s.shiftSr.buf = s.buf := rfl
@[simp] theorem State.shiftSr_seq : s.shiftSr.seq = s.seq := rfl
@[simp] theorem State.shiftSr_pins : s.shiftSr.pins = s.pins := rfl
@[simp] theorem State.shiftSr_trace : s.shiftSr.trace = s.trace := rfl
@[simp] theorem State.shiftSr_result : s.shiftSr.result = s.result := rfl
@[simp] theorem State.shiftSr_returned : s.shiftSr.returned = s.returned := rfl
@[simp] theorem State.shiftSr_env : s.shiftSr.env = s.env := rfl
@[simp] theorem State.shiftSr_requests : s.shiftSr.requests = s.requests := rfl
@[simp] theorem State.shiftSr_opCount : s.shiftSr.opCount = s.opCount := rfl

/-! ### orSr -/
@[simp] theorem State.orSr_cfg (b : Bool) (i : Nat) : (s.orSr b i).cfg = s.cfg := rfl
@[simp] theorem State.orSr_lifecycle (b : Bool) (i : Nat) : (s.orSr b i).lifecycle = s.lifecycle := rfl
@[simp] theorem State.orSr_initAttempted (b : Bool) (i : Nat) : (s.orSr b i).initAttempted = s.initAttempted := rfl
@[simp] theorem State.orSr_txnOpen (b : Bool) (i : Nat) : (s.orSr b i).txnOpen = s.txnOpen := rfl
@[simp] theorem State.orSr_sr (b : Bool) (i : Nat) : (s.orSr b i).sr = orBit s.sr b i := rfl
@[simp] theorem State.orSr_bc (b : Bool) (i : Nat) : (s.orSr b i).bc = s.bc := rfl
@[simp] theorem State.orSr_buf (b : Bool) (i : Nat) : (s.orSr b i).buf = s.buf := rfl
@[simp] theorem State.orSr_seq (b : Bool) (i : Nat) : (s.orSr b i).seq = s.seq := rfl
@[simp] theorem State.orSr_pins (b : Bool) (i : Nat) : (s.orSr b i).pins = s.pins := rfl
@[simp] theorem State.orSr_trace (b : Bool) (i : Nat) : (s.orSr b i).trace = s.trace := rfl
@[simp] theorem State.orSr_result (b : Bool) (i : Nat) : (s.orSr b i).result = s.result := rfl
@[simp] theorem State.orSr_returned (b : Bool) (i : Nat) : (s.orSr b i).returned = s.returned := rfl
@[simp] theorem State.orSr_env (b : Bool) (i : Nat) : (s.orSr b i).env = s.env := rfl
@[simp] theorem State.orSr_requests (b : Bool) (i : Nat) : (s.orSr b i).requests = s.requests := rfl
@[simp] theorem State.orSr_opCount (b : Bool) (i : Nat) : (s.orSr b i).opCount = s.opCount := rfl

/-! ### countBit -/
@[simp] theorem State.countBit_cfg : s.countBit.cfg = s.cfg := rfl
@[simp] theorem State.countBit_lifecycle : s.countBit.lifecycle = s.lifecycle := rfl
@[simp] theorem State.countBit_initAttempted : s.countBit.initAttempted = s.initAttempted := rfl
@[simp] theorem State.countBit_txnOpen : s.countBit.txnOpen = s.txnOpen := rfl
@[simp] theorem State.countBit_sr : s.countBit.sr = s.sr := rfl
@[simp] theorem State.countBit_bc : s.countBit.bc = s.bc + 1 := rfl
@[simp] theorem State.countBit_buf : s.countBit.buf = s.buf := rfl
@[simp] theorem State.countBit_seq : s.countBit.seq = s.seq := rfl
@[simp] theorem State.countBit_pins : s.countBit.pins = s.pins := rfl
@[simp] theorem State.countBit_trace : s.countBit.trace = s.trace := rfl
@[simp] theorem State.countBit_result : s.countBit.result = s.result := rfl
@[simp] theorem State.countBit_returned : s.countBit.returned = s.returned := rfl
@[simp] theorem State.countBit_env : s.countBit.env = s.env := rfl
@[simp] theorem State.countBit_requests : s.countBit.requests = s.requests := rfl
@[simp] theorem State.countBit_opCount : s.countBit.opCount = s.opCount := rfl

/-! ### openTxn -/
@[simp] theorem State.openTxn_cfg : s.openTxn.cfg = s.cfg := rfl
@[simp] theorem State.openTxn_lifecycle : s.openTxn.lifecycle = s.lifecycle := rfl
@[simp] theorem State.openTxn_initAttempted : s.openTxn.initAttempted = s.initAttempted := rfl
@[simp] theorem State.openTxn_txnOpen : s.openTxn.txnOpen = true := rfl
@[simp] theorem State.openTxn_sr : s.openTxn.sr = s.sr := rfl
@[simp] theorem State.openTxn_bc : s.openTxn.bc = s.bc := rfl
@[simp] theorem State.openTxn_buf : s.openTxn.buf = s.buf := rfl
@[simp] theorem State.openTxn_seq : s.openTxn.seq = s.seq := rfl
@[simp] theorem State.openTxn_pins : s.openTxn.pins = s.pins := rfl
@[simp] theorem State.openTxn_trace : s.openTxn.trace = s.trace := rfl
@[simp] theorem State.openTxn_result : s.openTxn.result = s.result := rfl
@[simp] theorem State.openTxn_returned : s.openTxn.returned = s.returned := rfl
@[simp] theorem State.openTxn_env : s.openTxn.env = s.env := rfl
@[simp] theorem State.openTxn_requests : s.openTxn.requests = s.requests := rfl
@[simp] theorem State.openTxn_opCount : s.openTxn.opCount = s.opCount := rfl

/-! ### closeTxn -/
@[simp] theorem State.closeTxn_cfg : s.closeTxn.cfg = s.cfg := rfl
@[simp] theorem State.closeTxn_lifecycle : s.closeTxn.lifecycle = s.lifecycle := rfl
@[simp] theorem State.closeTxn_initAttempted : s.closeTxn.initAttempted = s.initAttempted := rfl
@[simp] theorem State.closeTxn_txnOpen : s.closeTxn.txnOpen = false := rfl
@[simp] theorem State.closeTxn_sr : s.closeTxn.sr = s.sr := rfl
@[simp] theorem State.closeTxn_bc : s.closeTxn.bc = s.bc := rfl
@[simp] theorem State.closeTxn_buf : s.closeTxn.buf = s.buf := rfl
@[simp] theorem State.closeTxn_seq : s.closeTxn.seq = s.seq := rfl
@[simp] theorem State.closeTxn_pins : s.closeTxn.pins = s.pins := rfl
@[simp] theorem State.closeTxn_trace : s.closeTxn.trace = s.trace := rfl
@[simp] theorem State.closeTxn_result : s.closeTxn.result = s.result := rfl
@[simp] theorem State.closeTxn_returned : s.closeTxn.returned = s.returned := rfl
@[simp] theorem State.closeTxn_env : s.closeTxn.env = s.env := rfl
@[simp] theorem State.closeTxn_requests : s.closeTxn.requests = s.requests := rfl
@[simp] theorem State.closeTxn_opCount : s.closeTxn.opCount = s.opCount := rfl

/-! ### seekEnd -/
@[simp] theorem State.seekEnd_cfg (p : Option SeqPos) (m : Nat) : (s.seekEnd p m).cfg = s.cfg := rfl
@[simp] theorem State.seekEnd_lifecycle (p : Option SeqPos) (m : Nat) : (s.seekEnd p m).lifecycle = s.lifecycle := rfl
@[simp] theorem State.seekEnd_initAttempted (p : Option SeqPos) (m : Nat) : (s.seekEnd p m).initAttempted = s.initAttempted := rfl
@[simp] theorem State.seekEnd_txnOpen (p : Option SeqPos) (m : Nat) : (s.seekEnd p m).txnOpen = s.txnOpen := rfl
@[simp] theorem State.seekEnd_sr (p : Option SeqPos) (m : Nat) : (s.seekEnd p m).sr = s.sr := rfl
@[simp] theorem State.seekEnd_bc (p : Option SeqPos) (m : Nat) : (s.seekEnd p m).bc = s.bc := rfl
@[simp] theorem State.seekEnd_buf (p : Option SeqPos) (m : Nat) : (s.seekEnd p m).buf = s.buf := rfl
@[simp] theorem State.seekEnd_seq (p : Option SeqPos) (m : Nat) : (s.seekEnd p m).seq = p.map (fun q => q.endOf m) := rfl
@[simp] theorem State.seekEnd_pins (p : Option SeqPos) (m : Nat) : (s.seekEnd p m).pins = s.pins := rfl
@[simp] theorem State.seekEnd_trace (p : Option SeqPos) (m : Nat) : (s.seekEnd p m).trace = s.trace := rfl
@[simp] theorem State.seekEnd_result (p : Option SeqPos) (m : Nat) : (s.seekEnd p m).result = s.result := rfl
@[simp] theorem State.seekEnd_returned (p : Option SeqPos) (m : Nat) : (s.seekEnd p m).returned = s.returned := rfl
@[simp] theorem State.seekEnd_env (p : Option SeqPos) (m : Nat) : (s.seekEnd p m).env = s.env := rfl
@[simp] theorem State.seekEnd_requests (p : Option SeqPos) (m : Nat) : (s.seekEnd p m).requests = s.requests := rfl
@[simp] theorem State.seekEnd_opCount (p : Option SeqPos) (m : Nat) : (s.seekEnd p m).opCount = s.opCount := rfl

/-! ### markInit -/
@[simp] theorem State.markInit_cfg : s.markInit.cfg = s.cfg := rfl
@[simp] theorem State.markInit_lifecycle : s.markInit.lifecycle = s.lifecycle := rfl
@[simp] theorem State.markInit_initAttempted : s.markInit.initAttempted = true := rfl
@[simp] theorem State.markInit_txnOpen : s.markInit.txnOpen = s.txnOpen := rfl
@[simp] theorem State.markInit_sr : s.markInit.sr = s.sr := rfl
@[simp] theorem State.markInit_bc : s.markInit.bc = s.bc := rfl
@[simp] theorem State.markInit_buf : s.markInit.buf = s.buf := rfl
@[simp] theorem State.markInit_seq : s.markInit.seq = s.seq := rfl
@[simp] theorem State.markInit_pins : s.markInit.pins = s.pins := rfl
@[simp] theorem State.markInit_trace : s.markInit.trace = s.trace := rfl
@[simp] theorem State.markInit_result : s.markInit.result = s.result := rfl
@[simp] theorem State.markInit_returned : s.markInit.returned = s.returned := rfl
@[simp] theorem State.markInit_env : s.markInit.env = s.env := rfl
@[simp] theorem State.markInit_requests : s.markInit.requests = s.requests := rfl
@[simp] theorem State.markInit_opCount : s.markInit.opCount = s.opCount := rfl

/-! ### becomeReady -/
@[simp] theorem State.becomeReady_cfg : s.becomeReady.cfg = s.cfg := rfl
@[simp] theorem State.becomeReady_lifecycle : s.becomeReady.lifecycle = .ready := rfl
@[simp] theorem State.becomeReady_initAttempted : s.becomeReady.initAttempted = s.initAttempted := rfl
@[simp] theorem State.becomeReady_txnOpen : s.becomeReady.txnOpen = s.txnOpen := rfl
@[simp] theorem State.becomeReady_sr : s.becomeReady.sr = s.sr := rfl
@[simp] theorem State.becomeReady_bc : s.becomeReady.bc = s.bc := rfl
@[simp] theorem State.becomeReady_buf : s.becomeReady.buf = s.buf := rfl
@[simp] theorem State.becomeReady_seq : s.becomeReady.seq = s.seq := rfl
@[simp] theorem State.becomeReady_pins : s.becomeReady.pins = s.pins := rfl
@[simp] theorem State.becomeReady_trace : s.becomeReady.trace = s.trace := rfl
@[simp] theorem State.becomeReady_result : s.becomeReady.result = s.result := rfl
@[simp] theorem State.becomeReady_returned : s.becomeReady.returned = s.returned := rfl
@[simp] theorem State.becomeReady_env : s.becomeReady.env = s.env := rfl
@[simp] theorem State.becomeReady_requests : s.becomeReady.requests = s.requests := rfl
@[simp] theorem State.becomeReady_opCount : s.becomeReady.opCount = s.opCount := rfl

/-! ### becomeClosed -/
@[simp] theorem State.becomeClosed_cfg : s.becomeClosed.cfg = s.cfg := rfl
@[simp] theorem State.becomeClosed_lifecycle : s.becomeClosed.lifecycle = .closed := rfl
@[simp] theorem State.becomeClosed_initAttempted : s.becomeClosed.initAttempted = s.initAttempted := rfl
@[simp] theorem State.becomeClosed_txnOpen : s.becomeClosed.txnOpen = s.txnOpen := rfl
@[simp] theorem State.becomeClosed_sr : s.becomeClosed.sr = s.sr := rfl
@[simp] theorem State.becomeClosed_bc : s.becomeClosed.bc = s.bc := rfl
@[simp] theorem State.becomeClosed_buf : s.becomeClosed.buf = s.buf := rfl
@[simp] theorem State.becomeClosed_seq : s.becomeClosed.seq = s.seq := rfl
@[simp] theorem State.becomeClosed_pins : s.becomeClosed.pins = s.pins := rfl
@[simp] theorem State.becomeClosed_trace : s.becomeClosed.trace = s.trace := rfl
@[simp] theorem State.becomeClosed_result : s.becomeClosed.result = s.result := rfl
@[simp] theorem State.becomeClosed_returned : s.becomeClosed.returned = s.returned := rfl
@[simp] theorem State.becomeClosed_env : s.becomeClosed.env = s.env := rfl
@[simp] theorem State.becomeClosed_requests : s.becomeClosed.requests = s.requests := rfl
@[simp] theorem State.becomeClosed_opCount : s.becomeClosed.opCount = s.opCount := rfl

/-! ### popRequest -/
@[simp] theorem State.popRequest_cfg : s.popRequest.cfg = s.cfg := rfl
@[simp] theorem State.popRequest_lifecycle : s.popRequest.lifecycle = s.lifecycle := rfl
@[simp] theorem State.popRequest_initAttempted : s.popRequest.initAttempted = s.initAttempted := rfl
@[simp] theorem State.popRequest_txnOpen : s.popRequest.txnOpen = s.txnOpen := rfl
@[simp] theorem State.popRequest_sr : s.popRequest.sr = s.sr := rfl
@[simp] theorem State.popRequest_bc : s.popRequest.bc = s.bc := rfl
@[simp] theorem State.popRequest_buf : s.popRequest.buf = s.buf := rfl
@[simp] theorem State.popRequest_seq : s.popRequest.seq = s.seq := rfl
@[simp] theorem State.popRequest_pins : s.popRequest.pins = s.pins := rfl
@[simp] theorem State.popRequest_trace : s.popRequest.trace = s.trace := rfl
@[simp] theorem State.popRequest_result : s.popRequest.result = s.result := rfl
@[simp] theorem State.popRequest_returned : s.popRequest.returned = s.returned := rfl
@[simp] theorem State.popRequest_env : s.popRequest.env = s.env := rfl
@[simp] theorem State.popRequest_requests : s.popRequest.requests = s.requests.tail := rfl
@[simp] theorem State.popRequest_opCount : s.popRequest.opCount = s.opCount := rfl

/-! ### withFetchWord -/
@[simp] theorem State.withFetchWord_cfg (n w : Nat) : (s.withFetchWord n w).cfg = s.cfg := rfl
@[simp] theorem State.withFetchWord_lifecycle (n w : Nat) : (s.withFetchWord n w).lifecycle = s.lifecycle := rfl
@[simp] theorem State.withFetchWord_initAttempted (n w : Nat) : (s.withFetchWord n w).initAttempted = s.initAttempted := rfl
@[simp] theorem State.withFetchWord_txnOpen (n w : Nat) : (s.withFetchWord n w).txnOpen = s.txnOpen := rfl
@[simp] theorem State.withFetchWord_sr (n w : Nat) : (s.withFetchWord n w).sr = s.sr := rfl
@[simp] theorem State.withFetchWord_bc (n w : Nat) : (s.withFetchWord n w).bc = s.bc := rfl
@[simp] theorem State.withFetchWord_buf (n w : Nat) : (s.withFetchWord n w).buf = s.buf := rfl
@[simp] theorem State.withFetchWord_seq (n w : Nat) : (s.withFetchWord n w).seq = s.seq := rfl
@[simp] theorem State.withFetchWord_pins (n w : Nat) : (s.withFetchWord n w).pins = s.pins := rfl
@[simp] theorem State.withFetchWord_trace (n w : Nat) : (s.withFetchWord n w).trace = s.trace := rfl
@[simp] theorem State.withFetchWord_result (n w : Nat) : (s.withFetchWord n w).result = s.result := rfl
@[simp] theorem State.withFetchWord_returned (n w : Nat) : (s.withFetchWord n w).returned = s.returned := rfl
@[simp] theorem State.withFetchWord_env (n w : Nat) : (s.withFetchWord n w).env = s.env := rfl
@[simp] theorem State.withFetchWord_requests (n w : Nat) : (s.withFetchWord n w).requests = .wire (tableBytes n w) :: s.requests := rfl
@[simp] theorem State.withFetchWord_opCount (n w : Nat) : (s.withFetchWord n w).opCount = s.opCount := rfl

/-! ### withHidden -/
@[simp] theorem State.withHidden_cfg (sr : Byte) (bc : Nat) (buf : List Byte) : (s.withHidden sr bc buf).cfg = s.cfg := rfl
@[simp] theorem State.withHidden_lifecycle (sr : Byte) (bc : Nat) (buf : List Byte) : (s.withHidden sr bc buf).lifecycle = s.lifecycle := rfl
@[simp] theorem State.withHidden_initAttempted (sr : Byte) (bc : Nat) (buf : List Byte) : (s.withHidden sr bc buf).initAttempted = s.initAttempted := rfl
@[simp] theorem State.withHidden_txnOpen (sr : Byte) (bc : Nat) (buf : List Byte) : (s.withHidden sr bc buf).txnOpen = s.txnOpen := rfl
@[simp] theorem State.withHidden_sr (sr : Byte) (bc : Nat) (buf : List Byte) : (s.withHidden sr bc buf).sr = sr := rfl
@[simp] theorem State.withHidden_bc (sr : Byte) (bc : Nat) (buf : List Byte) : (s.withHidden sr bc buf).bc = bc := rfl
@[simp] theorem State.withHidden_buf (sr : Byte) (bc : Nat) (buf : List Byte) : (s.withHidden sr bc buf).buf = buf := rfl
@[simp] theorem State.withHidden_seq (sr : Byte) (bc : Nat) (buf : List Byte) : (s.withHidden sr bc buf).seq = s.seq := rfl
@[simp] theorem State.withHidden_pins (sr : Byte) (bc : Nat) (buf : List Byte) : (s.withHidden sr bc buf).pins = s.pins := rfl
@[simp] theorem State.withHidden_trace (sr : Byte) (bc : Nat) (buf : List Byte) : (s.withHidden sr bc buf).trace = s.trace := rfl
@[simp] theorem State.withHidden_result (sr : Byte) (bc : Nat) (buf : List Byte) : (s.withHidden sr bc buf).result = s.result := rfl
@[simp] theorem State.withHidden_returned (sr : Byte) (bc : Nat) (buf : List Byte) : (s.withHidden sr bc buf).returned = s.returned := rfl
@[simp] theorem State.withHidden_env (sr : Byte) (bc : Nat) (buf : List Byte) : (s.withHidden sr bc buf).env = s.env := rfl
@[simp] theorem State.withHidden_requests (sr : Byte) (bc : Nat) (buf : List Byte) : (s.withHidden sr bc buf).requests = s.requests := rfl
@[simp] theorem State.withHidden_opCount (sr : Byte) (bc : Nat) (buf : List Byte) : (s.withHidden sr bc buf).opCount = s.opCount := rfl

end Sys2Proof.Machine
end

