-- ==== Sys2Proof/Laws/Ops.lean ====
section
/-! SUPPORT. What the shared operations of Machine/Ops.lean can do, once: a pin call, a wait, and the parts built of them. -/

namespace Sys2Proof.Machine

/-! ### A pin call -/

/-- A pin call either is done, with a response that is not `Err`, or raises the PinAccessError of its event. -/
theorem pinCall_cases (c : Call) (s : State) :
    (∃ l, pinCall c s = .done l (s.afterCall c (s.env.answer c)) ∧ s.env.answer c ≠ .err) ∨
    (pinCall c s = .failed (.pinAccess c s.trace.length s.seq) (s.afterCall c .err) ∧ s.env.answer c = .err) := by
  unfold pinCall
  cases h : s.env.answer c <;> simp

theorem pinCall_state (c : Call) (s : State) : (pinCall c s).state = s.afterCall c (s.env.answer c) := by
  obtain ⟨l, h, -⟩ | ⟨h, he⟩ := pinCall_cases c s
  · rw [h]; rfl
  · rw [h, he]; rfl

/-- A pin call that is done reaches the state after its response. -/
theorem pinCall_done {c : Call} {s t : State} {l : Bool} (h : pinCall c s = .done l t) :
    t = s.afterCall c (s.env.answer c) := by
  obtain ⟨l', h', -⟩ | ⟨h', -⟩ := pinCall_cases c s <;> rw [h'] at h <;> cases h
  rfl

/-- A response is `Err`, or the `Ok` of its call with some level (R16). -/
theorem Env.answer_cases (e : Env) (c : Call) : e.answer c = .err ∨ ∃ l, e.answer c = c.okWith l := by
  have hd : ∀ n, e.device.answer n c = .err ∨ ∃ l, e.device.answer n c = c.okWith l := by
    intro n
    cases e.device with
    | absent =>
      simp only [Device.answer]
      split
      · exact .inl rfl
      · exact .inr ⟨_, rfl⟩
    | loopback f => exact .inr ⟨_, rfl⟩
    | counterpart f => exact .inr ⟨_, rfl⟩
  unfold Env.answer
  split
  · exact hd _
  · exact hd _
  · exact .inr ⟨_, rfl⟩
  · exact .inl rfl

/-- A GET that is done: its response is the level it yields. -/
theorem pinCall_get_done {p : Pin} {s t : State} {l : Bool} (h : pinCall (.get p) s = .done l t) :
    s.env.answer (.get p) = .level l ∧ t = s.afterCall (.get p) (.level l) := by
  unfold pinCall at h
  obtain he | ⟨l', he⟩ := s.env.answer_cases (.get p) <;> rw [he] at h
  · cases h
  · simp only [Call.okWith, Attempt.done.injEq] at h
    rw [he, ← h.1, h.2]
    exact ⟨rfl, rfl⟩

/-- A call other than a GET that is not answered `Err` is answered `Ok`. -/
theorem Env.answer_ok {e : Env} {c : Call} (h : e.answer c ≠ .err) (hc : ∀ l, c.okWith l = .ok) : e.answer c = .ok := by
  obtain he | ⟨l, he⟩ := e.answer_cases c
  · exact absurd he h
  · rw [he, hc]

/-- A call and what follows it, done: the call was answered `Ok`. -/
theorem callThen_done {β : Type} {c : Call} {s t : State} {f : State → Attempt β} {b : β} (h : callThen c s f = .done b t) :
    s.env.answer c ≠ .err ∧ f (s.afterCall c (s.env.answer c)) = .done b t := by
  unfold callThen at h
  obtain ⟨l, h1, n1⟩ | ⟨h1, -⟩ := pinCall_cases c s
  · rw [h1] at h
    exact ⟨n1, h⟩
  · rw [h1] at h
    cases h

/-- A property of the reached state that a pin call keeps and what follows it establishes. -/
theorem callThen_keeps {β : Type} {P : State → Prop} {c : Call} {s : State} {f : State → Attempt β}
    (h0 : ∀ r, P (s.afterCall c r)) (hf : ∀ t r, t = s.afterCall c r → P (f t).state) : P (callThen c s f).state := by
  unfold callThen
  obtain ⟨l, h, -⟩ | ⟨h, -⟩ := pinCall_cases c s
  · rw [h]; exact hf _ _ rfl
  · rw [h]; exact h0 _

/-- A part that goes on, done: both were done. -/
theorem Attempt.andThen_done {α β : Type} {x : Attempt α} {f : α → State → Attempt β} {b : β} {t : State}
    (h : x.andThen f = .done b t) : ∃ a u, x = .done a u ∧ f a u = .done b t := by
  cases x with
  | done a u => exact ⟨a, u, rfl, h⟩
  | failed e u => cases h

/-- A property of the reached state: the first part establishes it, and the second part carries it on. -/
theorem Attempt.andThen_keeps {α β : Type} {P : State → Prop} {x : Attempt α} {f : α → State → Attempt β}
    (hx : P x.state) (hf : ∀ a t, x = .done a t → P t → P (f a t).state) : P (x.andThen f).state := by
  cases x with
  | done a t => exact hf a t rfl hx
  | failed e t => exact hx

/-! ### What a part leaves alone -/

theorem SameButTransfer.refl (s : State) : SameButTransfer s s := by constructor <;> rfl

theorem SameButTransfer.trans {s t u : State} (h : SameButTransfer s t) (k : SameButTransfer t u) : SameButTransfer s u :=
  ⟨k.cfg.trans h.cfg, k.lifecycle.trans h.lifecycle, k.initAttempted.trans h.initAttempted, k.txnOpen.trans h.txnOpen,
    k.buf.trans h.buf, k.result.trans h.result, k.returned.trans h.returned, k.requests.trans h.requests,
    k.opCount.trans h.opCount⟩

theorem SameButTransfer.afterCall (s : State) (c : Call) (r : Response) : SameButTransfer s (s.afterCall c r) := by
  constructor <;> rfl

theorem SameButTransfer.settle (s : State) : SameButTransfer s s.settle := by constructor <;> rfl

/-! ### Sequencer positions -/

/-- The sequencer n events on. -/
def SeqPos.plus (p : SeqPos) (n : Nat) : SeqPos := { p with j := p.j + n }

@[simp] theorem SeqPos.plus_zero (p : SeqPos) : p.plus 0 = p := rfl

@[simp] theorem SeqPos.plus_plus (p : SeqPos) (m n : Nat) : (p.plus m).plus n = p.plus (m + n) := by
  simp [SeqPos.plus, Nat.add_assoc]

theorem SeqPos.next_eq (p : SeqPos) : p.next = p.plus 1 := rfl

theorem Option.map_plus_zero (x : Option SeqPos) : x.map (SeqPos.plus · 0) = x := by
  cases x <;> rfl

theorem Option.map_plus_plus (x : Option SeqPos) (m n : Nat) :
    (x.map (SeqPos.plus · m)).map (SeqPos.plus · n) = x.map (SeqPos.plus · (m + n)) := by
  cases x <;> simp

/-! ### Emitting events: what the events of a part say of the state it reaches -/

/-- `t` is reached from `s` by issuing the events `evs` (`Issues`, Safety.lean), and the sequencer counts them (R35). -/
structure Emits (s t : State) (evs : List Event) : Prop extends Issues s t evs where
  seq : t.seq = s.seq.map (SeqPos.plus · evs.length)

theorem Shadow.replay_append (sh : Shadow) (a b : List Event) : sh.replay (a ++ b) = (sh.replay a).replay b := by
  induction a generalizing sh with
  | nil => rfl
  | cons e a ih => exact ih _

theorem Env.replay_append (e : Env) (sh : Shadow) (a b : List Event) :
    e.replay sh (a ++ b) = (e.replay sh a).replay (sh.replay a) b := by
  induction a generalizing e sh with
  | nil => rfl
  | cons x a ih =>
    cases x with
    | call c r => exact ih _ _
    | wait t => exact ih _ _

theorem Env.gave_append (e : Env) (sh : Shadow) (a b : List Event) :
    e.gave sh (a ++ b) = (e.gave sh a && (e.replay sh a).gave (sh.replay a) b) := by
  induction a generalizing e sh with
  | nil => rfl
  | cons x a ih =>
    cases x with
    | call c r => simp only [List.cons_append, Env.gave, Env.replay, Shadow.replay, Shadow.afterEvent, ih, Bool.and_assoc]
    | wait t => exact ih _ _

theorem Issues.nil (s : State) : Issues s s [] := ⟨by simp, rfl, rfl, rfl, rfl⟩

theorem Issues.append {s t u : State} {a b : List Event} (h : Issues s t a) (k : Issues t u b) : Issues s u (a ++ b) := by
  refine ⟨?_, ?_, ?_, ?_, ?_⟩
  · rw [k.trace, h.trace, List.append_assoc]
  · rw [k.pins, h.pins, Shadow.replay_append]
  · rw [k.env, h.env, h.pins, Env.replay_append]
  · rw [Env.gave_append, h.gave, Bool.true_and, ← h.env, ← h.pins, k.gave]
  · rw [k.cfg, h.cfg]

/-- An update of a part of the state that events do not read leaves them as they are, on the left. -/
theorem Issues.of_left {s s' t : State} {evs : List Event} (h : Issues s' t evs) (h1 : s'.trace = s.trace)
    (h3 : s'.pins = s.pins) (h4 : s'.env = s.env) (h5 : s'.cfg = s.cfg) : Issues s t evs :=
  ⟨h1 ▸ h.trace, h3 ▸ h.pins, by rw [h.env, h3, h4], by rw [← h3, ← h4]; exact h.gave, h5 ▸ h.cfg⟩

/-- The same on the right. -/
theorem Issues.of_right {s t t' : State} {evs : List Event} (h : Issues s t evs) (h1 : t'.trace = t.trace)
    (h3 : t'.pins = t.pins) (h4 : t'.env = t.env) (h5 : t'.cfg = t.cfg) : Issues s t' evs :=
  ⟨h1.trans h.trace, h3.trans h.pins, h4.trans h.env, h.gave, h5.trans h.cfg⟩

theorem Emits.nil (s : State) : Emits s s [] := ⟨Issues.nil s, by simp [SeqPos.plus]⟩

theorem Emits.append {s t u : State} {a b : List Event} (h : Emits s t a) (k : Emits t u b) : Emits s u (a ++ b) :=
  ⟨h.toIssues.append k.toIssues, by rw [k.seq, h.seq, Option.map_plus_plus, List.length_append]⟩

theorem Emits.of_left {s s' t : State} {evs : List Event} (h : Emits s' t evs) (h1 : s'.trace = s.trace) (h2 : s'.seq = s.seq)
    (h3 : s'.pins = s.pins) (h4 : s'.env = s.env) (h5 : s'.cfg = s.cfg) : Emits s t evs :=
  ⟨h.toIssues.of_left h1 h3 h4 h5, h2 ▸ h.seq⟩

theorem Emits.of_right {s t t' : State} {evs : List Event} (h : Emits s t evs) (h1 : t'.trace = t.trace) (h2 : t'.seq = t.seq)
    (h3 : t'.pins = t.pins) (h4 : t'.env = t.env) (h5 : t'.cfg = t.cfg) : Emits s t' evs :=
  ⟨h.toIssues.of_right h1 h3 h4 h5, h2.trans h.seq⟩

theorem Emits.afterCall (s : State) (c : Call) : Emits s (s.afterCall c (s.env.answer c)) [.call c (s.env.answer c)] :=
  ⟨⟨rfl, rfl, rfl, by simp [Env.gave], rfl⟩, rfl⟩

theorem Emits.settle (s : State) : Emits s s.settle [.wait s.cfg.tSettle] :=
  ⟨⟨rfl, rfl, rfl, rfl, rfl⟩, rfl⟩

/-! ### Following a layout -/

/-- An attempt follows a layout from `s`: done, it issued exactly these events and none was answered `Err`; failed, it issued
them up to and including the first call answered `Err`, and raised that call's PinAccessError (R16, R244, R250). -/
def Follows {α : Type} (L : List Shape) (s : State) : Attempt α → Prop
  | .done _ t => ∃ evs, Emits s t evs ∧ evs.map Event.shape = L ∧ noErr evs = true
  | .failed e t => ∃ evs c, Emits s t (evs ++ [.call c .err]) ∧ noErr evs = true ∧
      (∃ rest, L = evs.map Event.shape ++ .call c :: rest) ∧
      e = .pinAccess c (s.trace.length + evs.length) (s.seq.map (SeqPos.plus · evs.length))

theorem noErr_append (a b : List Event) : noErr (a ++ b) = (noErr a && noErr b) := by
  simp [noErr]

theorem noErr_call (c : Call) (r : Response) (h : r ≠ .err) : noErr [.call c r] = true := by
  cases r <;> simp_all [noErr, Event.isErr]

theorem Follows.done_nil {α : Type} (a : α) (s : State) : Follows [] s (Attempt.done a s) :=
  ⟨[], Emits.nil s, rfl, rfl⟩

theorem Follows.andThen {α β : Type} {L M : List Shape} {s : State} {x : Attempt α} {f : α → State → Attempt β}
    (hx : Follows L s x) (hf : ∀ a t, x = .done a t → Follows M t (f a t)) : Follows (L ++ M) s (x.andThen f) := by
  cases x with
  | done a t =>
    obtain ⟨evs, he, hL, hn⟩ := hx
    have hk := hf a t rfl
    simp only [Attempt.andThen]
    cases hfa : f a t with
    | done b u =>
      rw [hfa] at hk
      obtain ⟨evs', he', hM, hn'⟩ := hk
      exact ⟨evs ++ evs', he.append he', by rw [List.map_append, hL, hM], by rw [noErr_append, hn, hn']; rfl⟩
    | failed e u =>
      rw [hfa] at hk
      obtain ⟨evs', c, he', hn', ⟨rest, hM⟩, herr⟩ := hk
      refine ⟨evs ++ evs', c, ?_, by rw [noErr_append, hn, hn']; rfl, ⟨rest, ?_⟩, ?_⟩
      · rw [List.append_assoc]; exact he.append he'
      · rw [hM, List.map_append, hL, List.append_assoc]
      · rw [herr, he.trace, he.seq, List.length_append, List.length_append, Option.map_plus_plus, Nat.add_assoc]
  | failed e t =>
    obtain ⟨evs, c, he, hn, ⟨rest, hL⟩, herr⟩ := hx
    exact ⟨evs, c, he, hn, ⟨rest ++ M, by rw [hL, List.append_assoc, List.cons_append]⟩, herr⟩

theorem Follows.pinCall (c : Call) (s : State) : Follows [.call c] s (pinCall c s) := by
  obtain ⟨l, h, hne⟩ | ⟨h, he⟩ := pinCall_cases c s
  · rw [h]
    exact ⟨_, Emits.afterCall s c, rfl, noErr_call _ _ hne⟩
  · rw [h]
    refine ⟨[], c, ?_, rfl, ⟨[], rfl⟩, by simp⟩
    have := Emits.afterCall s c
    rw [he] at this
    exact this

theorem Follows.callThen {β : Type} {L : List Shape} (c : Call) (s : State) (f : State → Attempt β)
    (hf : ∀ t, t = s.afterCall c (s.env.answer c) → Follows L t (f t)) : Follows (.call c :: L) s (callThen c s f) :=
  (Follows.pinCall c s).andThen fun _ t ht => hf t (pinCall_done ht)

/-- A wait first. -/
theorem Follows.settle {α : Type} {L : List Shape} {s : State} {x : Attempt α} (h : Follows L s.settle x) :
    Follows (.wait s.cfg.tSettle :: L) s x := by
  cases x with
  | done a t =>
    obtain ⟨evs, he, hL, hn⟩ := h
    exact ⟨_ :: evs, (Emits.settle s).append he, by rw [List.map_cons, hL]; rfl, by simpa [noErr, Event.isErr] using hn⟩
  | failed e t =>
    obtain ⟨evs, c, he, hn, ⟨rest, hL⟩, herr⟩ := h
    refine ⟨_ :: evs, c, (Emits.settle s).append he, by simpa [noErr, Event.isErr] using hn, ⟨rest, by rw [hL]; rfl⟩, ?_⟩
    rw [herr]
    have : (s.settle.seq.map (SeqPos.plus · evs.length)) = s.seq.map (SeqPos.plus · (evs.length + 1)) := by
      rw [State.settle_seq]
      cases s.seq <;> simp [SeqPos.next_eq, Nat.add_comm]
    rw [this]
    simp [Nat.add_comm, Nat.add_left_comm]

/-- A change of the state that events do not read, first. -/
theorem Follows.of_left {α : Type} {L : List Shape} {s s' : State} {x : Attempt α} (h : Follows L s' x)
    (h1 : s'.trace = s.trace) (h2 : s'.seq = s.seq) (h3 : s'.pins = s.pins) (h4 : s'.env = s.env) (h5 : s'.cfg = s.cfg) :
    Follows L s x := by
  cases x with
  | done a t =>
    obtain ⟨evs, he, hL⟩ := h
    exact ⟨evs, he.of_left h1 h2 h3 h4 h5, hL⟩
  | failed e t =>
    obtain ⟨evs, c, he, hn, hr, herr⟩ := h
    exact ⟨evs, c, he.of_left h1 h2 h3 h4 h5, hn, hr, by rw [herr, h1, h2]⟩

theorem Follows.done_of {α : Type} (a : α) {s t : State} (h1 : t.trace = s.trace) (h2 : t.seq = s.seq)
    (h3 : t.pins = s.pins) (h4 : t.env = s.env) (h5 : t.cfg = s.cfg) : Follows [] s (Attempt.done a t) :=
  ⟨[], (Emits.nil s).of_right h1 h2 h3 h4 h5, rfl, rfl⟩

end Sys2Proof.Machine
end

