-- ==== Sys2Proof/Laws/Transport.lean ====
section
/-! SUPPORT. WRBYTE and RDBYTE, once: each follows its layout (R102), and changes nothing but the transfer registers. -/

namespace Sys2Proof.Machine

theorem SameButTransfer.loadSr (s : State) (v : Byte) : SameButTransfer s (s.loadSr v) := by constructor <;> rfl

theorem SameButTransfer.shiftSr (s : State) : SameButTransfer s s.shiftSr := by constructor <;> rfl

theorem SameButTransfer.orSr (s : State) (b : Bool) (i : Nat) : SameButTransfer s (s.orSr b i) := by constructor <;> rfl

theorem SameButTransfer.countBit (s : State) : SameButTransfer s s.countBit := by constructor <;> rfl

/-! ### A write byte -/

theorem writeCell_same (s : State) : SameButTransfer s (writeCell s).state := by
  unfold writeCell
  refine callThen_keeps (fun r => .afterCall _ _ _) fun t r ht => ?_
  have h1 : SameButTransfer s t.settle := ht ▸ (SameButTransfer.afterCall s _ r).trans (.settle _)
  refine callThen_keeps (fun r => h1.trans (.afterCall _ _ _)) fun u r hu => ?_
  have h2 : SameButTransfer s u.shiftSr := (h1.trans (hu ▸ .afterCall _ _ _)).trans (.shiftSr _)
  refine callThen_keeps (fun r => h2.trans (.afterCall _ _ _)) fun v r hv => ?_
  exact ((h2.trans (hv ▸ .afterCall _ _ _)).trans (.settle _)).trans (.countBit _)

theorem writeCell_follows (s : State) : Follows (writeCellLayout s.cfg (bitAt s.sr 0)) s (writeCell s) := by
  unfold writeCell writeCellLayout
  refine Follows.callThen _ _ _ fun t ht => ?_
  have hc : s.cfg = t.cfg := by rw [ht, State.afterCall_cfg]
  have hsr : bitAt s.sr 0 = bitAt t.settle.sr 0 := by rw [ht, State.settle_sr, State.afterCall_sr]
  rw [hc, hsr]
  refine Follows.settle ?_
  refine Follows.callThen _ _ _ fun u hu => ?_
  refine Follows.of_left (s' := u.shiftSr) ?_ rfl rfl rfl rfl rfl
  refine Follows.callThen _ _ _ fun v hv => ?_
  have hc' : t.cfg = v.cfg := by rw [hv, hu]; simp
  rw [hc']
  exact Follows.settle (Follows.done_of _ rfl rfl rfl rfl rfl)

/-- A write cell that is done shifted SR by one and counted one bit. -/
theorem writeCell_done {s t : State} (h : writeCell s = .done () t) : t.sr = shiftOut s.sr ∧ t.bc = s.bc + 1 := by
  unfold writeCell at h
  have h1 := (callThen_done h).2
  have h2 := (callThen_done h1).2
  have h3 := (callThen_done h2).2
  simp only [Attempt.done.injEq, true_and] at h3
  rw [← h3]
  simp

/-- The bits SR still holds, n of them, lowest first. -/
def srBits : Nat → Byte → List Bool
  | 0, _ => []
  | n + 1, v => bitAt v 0 :: srBits n (shiftOut v)

theorem srBits_eight (v : Byte) : srBits 8 v = byteBits v := by
  simp [srBits, byteBits, bitAt, shiftOut]

theorem writeCells_follows (n : Nat) (s : State) :
    Follows ((srBits n s.sr).flatMap (writeCellLayout s.cfg)) s (writeCells n s) := by
  induction n generalizing s with
  | zero => exact Follows.done_nil _ _
  | succ n ih =>
    rw [srBits, List.flatMap_cons]
    refine (writeCell_follows s).andThen fun a t ht => ?_
    have hs := writeCell_same s
    rw [ht] at hs
    rw [← (writeCell_done ht).1, ← hs.cfg]
    exact ih t

theorem writeCells_same (n : Nat) (s : State) : SameButTransfer s (writeCells n s).state := by
  induction n generalizing s with
  | zero => exact .refl s
  | succ n ih => exact Attempt.andThen_keeps (writeCell_same s) fun _ t _ h => h.trans (ih t)

/-- n write cells that are done shifted SR n times and counted n bits. -/
theorem writeCells_done (n : Nat) {s t : State} (h : writeCells n s = .done () t) :
    t.sr = shiftOut^[n] s.sr ∧ t.bc = s.bc + n := by
  induction n generalizing s with
  | zero => cases h; exact ⟨rfl, rfl⟩
  | succ n ih =>
    obtain ⟨_, u, hx, hr⟩ := Attempt.andThen_done h
    have hd := writeCell_done hx
    have hi := ih hr
    rw [hi.1, hi.2, hd.1, hd.2]
    exact ⟨rfl, by omega⟩

theorem shiftOut_eight (v : Byte) : shiftOut^[8] v = 0#8 := by
  revert v; decide

/-- WRBYTE follows its layout of 41 events (R140, R102), whatever the environment answers. -/
theorem writeByte_follows (v : Byte) (s : State) : Follows (writeByteLayout s.cfg v) s (writeByte v s) := by
  unfold writeByte writeByteLayout
  refine Follows.callThen _ _ _ fun t ht => ?_
  have h := writeCells_follows 8 (t.loadSr v)
  rw [State.loadSr_sr, srBits_eight, State.loadSr_cfg, ht, State.afterCall_cfg, ← ht] at h
  exact h.of_left rfl rfl rfl rfl rfl

/-- WRBYTE leaves all but the transfer registers alone. -/
theorem writeByte_same (v : Byte) (s : State) : SameButTransfer s (writeByte v s).state := by
  refine callThen_keeps (fun r => .afterCall _ _ _) fun t r ht => ?_
  have h1 : SameButTransfer s (t.loadSr v) := ht ▸ (SameButTransfer.afterCall s _ r).trans (.loadSr _ v)
  exact h1.trans (writeCells_same 8 _)

/-- "SR (0x00 at the end), BC (8 at the end)" (R140). -/
theorem writeByte_done {v : Byte} {s t : State} (h : writeByte v s = .done () t) : t.sr = 0#8 ∧ t.bc = 8 := by
  have h1 := writeCells_done 8 (callThen_done h).2
  rw [State.loadSr_sr, State.loadSr_bc, shiftOut_eight] at h1
  exact h1

/-! ### A read byte -/

theorem readCell_same (i : Nat) (s : State) : SameButTransfer s (readCell i s).state := by
  unfold readCell
  refine callThen_keeps (fun r => .afterCall _ _ _) fun t r ht => ?_
  have h1 : SameButTransfer s t.settle := ht ▸ (SameButTransfer.afterCall s _ r).trans (.settle _)
  refine callThen_keeps (fun r => h1.trans (.afterCall _ _ _)) fun u r hu => ?_
  have h2 : SameButTransfer s u.settle := (h1.trans (hu ▸ .afterCall _ _ _)).trans (.settle _)
  refine Attempt.andThen_keeps ?_ fun b v hv h3 => ?_
  · rw [pinCall_state]; exact h2.trans (.afterCall _ _ _)
  · exact (h3.trans (.orSr _ b i)).trans (.countBit _)

theorem readCell_follows (i : Nat) (s : State) : Follows (readCellLayout s.cfg) s (readCell i s) := by
  unfold readCell readCellLayout
  refine Follows.callThen _ _ _ fun t ht => ?_
  have hc : s.cfg = t.cfg := by rw [ht, State.afterCall_cfg]
  rw [hc]
  refine Follows.settle ?_
  refine Follows.callThen _ _ _ fun u hu => ?_
  have hc' : t.cfg = u.cfg := by rw [hu]; simp
  rw [hc']
  refine Follows.settle ?_
  exact (Follows.pinCall (.get .data) _).andThen fun b v hv => Follows.done_of _ rfl rfl rfl rfl rfl

theorem getLevels_append (a b : List Event) : getLevels (a ++ b) = getLevels a ++ getLevels b := by
  induction a with
  | nil => rfl
  | cons e a ih =>
    cases e with
    | call c r => cases r <;> simp [getLevels, ih]
    | wait t => simp [getLevels, ih]

/-- A read cell that is done put the level its GET returned into SR[i] and counted one bit. -/
theorem readCell_done {i : Nat} {s t : State} (h : readCell i s = .done () t) :
    ∃ evs b, Emits s t evs ∧ noErr evs = true ∧ getLevels evs = [b] ∧ t.sr = orBit s.sr b i ∧ t.bc = s.bc + 1 := by
  unfold readCell at h
  obtain ⟨n1, h1⟩ := callThen_done h
  have o1 := Env.answer_ok n1 fun _ => rfl
  rw [o1] at h1
  obtain ⟨n2, h2⟩ := callThen_done h1
  have o2 := Env.answer_ok n2 fun _ => rfl
  rw [o2] at h2
  obtain ⟨b, u, h3, h4⟩ := Attempt.andThen_done h2
  obtain ⟨o3, h5⟩ := pinCall_get_done h3
  have e1 := Emits.afterCall s (.set .clk true)
  rw [o1] at e1
  have e2 := e1.append (Emits.settle _)
  have e3 := Emits.afterCall (s.afterCall (.set .clk true) .ok).settle (.set .clk false)
  rw [o2] at e3
  have e4 := (e2.append e3).append (Emits.settle _)
  have e5 := Emits.afterCall ((s.afterCall (.set .clk true) .ok).settle.afterCall (.set .clk false) .ok).settle (.get .data)
  rw [o3, ← h5] at e5
  simp only [Attempt.done.injEq, true_and] at h4
  refine ⟨_, b, (e4.append e5).of_right (t' := t) ?_ ?_ ?_ ?_ ?_, rfl, rfl, ?_, ?_⟩ <;> rw [← h4]
  all_goals first | rfl | (rw [h5]; simp)

/-- The bits ORed into SR from cell i on. -/
def orBits : Byte → Nat → List Bool → Byte
  | sr, _, [] => sr
  | sr, i, b :: bs => orBits (orBit sr b i) (i + 1) bs

theorem readCells_follows (n i : Nat) (s : State) :
    Follows (List.replicate n (readCellLayout s.cfg)).flatten s (readCells n i s) := by
  induction n generalizing i s with
  | zero => exact Follows.done_nil _ _
  | succ n ih =>
    rw [List.replicate_succ, List.flatten_cons]
    refine (readCell_follows i s).andThen fun a t ht => ?_
    have hs := readCell_same i s
    rw [ht] at hs
    rw [← hs.cfg]
    exact ih (i + 1) t

theorem readCells_same (n i : Nat) (s : State) : SameButTransfer s (readCells n i s).state := by
  induction n generalizing i s with
  | zero => exact .refl s
  | succ n ih => exact Attempt.andThen_keeps (readCell_same i s) fun _ t _ h => h.trans (ih (i + 1) t)

theorem readCells_done (n i : Nat) {s t : State} (h : readCells n i s = .done () t) :
    ∃ evs, Emits s t evs ∧ noErr evs = true ∧ (getLevels evs).length = n ∧ t.sr = orBits s.sr i (getLevels evs) ∧
      t.bc = s.bc + n := by
  induction n generalizing i s with
  | zero => cases h; exact ⟨[], Emits.nil _, rfl, rfl, rfl, rfl⟩
  | succ n ih =>
    obtain ⟨_, u, hx, hr⟩ := Attempt.andThen_done h
    obtain ⟨evs, b, he, hn, hb, hsr, hbc⟩ := readCell_done hx
    obtain ⟨evs', he', hn', hl', hsr', hbc'⟩ := ih (i + 1) hr
    refine ⟨evs ++ evs', he.append he', by rw [noErr_append, hn, hn']; rfl, ?_, ?_, by omega⟩
    · rw [getLevels_append, hb, List.length_append, hl', List.length_singleton, Nat.add_comm]
    · rw [getLevels_append, hb, hsr', hsr]; rfl

/-- Eight bits ORed into a cleared SR make the byte of the bits, first bit lowest. -/
theorem orBits_zero (bs : List Bool) (h : bs.length = 8) : orBits 0#8 0 bs = byteOfBits bs := by
  match bs, h with
  | [a, b, c, d, e, f, g, i], _ =>
    revert a b c d e f g i
    decide

/-- RDBYTE follows its layout of 41 events (R141, R102). -/
theorem readByte_follows (s : State) : Follows (readByteLayout s.cfg) s (readByte s) := by
  unfold readByte readByteLayout
  refine Follows.callThen _ _ _ fun t ht => ?_
  have h := (readCells_follows 8 0 (t.loadSr 0x00#8)).andThen (M := []) (f := fun _ t => Attempt.done t.sr t)
    fun a t ht => Follows.done_nil _ _
  rw [List.append_nil, State.loadSr_cfg, ht, State.afterCall_cfg, ← ht] at h
  exact h.of_left rfl rfl rfl rfl rfl

/-- RDBYTE leaves all but the transfer registers alone. -/
theorem readByte_same (s : State) : SameButTransfer s (readByte s).state := by
  refine callThen_keeps (fun r => .afterCall _ _ _) fun t r ht => ?_
  have h1 : SameButTransfer s (t.loadSr 0x00#8) := ht ▸ (SameButTransfer.afterCall s _ r).trans (.loadSr _ _)
  exact Attempt.andThen_keeps (h1.trans (readCells_same 8 0 _)) fun _ _ _ h => h

/-- RDBYTE that is done returns SR, the byte of the 8 levels its GETs returned, first lowest, and BC is 8 (R141). -/
theorem readByte_done {b : Byte} {s t : State} (h : readByte s = .done b t) :
    ∃ evs, Emits s t evs ∧ noErr evs = true ∧ (getLevels evs).length = 8 ∧ b = byteOfBits (getLevels evs) ∧ t.sr = b ∧ t.bc = 8 := by
  obtain ⟨n1, h1⟩ := callThen_done h
  have o1 := Env.answer_ok n1 fun _ => rfl
  rw [o1] at h1
  obtain ⟨_, u, h2, h3⟩ := Attempt.andThen_done h1
  simp only [Attempt.done.injEq] at h3
  obtain ⟨hb, rfl⟩ := h3
  obtain ⟨evs, he, hn, hl, hsr, hbc⟩ := readCells_done 8 0 h2
  rw [State.loadSr_sr, orBits_zero _ hl] at hsr
  have e1 := Emits.afterCall s (.cfg [.data] .input none)
  rw [o1] at e1
  exact ⟨_, e1.append (he.of_left rfl rfl rfl rfl rfl), hn, hl, by rw [← hb, hsr]; rfl, hb, by simpa using hbc⟩

end Sys2Proof.Machine
end

