-- ==== Sys2Proof/Laws/Framer.lean ====
section
/-! SUPPORT. BEGIN, END, a transaction's body and the scoped transaction, once: what each can do, whatever is answered. -/

namespace Sys2Proof.Machine

theorem beginTxn_follows (s : State) : Follows beginLayout s (beginTxn s) := by
  unfold beginTxn beginLayout
  exact Follows.callThen _ _ _ fun t ht => Follows.callThen _ _ _ fun u hu => Follows.done_nil _ _

theorem beginTxn_same (s : State) :
    SameButTransfer s (beginTxn s).state ∧ (beginTxn s).state.sr = s.sr ∧ (beginTxn s).state.bc = s.bc := by
  unfold beginTxn
  refine callThen_keeps (P := fun t => SameButTransfer s t ∧ t.sr = s.sr ∧ t.bc = s.bc)
    (fun r => ⟨.afterCall _ _ _, rfl, rfl⟩) fun t r ht => ?_
  subst ht
  refine callThen_keeps (P := fun t => SameButTransfer s t ∧ t.sr = s.sr ∧ t.bc = s.bc)
    (fun r => ⟨(SameButTransfer.afterCall _ _ _).trans (.afterCall _ _ _), rfl, rfl⟩) fun u r hu => ?_
  subst hu
  exact ⟨(SameButTransfer.afterCall _ _ _).trans (.afterCall _ _ _), rfl, rfl⟩

/-! ### END -/

/-- One call of END: it is issued, and an `Err` is kept if it is the first. -/
theorem tryCall_spec (c : Call) (first : Option OpError) (s : State) :
    (tryCall c first s).2 = s.afterCall c (s.env.answer c) ∧
    (tryCall c first s).1 =
      if s.env.answer c = .err then first.orElse fun _ => some (.pinAccess c s.trace.length s.seq) else first := by
  unfold tryCall
  obtain ⟨l, h, hn⟩ | ⟨h, he⟩ := pinCall_cases c s
  · rw [h]; simp [hn]
  · rw [h]; simp [he]

/-- The first failure a list of calls keeps: none when no response is `Err`, else the PinAccessError of the first. -/
def FirstFailure (s : State) (evs : List Event) : Option OpError → Prop
  | none => noErr evs = true
  | some e => ∃ a c b, evs = a ++ .call c .err :: b ∧ noErr a = true ∧
      e = .pinAccess c (s.trace.length + a.length) (s.seq.map (SeqPos.plus · a.length))

/-- Calls tried one after another are all issued, and the first failure is kept (R121). -/
theorem tryCalls_spec (cs : List Call) (first : Option OpError) (s : State) :
    ∃ evs, Emits s (tryCalls cs first s).2 evs ∧ evs.map Event.shape = cs.map Shape.call ∧
      (first = none → FirstFailure s evs (tryCalls cs first s).1) ∧ (∀ e, first = some e → (tryCalls cs first s).1 = some e) := by
  induction cs generalizing first s with
  | nil => exact ⟨[], Emits.nil s, rfl, fun h => by subst h; rfl, fun e h => h⟩
  | cons c cs ih =>
    obtain ⟨h2, h1⟩ := tryCall_spec c first s
    obtain ⟨evs, he, hs, hf, hk⟩ := ih (tryCall c first s).1 (tryCall c first s).2
    have hstep : tryCalls (c :: cs) first s = tryCalls cs (tryCall c first s).1 (s.afterCall c (s.env.answer c)) := by
      rw [tryCalls, h2]
    rw [h2] at he hf hk
    rw [hstep]
    refine ⟨.call c (s.env.answer c) :: evs, (Emits.afterCall s c).append he, by simp [hs, Event.shape], ?_, ?_⟩
    · rintro rfl
      by_cases ha : s.env.answer c = .err
      · rw [if_pos ha] at h1
        rw [hk _ h1]
        exact ⟨[], c, evs, by rw [ha]; rfl, rfl, by simp⟩
      · rw [if_neg ha] at h1
        have hff := hf h1
        cases hr : (tryCalls cs (tryCall c none s).1 (s.afterCall c (s.env.answer c))).1 with
        | none =>
          rw [hr] at hff
          have := noErr_append [.call c (s.env.answer c)] evs
          rw [noErr_call _ _ ha, show noErr evs = true from hff] at this
          exact this
        | some e =>
          rw [hr] at hff
          obtain ⟨a, c', b, hab, hna, herr⟩ := hff
          refine ⟨.call c (s.env.answer c) :: a, c', b, by rw [hab]; rfl, ?_, ?_⟩
          · have := noErr_append [.call c (s.env.answer c)] a
            rw [noErr_call _ _ ha, hna] at this
            exact this
          · rw [herr]
            simp only [State.afterCall_trace, State.afterCall_seq, List.length_append, List.length_cons, List.length_nil]
            have : Option.map (fun x => x.plus a.length) (Option.map SeqPos.next s.seq)
                = Option.map (fun x => x.plus (a.length + 1)) s.seq := by
              cases s.seq <;> simp [SeqPos.next_eq, Nat.add_comm]
            rw [this]
            simp [Nat.add_comm, Nat.add_left_comm]
    · rintro e rfl
      apply hk
      rw [h1]
      split <;> rfl

theorem tryCalls_same (cs : List Call) (first : Option OpError) (s : State) :
    SameButTransfer s (tryCalls cs first s).2 ∧ (tryCalls cs first s).2.sr = s.sr ∧ (tryCalls cs first s).2.bc = s.bc := by
  induction cs generalizing first s with
  | nil => exact ⟨.refl s, rfl, rfl⟩
  | cons c cs ih =>
    obtain ⟨h2, -⟩ := tryCall_spec c first s
    have := ih (tryCall c first s).1 (tryCall c first s).2
    rw [tryCalls]
    have h3 : SameButTransfer s (tryCall c first s).2 := h2 ▸ .afterCall _ _ _
    have hsr : (tryCall c first s).2.sr = s.sr := by rw [h2]; rfl
    have hbc : (tryCall c first s).2.bc = s.bc := by rw [h2]; rfl
    exact ⟨h3.trans this.1, this.2.1.trans hsr, this.2.2.trans hbc⟩

/-- END issues its three calls whatever fails, and returns its first failure (R121). -/
theorem endTxn_spec (s : State) :
    ∃ evs, Emits s (endTxn s).2 evs ∧ evs.map Event.shape = endLayout ∧ FirstFailure s evs (endTxn s).1 := by
  obtain ⟨evs, he, hs, hf, -⟩ := tryCalls_spec endCalls none s
  exact ⟨evs, he, hs, hf rfl⟩

theorem endTxn_same (s : State) :
    SameButTransfer s (endTxn s).2 ∧ (endTxn s).2.sr = s.sr ∧ (endTxn s).2.bc = s.bc := tryCalls_same _ _ _

/-! ### The body -/

/-- The state with another buffer. -/
def State.setBuf (s : State) (buf : List Byte) : State := { s with buf := buf }

theorem keepByte_same (s : State) (toBuf : Bool) (k : Nat) (b : Byte) :
    SameButTransfer (s.setBuf (s.keepByte toBuf k b).buf) (s.keepByte toBuf k b) := by
  cases toBuf <;> constructor <;> rfl

theorem SameButTransfer.setBuf_trans {s t u : State} (h : SameButTransfer (s.setBuf t.buf) t)
    (k : SameButTransfer (t.setBuf u.buf) u) : SameButTransfer (s.setBuf u.buf) u :=
  ⟨k.cfg.trans h.cfg, k.lifecycle.trans h.lifecycle, k.initAttempted.trans h.initAttempted, k.txnOpen.trans h.txnOpen,
    rfl, k.result.trans h.result, k.returned.trans h.returned, k.requests.trans h.requests, k.opCount.trans h.opCount⟩

theorem SameButTransfer.toSetBuf {s t : State} (h : SameButTransfer s t) : SameButTransfer (s.setBuf t.buf) t :=
  ⟨h.cfg, h.lifecycle, h.initAttempted, h.txnOpen, rfl, h.result, h.returned, h.requests, h.opCount⟩

/-- A body changes nothing but the transfer registers and, where it keeps what it reads, BUF. -/
theorem runBody_same (toBuf : Bool) (k : Nat) (ops : List ByteOp) (s : State) :
    SameButTransfer (s.setBuf (runBody toBuf k ops s).state.buf) (runBody toBuf k ops s).state := by
  induction ops generalizing k s with
  | nil => exact (SameButTransfer.refl s).toSetBuf
  | cons op ops ih =>
    cases op with
    | wr v =>
      exact Attempt.andThen_keeps (P := fun t => SameButTransfer (s.setBuf t.buf) t) (writeByte_same v s).toSetBuf
        fun _ t _ h => h.setBuf_trans (ih k t)
    | rd =>
      refine Attempt.andThen_keeps (P := fun t => SameButTransfer (s.setBuf t.buf) t) (readByte_same s).toSetBuf
        fun b t _ h => ?_
      have h2 : SameButTransfer (s.setBuf (t.keepByte toBuf k b).buf) (t.keepByte toBuf k b) :=
        h.setBuf_trans (keepByte_same t toBuf k b)
      exact Attempt.andThen_keeps (P := fun t => SameButTransfer (s.setBuf t.buf) t) (h2.setBuf_trans (ih (k + 1) _))
        fun _ _ _ h => h

theorem runBody_keeps_buf (k : Nat) (ops : List ByteOp) (s : State) : (runBody false k ops s).state.buf = s.buf := by
  induction ops generalizing k s with
  | nil => rfl
  | cons op ops ih =>
    cases op with
    | wr v =>
      exact Attempt.andThen_keeps (P := fun t => t.buf = s.buf) (writeByte_same v s).buf fun _ t _ h => (ih k t).trans h
    | rd =>
      refine Attempt.andThen_keeps (P := fun t => t.buf = s.buf) (readByte_same s).buf fun b t _ h => ?_
      exact Attempt.andThen_keeps (P := fun t => t.buf = s.buf) ((ih (k + 1) _).trans h) fun _ _ _ h => h

/-- A body follows the layouts of its bytes. -/
theorem runBody_follows (toBuf : Bool) (k : Nat) (ops : List ByteOp) (s : State) :
    Follows (ops.flatMap (byteLayout s.cfg)) s (runBody toBuf k ops s) := by
  induction ops generalizing k s with
  | nil => exact Follows.done_nil _ _
  | cons op ops ih =>
    rw [List.flatMap_cons]
    cases op with
    | wr v =>
      refine (writeByte_follows v s).andThen fun a t ht => ?_
      have hs := writeByte_same v s
      rw [ht] at hs
      rw [← hs.cfg]
      exact ih k t
    | rd =>
      refine (readByte_follows s).andThen fun b t ht => ?_
      have hs := readByte_same s
      rw [ht] at hs
      have hk : (t.keepByte toBuf k b).cfg = s.cfg := by cases toBuf <;> exact hs.cfg
      have h := (ih (k + 1) (t.keepByte toBuf k b)).andThen (M := []) (f := fun bs u => Attempt.done (b :: bs) u)
        fun bs u _ => Follows.done_nil _ _
      rw [List.append_nil, hk] at h
      exact h.of_left (by cases toBuf <;> rfl) (by cases toBuf <;> rfl) (by cases toBuf <;> rfl) (by cases toBuf <;> rfl)
        (by cases toBuf <;> rfl)

theorem getLevels_of_set_layout (evs : List Event) (h : ∀ e ∈ evs, ∀ p r, e ≠ .call (.get p) r)
    (hr : ∀ c l, .call c (.level l) ∈ evs → ∃ p, c = .get p) : getLevels evs = [] := by
  induction evs with
  | nil => rfl
  | cons e evs ih =>
    have ih' := ih (fun e he => h e (List.mem_cons_of_mem _ he)) fun c l hm => hr c l (List.mem_cons_of_mem _ hm)
    cases e with
    | wait t => exact ih'
    | call c r =>
      cases r with
      | ok => exact ih'
      | err => exact ih'
      | level l =>
        obtain ⟨p, rfl⟩ := hr c l (List.mem_cons_self ..)
        exact absurd rfl (h _ (List.mem_cons_self ..) p _)

/-- Among events the environment answered, only a GET has a level. -/
theorem Env.gave_level {e : Env} {sh : Shadow} {evs : List Event} (hg : e.gave sh evs = true) {c : Call} {l : Bool}
    (hm : .call c (.level l) ∈ evs) : ∃ p, c = .get p := by
  induction evs generalizing e sh with
  | nil => cases hm
  | cons x evs ih =>
    cases x with
    | wait t =>
      rcases List.mem_cons.1 hm with h | h
      · cases h
      · exact ih hg h
    | call c' r =>
      simp only [Env.gave, Bool.and_eq_true, decide_eq_true_eq] at hg
      rcases List.mem_cons.1 hm with h | h
      · simp only [Event.call.injEq] at h
        obtain ⟨rfl, rfl⟩ := h
        obtain h | ⟨l', h⟩ := e.answer_cases c
        · rw [h] at hg; cases hg.1
        · rw [h] at hg
          cases c with
          | get p => exact ⟨p, rfl⟩
          | cfg _ _ _ => cases hg.1
          | set _ _ => cases hg.1
          | rel _ => cases hg.1
      · exact ih hg.2 h

theorem writeByteLayout_no_get (cfg : Config) (v : Byte) (p : Pin) : Shape.call (.get p) ∉ writeByteLayout cfg v := by
  simp [writeByteLayout, byteBits, writeCellLayout]

/-- A write byte that is done samples nothing. -/
theorem writeByte_levels {v : Byte} {s t : State} (h : writeByte v s = .done () t) :
    ∃ evs, Emits s t evs ∧ evs.map Event.shape = writeByteLayout s.cfg v ∧ noErr evs = true ∧ getLevels evs = [] := by
  have hf := writeByte_follows v s
  rw [h] at hf
  obtain ⟨evs, he, hs, hn⟩ := hf
  refine ⟨evs, he, hs, hn, getLevels_of_set_layout evs (fun e hm p r hc => ?_) fun c l hm => Env.gave_level he.gave hm⟩
  subst hc
  have : Shape.call (.get p) ∈ evs.map Event.shape := List.mem_map.2 ⟨_, hm, rfl⟩
  rw [hs] at this
  exact writeByteLayout_no_get _ _ _ this

theorem bytesOfLevels_append (a b : List Bool) (h : a.length = 8) :
    bytesOfLevels (a ++ b) = byteOfBits a :: bytesOfLevels b := by
  match a, h with
  | [_, _, _, _, _, _, _, _], _ => rfl

/-- The number of RDBYTEs of a body. -/
def readsOf (ops : List ByteOp) : Nat := ops.count .rd

/-- A body that is done: no `Err`, the bytes read are those of its GET levels, and BUF keeps them where asked. -/
theorem runBody_done (toBuf : Bool) (k : Nat) (ops : List ByteOp) {s t : State} {bs : List Byte}
    (h : runBody toBuf k ops s = .done bs t) :
    ∃ evs, Emits s t evs ∧ noErr evs = true ∧ evs.map Event.shape = ops.flatMap (byteLayout s.cfg) ∧
      bs = bytesOfLevels (getLevels evs) ∧ bs.length = readsOf ops ∧
      t.buf = (if toBuf then storeFrom k bs s.buf else s.buf) := by
  induction ops generalizing k s bs t with
  | nil =>
    cases h
    exact ⟨[], Emits.nil _, rfl, rfl, rfl, rfl, by cases toBuf <;> rfl⟩
  | cons op ops ih =>
    cases op with
    | wr v =>
      obtain ⟨_, u, hx, hr⟩ := Attempt.andThen_done h
      obtain ⟨evs, he, hs, hn, hg⟩ := writeByte_levels hx
      have hw := writeByte_same v s
      rw [hx] at hw
      obtain ⟨evs', he', hn', hs', hb, hl, hbuf⟩ := ih k hr
      refine ⟨evs ++ evs', he.append he', by rw [noErr_append, hn, hn']; rfl, ?_, ?_, ?_, ?_⟩
      · rw [List.map_append, hs, hs', List.flatMap_cons]
        have : u.cfg = s.cfg := hw.cfg
        rw [this]; rfl
      · rw [getLevels_append, hg, hb]; rfl
      · rw [hl]; simp [readsOf]
      · have : u.buf = s.buf := hw.buf
        rw [hbuf, this]
    | rd =>
      obtain ⟨b, u, hx, hr⟩ := Attempt.andThen_done h
      obtain ⟨bs', v, hy, hz⟩ := Attempt.andThen_done hr
      simp only [Attempt.done.injEq] at hz
      obtain ⟨rfl, rfl⟩ := hz
      obtain ⟨evs, he, hn, hl8, hb, -, -⟩ := readByte_done hx
      have hf := readByte_follows s
      rw [hx] at hf
      obtain ⟨evs₂, he₂, hs₂, -⟩ := hf
      have heq : evs₂ = evs := List.append_cancel_left (he₂.trace.symm.trans he.trace)
      rw [heq] at hs₂
      have hw := readByte_same s
      rw [hx] at hw
      obtain ⟨evs', he', hn', hs', hb', hl', hbuf⟩ := ih (k + 1) hy
      have hkt : (u.keepByte toBuf k b).trace = u.trace := by cases toBuf <;> rfl
      have hks : (u.keepByte toBuf k b).seq = u.seq := by cases toBuf <;> rfl
      have hkp : (u.keepByte toBuf k b).pins = u.pins := by cases toBuf <;> rfl
      have hke : (u.keepByte toBuf k b).env = u.env := by cases toBuf <;> rfl
      have hkc : (u.keepByte toBuf k b).cfg = u.cfg := by cases toBuf <;> rfl
      refine ⟨evs ++ evs', he.append (he'.of_left hkt hks hkp hke hkc), by rw [noErr_append, hn, hn']; rfl, ?_, ?_, ?_, ?_⟩
      · have hc : u.cfg = s.cfg := hw.cfg
        rw [List.map_append, hs₂, hs', List.flatMap_cons, hkc, hc]; rfl
      · rw [getLevels_append, bytesOfLevels_append _ _ hl8, ← hb, ← hb']
      · rw [List.length_cons, hl']; simp [readsOf]
      · have hbu : u.buf = s.buf := hw.buf
        rw [hbuf]
        cases toBuf
        · simp [State.keepByte, hbu]
        · simp [State.keepByte, hbu, storeFrom]

/-! ### The scoped transaction -/

/-- What a transaction of this body can do from `s` (R122, R245, R250). Done: every event of its layout, no `Err`. Failed in
BEGIN or the body: the events up to and including the failing call, then END's three. Failed in END alone: every event, and the
first failure among END's. -/
inductive TransactionEvents (s : State) (body : List ByteOp) : Option OpError → List Event → Prop
  | completed (evs : List Event) (hs : evs.map Event.shape = transactionLayout s.cfg body) (hn : noErr evs = true) :
    TransactionEvents s body none evs
  | bodyFailed (pre fin : List Event) (c : Call) (rest : List Shape) (hn : noErr pre = true)
    (hl : beginLayout ++ body.flatMap (byteLayout s.cfg) = pre.map Event.shape ++ .call c :: rest)
    (hf : fin.map Event.shape = endLayout) :
    TransactionEvents s body (some (.pinAccess c (s.trace.length + pre.length) (s.seq.map (SeqPos.plus · pre.length))))
      (pre ++ .call c .err :: fin)
  | endFailed (pre fin a b : List Event) (c : Call) (hn : noErr pre = true)
    (hl : pre.map Event.shape = beginLayout ++ body.flatMap (byteLayout s.cfg))
    (hf : fin.map Event.shape = endLayout) (hab : fin = a ++ .call c .err :: b) (ha : noErr a = true) :
    TransactionEvents s body
      (some (.pinAccess c (s.trace.length + (pre ++ a).length) (s.seq.map (SeqPos.plus · (pre ++ a).length)))) (pre ++ fin)

theorem beginBody_follows (toBuf : Bool) (body : List ByteOp) (s : State) :
    Follows (beginLayout ++ body.flatMap (byteLayout s.cfg)) s
      ((beginTxn s.openTxn).andThen fun _ t => runBody toBuf 0 body t) := by
  have h := (beginTxn_follows s.openTxn).andThen (M := body.flatMap (byteLayout s.cfg))
    (f := fun _ t => runBody toBuf 0 body t) fun a t ht => by
      have hs := (beginTxn_same s.openTxn).1
      rw [ht] at hs
      have hc : t.cfg = s.cfg := hs.cfg
      rw [← hc]
      exact runBody_follows toBuf 0 body t
  exact h.of_left rfl rfl rfl rfl rfl

/-- A transaction issues the events that R122 and R245 say, and its state and error are theirs. -/
theorem runTransaction_events (toBuf : Bool) (body : List ByteOp) (s : State) :
    ∃ evs, Issues s (runTransaction toBuf body s).state evs ∧
      TransactionEvents s body (runTransaction toBuf body s).error? evs := by
  have hb := beginBody_follows toBuf body s
  unfold runTransaction
  cases hx : (beginTxn s.openTxn).andThen fun _ t => runBody toBuf 0 body t with
  | done v t =>
    rw [hx] at hb
    obtain ⟨evs, he, hs, hn⟩ := hb
    obtain ⟨fin, hfe, hfs, hff⟩ := endTxn_spec t
    have hall := he.append hfe
    simp only
    cases h1 : (endTxn t).1 with
    | none =>
      rw [h1] at hff
      refine ⟨evs ++ fin, hall.toIssues.of_right rfl rfl rfl rfl, .completed _ ?_ ?_⟩
      · rw [List.map_append, hs, hfs]; rfl
      · rw [noErr_append, hn, hff]; rfl
    | some e =>
      rw [h1] at hff
      obtain ⟨a, c, b, hab, hna, herr⟩ := hff
      refine ⟨evs ++ fin, hall.toIssues.of_right rfl rfl rfl rfl, ?_⟩
      have h := TransactionEvents.endFailed (s := s) (body := body) evs fin a b c hn hs hfs hab hna
      have : e = .pinAccess c (s.trace.length + (evs ++ a).length) (s.seq.map (SeqPos.plus · (evs ++ a).length)) := by
        rw [herr, he.trace, he.seq, Option.map_plus_plus, List.length_append, List.length_append, Nat.add_assoc]
      rw [← this] at h
      exact h
  | failed e t =>
    rw [hx] at hb
    obtain ⟨pre, c, he, hn, ⟨rest, hl⟩, herr⟩ := hb
    obtain ⟨fin, hfe, hfs, -⟩ := endTxn_spec (t.seekEnd s.seq body.length)
    refine ⟨pre ++ .call c .err :: fin, ?_, ?_⟩
    · have := he.toIssues.append (hfe.toIssues.of_left (s := t) rfl rfl rfl rfl)
      rw [List.append_assoc] at this
      exact this.of_right rfl rfl rfl rfl
    · simp only [Attempt.error?]
      rw [herr]
      exact .bodyFailed pre fin c rest hn hl hfs

/-- After a transaction `txn_open` is false, and nothing but the transfer registers and BUF is touched (R122, R251). -/
theorem runTransaction_same (toBuf : Bool) (body : List ByteOp) (s : State) :
    SameButTransfer (s.closeTxn.setBuf (runTransaction toBuf body s).state.buf) (runTransaction toBuf body s).state := by
  have hb : SameButTransfer (s.openTxn.setBuf ((beginTxn s.openTxn).andThen fun _ t => runBody toBuf 0 body t).state.buf)
      ((beginTxn s.openTxn).andThen fun _ t => runBody toBuf 0 body t).state :=
    Attempt.andThen_keeps (P := fun t => SameButTransfer (s.openTxn.setBuf t.buf) t) (beginTxn_same s.openTxn).1.toSetBuf
      fun _ t _ h => h.setBuf_trans (runBody_same toBuf 0 body t)
  have close : ∀ {t : State}, SameButTransfer (s.openTxn.setBuf t.buf) t →
      SameButTransfer (s.closeTxn.setBuf t.closeTxn.buf) t.closeTxn := fun h =>
    ⟨h.cfg, h.lifecycle, h.initAttempted, rfl, rfl, h.result, h.returned, h.requests, h.opCount⟩
  unfold runTransaction
  cases hx : (beginTxn s.openTxn).andThen fun _ t => runBody toBuf 0 body t with
  | done v t =>
    rw [hx] at hb
    have h := hb.setBuf_trans (endTxn_same t).1.toSetBuf
    simp only
    cases (endTxn t).1 with
    | none => exact close h
    | some e => exact close h
  | failed e t =>
    rw [hx] at hb
    have hk : SameButTransfer (s.openTxn.setBuf (t.seekEnd s.seq body.length).buf) (t.seekEnd s.seq body.length) :=
      ⟨hb.cfg, hb.lifecycle, hb.initAttempted, hb.txnOpen, rfl, hb.result, hb.returned, hb.requests, hb.opCount⟩
    exact close (hk.setBuf_trans (endTxn_same (t.seekEnd s.seq body.length)).1.toSetBuf)

theorem runTransaction_keeps_buf (body : List ByteOp) (s : State) : (runTransaction false body s).state.buf = s.buf := by
  have hb : ((beginTxn s.openTxn).andThen fun _ t => runBody false 0 body t).state.buf = s.buf :=
    Attempt.andThen_keeps (P := fun t => t.buf = s.buf) (beginTxn_same s.openTxn).1.buf
      fun _ t _ h => (runBody_keeps_buf 0 body t).trans h
  unfold runTransaction
  cases hx : (beginTxn s.openTxn).andThen fun _ t => runBody false 0 body t with
  | done v t =>
    rw [hx] at hb
    simp only
    cases (endTxn t).1 with
    | none => exact ((endTxn_same t).1.buf).trans hb
    | some e => exact ((endTxn_same t).1.buf).trans hb
  | failed e t =>
    rw [hx] at hb
    exact ((endTxn_same (t.seekEnd s.seq body.length)).1.buf).trans hb

/-- A transaction that is done returns the bytes of its GET levels, one for each RDBYTE, and BUF keeps them where asked. -/
theorem runTransaction_done (toBuf : Bool) (body : List ByteOp) {s t : State} {bs : List Byte}
    (h : runTransaction toBuf body s = .done bs t) :
    ∃ evs, Issues s t evs ∧ noErr evs = true ∧ evs.map Event.shape = transactionLayout s.cfg body ∧
      bs = bytesOfLevels (getLevels evs) ∧ bs.length = readsOf body ∧
      t.buf = (if toBuf then storeFrom 0 bs s.buf else s.buf) := by
  unfold runTransaction at h
  cases hx : (beginTxn s.openTxn).andThen fun _ t => runBody toBuf 0 body t with
  | failed e u => rw [hx] at h; cases h
  | done v u =>
    rw [hx] at h
    simp only at h
    cases h1 : (endTxn u).1 with
    | some e => rw [h1] at h; cases h
    | none =>
      rw [h1] at h
      simp only [Attempt.done.injEq] at h
      obtain ⟨rfl, rfl⟩ := h
      obtain ⟨_, w, hb, hr⟩ := Attempt.andThen_done hx
      have hbs := (beginTxn_same s.openTxn).1
      rw [hb] at hbs
      have hbf := beginTxn_follows s.openTxn
      rw [hb] at hbf
      obtain ⟨e0, he0, hs0, hn0⟩ := hbf
      obtain ⟨e1, he1, hn1, hs1, hv, hl, hbuf⟩ := runBody_done toBuf 0 body hr
      obtain ⟨e2, he2, hs2, hn2⟩ := endTxn_spec u
      rw [h1] at hn2
      have g0 : getLevels e0 = [] := getLevels_of_set_layout e0 (fun e hm p r hc => by
        subst hc
        have : Shape.call (.get p) ∈ e0.map Event.shape := List.mem_map.2 ⟨_, hm, rfl⟩
        rw [hs0] at this
        simp [beginLayout] at this) fun c l hm => Env.gave_level he0.gave hm
      have g2 : getLevels e2 = [] := getLevels_of_set_layout e2 (fun e hm p r hc => by
        subst hc
        have : Shape.call (.get p) ∈ e2.map Event.shape := List.mem_map.2 ⟨_, hm, rfl⟩
        rw [hs2] at this
        simp [endLayout] at this) fun c l hm => Env.gave_level he2.gave hm
      have hc : w.cfg = s.cfg := hbs.cfg
      have hwb : w.buf = s.buf := hbs.buf
      have hall : Issues s (endTxn u).2 (e0 ++ e1 ++ e2) :=
        ((he0.append he1).append he2).toIssues.of_left (s := s) (s' := s.openTxn) rfl rfl rfl rfl
      refine ⟨e0 ++ e1 ++ e2, hall.of_right rfl rfl rfl rfl, ?_, ?_, ?_, hl, ?_⟩
      · rw [noErr_append, noErr_append, hn0, hn1, hn2]; rfl
      · rw [List.map_append, List.map_append, hs0, hs1, hs2, hc]; rfl
      · rw [getLevels_append, getLevels_append, g0, g2, List.append_nil, List.nil_append, hv]
      · have : (endTxn u).2.buf = u.buf := (endTxn_same u).1.buf
        rw [State.closeTxn_buf, this, hbuf, hwb]

end Sys2Proof.Machine
end

