-- ==== Sys2Proof/Laws/Ideal.lean ====
section
/-! SUPPORT. Under an ideal capability (20_memory.md R88) no pin call fails, so what follows a layout is done. -/

namespace Sys2Proof.Machine

/-- What is attached stays attached: its kind never changes. -/
theorem Env.after_kind (e : Env) (sh : Shadow) (c : Call) (r : Response) :
    (e.device = .absent ↔ (e.after sh c r).device = .absent) := by
  unfold Env.after
  cases e.device <;> by_cases h : r = .err <;> simp [h, Device.react]

theorem Env.idealFor_iff (e : Env) (n : Nat) :
    e.idealFor n = true ↔
      (e.device = .absent ∧ n ≤ e.plan.length ∧ (e.plan.take n).all Answer.isOk = true) ∨
      (e.device ≠ .absent ∧ (e.plan.take n).all Answer.notErr = true) := by
  unfold Env.idealFor
  cases e.device <;> simp

/-- An ideal capability answers the next call, and is ideal for the rest. -/
theorem Env.idealFor_step {e : Env} {n : Nat} (h : e.idealFor (n + 1) = true) (sh : Shadow) (c : Call) :
    e.answer c ≠ .err ∧ (e.after sh c (e.answer c)).idealFor n = true := by
  have hcok : ∀ l, c.okWith l ≠ .err := by intro l; cases c <;> simp [Call.okWith]
  rw [Env.idealFor_iff] at h ⊢
  obtain ⟨hd, hl, ha⟩ | ⟨hd, ha⟩ := h
  · cases hp : e.plan with
    | nil => rw [hp] at hl; simp at hl
    | cons a rest =>
      rw [hp] at hl ha
      simp only [List.take_succ_cons, List.all_cons, Bool.and_eq_true, List.length_cons] at ha hl
      obtain ⟨l, rfl⟩ : ∃ l, a = .ok l := by
        cases a with
        | ok l => exact ⟨l, rfl⟩
        | defer => simp [Answer.isOk] at ha
        | err => simp [Answer.isOk] at ha
      refine ⟨by simp only [Env.answer, hp]; exact hcok l, .inl ⟨(e.after_kind sh c _).1 hd, ?_, ?_⟩⟩
      · simp [Env.after, hp]; omega
      · simp only [Env.after, hp, List.tail_cons]; exact ha.2
  · have hans : ∀ n, e.device.answer n c ≠ .err := by
      intro n
      cases he : e.device with
      | absent => exact absurd he hd
      | loopback f => exact hcok _
      | counterpart f => exact hcok _
    have hd' : ∀ r, (e.after sh c r).device ≠ .absent := fun r h => hd ((e.after_kind sh c r).2 h)
    cases hp : e.plan with
    | nil =>
      refine ⟨by simp only [Env.answer, hp]; exact hans _, .inr ⟨hd' _, by simp [Env.after, hp]⟩⟩
    | cons a rest =>
      rw [hp] at ha
      simp only [List.take_succ_cons, List.all_cons, Bool.and_eq_true] at ha
      refine ⟨?_, .inr ⟨hd' _, by simp only [Env.after, hp, List.tail_cons]; exact ha.2⟩⟩
      cases a with
      | ok l => simp only [Env.answer, hp]; exact hcok l
      | defer => simp only [Env.answer, hp]; exact hans _
      | err => simp [Answer.notErr] at ha

theorem callCount_append (a b : List Shape) : callCount (a ++ b) = callCount a + callCount b := by
  simp [callCount]

theorem callCount_cons_call (c : Call) (b : List Shape) : callCount (.call c :: b) = callCount b + 1 :=
  List.countP_cons_of_pos rfl

theorem callCount_cons_wait (t : Nat) (b : List Shape) : callCount (.wait t :: b) = callCount b :=
  List.countP_cons_of_neg (by simp [Shape.isCall])

/-- Under an ideal capability for n calls, at most n calls are answered without an `Err`, and the rest is still ideal. -/
theorem Env.idealFor_gave {e : Env} {sh : Shadow} {evs : List Event} {n : Nat} (h : e.idealFor n = true)
    (hg : e.gave sh evs = true) (hc : callCount (evs.map Event.shape) ≤ n) :
    noErr evs = true ∧ (e.replay sh evs).idealFor (n - callCount (evs.map Event.shape)) = true := by
  induction evs generalizing e sh n with
  | nil => exact ⟨rfl, h⟩
  | cons x evs ih =>
    cases x with
    | wait t =>
      rw [List.map_cons, Event.shape, callCount_cons_wait] at hc ⊢
      have := ih h hg hc
      exact ⟨by simpa [noErr, Event.isErr] using this.1, this.2⟩
    | call c r =>
      rw [List.map_cons, Event.shape, callCount_cons_call] at hc ⊢
      simp only [Env.gave, Bool.and_eq_true, decide_eq_true_eq] at hg
      obtain ⟨rfl, hg⟩ := hg
      obtain ⟨m, rfl⟩ : ∃ m, n = m + 1 := ⟨n - 1, by omega⟩
      obtain ⟨hne, hid⟩ := Env.idealFor_step h sh c
      have := ih hid hg (by omega)
      refine ⟨?_, ?_⟩
      · have h2 := noErr_append [.call c (e.answer c)] evs
        rw [noErr_call _ _ hne, this.1] at h2
        exact h2
      · rw [Nat.add_sub_add_right]
        exact this.2

theorem noErr_err (a b : List Event) (c : Call) : noErr (a ++ .call c .err :: b) = false := by
  simp [noErr, Event.isErr]

/-- What follows a layout under an ideal capability for its calls is done. -/
theorem Follows.done_of_ideal {α : Type} {L : List Shape} {s : State} {x : Attempt α} (h : Follows L s x)
    (hi : s.env.idealFor (callCount L) = true) : ∃ a t, x = .done a t := by
  cases x with
  | done a t => exact ⟨a, t, rfl⟩
  | failed e t =>
    obtain ⟨evs, c, he, -, ⟨rest, hL⟩, -⟩ := h
    have hle : callCount ((evs ++ [Event.call c .err]).map Event.shape) ≤ callCount L := by
      rw [hL, List.map_append, callCount_append, callCount_append, callCount_cons_call, List.map_singleton, Event.shape,
        callCount_cons_call]
      simp [callCount]
    have := (Env.idealFor_gave hi he.gave hle).1
    rw [noErr_err] at this
    cases this

/-- A transaction under an ideal capability is done. -/
theorem runTransaction_ideal (toBuf : Bool) (body : List ByteOp) (s : State)
    (hi : s.env.idealFor (callCount (transactionLayout s.cfg body)) = true) :
    ∃ bs t, runTransaction toBuf body s = .done bs t := by
  obtain ⟨evs, he, ht⟩ := runTransaction_events toBuf body s
  cases hx : runTransaction toBuf body s with
  | done bs t => exact ⟨bs, t, rfl⟩
  | failed e t =>
    rw [hx] at he ht
    exfalso
    have key : callCount (evs.map Event.shape) ≤ callCount (transactionLayout s.cfg body) → noErr evs = false → False := by
      intro hle hne
      rw [(Env.idealFor_gave hi he.gave hle).1] at hne
      cases hne
    simp only [Attempt.error?] at ht
    generalize hoe : some e = oe at ht
    cases ht with
    | completed evs hs hn => cases hoe
    | bodyFailed pre fin c rest hn hl hf =>
      refine key ?_ (noErr_err _ _ _)
      rw [transactionLayout, callCount_append, hl]
      simp only [List.map_append, List.map_cons, callCount_append, callCount_cons_call, Event.shape, hf]
      omega
    | endFailed pre fin a b c hn hl hf hab ha =>
      refine key ?_ ?_
      · rw [transactionLayout, callCount_append, List.map_append, callCount_append, hl, hf]
      · rw [hab, ← List.append_assoc]; exact noErr_err _ _ _

end Sys2Proof.Machine
end

