-- ==== Sys2Proof/Laws/Memory.lean ====
section
/-! SUPPORT. The counterpart's storage: read after write, and every write keeps the canonical form. -/

namespace Sys2Proof.Machine

theorem Memory.read_write_same (m : Memory) (a : Nat) (v : Byte) (lo : Nat) (h : Memory.wfAbove lo m = true) :
    (Memory.write m a v).read a = v := by
  induction m generalizing lo with
  | nil =>
    by_cases hv : v = Memory.unlisted <;> simp [Memory.write, Memory.read, hv]
  | cons c m ih =>
    obtain ⟨b, w⟩ := c
    simp only [Memory.wfAbove, Bool.and_eq_true, decide_eq_true_eq] at h
    obtain ⟨⟨⟨hlo, hsz⟩, hw⟩, hm⟩ := h
    have below : ∀ (m : Memory) (lo a : Nat), Memory.wfAbove lo m = true → a < lo → m.read a = Memory.unlisted := by
      intro m
      induction m with
      | nil => intros; rfl
      | cons c m ih =>
        intro lo a h ha
        obtain ⟨b, w⟩ := c
        simp only [Memory.wfAbove, Bool.and_eq_true, decide_eq_true_eq] at h
        have hne : a ≠ b := by omega
        simp only [Memory.read, if_neg hne]
        exact ih (b + 1) a h.2 (by omega)
    unfold Memory.write
    by_cases h1 : a < b
    · simp only [h1, if_true]
      by_cases hv : v = Memory.unlisted
      · have hne : a ≠ b := by omega
        simp only [hv, if_true, Memory.read, if_neg hne]
        exact below m (b + 1) a hm (by omega)
      · simp [hv, Memory.read]
    · by_cases h2 : a = b
      · subst h2
        simp only [lt_irrefl, if_false, if_true]
        by_cases hv : v = Memory.unlisted
        · simp only [hv, if_true]
          exact below m (a + 1) a hm (by omega)
        · simp [hv, Memory.read]
      · simp only [h1, h2, if_false, Memory.read]
        exact ih (b + 1) hm

theorem Memory.read_write_other (m : Memory) (a a' : Nat) (v : Byte) (h : a' ≠ a) :
    (Memory.write m a v).read a' = m.read a' := by
  induction m with
  | nil => by_cases hv : v = Memory.unlisted <;> simp [Memory.write, Memory.read, hv, h]
  | cons c m ih =>
    obtain ⟨b, w⟩ := c
    unfold Memory.write
    split_ifs with h1 h2 h3 h4 <;> simp_all [Memory.read]

theorem Memory.write_wfAbove (m : Memory) (lo a : Nat) (v : Byte) (h : Memory.wfAbove lo m = true) (hlo : lo ≤ a)
    (ha : a < Memory.size) : Memory.wfAbove lo (Memory.write m a v) = true := by
  induction m generalizing lo with
  | nil => by_cases hv : v = Memory.unlisted <;> simp [Memory.write, Memory.wfAbove, hv, hlo, ha]
  | cons c m ih =>
    obtain ⟨b, w⟩ := c
    simp only [Memory.wfAbove, Bool.and_eq_true, decide_eq_true_eq, bne_iff_ne, ne_eq] at h
    obtain ⟨⟨⟨hlb, hsz⟩, hw⟩, hm⟩ := h
    have weaken : ∀ (m : Memory) (lo lo' : Nat), lo' ≤ lo → Memory.wfAbove lo m = true → Memory.wfAbove lo' m = true := by
      intro m lo lo' hl hm
      cases m with
      | nil => rfl
      | cons c m =>
        simp only [Memory.wfAbove, Bool.and_eq_true, decide_eq_true_eq] at hm ⊢
        exact ⟨⟨⟨by omega, hm.1.1.2⟩, hm.1.2⟩, hm.2⟩
    unfold Memory.write
    by_cases h1 : a < b
    · by_cases hv : v = Memory.unlisted
      · simp [h1, hv, Memory.wfAbove, hlb, hsz, hw, hm]
      · simp only [h1, hv, if_true, if_false, Memory.wfAbove, Bool.and_eq_true, decide_eq_true_eq, bne_iff_ne, ne_eq]
        exact ⟨⟨⟨hlo, ha⟩, not_false⟩, ⟨⟨⟨by omega, hsz⟩, hw⟩, hm⟩⟩
    · by_cases h2 : a = b
      · subst h2
        by_cases hv : v = Memory.unlisted
        · simp only [lt_irrefl, hv, if_true, if_false]
          exact weaken m (a + 1) lo (by omega) hm
        · simp only [lt_irrefl, hv, if_true, if_false, Memory.wfAbove, Bool.and_eq_true, decide_eq_true_eq, bne_iff_ne, ne_eq]
          exact ⟨⟨⟨hlb, hsz⟩, not_false⟩, hm⟩
      · simp only [h1, h2, if_false, Memory.wfAbove, Bool.and_eq_true, decide_eq_true_eq, bne_iff_ne, ne_eq]
        exact ⟨⟨⟨hlb, hsz⟩, hw⟩, ih (b + 1) hm (by omega)⟩

theorem Memory.write_wf (m : Memory) (a : Nat) (v : Byte) (h : m.wf = true) (ha : a < Memory.size) :
    (Memory.write m a v).wf = true :=
  Memory.write_wfAbove m 0 a v h (Nat.zero_le a) ha

theorem Region.base_add_lt (r : Region) (k : Nat) (h : k < r.size) : r.base + k < Memory.size := by
  cases r <;> simp only [Region.size, Region.base, Memory.size] at * <;> omega

/-- Slots of different regions, or different slots of one, are different addresses. -/
theorem Region.addr_inj (r r' : Region) (k k' : Nat) (h : k < r.size) (h' : k' < r'.size)
    (he : r.base + k = r'.base + k') : r = r' ∧ k = k' := by
  cases r <;> cases r' <;> simp only [Region.size, Region.base] at h h' he <;>
    first | exact ⟨rfl, by omega⟩ | (exfalso; omega)

theorem Memory.writeSlot_wf (m : Memory) (r : Region) (k : Nat) (v : Byte) (h : m.wf = true) :
    (m.writeSlot r k v).wf = true := by
  unfold Memory.writeSlot
  split
  · exact Memory.write_wf m _ v h (Region.base_add_lt r k ‹_›)
  · exact h

theorem Memory.readSlot_writeSlot_same (m : Memory) (r : Region) (k : Nat) (v : Byte) (h : m.wf = true) (hk : k < r.size) :
    (m.writeSlot r k v).readSlot r k = v := by
  simp only [Memory.writeSlot, hk, if_true, Memory.readSlot]
  exact Memory.read_write_same m _ v 0 h

theorem Memory.read_writeSlot_other (m : Memory) (r : Region) (k : Nat) (v : Byte) (a : Nat) (h : a ≠ r.base + k) :
    (m.writeSlot r k v).read a = m.read a := by
  unfold Memory.writeSlot
  split
  · exact Memory.read_write_other m _ _ v h
  · rfl

end Sys2Proof.Machine
end

