-- ==== Sys2Proof/Laws/Counterpart.lean ====
section
/-! SUPPORT. The reference counterpart at the other end of the wires: what bits reach it, whatever fails, and what they do. -/

namespace Sys2Proof.Machine

/-! ### Bits and bytes at the counterpart -/

theorem byteOfBits_byteBits (v : Byte) : byteOfBits (byteBits v) = v := by
  revert v; decide

theorem Chip.apply_frame (c : Chip) (cmd : Byte) (k : Nat) (v : Byte) :
    c.apply cmd k v = { c with mem := (c.apply cmd k v).mem } := by
  unfold Chip.apply
  split <;> first | rfl | (split <;> rfl)

theorem Chip.feed_append (c : Chip) (a b : List Bool) : c.feed (a ++ b) = (c.feed a).feed b := by
  simp [Chip.feed]

/-- Fewer than eight bits are only collected. -/
theorem Chip.feed_few (c : Chip) (bs : List Bool) (h : c.bits.length + bs.length < 8) :
    c.feed bs = { c with bits := c.bits ++ bs } := by
  induction bs generalizing c with
  | nil => simp [Chip.feed]
  | cons b bs ih =>
    rw [List.length_cons] at h
    have h1 : c.bits.length < 7 := by omega
    have h2 : c.shiftIn b = { c with bits := c.bits ++ [b] } := by simp [Chip.shiftIn, h1]
    have h3 : c.feed (b :: bs) = (c.shiftIn b).feed bs := rfl
    rw [h3, h2, ih]
    · simp
    · simp; omega

/-- Eight bits of a byte, when none was collected before. -/
theorem Chip.feed_byte (c : Chip) (v : Byte) (h : c.bits = []) : c.feed (byteBits v) = c.byteIn v := by
  have h7 : c.feed ((byteBits v).take 7) = { c with bits := (byteBits v).take 7 } := by
    rw [Chip.feed_few]
    · rw [h]; rfl
    · rw [h]; simp [byteBits]
  have hs : byteBits v = (byteBits v).take 7 ++ [bitAt v 7] := rfl
  have hb : byteOfBits ((byteBits v).take 7 ++ [bitAt v 7]) = v := by rw [← hs]; exact byteOfBits_byteBits v
  rw [hs, Chip.feed_append, h7]
  have hl : ¬ ((byteBits v).take 7).length < 7 := by simp [byteBits]
  have h1 : ∀ d : Chip, d.feed [bitAt v 7] = d.shiftIn (bitAt v 7) := fun _ => rfl
  rw [h1]
  have e3 : ∀ cmd, (Chip.apply { c with bits := (byteBits v).take 7 } cmd c.index v).mem = (c.apply cmd c.index v).mem := by
    intro cmd
    unfold Chip.apply Chip.isProtected
    cases Command.ofByte cmd with
    | none => rfl
    | some x => cases x <;> simp only <;> first | rfl | (split <;> rfl)
  unfold Chip.shiftIn Chip.byteIn
  simp only [hl, if_false, hb]
  obtain ⟨mem, ce, cmd, index, bits, reads, gets⟩ := c
  simp only at h
  subst h
  cases cmd with
  | none => rfl
  | some cmd =>
    simp only
    rw [Chip.apply_frame, e3, Chip.apply_frame ⟨mem, ce, some cmd, index, [], reads, gets⟩]

theorem Chip.byteIn_bits (c : Chip) (v : Byte) : (c.byteIn v).bits = c.bits ∧ (c.byteIn v).ce = c.ce := by
  unfold Chip.byteIn
  cases c.cmd with
  | none => exact ⟨rfl, rfl⟩
  | some cmd =>
    simp only
    rw [Chip.apply_frame]
    exact ⟨rfl, rfl⟩

/-- The first n of the bits of bytes: whole bytes, then fewer than eight bits, which change no storage (R85). -/
theorem Chip.feed_prefix (vs : List Byte) (c : Chip) (n : Nat) (h : c.bits = []) :
    ∃ m part, m ≤ vs.length ∧ part.length < 8 ∧
      c.feed ((vs.flatMap byteBits).take n) = { ((vs.take m).foldl Chip.byteIn c) with bits := part } ∧
      (8 * vs.length ≤ n → m = vs.length ∧ part = []) := by
  induction vs generalizing c n with
  | nil => exact ⟨0, [], Nat.le_refl _, by simp, by simp [Chip.feed]; rw [← h], fun _ => ⟨rfl, rfl⟩⟩
  | cons v vs ih =>
    have hl : (byteBits v).length = 8 := rfl
    by_cases hn : n < 8
    · refine ⟨0, (byteBits v).take n, Nat.zero_le _, by rw [List.length_take, hl]; omega, ?_, ?_⟩
      · rw [List.flatMap_cons, List.take_append_of_le_length (by rw [hl]; omega), Chip.feed_few]
        · rw [h]; rfl
        · rw [h, List.length_take, hl]; simp; omega
      · intro h8; rw [List.length_cons] at h8; omega
    · obtain ⟨m, part, hm, hp, hf, hall⟩ := ih (c.byteIn v) (n - 8) (by rw [(c.byteIn_bits v).1, h])
      refine ⟨m + 1, part, by simpa using hm, hp, ?_, ?_⟩
      · have ht : ((v :: vs).flatMap byteBits).take n = byteBits v ++ (vs.flatMap byteBits).take (n - 8) := by
          rw [List.flatMap_cons, List.take_append, hl, List.take_of_length_le (by rw [hl]; omega)]
        rw [ht, Chip.feed_append, Chip.feed_byte c v h, hf]
        rfl
      · intro h8
        rw [List.length_cons] at h8
        obtain ⟨rfl, hpe⟩ := hall (by omega)
        exact ⟨rfl, hpe⟩

/-! ### What reaches the counterpart -/

/-- What is attached after a call: nothing moves on an `Err`. -/
theorem Env.after_device (e : Env) (sh : Shadow) (c : Call) (r : Response) :
    (e.after sh c r).device = if r = .err then e.device else e.device.react sh (Config.freeLevel e.draws) c := rfl

/-- A property of the state that every pin call keeps. -/
def KeptByCalls (P : State → Prop) (cs : List Call) : Prop :=
  ∀ c ∈ cs, ∀ s, P s → ∀ r, P (s.afterCall c r)

/-- Whether a SET of PIN_CLK to 1 will be seen as a rising edge after one to 0: the shadow knows the clock's level. -/
def State.clockLive (s : State) : Prop := s.pins.clk.mode = .output ∨ s.pins.clk.lvl = .low

theorem afterCall_set_clk (s : State) (l : Bool) (r : Response) (hr : r ≠ .err) :
    (s.afterCall (.set .clk l) r).pins =
      if s.pins.clk.mode = .output then { s.pins with clk := { mode := .output, lvl := Level.ofBool l } } else s.pins := by
  simp only [State.afterCall_pins, Shadow.after, hr, if_false, Shadow.onOk, Shadow.at, Shadow.put]
  by_cases h : s.pins.clk.mode = .output <;> simp [h]

theorem afterCall_set_data (s : State) (l : Bool) (r : Response) (hr : r ≠ .err) :
    (s.afterCall (.set .data l) r).pins =
      if s.pins.data.mode = .output then { s.pins with data := { mode := .output, lvl := Level.ofBool l } } else s.pins := by
  simp only [State.afterCall_pins, Shadow.after, hr, if_false, Shadow.onOk, Shadow.at, Shadow.put]
  by_cases h : s.pins.data.mode = .output <;> simp [h]

theorem afterCall_device (s : State) (c : Call) (r : Response) {chip : Chip} (h : s.env.device = .counterpart chip) :
    (s.afterCall c r).env.device = .counterpart (if r = .err then chip else chip.react s.pins (Config.freeLevel s.env.draws) c) := by
  rw [State.afterCall_env, Env.after_device, h]
  split <;> rfl

/-- A call done, or failed: the two ways a part that starts with it goes on. -/
theorem callThen_cases {β : Type} (c : Call) (s : State) (f : State → Attempt β) :
    (∃ r, r ≠ .err ∧ callThen c s f = f (s.afterCall c r)) ∨
    (∃ e, callThen c s f = .failed e (s.afterCall c .err)) := by
  unfold callThen
  obtain ⟨l, h, hn⟩ | ⟨h, -⟩ := pinCall_cases c s
  · rw [h]; exact .inl ⟨_, hn, rfl⟩
  · rw [h]; exact .inr ⟨_, rfl⟩

theorem Level.sample_ofBool (b f : Bool) : (Level.ofBool b).sample f = b := by cases b <;> rfl

/-- One write cell at an open counterpart, PIN_DATA an output: it takes the bit at the rising edge, if the clock's level is
known; a cell that fails gives it nothing; what is known of the pins stands. -/
theorem writeCell_chip (s : State) (chip : Chip) (h : s.env.device = .counterpart chip) (hce : chip.ce = true)
    (hd : s.pins.data.mode = .output) :
    (∀ t, writeCell s = .done () t →
      ((s.clockLive ∧ t.env.device = .counterpart (chip.shiftIn (bitAt s.sr 0))) ∨
        (¬ s.clockLive ∧ t.env.device = .counterpart chip)) ∧
      (t.clockLive ↔ s.clockLive) ∧ t.pins.data.mode = .output) ∧
    (∀ e t, writeCell s = .failed e t → t.env.device = .counterpart chip) := by
  unfold writeCell
  obtain ⟨r1, n1, h1⟩ | ⟨e1, h1⟩ := callThen_cases (.set .clk false) s fun s =>
      callThen (.set .data (bitAt s.settle.sr 0)) s.settle fun s => callThen (.set .clk true) s.shiftSr fun s =>
        .done () s.settle.countBit
  · rw [h1]
    generalize hu : s.afterCall (.set .clk false) r1 = u
    have ud : u.env.device = .counterpart chip := by
      rw [← hu, afterCall_device s _ r1 h, if_neg n1]; rfl
    have up := hu ▸ afterCall_set_clk s false r1 n1
    have usr : u.settle.sr = s.sr := by rw [← hu]; rfl
    obtain ⟨r2, n2, h2⟩ | ⟨e2, h2⟩ := callThen_cases (.set .data (bitAt u.settle.sr 0)) u.settle fun s =>
      callThen (.set .clk true) s.shiftSr fun s => .done () s.settle.countBit
    · rw [h2]
      generalize hv : u.settle.afterCall (.set .data (bitAt u.settle.sr 0)) r2 = v
      have vd : v.env.device = .counterpart chip := by
        rw [← hv, afterCall_device u.settle _ r2 ud, if_neg n2]; rfl
      have udm : u.settle.pins.data.mode = .output := by
        rw [State.settle_pins, up]; split <;> exact hd
      have vp : v.pins = { u.pins with data := { mode := .output, lvl := Level.ofBool (bitAt s.sr 0) } } := by
        rw [← hv, afterCall_set_data u.settle _ r2 n2, if_pos udm, usr]; rfl
      obtain ⟨r3, n3, h3⟩ | ⟨e3, h3⟩ := callThen_cases (.set .clk true) v.shiftSr fun s => Attempt.done () s.settle.countBit
      · rw [h3]
        refine ⟨fun t ht => ?_, fun e t ht => by cases ht⟩
        simp only [Attempt.done.injEq, true_and] at ht
        have td : t.env.device = .counterpart (chip.react v.pins (Config.freeLevel v.env.draws) (.set .clk true)) := by
          rw [← ht, State.countBit_env, State.settle_env, afterCall_device v.shiftSr _ r3 vd, if_neg n3]; rfl
        have tp : t.pins = if v.pins.clk.mode = .output then { v.pins with clk := { mode := .output, lvl := .high } } else v.pins := by
          rw [← ht, State.countBit_pins, State.settle_pins, afterCall_set_clk v.shiftSr true r3 n3]; rfl
        by_cases hm : s.pins.clk.mode = .output
        · rw [if_pos hm] at up
          have hlow : v.pins.clk = { mode := .output, lvl := .low } := by rw [vp, up]; rfl
          refine ⟨.inl ⟨.inl hm, ?_⟩, ⟨fun _ => .inl hm, fun _ => .inl ?_⟩, ?_⟩
          · rw [td]
            simp only [Chip.react, hce, hlow, true_and]
            rw [vp]
            simp only [if_true, Level.sample_ofBool]
          · rw [tp, hlow]; rfl
          · rw [tp, hlow, if_pos rfl, vp]
        · rw [if_neg hm] at up
          have hclk : v.pins.clk = s.pins.clk := by rw [vp, up]
          have htp : t.pins = v.pins := by rw [tp, if_neg (by rw [hclk]; exact hm)]
          refine ⟨?_, ?_, by rw [htp, vp]⟩
          · by_cases hl : s.pins.clk.lvl = .low
            · refine .inl ⟨.inr hl, ?_⟩
              rw [td]
              simp only [Chip.react, hce, hclk, hl, true_and]
              rw [vp]
              simp only [if_true, Level.sample_ofBool]
            · refine .inr ⟨fun hc => hc.elim hm hl, ?_⟩
              rw [td]
              simp only [Chip.react, hclk, hl, false_and, and_false, if_false]
          · unfold State.clockLive; rw [htp, hclk]
      · rw [h3]
        refine ⟨fun t ht => (by cases ht), fun e t ht => ?_⟩
        simp only [Attempt.failed.injEq] at ht
        rw [← ht.2, afterCall_device v.shiftSr _ _ vd]; rfl
    · rw [h2]
      refine ⟨fun t ht => (by cases ht), fun e t ht => ?_⟩
      simp only [Attempt.failed.injEq] at ht
      rw [← ht.2, afterCall_device u.settle _ _ ud]; rfl
  · rw [h1]
    refine ⟨fun t ht => (by cases ht), fun e t ht => ?_⟩
    simp only [Attempt.failed.injEq] at ht
    rw [← ht.2, afterCall_device s _ _ h]; rfl

end Sys2Proof.Machine
end

