-- ==== Sys2Proof/Laws/Fits.lean ====
section
/-! SUPPORT. Fitting a layout: an attempt that is done issued exactly the layout; one that failed at a pin call issued the layout up
to that call, then what its failure still runs. The operations, once each. -/

namespace Sys2Proof.Machine

/-! ### The first failure of a trace -/

theorem firstErr_none_iff (evs : List Event) : firstErr evs = none ↔ noErr evs = true := by
  induction evs with
  | nil => simp [firstErr, noErr]
  | cons e evs ih =>
    rcases e with ⟨c, _ | l | _⟩ | t <;> simp_all [firstErr, noErr, Event.isErr]

theorem firstErr_append_err (pre post : List Event) (c : Call) (h : noErr pre = true) :
    firstErr (pre ++ .call c .err :: post) = some (pre.length, c) := by
  induction pre with
  | nil => rfl
  | cons e pre ih =>
    have h' : noErr pre = true := by simp [noErr] at h ⊢; exact h.2
    rcases e with ⟨d, _ | l | _⟩ | t
    · simp [firstErr, ih h']
    · simp [firstErr, ih h']
    · simp [noErr, Event.isErr] at h
    · simp [firstErr, ih h']

theorem firstErr_append_clean (a b : List Event) (h : noErr a = true) :
    firstErr (a ++ b) = (firstErr b).map fun p => (p.1 + a.length, p.2) := by
  induction a with
  | nil => simp
  | cons e a ih =>
    have h' : noErr a = true := by simp [noErr] at h ⊢; exact h.2
    rcases e with ⟨d, _ | l | _⟩ | t
    · simp [firstErr, ih h', Function.comp_def, Nat.add_assoc]
    · simp [firstErr, ih h', Function.comp_def, Nat.add_assoc]
    · simp [noErr, Event.isErr] at h
    · simp [firstErr, ih h', Function.comp_def, Nat.add_assoc]

theorem firstErr_append_some (a b : List Event) (n : Nat) (c : Call) (h : firstErr a = some (n, c)) :
    firstErr (a ++ b) = some (n, c) := by
  induction a generalizing n with
  | nil => cases h
  | cons e a ih =>
    rcases e with ⟨d, _ | l | _⟩ | t
    · simp only [firstErr, Option.map_eq_some_iff] at h
      obtain ⟨⟨m, c'⟩, h1, h2⟩ := h
      cases h2
      simp [firstErr, ih m h1]
    · simp only [firstErr, Option.map_eq_some_iff] at h
      obtain ⟨⟨m, c'⟩, h1, h2⟩ := h
      cases h2
      simp [firstErr, ih m h1]
    · simpa [firstErr] using h
    · simp only [firstErr, Option.map_eq_some_iff] at h
      obtain ⟨⟨m, c'⟩, h1, h2⟩ := h
      cases h2
      simp [firstErr, ih m h1]

/-! ### Fitting a layout -/

/-- How events fit a layout, by the error raised (60_exceptions.md R250). `aft n` is what still runs after event n failed. -/
def EventsFit (L : List Shape) (aft : Nat → List Shape) (s : State) (evs : List Event) : Option OpError → Prop
  | none => evs.map Event.shape = L ∧ noErr evs = true
  | some (.decode _ _ _) => evs.map Event.shape = L ∧ noErr evs = true
  | some (.lifecycle _ _ _) => evs = []
  | some (.encode _ _) => evs = []
  | some (.pinAccess c idx pos) =>
    ∃ n, firstErr evs = some (n, c) ∧ n < L.length ∧ idx = s.trace.length + n ∧ pos = s.seq.map (SeqPos.plus · n) ∧
      (evs.take (n + 1)).map Event.shape = L.take (n + 1) ∧ (evs.drop (n + 1)).map Event.shape = aft n

/-- An attempt fits a layout: its events do, and the sequencer counts them where it is done. -/
def Fits {α : Type} (L : List Shape) (aft : Nat → List Shape) (s : State) (x : Attempt α) : Prop :=
  ∃ evs, Issues s x.state evs ∧ EventsFit L aft s evs x.error? ∧
    (x.error? = none → x.state.seq = s.seq.map (SeqPos.plus · evs.length))

/-- What follows a layout fits it, and nothing runs after a failure. -/
theorem Follows.fits {α : Type} {L : List Shape} {s : State} {x : Attempt α} (h : Follows L s x) : Fits L (fun _ => []) s x := by
  cases x with
  | done a t =>
    obtain ⟨evs, he, hs, hn⟩ := h
    exact ⟨evs, he.toIssues, ⟨hs, hn⟩, fun _ => he.seq⟩
  | failed e t =>
    obtain ⟨evs, c, he, hn, ⟨rest, hl⟩, rfl⟩ := h
    refine ⟨_, he.toIssues, ⟨evs.length, firstErr_append_err _ [] _ hn, ?_, rfl, rfl, ?_, ?_⟩, fun h => by cases h⟩
    · rw [hl]; simp
    · rw [hl]
      have e1 : evs.length + 1 = (evs.map Event.shape ++ [Shape.call c]).length := by simp
      rw [List.take_of_length_le (by simp), List.map_append, List.append_cons, e1, List.take_left]
      rfl
    · rw [List.drop_of_length_le (by simp)]; rfl

/-- A change of the state that events do not read, first. -/
theorem Fits.of_left {α : Type} {L : List Shape} {aft : Nat → List Shape} {s s' : State} {x : Attempt α} (h : Fits L aft s' x)
    (h1 : s'.trace = s.trace) (h2 : s'.seq = s.seq) (h3 : s'.pins = s.pins) (h4 : s'.env = s.env) (h5 : s'.cfg = s.cfg) :
    Fits L aft s x := by
  obtain ⟨evs, hi, hf, hs⟩ := h
  refine ⟨evs, hi.of_left h1 h3 h4 h5, ?_, fun h => by rw [hs h, h2]⟩
  unfold EventsFit at hf ⊢
  split <;> simp_all

/-- One part after another. -/
theorem Fits.andThen {α β : Type} {L M : List Shape} {aft aft' : Nat → List Shape} {s : State} {x : Attempt α}
    {f : α → State → Attempt β} (hx : Fits L aft s x) (hd : ∀ k b w t, x ≠ .failed (.decode k b w) t)
    (hf : ∀ a t, x = .done a t → Fits M aft' t (f a t)) (he : ∀ a t k v u, x = .done a t → f a t ≠ .failed (.encode k v) u)
    (hl : ∀ a t o l i u, x = .done a t → f a t ≠ .failed (.lifecycle o l i) u) :
    Fits (L ++ M) (fun n => if n < L.length then aft n else aft' (n - L.length)) s (x.andThen f) := by
  cases x with
  | done a t =>
    obtain ⟨evs, hi, ⟨hs, hn⟩, hq⟩ := hx
    change Issues s t evs at hi
    replace hq : t.seq = _ := hq rfl
    obtain ⟨evs', hi', hf', hq'⟩ := hf a t rfl
    have hlen : evs.length = L.length := by rw [← hs, List.length_map]
    refine ⟨evs ++ evs', hi.append hi', ?_, fun h => ?_⟩
    · change EventsFit _ _ _ _ (f a t).error?
      cases hy : (f a t).error? with
      | none =>
        rw [hy] at hf'
        exact ⟨by rw [List.map_append, hs, hf'.1], by rw [noErr_append, hn, hf'.2]; rfl⟩
      | some e =>
        rw [hy] at hf'
        cases e with
        | decode k b w => exact ⟨by rw [List.map_append, hs, hf'.1], by rw [noErr_append, hn, hf'.2]; rfl⟩
        | lifecycle o l i =>
          cases hz : f a t with
          | done b u => rw [hz] at hy; cases hy
          | failed e u => rw [hz] at hy; cases hy; exact absurd hz (hl a t o l i u rfl)
        | encode k v =>
          cases hz : f a t with
          | done b u => rw [hz] at hy; cases hy
          | failed e u => rw [hz] at hy; cases hy; exact absurd hz (he a t k v u rfl)
        | pinAccess c idx pos =>
          obtain ⟨n, h1, h2, h3, h4, h5, h6⟩ := hf'
          refine ⟨n + evs.length, ?_, by rw [List.length_append]; omega, ?_, ?_, ?_, ?_⟩
          · rw [firstErr_append_clean _ _ hn, h1]; rfl
          · rw [h3, hi.trace]
            rw [List.length_append]
            omega
          · rw [h4, hq, Option.map_plus_plus, Nat.add_comm]
          · rw [show n + evs.length + 1 = evs.length + (n + 1) by omega, List.take_length_add_append, List.map_append, h5, hs,
              hlen, List.take_length_add_append]
          · rw [show n + evs.length + 1 = evs.length + (n + 1) by omega, List.drop_length_add_append, h6]
            show aft' n = if n + evs.length < L.length then _ else _
            rw [if_neg (by omega), show n + evs.length - L.length = n by omega]
    · have := hq' h
      change (f a t).state.seq = _
      rw [this, hq, Option.map_plus_plus, List.length_append]
  | failed e t =>
    obtain ⟨evs, hi, hf', -⟩ := hx
    refine ⟨evs, hi, ?_, fun h => by cases h⟩
    change EventsFit _ _ _ _ (some e)
    change EventsFit _ _ _ _ (some e) at hf'
    cases e with
    | decode k b w => exact absurd rfl (hd k b w t)
    | lifecycle o l i => exact hf'
    | encode k v => exact hf'
    | pinAccess c idx pos =>
      obtain ⟨n, h1, h2, h3, h4, h5, h6⟩ := hf'
      refine ⟨n, h1, by rw [List.length_append]; omega, h3, h4, ?_, ?_⟩
      · rw [h5, List.take_append_of_le_length (by omega)]
      · rw [h6]
        exact (if_pos h2).symm

/-! ### The scoped transaction -/

theorem byteLayout_length (cfg : Config) (b : ByteOp) : (byteLayout cfg b).length = 41 := by
  cases b <;> rfl

theorem bytesLayout_length (cfg : Config) (body : List ByteOp) : (body.flatMap (byteLayout cfg)).length = 41 * body.length := by
  induction body with
  | nil => rfl
  | cons b body ih => rw [List.flatMap_cons, List.length_append, ih, byteLayout_length, List.length_cons]; omega

/-- A transaction of m bytes has 5 + 41 m events (30_encoding.md R102). -/
theorem transactionLayout_length (cfg : Config) (body : List ByteOp) :
    (transactionLayout cfg body).length = 5 + 41 * body.length := by
  unfold transactionLayout
  rw [List.length_append, List.length_append, bytesLayout_length]
  simp only [beginLayout, endLayout, List.length_cons, List.length_nil]
  omega

/-- A transaction raises nothing but the PinAccessError of a call. -/
theorem runTransaction_error (toBuf : Bool) (body : List ByteOp) (s t : State) (e : OpError)
    (h : runTransaction toBuf body s = .failed e t) : ∃ c idx pos, e = .pinAccess c idx pos := by
  obtain ⟨evs, -, ht⟩ := runTransaction_events toBuf body s
  rw [h] at ht
  simp only [Attempt.error?] at ht
  generalize hoe : some e = oe at ht
  cases ht with
  | completed evs hs hn => cases hoe
  | bodyFailed pre fin c rest hn hl hf => cases hoe; exact ⟨_, _, _, rfl⟩
  | endFailed pre fin a b c hn hl hf hab ha => cases hoe; exact ⟨_, _, _, rfl⟩

theorem emits_seq_of_done {toBuf : Bool} {body : List ByteOp} {s t : State} {bs : List Byte}
    (h : runTransaction toBuf body s = .done bs t) {evs : List Event} (hi : Issues s t evs) :
    t.seq = s.seq.map (SeqPos.plus · evs.length) := by
  have hb := beginBody_follows toBuf body s
  unfold runTransaction at h
  cases hx : (beginTxn s.openTxn).andThen fun _ t => runBody toBuf 0 body t with
  | failed e u => rw [hx] at h; cases h
  | done v u =>
    rw [hx] at hb h
    obtain ⟨e1, he, -, -⟩ := hb
    obtain ⟨e2, hf, -, -⟩ := endTxn_spec u
    simp only at h
    cases h1 : (endTxn u).1 with
    | some e => rw [h1] at h; cases h
    | none =>
      rw [h1] at h
      simp only [Attempt.done.injEq] at h
      have hall := he.append hf
      have : s.trace ++ evs = s.trace ++ (e1 ++ e2) := by
        rw [← hi.trace, ← h.2, State.closeTxn_trace, hall.trace]
      rw [List.append_cancel_left this, ← h.2, State.closeTxn_seq, hall.seq]

/-- A transaction fits its layout; after a failure END still runs (R122, R245). -/
theorem runTransaction_fits (toBuf : Bool) (body : List ByteOp) (s : State) :
    Fits (transactionLayout s.cfg body) (txnAfterFailure body.length) s (runTransaction toBuf body s) := by
  obtain ⟨evs, hi, ht⟩ := runTransaction_events toBuf body s
  refine ⟨evs, hi, ?_, fun h => ?_⟩
  · generalize hoe : (runTransaction toBuf body s).error? = oe at ht
    clear hoe
    have hbody : (beginLayout ++ body.flatMap (byteLayout s.cfg)).length = 2 + 41 * body.length := by
      rw [List.length_append, bytesLayout_length]; rfl
    cases ht with
    | completed evs hs hn => exact ⟨hs, hn⟩
    | bodyFailed pre fin c rest hn hl hf =>
      have hlen : pre.length < 2 + 41 * body.length := by
        rw [hl] at hbody; simp at hbody; omega
      refine ⟨pre.length, firstErr_append_err _ _ _ hn, by rw [transactionLayout_length]; omega, rfl, rfl, ?_, ?_⟩
      · rw [transactionLayout, hl]
        have e1 : pre ++ Event.call c .err :: fin = (pre ++ [Event.call c .err]) ++ fin := by simp
        have e2 : pre.map Event.shape ++ Shape.call c :: rest ++ endLayout =
            (pre.map Event.shape ++ [Shape.call c]) ++ (rest ++ endLayout) := by simp
        rw [e1, e2, show pre.length + 1 = (pre ++ [Event.call c .err]).length by simp, List.take_left,
          show (pre ++ [Event.call c .err]).length = (pre.map Event.shape ++ [Shape.call c]).length by simp, List.take_left]
        simp [Event.shape]
      · have e1 : pre ++ Event.call c .err :: fin = (pre ++ [Event.call c .err]) ++ fin := by simp
        rw [e1, show pre.length + 1 = (pre ++ [Event.call c .err]).length by simp, List.drop_left, hf, txnAfterFailure,
          if_pos hlen]
    | endFailed pre fin a b c hn hl hf hab ha =>
      have hp : pre.length = 2 + 41 * body.length := by rw [← hbody, ← hl, List.length_map]
      have hlen : a.length < 3 := by
        have : fin.length = 3 := by rw [← List.length_map (f := Event.shape), hf]; rfl
        rw [hab] at this; simp at this; omega
      have hall : (pre ++ fin).map Event.shape = transactionLayout s.cfg body := by
        rw [List.map_append, hl, hf]; rfl
      refine ⟨(pre ++ a).length, ?_, by rw [transactionLayout_length, List.length_append]; omega, rfl, rfl, ?_, ?_⟩
      · rw [hab, ← List.append_assoc, firstErr_append_err _ _ _ (by rw [noErr_append, hn, ha]; rfl)]
      · rw [← hall, List.map_take]
      · rw [List.map_drop, hall, transactionLayout, hl.symm, txnAfterFailure, if_neg (by rw [List.length_append]; omega)]
        rw [show (pre ++ a).length + 1 = (pre.map Event.shape).length + (a.length + 1) by simp; omega,
          List.drop_length_add_append]
        congr 1
        rw [List.length_append]; omega
  · cases hx : runTransaction toBuf body s with
    | failed e t => rw [hx] at h; cases h
    | done bs t =>
      rw [hx] at hi
      exact emits_seq_of_done hx hi

/-! ### The runs of the operations -/

/-- The end of an operation moves no event. -/
theorem finishHost_issues {op : Op} {s : State} {x : Attempt Value} {evs : List Event} (h : Issues (s.startOp op) x.state evs) :
    Issues s (finishHost x) evs := by
  have h' : Issues s x.state evs := h.of_left rfl rfl rfl rfl
  cases x <;> exact h'.of_right rfl rfl rfl rfl

theorem finishHarness_issues {op : Op} {s : State} {x : Attempt Returned} {evs : List Event}
    (h : Issues (s.startOp op) x.state evs) : Issues s (finishHarness x) evs := by
  have h' : Issues s x.state evs := h.of_left rfl rfl rfl rfl
  cases x <;> exact h'.of_right rfl rfl rfl rfl

theorem finishHost_error (x : Attempt Value) : (finishHost x).result.bind Result.error? = x.error? := by
  cases x <;> rfl

/-- A host operation that is not refused ends the run from its first event. -/
theorem hostOp_next {op : Op} {run : State → Attempt Value} {s t : State} (h : hostOp op run s = .next t) :
    s.seq = none ∧ s.txnOpen = false ∧ t = finishHost (run (s.startOp op)) := by
  unfold hostOp State.startRefusal at h
  cases hs : s.seq with
  | some p => simp [hs] at h
  | none =>
    cases ht : s.txnOpen with
    | true => simp [hs, ht] at h
    | false => simp only [hs, ht] at h; cases h; exact ⟨rfl, rfl, rfl⟩

theorem harnessTransaction_next {op : Op} {run : State → Attempt Returned} {s t : State}
    (h : harnessTransaction op run s = .next t) : s.seq = none ∧ s.txnOpen = false ∧ t = finishHarness (run (s.startOp op)) := by
  unfold harnessTransaction State.startRefusal at h
  cases hs : s.seq with
  | some p => simp [hs] at h
  | none =>
    cases ht : s.txnOpen with
    | true => simp [hs, ht] at h
    | false => simp only [hs, ht] at h; cases h; exact ⟨rfl, rfl, rfl⟩

theorem microOp_next {op : Op} {run : State → Attempt Returned} {s t : State} (h : microOp op run s = .next t) :
    s.seq = none ∧ t = finishHarness (run (s.startOp op)) := by
  unfold microOp State.overlapRefusal at h
  cases hs : s.seq with
  | some p => simp [hs] at h
  | none => simp only [hs] at h; cases h; exact ⟨rfl, rfl⟩

/-- The other way: from an idle block each answers a next state. -/
theorem hostOp_idle {op : Op} {run : State → Attempt Value} {s : State} (h : s.Idle) :
    hostOp op run s = .next (finishHost (run (s.startOp op))) := by
  obtain ⟨h1, h2⟩ := h
  simp [hostOp, State.startRefusal, h1, h2]

theorem harnessTransaction_idle {op : Op} {run : State → Attempt Returned} {s : State} (h : s.Idle) :
    harnessTransaction op run s = .next (finishHarness (run (s.startOp op))) := by
  obtain ⟨h1, h2⟩ := h
  simp [harnessTransaction, State.startRefusal, h1, h2]

theorem microOp_idle {op : Op} {run : State → Attempt Returned} {s : State} (h : s.seq = none) :
    microOp op run s = .next (finishHarness (run (s.startOp op))) := by
  simp [microOp, State.overlapRefusal, h]

end Sys2Proof.Machine
end

