-- ==== Sys2Proof/Laws/Operands.lean ====
section
/-! SUPPORT. BUF's cells after a store, the bytes a write takes from them, and the bytes a body writes. -/

namespace Sys2Proof.Machine

theorem unspecifiedBuf_length (n : Nat) : (unspecifiedBuf n).length = Config.ramLen := by simp [unspecifiedBuf]

theorem storeFrom_length (k : Nat) (bs buf : List Byte) : (storeFrom k bs buf).length = buf.length := by
  induction bs generalizing k buf with
  | nil => rfl
  | cons b bs ih => rw [storeFrom, ih, List.length_set]

/-- A cell after a store: the byte stored to it, if one is, else what it held. -/
theorem storeFrom_getD (k : Nat) (bs buf : List Byte) (j : Nat) :
    (storeFrom k bs buf).getD j 0#8 =
      if k ≤ j ∧ j < k + bs.length ∧ j < buf.length then bs.getD (j - k) 0#8 else buf.getD j 0#8 := by
  induction bs generalizing k buf with
  | nil => rw [if_neg (by simp; omega)]; rfl
  | cons b bs ih =>
    rw [storeFrom, ih, List.length_set, List.length_cons]
    by_cases h : j = k
    · subst h
      rw [if_neg (by omega)]
      by_cases hl : j < buf.length
      · rw [if_pos (by omega)]; simp [List.getD_eq_getElem?_getD, hl]
      · rw [if_neg (by omega)]
        simp [List.getD_eq_getElem?_getD, hl]
    · have e : (buf.set k b).getD j 0#8 = buf.getD j 0#8 := by
        simp [List.getD_eq_getElem?_getD, List.getElem?_set_ne (Ne.symm h)]
      by_cases hc : k + 1 ≤ j ∧ j < k + 1 + bs.length ∧ j < buf.length
      · rw [if_pos hc, if_pos (by omega), show j - k = (j - (k + 1)) + 1 by omega, List.getD_cons_succ]
      · rw [if_neg hc, if_neg (by omega), e]

/-- The first cells after a store from cell 0 are the bytes stored. -/
theorem storeFrom_take (bs buf : List Byte) (h : bs.length ≤ buf.length) : (storeFrom 0 bs buf).take bs.length = bs := by
  apply List.ext_getElem
  · rw [List.length_take, storeFrom_length]; omega
  · intro j h1 h2
    have hg := storeFrom_getD 0 bs buf j
    rw [if_pos (by omega)] at hg
    have hl : j < (storeFrom 0 bs buf).length := by rw [storeFrom_length]; omega
    simpa [List.getD_eq_getElem?_getD, hl, h2] using hg

/-- BUF[0..n-1] after storing n bytes: those bytes (20_memory.md R67). -/
theorem bufBytes_storeBuf (s : State) (bs : List Byte) (n : Nat) (h : bs.length = n) (hb : n ≤ s.buf.length) :
    (s.storeBuf bs).bufBytes n = bs := by
  subst h
  unfold State.bufBytes
  apply List.ext_getElem
  · simp
  · intro j h1 h2
    have hg := storeFrom_getD 0 bs s.buf j
    rw [if_pos (by omega)] at hg
    simp only [List.getElem_map, List.getElem_range, bufCell, State.storeBuf]
    rw [hg]
    simp [List.getD_eq_getElem?_getD, h2]

/-- The data bytes of WRITE_DATETIME: the frame, then PAD_BYTE twice (43_register_codec.md R191). -/
theorem datetimeBytes_storeBuf (s : State) (f : Frame) :
    datetimeBytes (s.beginBuf.storeBuf f.toList) = f.toList ++ [s.cfg.padByte, s.cfg.padByte] := by
  unfold datetimeBytes
  rw [bufBytes_storeBuf s.beginBuf f.toList Config.frameLen rfl (by
    show 7 ≤ (unspecifiedBuf s.opCount).length
    rw [unspecifiedBuf_length]; decide)]
  rfl

/-- The data bytes of WRITE_RAM: the first n of the block (R193). -/
theorem ramBytes_storeBuf (s : State) (block : List Byte) :
    (s.beginBuf.storeBuf (block.take Config.ramLen)).bufBytes (min block.length Config.ramLen) = block.take Config.ramLen :=
  bufBytes_storeBuf s.beginBuf _ _ (by rw [List.length_take, Nat.min_comm]) (by
    show _ ≤ (unspecifiedBuf s.opCount).length
    rw [unspecifiedBuf_length]; exact Nat.min_le_right _ _)

theorem writesOf_map_wr (l : List Byte) : writesOf (l.map .wr) = l := by
  induction l with
  | nil => rfl
  | cons a l ih => rw [List.map_cons, writesOf, ih]

theorem writesOf_replicate_rd (n : Nat) : writesOf (List.replicate n .rd) = [] := by
  induction n with
  | zero => rfl
  | succ n ih => rw [List.replicate_succ, writesOf, ih]

/-- FMT-W(n) writes the command byte, then the data bytes (30_encoding.md R101). -/
theorem writesOf_writeFormat (c : Command) (data : List Byte) : writesOf (writeFormat c data) = c.code :: data := by
  rw [writeFormat, writesOf, writesOf_map_wr]

/-- FMT-R(n) writes the command byte alone (R101). -/
theorem writesOf_readFormat (c : Command) : writesOf (readFormat c) = [c.code] := by
  rw [readFormat, writesOf, writesOf_replicate_rd]

end Sys2Proof.Machine
end

