-- ==== Sys2Proof/Laws/Chip.lean ====
section
/-! SUPPORT. What the parts of a transaction do to the reference counterpart, whatever fails. -/

namespace Sys2Proof.Machine

/-! ### What bits change -/

/-- The counterpart but for its read counters, which no written bit touches. -/
def Chip.written (c : Chip) : Chip := { c with reads := 0, gets := 0 }

theorem Chip.apply_written (c : Chip) (cmd : Byte) (k : Nat) (v : Byte) : (c.written.apply cmd k v) = (c.apply cmd k v).written := by
  unfold Chip.apply Chip.isProtected Chip.written
  cases Command.ofByte cmd with
  | none => rfl
  | some x => cases x <;> simp only <;> first | rfl | (split <;> rfl)

theorem Chip.shiftIn_written (c : Chip) (b : Bool) : (c.shiftIn b).written = c.written.shiftIn b := by
  unfold Chip.shiftIn
  by_cases h : c.bits.length < 7
  · rw [if_pos h, if_pos (show c.written.bits.length < 7 from h)]; rfl
  · rw [if_neg h, if_neg (show ¬ c.written.bits.length < 7 from h)]
    cases hc : c.cmd with
    | none => rw [show c.written.cmd = none from hc]; rfl
    | some cmd =>
      rw [show c.written.cmd = some cmd from hc]
      simp only
      have := c.apply_written cmd c.index (byteOfBits (c.bits ++ [b]))
      rw [show c.written.index = c.index from rfl, show c.written.bits = c.bits from rfl, this]
      rfl

theorem Chip.feed_written (c : Chip) (bs : List Bool) : (c.feed bs).written = c.written.feed bs := by
  induction bs generalizing c with
  | nil => rfl
  | cons b bs ih => exact (ih (c.shiftIn b)).trans (by rw [Chip.shiftIn_written]; rfl)

theorem Chip.shiftIn_ce (c : Chip) (b : Bool) : (c.shiftIn b).ce = c.ce := by
  unfold Chip.shiftIn
  split
  · rfl
  · split
    · rfl
    · simp only; rw [Chip.apply_frame]

theorem Chip.feed_ce (c : Chip) (bs : List Bool) : (c.feed bs).ce = c.ce := by
  induction bs generalizing c with
  | nil => rfl
  | cons b bs ih => exact (ih (c.shiftIn b)).trans (c.shiftIn_ce b)

/-! ### A write byte at the counterpart -/

/-- n write cells at an open counterpart, PIN_DATA an output: it takes the first m of SR's bits, all of them if the cells are done
and the clock's level is known, none if it is not known. -/
theorem writeCells_chip (n : Nat) (s : State) (chip : Chip) (h : s.env.device = .counterpart chip) (hce : chip.ce = true)
    (hd : s.pins.data.mode = .output) :
    ∃ m, m ≤ n ∧ (writeCells n s).state.env.device = .counterpart (chip.feed ((srBits n s.sr).take m)) ∧
      (¬ s.clockLive → m = 0) ∧
      (∀ t, writeCells n s = .done () t → (s.clockLive → m = n) ∧ (t.clockLive ↔ s.clockLive)) := by
  induction n generalizing s chip with
  | zero =>
    refine ⟨0, Nat.le_refl _, h, fun _ => rfl, fun t ht => ?_⟩
    cases ht
    exact ⟨fun _ => rfl, Iff.rfl⟩
  | succ n ih =>
    obtain ⟨hok, hbad⟩ := writeCell_chip s chip h hce hd
    cases hx : writeCell s with
    | failed e t =>
      refine ⟨0, Nat.zero_le _, ?_, fun _ => rfl, fun u hu => ?_⟩
      · simp only [writeCells, hx, Attempt.andThen, Attempt.state]; exact hbad e t hx
      · simp only [writeCells, hx, Attempt.andThen] at hu; cases hu
    | done a t =>
      obtain ⟨hbit, hlive, hdm⟩ := hok t hx
      have hw : writeCells (n + 1) s = writeCells n t := by simp only [writeCells, hx, Attempt.andThen]
      have hsr := (writeCell_done hx).1
      rw [hw]
      obtain ⟨hl, hdev⟩ | ⟨hl, hdev⟩ := hbit
      · obtain ⟨m, hm, hdv, -, hdone⟩ := ih t _ hdev (by rw [Chip.shiftIn_ce]; exact hce) hdm
        refine ⟨m + 1, by omega, ?_, fun hn => absurd hl hn, fun u hu => ?_⟩
        · rw [hdv, hsr]; rfl
        · obtain ⟨h1, h2⟩ := hdone u hu
          exact ⟨fun _ => by rw [h1 (hlive.2 hl)], h2.trans hlive⟩
      · obtain ⟨m, hm, hdv, hzero, hdone⟩ := ih t _ hdev hce hdm
        have hm0 : m = 0 := hzero fun hc => hl (hlive.1 hc)
        subst hm0
        refine ⟨0, Nat.zero_le _, ?_, fun _ => rfl, fun u hu => ⟨fun hc => absurd hc hl, ((hdone u hu).2).trans hlive⟩⟩
        rw [hdv]; rfl

theorem afterCall_cfg_data (s : State) (d : Dir) (l : Option InitLevel) (r : Response) :
    (s.afterCall (.cfg [.data] d l) r).pins.clk = s.pins.clk ∧
    (r ≠ .err → (s.afterCall (.cfg [.data] d l) r).pins.data.mode = (match d with | .output => .output | .input => .input)) := by
  rw [State.afterCall_pins]
  unfold Shadow.after
  by_cases hr : r = .err
  · rw [if_pos hr]; exact ⟨rfl, fun h => absurd hr h⟩
  · rw [if_neg hr]
    cases d <;> exact ⟨rfl, fun _ => rfl⟩

/-- WRBYTE at an open counterpart: it takes the first m of the byte's bits. -/
theorem writeByte_chip (v : Byte) (s : State) (chip : Chip) (h : s.env.device = .counterpart chip) (hce : chip.ce = true) :
    ∃ m, m ≤ 8 ∧ (writeByte v s).state.env.device = .counterpart (chip.feed ((byteBits v).take m)) ∧
      (¬ s.clockLive → m = 0) ∧
      (∀ t, writeByte v s = .done () t → (s.clockLive → m = 8) ∧ (t.clockLive ↔ s.clockLive)) := by
  unfold writeByte
  obtain ⟨r, hr, hx⟩ | ⟨e, hx⟩ := callThen_cases (.cfg [.data] .output (some s.cfg.dataOutInit)) s fun s => writeCells 8 (s.loadSr v)
  · rw [hx]
    obtain ⟨hclk, hdm⟩ := afterCall_cfg_data s .output (some s.cfg.dataOutInit) r
    have hdev : (s.afterCall (.cfg [.data] .output (some s.cfg.dataOutInit)) r).env.device = .counterpart chip := by
      rw [afterCall_device s _ r h, if_neg hr]; rfl
    have hlive : ((s.afterCall (.cfg [.data] .output (some s.cfg.dataOutInit)) r).loadSr v).clockLive ↔ s.clockLive := by
      unfold State.clockLive
      rw [State.loadSr_pins, hclk]
    obtain ⟨m, hm, hdv, hz, hdone⟩ := writeCells_chip 8 ((s.afterCall (.cfg [.data] .output (some s.cfg.dataOutInit)) r).loadSr v) chip
      hdev hce (hdm hr)
    refine ⟨m, hm, ?_, fun hn => hz fun hc => hn (hlive.1 hc), fun t ht => ?_⟩
    · rw [hdv, State.loadSr_sr, srBits_eight]
    · obtain ⟨h1, h2⟩ := hdone t ht
      exact ⟨fun hl => h1 (hlive.2 hl), h2.trans hlive⟩
  · rw [hx]
    refine ⟨0, Nat.zero_le _, ?_, fun _ => rfl, fun t ht => by cases ht⟩
    simp only [Attempt.state]
    rw [afterCall_device s _ _ h]; rfl

/-! ### A read byte at the counterpart -/

/-- The state sees a counterpart that holds these written bits and bytes. -/
def State.sees (s : State) (w : Chip) : Prop := ∃ chip, s.env.device = .counterpart chip ∧ chip.written = w

/-- A call that is no SET of CE and no SET of the clock to 1 while PIN_DATA is driven writes nothing to the counterpart. -/
theorem sees_afterCall (s : State) (w : Chip) (c : Call) (r : Response) (h : s.sees w)
    (h1 : ∀ l, c ≠ .set .rst l) (h2 : c = .set .clk true → s.pins.data.mode ≠ .output) : (s.afterCall c r).sees w := by
  obtain ⟨chip, hdev, hw⟩ := h
  refine ⟨_, afterCall_device s c r hdev, ?_⟩
  split
  · exact hw
  · rw [← hw]
    cases c with
    | cfg ps d l =>
      cases d with
      | output => rfl
      | input => simp only [Chip.react]; split <;> rfl
    | get p => cases p <;> rfl
    | rel ps => rfl
    | set p l =>
      cases p with
      | rst => exact absurd rfl (h1 l)
      | data => rfl
      | clk =>
        cases l with
        | false => rfl
        | true =>
          simp only [Chip.react]
          rw [if_neg]
          intro hc
          exact h2 rfl hc.2.2

theorem afterCall_set_clk_data (s : State) (l : Bool) (r : Response) : (s.afterCall (.set .clk l) r).pins.data = s.pins.data := by
  rw [State.afterCall_pins]
  unfold Shadow.after
  split
  · rfl
  · simp only [Shadow.onOk]
    split <;> rfl

theorem afterCall_set_clk_live (s : State) (l : Bool) (r : Response) (hr : r ≠ .err) :
    ((s.afterCall (.set .clk l) r).clockLive ↔ s.clockLive) := by
  unfold State.clockLive
  rw [afterCall_set_clk s l r hr]
  by_cases h : s.pins.clk.mode = .output
  · simp [h]
  · simp [h]

theorem afterCall_get_pins (s : State) (p : Pin) (r : Response) (hr : r ≠ .err) : (s.afterCall (.get p) r).pins = s.pins := by
  rw [State.afterCall_pins]
  unfold Shadow.after
  rw [if_neg hr]
  rfl

/-- A read cell, PIN_DATA an input, writes nothing to the counterpart. -/
theorem readCell_sees (i : Nat) (s : State) (w : Chip) (h : s.sees w) (hd : s.pins.data.mode = .input) :
    (readCell i s).state.sees w ∧
    (∀ t, readCell i s = .done () t → (t.clockLive ↔ s.clockLive) ∧ t.pins.data.mode = .input) := by
  have hout : ∀ {u : State}, u.pins.data.mode = .input → u.pins.data.mode ≠ .output := fun hu hc => by rw [hu] at hc; cases hc
  unfold readCell
  obtain ⟨r1, n1, h1⟩ | ⟨e1, h1⟩ := callThen_cases (.set .clk true) s fun s => callThen (.set .clk false) s.settle fun s =>
      (pinCall (.get .data) s.settle).andThen fun b s => .done () (s.orSr b i).countBit
  · rw [h1]
    generalize hu : s.afterCall (.set .clk true) r1 = u
    have us : u.settle.sees w := hu ▸ sees_afterCall s w _ r1 h (by simp) fun _ => hout hd
    have ud : u.settle.pins.data.mode = .input := by rw [State.settle_pins, ← hu, afterCall_set_clk_data]; exact hd
    have ul : u.settle.clockLive ↔ s.clockLive := by rw [← hu]; exact afterCall_set_clk_live s true r1 n1
    obtain ⟨r2, n2, h2⟩ | ⟨e2, h2⟩ := callThen_cases (.set .clk false) u.settle fun s =>
      (pinCall (.get .data) s.settle).andThen fun b s => Attempt.done () (s.orSr b i).countBit
    · rw [h2]
      generalize hv : u.settle.afterCall (.set .clk false) r2 = v
      have vs : v.settle.sees w := hv ▸ sees_afterCall u.settle w _ r2 us (by simp) fun hc => by simp at hc
      have vd : v.settle.pins.data.mode = .input := by rw [State.settle_pins, ← hv, afterCall_set_clk_data]; exact ud
      have vl : v.settle.clockLive ↔ u.settle.clockLive := by rw [← hv]; exact afterCall_set_clk_live u.settle false r2 n2
      obtain ⟨b, h3, n3⟩ | ⟨h3, -⟩ := pinCall_cases (.get .data) v.settle
      · rw [h3]
        have gs := sees_afterCall v.settle w (.get .data) (v.settle.env.answer (.get .data)) vs (by simp) fun hc => by simp at hc
        refine ⟨gs, fun t ht => ?_⟩
        simp only [Attempt.andThen, Attempt.done.injEq, true_and] at ht
        have tp : t.pins = v.settle.pins := by
          rw [← ht]; exact afterCall_get_pins v.settle .data _ n3
        refine ⟨?_, by rw [tp]; exact vd⟩
        refine Iff.trans ?_ (vl.trans ul)
        unfold State.clockLive
        rw [tp]
      · rw [h3]
        exact ⟨sees_afterCall v.settle w (.get .data) .err vs (by simp) fun hc => by simp at hc, fun t ht => by cases ht⟩
    · rw [h2]
      exact ⟨sees_afterCall u.settle w _ .err us (by simp) fun hc => by simp at hc, fun t ht => by cases ht⟩
  · rw [h1]
    exact ⟨sees_afterCall s w _ .err h (by simp) fun _ => hout hd, fun t ht => by cases ht⟩

theorem readCells_sees (n i : Nat) (s : State) (w : Chip) (h : s.sees w) (hd : s.pins.data.mode = .input) :
    (readCells n i s).state.sees w ∧ (∀ t, readCells n i s = .done () t → (t.clockLive ↔ s.clockLive)) := by
  induction n generalizing i s with
  | zero => exact ⟨h, fun t ht => by cases ht; exact Iff.rfl⟩
  | succ n ih =>
    obtain ⟨h1, h2⟩ := readCell_sees i s w h hd
    cases hx : readCell i s with
    | failed e t =>
      rw [hx] at h1
      simp only [readCells, hx, Attempt.andThen]
      exact ⟨h1, fun t ht => by cases ht⟩
    | done a t =>
      rw [hx] at h1
      obtain ⟨hl, htd⟩ := h2 t hx
      simp only [readCells, hx, Attempt.andThen]
      obtain ⟨h3, h4⟩ := ih (i + 1) t h1 htd
      exact ⟨h3, fun u hu => (h4 u hu).trans hl⟩

/-- RDBYTE writes nothing to the counterpart. -/
theorem readByte_sees (s : State) (w : Chip) (h : s.sees w) :
    (readByte s).state.sees w ∧ (∀ b t, readByte s = .done b t → (t.clockLive ↔ s.clockLive)) := by
  unfold readByte
  obtain ⟨r, hr, hx⟩ | ⟨e, hx⟩ := callThen_cases (.cfg [.data] .input none) s fun s =>
    (readCells 8 0 (s.loadSr 0x00#8)).andThen fun _ t => .done t.sr t
  · rw [hx]
    obtain ⟨hclk, hdm⟩ := afterCall_cfg_data s .input none r
    have hs := sees_afterCall s w (.cfg [.data] .input none) r h (by simp) fun hc => by simp at hc
    have hlive : ((s.afterCall (.cfg [.data] .input none) r).loadSr 0x00#8).clockLive ↔ s.clockLive := by
      unfold State.clockLive
      rw [State.loadSr_pins, hclk]
    obtain ⟨h1, h2⟩ := readCells_sees 8 0 ((s.afterCall (.cfg [.data] .input none) r).loadSr 0x00#8) w hs (hdm hr)
    cases hy : readCells 8 0 ((s.afterCall (.cfg [.data] .input none) r).loadSr 0x00#8) with
    | failed e t => rw [hy] at h1; exact ⟨h1, fun b t ht => by cases ht⟩
    | done a t =>
      rw [hy] at h1
      refine ⟨h1, fun b u hu => ?_⟩
      simp only [Attempt.andThen, Attempt.done.injEq] at hu
      obtain ⟨-, rfl⟩ := hu
      exact (h2 _ hy).trans hlive
  · rw [hx]
    exact ⟨sees_afterCall s w _ .err h (by simp) fun hc => by simp at hc, fun b t ht => by cases ht⟩

/-! ### A transaction at the counterpart -/

theorem State.sees_keepByte (s : State) (w : Chip) (toBuf : Bool) (k : Nat) (b : Byte) :
    ((s.keepByte toBuf k b).sees w ↔ s.sees w) ∧ ((s.keepByte toBuf k b).clockLive ↔ s.clockLive) := by
  unfold State.keepByte
  cases toBuf <;> exact ⟨Iff.rfl, Iff.rfl⟩

/-- A body at an open counterpart: it takes the first m of the bits of the written bytes, all of them if the body is done and the
clock's level is known, none if it is not known. -/
theorem runBody_chip (toBuf : Bool) (k : Nat) (ops : List ByteOp) (s : State) (w : Chip) (h : s.sees w) (hce : w.ce = true) :
    ∃ m, (runBody toBuf k ops s).state.sees (w.feed (((writesOf ops).flatMap byteBits).take m)) ∧
      (¬ s.clockLive → m = 0) ∧
      (∀ bs t, runBody toBuf k ops s = .done bs t → (s.clockLive → m = 8 * (writesOf ops).length) ∧ (t.clockLive ↔ s.clockLive)) := by
  induction ops generalizing k s w with
  | nil => exact ⟨0, h, fun _ => rfl, fun bs t ht => by cases ht; exact ⟨fun _ => rfl, Iff.rfl⟩⟩
  | cons op ops ih =>
    cases op with
    | wr v =>
      obtain ⟨chip, hdev, hw⟩ := h
      have hcc : chip.ce = true := by rw [← hw] at hce; exact hce
      obtain ⟨m, hm, hdv, hz, hdone⟩ := writeByte_chip v s chip hdev hcc
      have hl8 : (byteBits v).length = 8 := rfl
      cases hx : writeByte v s with
      | failed e t =>
        rw [hx] at hdv
        simp only [runBody, hx, Attempt.andThen]
        refine ⟨m, ⟨_, hdv, ?_⟩, hz, fun bs t ht => by cases ht⟩
        rw [Chip.feed_written, hw, writesOf, List.flatMap_cons, List.take_append_of_le_length (by rw [hl8]; exact hm)]
      | done a t =>
        rw [hx] at hdv
        obtain ⟨h8, hlive⟩ := hdone t hx
        simp only [runBody, hx, Attempt.andThen]
        have hs : t.sees (w.feed ((byteBits v).take m)) := ⟨_, hdv, by rw [Chip.feed_written, hw]⟩
        obtain ⟨m', hs', hz', hdone'⟩ := ih k t _ hs (by rw [Chip.feed_ce]; exact hce)
        by_cases hl : s.clockLive
        · have hm8 := h8 hl
          subst hm8
          refine ⟨8 + m', ?_, fun hn => absurd hl hn, fun bs u hu => ?_⟩
          · rw [writesOf, List.flatMap_cons, List.take_append, hl8, List.take_of_length_le (by rw [hl8]; omega),
              Nat.add_sub_cancel_left, Chip.feed_append]
            rw [List.take_of_length_le (by rw [hl8])] at hs'
            exact hs'
          · obtain ⟨ha, hb⟩ := hdone' bs u hu
            refine ⟨fun _ => ?_, hb.trans hlive⟩
            rw [ha (hlive.2 hl), writesOf, List.length_cons]
            omega
        · have hm0 := hz hl
          have hm0' := hz' fun hc => hl (hlive.1 hc)
          subst hm0 hm0'
          exact ⟨0, hs', fun _ => rfl, fun bs u hu => ⟨fun hc => absurd hc hl, ((hdone' bs u hu).2).trans hlive⟩⟩
    | rd =>
      obtain ⟨h1, h2⟩ := readByte_sees s w h
      cases hx : readByte s with
      | failed e t =>
        rw [hx] at h1
        simp only [runBody, hx, Attempt.andThen]
        exact ⟨0, h1, fun _ => rfl, fun bs t ht => by cases ht⟩
      | done b t =>
        rw [hx] at h1
        have hlive := h2 b t hx
        simp only [runBody, hx, Attempt.andThen]
        obtain ⟨ks, kl⟩ := t.sees_keepByte w toBuf k b
        obtain ⟨m, hs', hz', hdone'⟩ := ih (k + 1) (t.keepByte toBuf k b) w (ks.2 h1) hce
        refine ⟨m, ?_, fun hn => hz' fun hc => hn (hlive.1 (kl.1 hc)), fun bs u hu => ?_⟩
        · cases hy : runBody toBuf (k + 1) ops (t.keepByte toBuf k b) with
          | done cs u => rw [hy] at hs'; exact hs'
          | failed e u => rw [hy] at hs'; exact hs'
        · cases hy : runBody toBuf (k + 1) ops (t.keepByte toBuf k b) with
          | failed e v => rw [hy] at hu; cases hu
          | done cs v =>
            rw [hy] at hu
            simp only [Attempt.done.injEq] at hu
            obtain ⟨ha, hb⟩ := hdone' cs v hy
            rw [← hu.2]
            exact ⟨fun hl => ha (kl.2 (hlive.2 hl)), hb.trans (kl.trans hlive)⟩

theorem afterCall_set_rst_live (s : State) (l : Bool) (r : Response) : (s.afterCall (.set .rst l) r).clockLive ↔ s.clockLive := by
  have : (s.afterCall (.set .rst l) r).pins.clk = s.pins.clk := by
    rw [State.afterCall_pins]
    unfold Shadow.after
    split
    · rfl
    · simp only [Shadow.onOk]
      split <;> rfl
  unfold State.clockLive
  rw [this]

/-- BEGIN opens a fresh transaction at the counterpart, if both calls are answered `Ok`, whatever stood open there (R81, R85;
70_reset_and_hazards.md R287). -/
theorem beginTxn_chip (s : State) (w : Chip) (h : s.sees w) :
    (∀ t, beginTxn s = .done () t → t.sees w.openTxn ∧ (t.clockLive ↔ s.clockLive)) ∧
    (∀ e t, beginTxn s = .failed e t → t.sees w) := by
  unfold beginTxn
  obtain ⟨r1, n1, h1⟩ | ⟨e1, h1⟩ := callThen_cases (.set .clk false) s fun s => callThen (.set .rst true) s fun s => .done () s
  · rw [h1]
    have us := sees_afterCall s w (.set .clk false) r1 h (by simp) fun hc => by simp at hc
    have ul := afterCall_set_clk_live s false r1 n1
    obtain ⟨r2, n2, h2⟩ | ⟨e2, h2⟩ := callThen_cases (.set .rst true) (s.afterCall (.set .clk false) r1) fun s => .done () s
    · rw [h2]
      refine ⟨fun t ht => ?_, fun e t ht => by cases ht⟩
      simp only [Attempt.done.injEq, true_and] at ht
      subst ht
      refine ⟨?_, (afterCall_set_rst_live _ true r2).trans ul⟩
      obtain ⟨chip, hdev, hw⟩ := us
      refine ⟨_, afterCall_device _ _ r2 hdev, ?_⟩
      rw [if_neg n2, ← hw]
      rfl
    · rw [h2]
      refine ⟨fun t ht => (by cases ht), fun e t ht => ?_⟩
      simp only [Attempt.failed.injEq] at ht
      rw [← ht.2]
      obtain ⟨chip, hdev, hw⟩ := us
      exact ⟨_, afterCall_device _ _ .err hdev, hw⟩
  · rw [h1]
    refine ⟨fun t ht => (by cases ht), fun e t ht => ?_⟩
    simp only [Attempt.failed.injEq] at ht
    rw [← ht.2]
    exact sees_afterCall s w _ .err h (by simp) fun hc => by simp at hc

/-- END changes no storage of the counterpart; when no call of it fails, no transaction is open there (R85). -/
theorem endTxn_chip (s : State) (w : Chip) (h : s.sees w) :
    ∃ chip, (endTxn s).2.env.device = .counterpart chip ∧ chip.mem = w.mem ∧
      ((endTxn s).1 = none → chip.ce = false ∧ ((endTxn s).2.clockLive ↔ s.clockLive)) := by
  unfold endTxn endCalls
  simp only [tryCalls]
  obtain ⟨a2, a1⟩ := tryCall_spec (.cfg [.data] .input none) none s
  generalize tryCall (.cfg [.data] .input none) none s = x at a1 a2
  obtain ⟨b2, b1⟩ := tryCall_spec (.set .clk false) x.1 x.2
  generalize tryCall (.set .clk false) x.1 x.2 = y at b1 b2
  obtain ⟨c2, c1⟩ := tryCall_spec (.set .rst false) y.1 y.2
  generalize tryCall (.set .rst false) y.1 y.2 = z at c1 c2
  have xs : x.2.sees w := a2 ▸ sees_afterCall s w _ _ h (by simp) fun hc => by simp at hc
  have ys : y.2.sees w := b2 ▸ sees_afterCall x.2 w _ _ xs (by simp) fun hc => by simp at hc
  obtain ⟨chip, hdev, hw⟩ := ys
  have hz := afterCall_device y.2 (.set .rst false) (y.2.env.answer (.set .rst false)) hdev
  rw [← c2] at hz
  refine ⟨_, hz, ?_, fun hn => ?_⟩
  · rw [← hw]
    split <;> rfl
  · rw [hn] at c1
    have hr : y.2.env.answer (.set .rst false) ≠ .err := fun hc => by
      rw [if_pos hc] at c1
      cases hy : y.1 with
      | none => rw [hy] at c1; cases c1
      | some e => rw [hy] at c1; cases c1
    rw [if_neg hr] at c1
    rw [← c1] at b1
    have hb : x.2.env.answer (.set .clk false) ≠ .err := fun hc => by
      rw [if_pos hc] at b1
      cases hy : x.1 with
      | none => rw [hy] at b1; cases b1
      | some e => rw [hy] at b1; cases b1
    rw [if_neg hr]
    refine ⟨rfl, ?_⟩
    rw [c2]
    refine (afterCall_set_rst_live y.2 false _).trans ?_
    rw [b2]
    refine (afterCall_set_clk_live x.2 false _ hb).trans ?_
    unfold State.clockLive
    rw [a2, (afterCall_cfg_data s .input none _).1]

/-- A transaction, whatever fails and whatever stood open at the counterpart: its storage is what the first m bits of the written bytes make
of it; all of them when the transaction is done with the clock's level known (R70, R85). -/
theorem runTransaction_chip (toBuf : Bool) (body : List ByteOp) (s : State) (chip : Chip) (h : s.env.device = .counterpart chip) :
    ∃ m c, (runTransaction toBuf body s).state.env.device = .counterpart c ∧
      c.mem = (chip.openTxn.feed (((writesOf body).flatMap byteBits).take m)).mem ∧
      (∀ bs t, runTransaction toBuf body s = .done bs t →
        c.ce = false ∧ (s.clockLive → m = 8 * (writesOf body).length) ∧ (t.clockLive ↔ s.clockLive)) := by
  have hs : s.openTxn.sees chip.written := ⟨chip, h, rfl⟩
  have hw : chip.written.openTxn = chip.openTxn := rfl
  obtain ⟨hok, hbad⟩ := beginTxn_chip s.openTxn chip.written hs
  unfold runTransaction
  cases hx : beginTxn s.openTxn with
  | failed e t =>
    simp only [Attempt.andThen]
    obtain ⟨c, hdev, hmem, -⟩ := endTxn_chip (t.seekEnd s.seq body.length) chip.written (hbad e t hx)
    exact ⟨0, c, hdev, hmem, fun bs u hu => by cases hu⟩
  | done a t =>
    obtain ⟨ts, tl⟩ := hok t hx
    rw [hw] at ts
    obtain ⟨m, hb, -, hdone⟩ := runBody_chip toBuf 0 body t chip.openTxn ts rfl
    simp only [Attempt.andThen]
    cases hy : runBody toBuf 0 body t with
    | failed e u =>
      rw [hy] at hb
      simp only
      obtain ⟨c, hdev, hmem, -⟩ := endTxn_chip (u.seekEnd s.seq body.length) _ hb
      exact ⟨m, c, hdev, hmem, fun bs u hu => by cases hu⟩
    | done bs u =>
      rw [hy] at hb
      obtain ⟨hfull, hul⟩ := hdone bs u hy
      obtain ⟨c, hdev, hmem, hn⟩ := endTxn_chip u _ hb
      simp only
      cases h1 : (endTxn u).1 with
      | some e => exact ⟨m, c, hdev, hmem, fun cs v hv => by cases hv⟩
      | none =>
        obtain ⟨hc0, hel⟩ := hn h1
        refine ⟨m, c, hdev, hmem, fun cs v hv => ?_⟩
        simp only [Attempt.done.injEq] at hv
        obtain ⟨-, rfl⟩ := hv
        exact ⟨hc0, fun hl => hfull (tl.2 hl), (hel.trans hul).trans tl⟩

/-! ### What written bytes store -/

/-- One whole byte after a command: it is stored to its slot, if it has one and the slot is WP or the counterpart is not protected,
and changes no other storage (R83, R84). -/
theorem Chip.byteIn_spec (c : Chip) (cmd v : Byte) (h : c.cmd = some cmd) :
    (c.byteIn v).cmd = some cmd ∧ (c.byteIn v).index = c.index + 1 ∧
    (c.byteIn v).mem =
      match storeSlot cmd c.index with
      | some (r, k) => if r = .wp ∨ c.isProtected = false then c.mem.writeSlot r k v else c.mem
      | none => c.mem := by
  unfold Chip.byteIn
  rw [h]
  refine ⟨?_, ?_, ?_⟩
  · simp only; rw [Chip.apply_frame]; exact h
  · rfl
  · simp only
    unfold Chip.apply storeSlot
    cases Command.ofByte cmd with
    | none => rfl
    | some x =>
      cases x <;> simp only
      case clockBurstWrite => by_cases h1 : c.index ≤ 6 <;> by_cases h2 : c.isProtected = false <;> simp [h1, h2]
      case ramBurstWrite => by_cases h1 : c.index ≤ 30 <;> by_cases h2 : c.isProtected = false <;> simp [h1, h2]
      case wpWrite => by_cases h1 : c.index = 0 <;> simp [h1]
      case tcWrite => by_cases h1 : c.index = 0 <;> by_cases h2 : c.isProtected = false <;> simp [h1, h2]

/-- The bytes after a command change no address but those of their slots. -/
theorem Chip.bytesIn_read (vs : List Byte) (c : Chip) (cmd : Byte) (a : Nat) (h : c.cmd = some cmd)
    (ha : ∀ j, j < vs.length → ∀ r k, storeSlot cmd (c.index + j) = some (r, k) → a ≠ r.base + k) :
    (vs.foldl Chip.byteIn c).mem.read a = c.mem.read a := by
  induction vs generalizing c with
  | nil => rfl
  | cons v vs ih =>
    obtain ⟨h1, h2, h3⟩ := c.byteIn_spec cmd v h
    rw [List.foldl_cons, ih (c.byteIn v) h1]
    · rw [h3]
      cases hs : storeSlot cmd c.index with
      | none => rfl
      | some p =>
        simp only
        split
        · exact Memory.read_writeSlot_other _ _ _ _ _ (ha 0 (by simp) p.1 p.2 hs)
        · rfl
    · intro j hj r k hk
      rw [h2] at hk
      exact ha (j + 1) (by simpa using hj) r k (by rw [← hk]; congr 1; omega)

theorem Chip.bytesIn_wf (vs : List Byte) (c : Chip) (cmd : Byte) (h : c.cmd = some cmd) (hwf : c.mem.wf = true) :
    (vs.foldl Chip.byteIn c).mem.wf = true := by
  induction vs generalizing c with
  | nil => exact hwf
  | cons v vs ih =>
    obtain ⟨h1, -, h3⟩ := c.byteIn_spec cmd v h
    refine ih (c.byteIn v) h1 ?_
    rw [h3]
    cases storeSlot cmd c.index with
    | none => exact hwf
    | some p =>
      simp only
      split
      · exact Memory.writeSlot_wf _ _ _ _ hwf
      · exact hwf

/-- A protected counterpart keeps its storage, but for WP. -/
theorem Chip.bytesIn_protected (vs : List Byte) (c : Chip) (cmd : Byte) (h : c.cmd = some cmd) (hp : c.isProtected = true)
    (hwp : ∀ j, j < vs.length → ∀ k, storeSlot cmd (c.index + j) ≠ some (.wp, k)) : (vs.foldl Chip.byteIn c).mem = c.mem := by
  induction vs generalizing c with
  | nil => rfl
  | cons v vs ih =>
    obtain ⟨h1, h2, h3⟩ := c.byteIn_spec cmd v h
    have hm : (c.byteIn v).mem = c.mem := by
      rw [h3]
      cases hs : storeSlot cmd c.index with
      | none => rfl
      | some p =>
        simp only
        rw [if_neg]
        rintro (hc | hc)
        · exact hwp 0 (by simp) p.2 (by rw [Nat.add_zero, hs, ← hc])
        · rw [hp] at hc; cases hc
    rw [List.foldl_cons, ih (c.byteIn v) h1 (by unfold Chip.isProtected at hp ⊢; rw [hm]; exact hp), hm]
    intro j hj k hk
    rw [h2] at hk
    exact hwp (j + 1) (by simpa using hj) k (by rw [← hk]; congr 1; omega)

/-- The bytes of a burst to a region other than WP, not protected: each is in its slot, and the region's other slots stand. -/
theorem Chip.bytesIn_burst (vs : List Byte) (c : Chip) (cmd : Byte) (r : Region) (n : Nat) (h : c.cmd = some cmd)
    (hwf : c.mem.wf = true) (hp : c.isProtected = false) (hr : r ≠ .wp) (hn : n ≤ r.size)
    (hslot : ∀ j, j < n → storeSlot cmd j = some (r, j)) (hlen : c.index + vs.length ≤ n) (k : Nat) (hk : k < n) :
    (vs.foldl Chip.byteIn c).mem.readSlot r k =
      if c.index ≤ k ∧ k < c.index + vs.length then vs.getD (k - c.index) 0#8 else c.mem.readSlot r k := by
  induction vs generalizing c with
  | nil => rw [if_neg (by simp)]; rfl
  | cons v vs ih =>
    rw [List.length_cons] at hlen
    obtain ⟨h1, h2, h3⟩ := c.byteIn_spec cmd v h
    rw [hslot c.index (by omega)] at h3
    simp only at h3
    rw [if_pos (.inr hp)] at h3
    have hprot : (c.byteIn v).isProtected = false := by
      unfold Chip.isProtected at hp ⊢
      rw [h3, ← hp]
      congr 1
      exact Memory.read_writeSlot_other _ _ _ _ _ fun he => by
        have := Region.addr_inj .wp r 0 c.index (by decide) (by omega) he
        exact hr this.1.symm
    rw [List.foldl_cons, ih (c.byteIn v) h1 (by rw [h3]; exact Memory.writeSlot_wf _ _ _ _ hwf) hprot (by rw [h2]; omega), h2, h3]
    rw [List.length_cons]
    by_cases he : k = c.index
    · subst he
      rw [if_neg (by omega), if_pos (by omega), Memory.readSlot_writeSlot_same _ _ _ _ hwf (by omega), Nat.sub_self]
      rfl
    · have hother : (c.mem.writeSlot r c.index v).readSlot r k = c.mem.readSlot r k :=
        Memory.read_writeSlot_other _ _ _ _ _ (by omega)
      by_cases hin : c.index + 1 ≤ k ∧ k < c.index + 1 + vs.length
      · rw [if_pos hin, if_pos (by omega)]
        obtain ⟨d, hd⟩ : ∃ d, k - c.index = d + 1 := ⟨k - c.index - 1, by omega⟩
        rw [hd, List.getD_cons_succ]
        congr 1
        omega
      · rw [if_neg hin, if_neg (by omega), hother]

/-- The storage after a transaction's first m bits: what its first n whole bytes make of it (R85). -/
theorem Chip.openTxn_feed (c : Chip) (vs : List Byte) (m : Nat) :
    ∃ n, n ≤ vs.length ∧ (c.openTxn.feed ((vs.flatMap byteBits).take m)).mem = ((vs.take n).foldl Chip.byteIn c.openTxn).mem ∧
      (m = 8 * vs.length → n = vs.length) := by
  obtain ⟨n, part, hn, -, hf, hall⟩ := Chip.feed_prefix vs c.openTxn m rfl
  exact ⟨n, hn, by rw [hf], fun hm => (hall (by omega)).1⟩

/-- The command byte stores nothing; the data bytes after it start at index 0 (R81, R83). -/
theorem Chip.openTxn_command (c : Chip) (cmd : Byte) :
    (c.openTxn.byteIn cmd).cmd = some cmd ∧ (c.openTxn.byteIn cmd).index = 0 ∧ (c.openTxn.byteIn cmd).mem = c.mem := ⟨rfl, rfl, rfl⟩

/-! ### What is read, when the counterpart answers every call -/

/-- The state sees this counterpart, and nothing scripted stands in its way: every call is answered `Ok` by it (R88). -/
def State.meets (s : State) (c : Chip) : Prop := s.env.device = .counterpart c ∧ s.env.plan = []

theorem meets_answer {s : State} {c : Chip} (h : s.meets c) (call : Call) :
    s.env.answer call = call.okWith ((Device.counterpart c).levelOf s.env.draws call) := by
  unfold Env.answer
  rw [h.2, h.1]
  rfl

theorem meets_callThen {β : Type} {s : State} {c : Chip} (h : s.meets c) (call : Call) (hg : ∀ p, call ≠ .get p)
    (f : State → Attempt β) :
    callThen call s f = f (s.afterCall call .ok) ∧
      (s.afterCall call .ok).meets (c.react s.pins (Config.freeLevel s.env.draws) call) := by
  have ha := meets_answer h call
  have hok : s.env.answer call = .ok := by
    rw [ha]
    cases call with
    | get p => exact absurd rfl (hg p)
    | cfg ps d l => rfl
    | set p l => rfl
    | rel ps => rfl
  refine ⟨?_, ?_, ?_⟩
  · unfold callThen pinCall
    rw [hok]
    rfl
  · rw [afterCall_device s call .ok h.1, if_neg (by simp)]
  · rw [State.afterCall_env]
    unfold Env.after
    rw [h.2]
    rfl

theorem meets_get {β : Type} {s : State} {c : Chip} (h : s.meets c) {b : Bool} (hb : c.line = some b)
    (f : Bool → State → Attempt β) :
    (pinCall (.get .data) s).andThen f = f b (s.afterCall (.get .data) (.level b)) ∧
      (s.afterCall (.get .data) (.level b)).meets { c with gets := c.gets + 1 } := by
  have ha := meets_answer h (.get .data)
  have hl : (Device.counterpart c).levelOf s.env.draws (.get .data) = b := by
    show (c.line).getD (Config.freeLevel s.env.draws) = b
    rw [hb]
    rfl
  rw [hl] at ha
  refine ⟨?_, ?_, ?_⟩
  · unfold pinCall
    rw [ha]
    rfl
  · rw [afterCall_device s _ _ h.1, if_neg (by simp)]
    rfl
  · rw [State.afterCall_env]
    unfold Env.after
    rw [h.2]
    rfl

/-- A read cell takes the counterpart's next bit (R82). -/
theorem readCell_meets (i : Nat) (s : State) (c : Chip) (h : s.meets c) (hd : s.pins.data.mode = .input) {b : Bool}
    (hb : c.line = some b) :
    ∃ t, readCell i s = .done () t ∧ t.meets { c with gets := c.gets + 1 } ∧ t.pins.data.mode = .input ∧ t.sr = orBit s.sr b i := by
  unfold readCell
  obtain ⟨e1, m1⟩ := meets_callThen h (.set .clk true) (by simp) fun s => callThen (.set .clk false) s.settle fun s =>
      (pinCall (.get .data) s.settle).andThen fun b s => .done () (s.orSr b i).countBit
  have r1 : c.react s.pins (Config.freeLevel s.env.draws) (.set .clk true) = c := by
    simp only [Chip.react]
    rw [if_neg]
    intro hc
    rw [hd] at hc
    cases hc.2.2
  rw [r1] at m1
  rw [e1]
  generalize hu : (s.afterCall (.set .clk true) .ok).settle = u
  have mu : u.meets c := hu ▸ m1
  have ud : u.pins.data.mode = .input := by rw [← hu, State.settle_pins, afterCall_set_clk_data]; exact hd
  have usr : u.sr = s.sr := by rw [← hu]; rfl
  obtain ⟨e2, m2⟩ := meets_callThen mu (.set .clk false) (by simp) fun s =>
      (pinCall (.get .data) s.settle).andThen fun b s => Attempt.done () (s.orSr b i).countBit
  rw [e2]
  generalize hv : (u.afterCall (.set .clk false) .ok).settle = v
  have mv : v.meets c := hv ▸ m2
  have vd : v.pins.data.mode = .input := by rw [← hv, State.settle_pins, afterCall_set_clk_data]; exact ud
  have vsr : v.sr = s.sr := by rw [← hv, ← usr]; rfl
  obtain ⟨e3, m3⟩ := meets_get mv hb fun b s => Attempt.done () (s.orSr b i).countBit
  refine ⟨_, e3, m3, ?_, ?_⟩
  · have := afterCall_get_pins v .data (.level b) (by simp)
    rw [State.countBit_pins, State.orSr_pins, this]
    exact vd
  · rw [← vsr]; rfl

/-- n read cells take the counterpart's next n bits. -/
theorem readCells_meets (n i : Nat) (s : State) (c : Chip) (h : s.meets c) (hd : s.pins.data.mode = .input) (f : Nat → Bool)
    (hb : ∀ j, j < n → ({ c with gets := c.gets + j } : Chip).line = some (f j)) :
    ∃ t, readCells n i s = .done () t ∧ t.meets { c with gets := c.gets + n } ∧
      t.sr = orBits s.sr i ((List.range n).map f) := by
  induction n generalizing i s c f with
  | zero => exact ⟨s, rfl, h, rfl⟩
  | succ n ih =>
    obtain ⟨t, ht, mt, td, tsr⟩ := readCell_meets i s c h hd (hb 0 (by omega))
    obtain ⟨u, hu, mu, usr⟩ := ih (i + 1) t { c with gets := c.gets + 1 } mt td (fun j => f (j + 1)) fun j hj => by
      rw [← hb (j + 1) (by omega)]
      congr 2
      show c.gets + 1 + j = c.gets + (j + 1)
      omega
    refine ⟨u, ?_, ?_, ?_⟩
    · simp only [readCells, ht, Attempt.andThen]; exact hu
    · have : c.gets + (n + 1) = c.gets + 1 + n := by omega
      rw [this]; exact mu
    · rw [usr, tsr, List.range_succ_eq_map, List.map_cons, List.map_map]; rfl

/-- An RDBYTE of an open counterpart that answers it returns its response byte (R82). -/
theorem readByte_meets (s : State) (c : Chip) (h : s.meets c) (hce : c.ce = true) {v : Byte} (hv : c.responseByte c.reads = some v) :
    ∃ t, readByte s = .done v t ∧ t.meets { c with reads := c.reads + 1, gets := 8 } := by
  unfold readByte
  obtain ⟨e1, m1⟩ := meets_callThen h (.cfg [.data] .input none) (by simp) fun s =>
    (readCells 8 0 (s.loadSr 0x00#8)).andThen fun _ t => .done t.sr t
  have r1 : c.react s.pins (Config.freeLevel s.env.draws) (.cfg [.data] .input none) = { c with reads := c.reads + 1, gets := 0 } := rfl
  rw [r1] at m1
  rw [e1]
  have hd := (afterCall_cfg_data s .input none .ok).2 (by simp)
  obtain ⟨t, ht, mt, tsr⟩ := readCells_meets 8 0 ((s.afterCall (.cfg [.data] .input none) .ok).loadSr 0x00#8) _ m1 hd (bitAt v)
    fun j hj => by
      unfold Chip.line
      simp only [hce, Nat.zero_add]
      rw [if_pos hj]
      show Option.map _ (c.responseByte c.reads) = _
      rw [hv]
      rfl
  refine ⟨t, ?_, mt⟩
  rw [ht]
  simp only [Attempt.andThen, Attempt.done.injEq, and_true]
  rw [tsr, State.loadSr_sr, orBits_zero _ (by simp)]
  exact byteOfBits_byteBits v

/-- A body of reads of an open counterpart returns its response bytes in order (R82). -/
theorem runBody_meets (toBuf : Bool) (n k : Nat) (s : State) (c : Chip) (h : s.meets c) (hce : c.ce = true) (f : Nat → Byte)
    (hv : ∀ j, j < n → c.responseByte (c.reads + j) = some (f j)) :
    ∃ t, runBody toBuf k (List.replicate n .rd) s = .done ((List.range n).map f) t ∧
      ∃ g, t.meets { c with reads := c.reads + n, gets := g } := by
  induction n generalizing k s c f with
  | zero => exact ⟨s, rfl, c.gets, h⟩
  | succ n ih =>
    obtain ⟨t, ht, mt⟩ := readByte_meets s c h hce (hv 0 (by omega))
    have mk : (t.keepByte toBuf k (f 0)).meets { c with reads := c.reads + 1, gets := 8 } := by
      unfold State.keepByte
      cases toBuf <;> exact mt
    obtain ⟨u, hu, g, mu⟩ := ih (k + 1) (t.keepByte toBuf k (f 0)) _ mk hce (fun j => f (j + 1)) fun j hj => by
      rw [← hv (j + 1) (by omega)]
      show c.responseByte (c.reads + 1 + j) = _
      congr 1
      omega
    refine ⟨u, ?_, g, ?_⟩
    · rw [List.replicate_succ]
      simp only [runBody, ht, Attempt.andThen, hu]
      rw [List.range_succ_eq_map, List.map_cons, List.map_map]
      rfl
    · have : c.reads + (n + 1) = c.reads + 1 + n := by omega
      rw [this]; exact mu

/-! ### Storage outside the slots stored to -/

/-- Where no counterpart is attached there never is one, and no storage. -/
theorem Env.replay_no_counterpart (evs : List Event) (e : Env) (sh : Shadow) (h : ∀ c, e.device ≠ .counterpart c) :
    ∀ c, (e.replay sh evs).device ≠ .counterpart c := by
  induction evs generalizing e sh with
  | nil => exact h
  | cons x evs ih =>
    cases x with
    | wait t => exact ih e sh h
    | call c r =>
      refine ih _ _ fun d => ?_
      rw [Env.after_device]
      split
      · exact h d
      · intro hc
        cases hd : e.device with
        | absent => rw [hd] at hc; cases hc
        | loopback f => rw [hd] at hc; cases hc
        | counterpart d' => exact h d' hd

theorem Env.storage_none (e : Env) (h : ∀ c, e.device ≠ .counterpart c) : e.storage = [] := by
  unfold Env.storage
  cases hd : e.device with
  | absent => rfl
  | loopback f => rfl
  | counterpart c => exact absurd hd (h c)

/-- Where no counterpart is attached, events leave no storage as they found none. -/
theorem Issues.storage_none {s t : State} {evs : List Event} (h : Issues s t evs) (hn : ∀ c, s.env.device ≠ .counterpart c) :
    t.env.storage = s.env.storage := by
  rw [Env.storage_none _ hn, Env.storage_none]
  rw [h.env]
  exact Env.replay_no_counterpart evs _ _ hn

theorem State.sees_storage {s t : State} {w : Chip} (hs : s.sees w) (ht : t.sees w) : t.env.storage = s.env.storage := by
  obtain ⟨c, hc, rfl⟩ := hs
  obtain ⟨d, hd, hdw⟩ := ht
  have : d.written.mem = c.written.mem := by rw [hdw]
  simp only [Env.storage, hc, hd]
  exact this

/-- A transaction, whatever fails, changes no storage but that of the slots of its written bytes. -/
theorem runTransaction_storage (toBuf : Bool) (body : List ByteOp) (s : State) (a : Nat)
    (ha : ∀ r k, (r, k) ∈ storeSlots (writesOf body) → a ≠ r.base + k) :
    (runTransaction toBuf body s).state.env.storage.read a = s.env.storage.read a := by
  by_cases hn : ∀ c, s.env.device ≠ .counterpart c
  · obtain ⟨evs, he, -⟩ := runTransaction_events toBuf body s
    rw [he.storage_none hn]
  · simp only [ne_eq, not_forall, not_not] at hn
    obtain ⟨chip, hd⟩ := hn
    obtain ⟨m, c, hdev, hmem, -⟩ := runTransaction_chip toBuf body s chip hd
    obtain ⟨n, hn, hf, -⟩ := Chip.openTxn_feed chip (writesOf body) m
    simp only [Env.storage, hdev, hd]
    rw [hmem, hf]
    cases hw : writesOf body with
    | nil => simp; rfl
    | cons cmd data =>
      cases n with
      | zero => rfl
      | succ n =>
        rw [List.take_succ_cons, List.foldl_cons]
        rw [hw] at ha
        refine (Chip.bytesIn_read _ (chip.openTxn.byteIn cmd) cmd a rfl fun j hj r k hk => ?_)
        refine ha r k ?_
        rw [storeSlots, List.mem_filterMap]
        refine ⟨j, ?_, by rw [← hk]; congr 1; exact (Nat.zero_add j).symm⟩
        simp at hj ⊢
        exact hj.2

/-- At most eight bits complete at most one byte: they change no storage but that of the next data byte's slot. -/
theorem Chip.feed_read (bs : List Bool) (c : Chip) (a : Nat) (h : bs.length ≤ 8)
    (ha : ∀ cmd, c.cmd = some cmd → ∀ r k, storeSlot cmd c.index = some (r, k) → a ≠ r.base + k) :
    (c.feed bs).mem.read a = c.mem.read a := by
  induction bs generalizing c with
  | nil => rfl
  | cons b bs ih =>
    rw [List.length_cons] at h
    have hfeed : c.feed (b :: bs) = (c.shiftIn b).feed bs := rfl
    rw [hfeed]
    by_cases hl : c.bits.length < 7
    · have hs : c.shiftIn b = { c with bits := c.bits ++ [b] } := by unfold Chip.shiftIn; rw [if_pos hl]
      rw [hs]
      exact ih _ (by omega) ha
    · unfold Chip.shiftIn
      rw [if_neg hl]
      cases hc : c.cmd with
      | none => simp only; rw [Chip.feed_few _ _ (by simp; omega)]
      | some cmd =>
        simp only
        rw [Chip.feed_few _ _ (by simp; omega)]
        have h3 := (c.byteIn_spec cmd (byteOfBits (c.bits ++ [b])) hc).2.2
        have hm : (c.byteIn (byteOfBits (c.bits ++ [b]))).mem = (c.apply cmd c.index (byteOfBits (c.bits ++ [b]))).mem := by
          unfold Chip.byteIn
          rw [hc]
        show Memory.read (c.apply cmd c.index (byteOfBits (c.bits ++ [b]))).mem a = _
        rw [← hm, h3]
        cases hs : storeSlot cmd c.index with
        | none => rfl
        | some p =>
          simp only
          split
          · exact Memory.read_writeSlot_other _ _ _ _ _ (ha cmd hc p.1 p.2 hs)
          · rfl

/-- With no transaction open there, a call that is no SET of CE writes nothing to the counterpart. -/
theorem sees_afterCall_closed (s : State) (w : Chip) (c : Call) (r : Response) (h : s.sees w) (hw : w.ce = false)
    (h1 : ∀ l, c ≠ .set .rst l) : (s.afterCall c r).sees w := by
  by_cases hc : c = .set .clk true
  · subst hc
    obtain ⟨chip, hdev, rfl⟩ := h
    refine ⟨_, afterCall_device s _ r hdev, ?_⟩
    split
    · rfl
    · simp only [Chip.react]
      rw [if_neg]
      intro hc
      have hce : chip.ce = false := hw
      rw [hce] at hc
      cases hc.1
  · exact sees_afterCall s w c r h h1 fun he => absurd he hc

theorem writeByte_closed (v : Byte) (s : State) (w : Chip) (h : s.sees w) (hw : w.ce = false) : (writeByte v s).state.sees w := by
  have hcell : ∀ u : State, u.sees w → (writeCell u).state.sees w := by
    intro u hu
    unfold writeCell
    refine callThen_keeps (P := fun t => t.sees w) (fun r => sees_afterCall_closed u w _ r hu hw (by simp)) fun t r ht => ?_
    have ht' : t.settle.sees w := by rw [ht]; exact sees_afterCall_closed u w _ r hu hw (by simp)
    refine callThen_keeps (P := fun t => t.sees w) (fun r => sees_afterCall_closed _ w _ r ht' hw (by simp)) fun x r hx => ?_
    have hx' : x.shiftSr.sees w := by rw [hx]; exact sees_afterCall_closed _ w _ r ht' hw (by simp)
    refine callThen_keeps (P := fun t => t.sees w) (fun r => sees_afterCall_closed _ w _ r hx' hw (by simp)) fun y r hy => ?_
    rw [hy]
    exact sees_afterCall_closed _ w _ r hx' hw (by simp)
  have hcells : ∀ n (u : State), u.sees w → (writeCells n u).state.sees w := by
    intro n
    induction n with
    | zero => exact fun u hu => hu
    | succ n ih => exact fun u hu => Attempt.andThen_keeps (P := fun t => t.sees w) (hcell u hu) fun _ t _ ht => ih t ht
  unfold writeByte
  refine callThen_keeps (P := fun t => t.sees w) (fun r => sees_afterCall_closed s w _ r h hw (by simp)) fun t r ht => ?_
  refine hcells 8 _ ?_
  rw [ht]
  exact sees_afterCall_closed s w _ r h hw (by simp)

/-- A WRBYTE a harness invokes changes no storage but that of the counterpart's next data byte. -/
theorem writeByte_storage (v : Byte) (s : State) (a : Nat) (ha : ∀ r k, (r, k) ∈ s.env.nextSlot → a ≠ r.base + k) :
    (writeByte v s).state.env.storage.read a = s.env.storage.read a := by
  by_cases hn : ∀ c, s.env.device ≠ .counterpart c
  · have hf := writeByte_follows v s
    cases hx : writeByte v s with
    | done u t =>
      rw [hx] at hf
      obtain ⟨evs, he, -⟩ := hf
      simp only [Attempt.state]
      rw [he.toIssues.storage_none hn]
    | failed e t =>
      rw [hx] at hf
      obtain ⟨evs, c, he, -⟩ := hf
      simp only [Attempt.state]
      rw [he.toIssues.storage_none hn]
  · simp only [ne_eq, not_forall, not_not] at hn
    obtain ⟨chip, hd⟩ := hn
    have hs : s.sees chip.written := ⟨chip, hd, rfl⟩
    by_cases hce : chip.ce = true
    · obtain ⟨m, hm, hdev, -⟩ := writeByte_chip v s chip hd hce
      simp only [Env.storage, hdev, hd]
      refine Chip.feed_read _ chip a (by rw [List.length_take]; omega) fun cmd hc r k hk => ha r k ?_
      unfold Env.nextSlot
      rw [hd]
      simp only [hc, hk]
      simp
    · have := writeByte_closed v s chip.written hs (by simpa [Chip.written] using hce)
      rw [State.sees_storage hs this]

/-- A part that follows a layout leaves no storage where no counterpart is attached. -/
theorem Follows.storage_none {α : Type} {L : List Shape} {s : State} {x : Attempt α} (h : Follows L s x)
    (hn : ∀ c, s.env.device ≠ .counterpart c) : x.state.env.storage = s.env.storage := by
  cases x with
  | done a t => obtain ⟨evs, he, -⟩ := h; exact he.toIssues.storage_none hn
  | failed e t => obtain ⟨evs, c, he, -⟩ := h; exact he.toIssues.storage_none hn

/-- RDBYTE, BEGIN and END change no storage. -/
theorem readByte_storage (s : State) : (readByte s).state.env.storage = s.env.storage := by
  by_cases hn : ∀ c, s.env.device ≠ .counterpart c
  · exact (readByte_follows s).storage_none hn
  · simp only [ne_eq, not_forall, not_not] at hn
    obtain ⟨chip, hd⟩ := hn
    exact State.sees_storage ⟨chip, hd, rfl⟩ (readByte_sees s _ ⟨chip, hd, rfl⟩).1

theorem beginTxn_storage (s : State) : (beginTxn s).state.env.storage = s.env.storage := by
  have hclk : ∀ (u : State) (r : Response), (u.afterCall (.set .clk false) r).env.storage = u.env.storage := by
    intro u r
    simp only [State.afterCall_env, Env.storage, Env.after_device]
    cases u.env.device <;> by_cases hr : r = .err <;> simp [hr, Device.react, Chip.react]
  have hrst : ∀ (u : State) (r : Response), (u.afterCall (.set .rst true) r).env.storage = u.env.storage := by
    intro u r
    simp only [State.afterCall_env, Env.storage, Env.after_device]
    cases u.env.device with
    | absent => by_cases hr : r = .err <;> simp [hr, Device.react]
    | loopback f => by_cases hr : r = .err <;> simp [hr, Device.react]
    | counterpart c =>
      by_cases hr : r = .err
      · simp [hr]
      · simp only [hr, if_false, Device.react, Chip.react]
        rfl
  unfold beginTxn
  refine callThen_keeps (P := fun t => t.env.storage = s.env.storage) (fun r => hclk s r) fun t r ht => ?_
  have h1 : t.env.storage = s.env.storage := by rw [ht]; exact hclk s r
  refine callThen_keeps (P := fun t => t.env.storage = s.env.storage) (fun r => (hrst t r).trans h1) fun u r hu => ?_
  rw [hu]
  exact (hrst t r).trans h1

theorem endTxn_storage (s : State) : (endTxn s).2.env.storage = s.env.storage := by
  by_cases hn : ∀ c, s.env.device ≠ .counterpart c
  · obtain ⟨evs, he, -⟩ := endTxn_spec s
    exact he.toIssues.storage_none hn
  · simp only [ne_eq, not_forall, not_not] at hn
    obtain ⟨chip, hd⟩ := hn
    obtain ⟨c, hdev, hmem, -⟩ := endTxn_chip s chip.written ⟨chip, hd, rfl⟩
    simp only [Env.storage, hdev, hd]
    exact hmem

/-! ### A transaction the counterpart answers in full -/

/-- A counterpart with nothing scripted is an ideal capability (R88). -/
theorem State.meets_ideal {s : State} {c : Chip} (h : s.meets c) (n : Nat) : s.env.idealFor n = true := by
  unfold Env.idealFor
  rw [h.1, h.2]
  simp

theorem Env.replay_plan_nil (evs : List Event) (e : Env) (sh : Shadow) (h : e.plan = []) : (e.replay sh evs).plan = [] := by
  induction evs generalizing e sh with
  | nil => exact h
  | cons x evs ih =>
    cases x with
    | wait t => exact ih e sh h
    | call c r => exact ih _ _ (by show e.plan.tail = []; rw [h]; rfl)

theorem Issues.plan_nil {s t : State} {evs : List Event} (h : Issues s t evs) (hp : s.env.plan = []) : t.env.plan = [] := by
  rw [h.env]
  exact Env.replay_plan_nil evs _ _ hp

/-- A WRBYTE of an open counterpart between bytes: the byte is in. -/
theorem writeByte_meets (v : Byte) (s : State) (c : Chip) (h : s.meets c) (hce : c.ce = true) (hb : c.bits = [])
    (hl : s.clockLive) : ∃ t, writeByte v s = .done () t ∧ t.meets (c.byteIn v) ∧ t.clockLive := by
  have hf := writeByte_follows v s
  obtain ⟨a, t, hx⟩ := hf.done_of_ideal (State.meets_ideal h _)
  obtain ⟨m, -, hdev, -, hdone⟩ := writeByte_chip v s c h.1 hce
  obtain ⟨hm, hlive⟩ := hdone t hx
  rw [hx] at hf hdev
  obtain ⟨evs, he, -⟩ := hf
  have hdev' : t.env.device = .counterpart (c.feed ((byteBits v).take m)) := hdev
  rw [hm hl, List.take_of_length_le (by simp [byteBits]), Chip.feed_byte c v hb] at hdev'
  exact ⟨t, hx, ⟨hdev', he.toIssues.plan_nil h.2⟩, hlive.2 hl⟩

theorem beginTxn_meets (s : State) (c : Chip) (h : s.meets c) (hl : s.clockLive) :
    ∃ t, beginTxn s = .done () t ∧ t.meets c.openTxn ∧ t.clockLive := by
  unfold beginTxn
  obtain ⟨e1, m1⟩ := meets_callThen h (.set .clk false) (by simp) fun s => callThen (.set .rst true) s fun s => .done () s
  rw [e1]
  obtain ⟨e2, m2⟩ := meets_callThen m1 (.set .rst true) (by simp) fun s => .done () s
  rw [e2]
  have r1 : c.react s.pins (Config.freeLevel s.env.draws) (.set .clk false) = c := rfl
  rw [r1] at m2
  refine ⟨_, rfl, ?_, ?_⟩
  · exact m2
  · exact (afterCall_set_rst_live _ true .ok).2 ((afterCall_set_clk_live s false .ok (by simp)).2 hl)

theorem endTxn_meets (s : State) (c : Chip) (h : s.meets c) (hl : s.clockLive) :
    (endTxn s).1 = none ∧ ∃ d, (endTxn s).2.meets d ∧ d.ce = false ∧ d.mem = c.mem ∧ (endTxn s).2.clockLive := by
  obtain ⟨evs, he, hs, hf⟩ := endTxn_spec s
  have hn : (endTxn s).1 = none := by
    cases hx : (endTxn s).1 with
    | none => rfl
    | some e =>
      rw [hx] at hf
      obtain ⟨a, call, b, hab, -, -⟩ := hf
      have := (Env.idealFor_gave (State.meets_ideal h (callCount (evs.map Event.shape))) he.gave (Nat.le_refl _)).1
      rw [hab, noErr_err] at this
      cases this
  obtain ⟨d, hdev, hmem, hdone⟩ := endTxn_chip s c.written ⟨c, h.1, rfl⟩
  obtain ⟨hc, hlive⟩ := hdone hn
  exact ⟨hn, d, ⟨hdev, he.toIssues.plan_nil h.2⟩, hc, hmem, hlive.2 hl⟩

/-- A transaction of the counterpart, whatever stood open there: all its written bytes are in, and none is open after. -/
theorem runTransaction_meets (toBuf : Bool) (body : List ByteOp) (s : State) (c : Chip) (h : s.meets c) (hl : s.clockLive) :
    ∃ bs t d, runTransaction toBuf body s = .done bs t ∧ t.meets d ∧ d.ce = false ∧
      d.mem = ((writesOf body).foldl Chip.byteIn c.openTxn).mem ∧ t.clockLive := by
  obtain ⟨bs, t, hx⟩ := runTransaction_ideal toBuf body s (State.meets_ideal h _)
  obtain ⟨evs, he, -⟩ := runTransaction_events toBuf body s
  obtain ⟨m, d, hdev, hmem, hdone⟩ := runTransaction_chip toBuf body s c h.1
  obtain ⟨hdc, hm, hlive⟩ := hdone bs t hx
  obtain ⟨n, -, hf, hn⟩ := Chip.openTxn_feed c (writesOf body) m
  rw [hx] at hdev he
  refine ⟨bs, t, d, hx, ⟨hdev, he.plan_nil h.2⟩, hdc, ?_, hlive.2 hl⟩
  rw [hmem, hf, hn (hm hl), List.take_length]

/-- The transaction of a read command: it returns the response bytes in order, and changes no storage (R82). -/
theorem readTransaction_meets (toBuf : Bool) (cmd : Byte) (n : Nat) (s : State) (c : Chip) (h : s.meets c) (hl : s.clockLive) (f : Nat → Byte) (hv : ∀ j, j < n → (c.openTxn.byteIn cmd).responseByte j = some (f j)) :
    ∃ t d, runTransaction toBuf (.wr cmd :: List.replicate n .rd) s = .done ((List.range n).map f) t ∧ t.meets d ∧
      d.ce = false ∧ d.mem = c.mem ∧ t.clockLive := by
  obtain ⟨bs, t, d, hx, hm, hdc, hmem, htl⟩ := runTransaction_meets toBuf (.wr cmd :: List.replicate n .rd) s c h hl
  refine ⟨t, d, ?_, hm, hdc, ?_, htl⟩
  · obtain ⟨u, hu, um, ul⟩ := beginTxn_meets s.openTxn c h hl
    obtain ⟨v, hw, vm, vl⟩ := writeByte_meets cmd u c.openTxn um rfl rfl ul
    obtain ⟨w, hr, g, wm⟩ := runBody_meets toBuf n 0 v (c.openTxn.byteIn cmd) vm rfl f fun j hj => by
      rw [← hv j hj]
      congr 1
      exact Nat.zero_add j
    have hbody : (beginTxn s.openTxn).andThen (fun _ t => runBody toBuf 0 (.wr cmd :: List.replicate n .rd) t) =
        .done ((List.range n).map f) w := by
      simp only [hu, Attempt.andThen, runBody, hw, hr]
    unfold runTransaction at hx ⊢
    rw [hbody] at hx ⊢
    simp only at hx ⊢
    cases h1 : (endTxn w).1 with
    | some e => rw [h1] at hx; cases hx
    | none =>
      rw [h1] at hx
      simp only [Attempt.done.injEq] at hx ⊢
      exact ⟨trivial, hx.2⟩
  · rw [hmem, writesOf, writesOf_replicate_rd]; rfl

/-! ### The command rows before a ready machine's counterpart -/

/-- A data operation or a command of a ready machine starts before the counterpart it holds. -/
theorem startOp_meets {s : State} {chip : Chip} (h : s.ReadyWithChip chip) (op : Op) : (s.startOp op).meets chip ∧ (s.startOp op).clockLive :=
  ⟨⟨h.attached, h.ideal⟩, .inl h.clock⟩

/-- What the environment shows of a slot is the counterpart's. -/
theorem slot_eq_counterpart {t : State} {d : Chip} (h : t.meets d) (r : Region) (k : Nat) : t.env.slot r k = d.mem.readSlot r k := by
  unfold Env.slot Env.storage; rw [h.1]

/-- A harness transaction that runs to its end hands back the bytes read. -/
theorem harnessTransaction_done (op : Op) (body : List ByteOp) (s : State) (hi : s.Idle) {bs t}
  (h : runTransaction false body (s.startOp op) = .done bs t) :
   harnessTransaction op (fun s => (runTransaction false body s).andThen fun bs t => .done (.bytes bs) t) s = .next (t.handBack (.bytes bs)) := by
  rw [harnessTransaction_idle hi]
  simp only [h, Attempt.andThen, finishHarness]

/-- A reading row before a ready machine's counterpart hands back what the counterpart answers. -/
theorem harnessRead_answers (op : Op) (cmd : Byte) (n : Nat) (s : State) (chip : Chip) (h : s.ReadyWithChip chip) (f : Nat → Byte)
   (hv : ∀ j, j < n → (chip.openTxn.byteIn cmd).responseByte j = some (f j)) :
   ∃ t, harnessTransaction op (fun s => (runTransaction false (.wr cmd :: List.replicate n .rd) s).andThen fun bs t => .done (.bytes bs) t) s = .next t ∧
     t.returned = some (.bytes ((List.range n).map f)) := by
  obtain ⟨hm, hl⟩ := startOp_meets h op
  obtain ⟨t, d, hx, -⟩ := readTransaction_meets false cmd n _ chip hm hl f hv
  exact ⟨_, harnessTransaction_done op _ s h.idle hx, rfl⟩

/-- A writing row before a ready machine's counterpart leaves what the bytes written leave. -/
theorem harnessWrite_stores (op : Op) (cmd : Byte) (data : List Byte) (s : State) (chip : Chip) (h : s.ReadyWithChip chip) :
   ∃ t d, harnessTransaction op (fun s => (runTransaction false (.wr cmd :: data.map .wr) s).andThen fun bs t => .done (.bytes bs) t) s = .next t ∧
     t.meets d ∧ d.mem = (data.foldl Chip.byteIn (chip.openTxn.byteIn cmd)).mem := by
  obtain ⟨hm, hl⟩ := startOp_meets h op
  obtain ⟨bs, t, d, hx, hd, -, hmem, -⟩ := runTransaction_meets false (.wr cmd :: data.map .wr) _ chip hm hl
  refine ⟨_, d, harnessTransaction_done op _ s h.idle hx, hd, ?_⟩
  rw [hmem, writesOf, writesOf_map_wr]; rfl

/-- A command byte finds the counterpart unprotected exactly when WP reads 0x00. -/
theorem isProtected_byteIn_iff (c : Chip) (cmd : Byte) : (c.openTxn.byteIn cmd).isProtected = false ↔ c.mem.readSlot .wp 0 = 0x00#8 := by
  show (c.mem.readSlot .wp 0 != 0x00#8) = false ↔ _
  simp

/-- What one data byte after a command byte leaves in storage. -/
theorem byteIn_single_mem (c : Chip) (cmd d : Byte) (r : Region) (hs : storeSlot cmd 0 = some (r, 0)) :
  (([d].foldl Chip.byteIn (c.openTxn.byteIn cmd))).mem = if r = .wp ∨ (c.openTxn.byteIn cmd).isProtected = false then c.mem.writeSlot r 0 d else c.mem := by
  have := ((c.openTxn.byteIn cmd).byteIn_spec cmd d rfl).2.2
  rw [show (c.openTxn.byteIn cmd).index = 0 from rfl, hs] at this
  exact this

/-- What a burst of data bytes leaves in each slot of its region. -/
theorem bytesIn_slot (c : Chip) (cmd : Byte) (data : List Byte) (r : Region) (n : Nat) (hwf : c.mem.wf = true) (hr : r ≠ .wp) (hn : n ≤ r.size)
  (hslot : ∀ j, j < n → storeSlot cmd j = some (r, j)) (hlen : data.length ≤ n) (k : Nat) (hk : k < n) :
  (data.foldl Chip.byteIn (c.openTxn.byteIn cmd)).mem.readSlot r k = if c.mem.readSlot .wp 0 = 0x00#8 ∧ k < data.length then data.getD k 0#8 else c.mem.readSlot r k := by
  by_cases hp : c.mem.readSlot .wp 0 = 0x00#8
  · have := Chip.bytesIn_burst data (c.openTxn.byteIn cmd) cmd r n rfl hwf ((isProtected_byteIn_iff c cmd).2 hp) hr hn hslot (by rw [show (c.openTxn.byteIn cmd).index = 0 from rfl]; omega) k hk
    rw [show (c.openTxn.byteIn cmd).index = 0 from rfl] at this
    simp only [Nat.zero_le, Nat.zero_add, Nat.sub_zero, true_and] at this
    simp only [hp, true_and]; exact this
  · rw [Chip.bytesIn_protected data (c.openTxn.byteIn cmd) cmd rfl (by
      cases h : (c.openTxn.byteIn cmd).isProtected with
      | true => rfl
      | false => exact absurd ((isProtected_byteIn_iff c cmd).1 h) hp) (fun j hj k => by
        rw [show (c.openTxn.byteIn cmd).index = 0 from rfl, Nat.zero_add, hslot j (by omega)]
        intro hc; simp only [Option.some.injEq, Prod.mk.injEq] at hc; exact hr hc.1)]
    rw [if_neg (by simp [hp])]; rfl

/-! ### What a burst that may fail leaves -/

/-- The command and the index after whole bytes. -/
theorem Chip.bytesIn_index (vs : List Byte) (c : Chip) (cmd : Byte) (h : c.cmd = some cmd) :
    (vs.foldl Chip.byteIn c).cmd = some cmd ∧ (vs.foldl Chip.byteIn c).index = c.index + vs.length := by
  induction vs generalizing c with
  | nil => exact ⟨h, rfl⟩
  | cons v vs ih =>
    obtain ⟨h1, h2, -⟩ := c.byteIn_spec cmd v h
    obtain ⟨h3, h4⟩ := ih (c.byteIn v) h1
    exact ⟨h3, by rw [List.foldl_cons, h4, h2, List.length_cons]; omega⟩

/-- What data bytes after a command leave in every slot: where the counterpart is not protected, the first n of them stand in the
first slots of the region; every other slot stands (R83, R84). -/
theorem Chip.bytesIn_slots (c : Chip) (cmd : Byte) (data : List Byte) (r : Region) (n : Nat) (hwf : c.mem.wf = true) (hr : r ≠ .wp)
    (hn : n ≤ r.size) (hslot : ∀ j, storeSlot cmd j = if j < n then some (r, j) else none) :
    (∀ k, k < n → (data.foldl Chip.byteIn (c.openTxn.byteIn cmd)).mem.readSlot r k =
      if c.mem.readSlot .wp 0 = 0x00#8 ∧ k < data.length then data.getD k 0#8 else c.mem.readSlot r k) ∧
    (∀ r' k, k < r'.size → (r' = r → n ≤ k) →
      (data.foldl Chip.byteIn (c.openTxn.byteIn cmd)).mem.readSlot r' k = c.mem.readSlot r' k) := by
  refine ⟨fun k hk => ?_, fun r' k hk hrk => ?_⟩
  · obtain ⟨h1, h2⟩ := Chip.bytesIn_index (data.take n) (c.openTxn.byteIn cmd) cmd rfl
    have h0 : (c.openTxn.byteIn cmd).index = 0 := rfl
    have hrest : (data.foldl Chip.byteIn (c.openTxn.byteIn cmd)).mem.readSlot r k =
        ((data.take n).foldl Chip.byteIn (c.openTxn.byteIn cmd)).mem.readSlot r k := by
      conv_lhs => rw [← List.take_append_drop n data, List.foldl_append]
      refine Chip.bytesIn_read _ _ cmd _ h1 fun j hj r2 k2 h => ?_
      rw [h2, h0, hslot, if_neg] at h
      · cases h
      · rw [List.length_drop] at hj
        rw [List.length_take]
        omega
    rw [hrest, bytesIn_slot c cmd (data.take n) r n hwf hr hn (fun j hj => by rw [hslot, if_pos hj]) (by simp) k hk]
    by_cases hp : c.mem.readSlot .wp 0 = 0x00#8
    · by_cases hd : k < data.length
      · rw [if_pos ⟨hp, by rw [List.length_take]; omega⟩, if_pos ⟨hp, hd⟩]
        simp [List.getD_eq_getElem?_getD, hk]
      · rw [if_neg (by rw [List.length_take]; omega), if_neg (by omega)]
    · rw [if_neg (fun h => hp h.1), if_neg (fun h => hp h.1)]
  · refine Chip.bytesIn_read _ (c.openTxn.byteIn cmd) cmd _ rfl fun j hj r2 k2 h he => ?_
    rw [hslot] at h
    split at h
    · simp only [Option.some.injEq, Prod.mk.injEq] at h
      obtain ⟨rfl, rfl⟩ := h
      have := Region.addr_inj r' r k _ hk (by omega) he
      have h3 := hrk this.1
      omega
    · cases h

/-- A transaction that writes a burst, whatever fails: a prefix of its slots is written, in order, and nothing else; all of them
when it is done with the clock known and the counterpart not protected (R70, R83, R85). -/
theorem runTransaction_prefix (toBuf : Bool) (cmd : Byte) (data : List Byte) (s : State) (chip : Chip) (r : Region) (n : Nat)
    (h : s.env.device = .counterpart chip) (hwf : chip.mem.wf = true) (hr : r ≠ .wp) (hn : n ≤ r.size)
    (hslot : ∀ j, storeSlot cmd j = if j < n then some (r, j) else none) :
    ∃ m, m ≤ min data.length n ∧
      (∀ k, k < m → (runTransaction toBuf (.wr cmd :: data.map .wr) s).state.env.slot r k = data.getD k 0#8) ∧
      (∀ k, m ≤ k → k < r.size → (runTransaction toBuf (.wr cmd :: data.map .wr) s).state.env.slot r k = chip.mem.readSlot r k) ∧
      (∀ r' k, r' ≠ r → k < r'.size →
        (runTransaction toBuf (.wr cmd :: data.map .wr) s).state.env.slot r' k = chip.mem.readSlot r' k) ∧
      (∀ bs t, runTransaction toBuf (.wr cmd :: data.map .wr) s = .done bs t → s.clockLive →
        chip.mem.readSlot .wp 0 = 0x00#8 → m = min data.length n) := by
  obtain ⟨b, c, hdev, hmem, hdone⟩ := runTransaction_chip toBuf (.wr cmd :: data.map .wr) s chip h
  rw [writesOf, writesOf_map_wr] at hmem
  obtain ⟨p, hp, hf, hall⟩ := Chip.openTxn_feed chip (cmd :: data) b
  rw [hf] at hmem
  have hs : ∀ r k, (runTransaction toBuf (.wr cmd :: data.map .wr) s).state.env.slot r k = c.mem.readSlot r k := fun r k => by
    unfold Env.slot Env.storage; rw [hdev]
  simp only [hs]
  have full : ∀ bs t, runTransaction toBuf (.wr cmd :: data.map .wr) s = .done bs t → s.clockLive → p = data.length + 1 :=
    fun bs t ht hl => by
      have := (hdone bs t ht).2.1 hl
      rw [writesOf, writesOf_map_wr] at this
      exact hall this
  cases p with
  | zero =>
    have hm : c.mem = chip.mem := hmem
    rw [hm]
    exact ⟨0, Nat.zero_le _, fun k hk => absurd hk (Nat.not_lt_zero k), fun _ _ _ => rfl, fun _ _ _ _ => rfl,
      fun bs t ht hl _ => by have := full bs t ht hl; omega⟩
  | succ p =>
    rw [List.take_succ_cons, List.foldl_cons] at hmem
    rw [List.length_cons] at hp
    obtain ⟨h1, h2⟩ := Chip.bytesIn_slots chip cmd (data.take p) r n hwf hr hn hslot
    rw [← hmem] at h1 h2
    have hlen : (data.take p).length = p := by rw [List.length_take]; omega
    rw [hlen] at h1
    by_cases hw : chip.mem.readSlot .wp 0 = 0x00#8
    · refine ⟨min p n, by omega, fun k hk => ?_, fun k hk hkr => ?_, fun r' k hr' hk => h2 r' k hk fun he => absurd he hr', fun bs t ht hl _ => ?_⟩
      · rw [h1 k (by omega), if_pos ⟨hw, by omega⟩]
        simp [List.getD_eq_getElem?_getD, show k < p by omega]
      · by_cases hkn : k < n
        · rw [h1 k hkn, if_neg (by omega)]
        · exact h2 r k hkr fun _ => by omega
      · have := full bs t ht hl; omega
    · refine ⟨0, Nat.zero_le _, fun k hk => absurd hk (Nat.not_lt_zero k), fun k _ hkr => ?_, fun r' k hr' hk => h2 r' k hk fun he => absurd he hr',
        fun bs t ht hl hc => absurd hc hw⟩
      by_cases hkn : k < n
      · rw [h1 k hkn, if_neg fun hc => hw hc.1]
      · exact h2 r k hkr fun _ => by omega

/-- A transaction that writes one data byte, whatever fails: the storage stands, or the byte is in its slot (R83); it is there when the
transaction is done with the clock known. -/
theorem runTransaction_single (toBuf : Bool) (cmd d : Byte) (s : State) (chip : Chip) (r : Region) (h : s.env.device = .counterpart chip)
    (hs : storeSlot cmd 0 = some (r, 0)) :
    ∃ c b, (runTransaction toBuf [.wr cmd, .wr d] s).state.env.device = .counterpart c ∧
      c.mem = (if b = true ∧ (r = .wp ∨ chip.mem.readSlot .wp 0 = 0x00#8) then chip.mem.writeSlot r 0 d else chip.mem) ∧
      (∀ bs t, runTransaction toBuf [.wr cmd, .wr d] s = .done bs t → s.clockLive → b = true) ∧
      (∀ bs t, runTransaction toBuf [.wr cmd, .wr d] s = .done bs t → (t.clockLive ↔ s.clockLive)) := by
  obtain ⟨m, c, hdev, hmem, hdone⟩ := runTransaction_chip toBuf [.wr cmd, .wr d] s chip h
  obtain ⟨p, hp, hf, hall⟩ := Chip.openTxn_feed chip [cmd, d] m
  have hw : writesOf [.wr cmd, .wr d] = [cmd, d] := rfl
  rw [hw] at hmem hdone
  rw [hf] at hmem
  refine ⟨c, decide (p = 2), hdev, ?_, fun bs t ht hl => decide_eq_true (hall ((hdone bs t ht).2.1 hl)), fun bs t ht => (hdone bs t ht).2.2⟩
  by_cases h2 : p = 2
  · subst h2
    have := byteIn_single_mem chip cmd d r hs
    rw [hmem]
    refine Eq.trans this ?_
    simp only [isProtected_byteIn_iff, decide_true, true_and]
  · rw [if_neg (by simp [h2]), hmem]
    have : p = 0 ∨ p = 1 := by simp at hp; omega
    rcases this with rfl | rfl <;> rfl

end Sys2Proof.Machine
end

