-- ==== Sys2Proof/Laws/Encoding.lean ====
section
/-! SUPPORT. Command bytes and table words, once: what the decoder reads from them. -/

namespace Sys2Proof

/-- Each command is read from its own byte (R98). -/
theorem Command.ofByte_code (c : Command) : Command.ofByte c.code = some c := by cases c <;> rfl

/-- No other byte is read as a command (R98, R99). -/
theorem Command.ofByte_some {b : Byte} {c : Command} (h : Command.ofByte b = some c) : b = c.code := by
  have := List.find?_some h
  simp only [Command.mask, beq_iff_eq] at this
  have h2 : (255#8 : Byte) = BitVec.allOnes 8 := rfl
  rw [← this, h2, BitVec.and_allOnes]

/-- The bytes of a table word are those it was made of, the first lowest. -/
theorem lowBytes_word (bs : List Byte) : lowBytes bs.length (wordOfBytes bs) = bs := by
  induction bs with
  | nil => rfl
  | cons b bs ih =>
    simp only [List.length_cons, lowBytes, wordOfBytes]
    have h := b.isLt
    have h1 : (b.toNat + 256 * wordOfBytes bs) / 256 = wordOfBytes bs := by omega
    have h2 : BitVec.ofNat 8 (b.toNat + 256 * wordOfBytes bs) = b := by
      apply BitVec.eq_of_toNat_eq; simp [BitVec.toNat_ofNat]; omega
    rw [h1, h2, ih]

end Sys2Proof
end

