-- ==== Sys2Proof/Laws/PerInstr.lean ====
section
/-! SUPPORT. A statement about every instruction as syntax, one lemma a constructor. -/

namespace Sys2Proof.Laws.WireForm

/-- A wire image is its command's byte, then at least the data bytes its format drives, and at most 31 (30_encoding.md R101). -/
def Statement (i : Instr) : Prop :=
  ∀ bytes, encode i = some bytes → i.wellFormed = true →
    ∃ (c : Command) (data : List Byte), bytes = c.code :: data ∧ c.writeCount ≤ data.length ∧ data.length ≤ 31

theorem cmdWpRead : Statement (.cmdWpRead) := by
  intro bytes h _
  cases h
  exact ⟨.wpRead, [], rfl, by decide, by decide⟩

theorem cmdWpWrite (d : Byte) : Statement (.cmdWpWrite d) := by
  intro bytes h _
  cases h
  exact ⟨.wpWrite, [d], rfl, by simp [Command.writeCount], by simp⟩

theorem cmdTcRead : Statement (.cmdTcRead) := by
  intro bytes h _
  cases h
  exact ⟨.tcRead, [], rfl, by decide, by decide⟩

theorem cmdTcWrite (d : Byte) : Statement (.cmdTcWrite d) := by
  intro bytes h _
  cases h
  exact ⟨.tcWrite, [d], rfl, by simp [Command.writeCount], by simp⟩

theorem cmdClockBurstRead : Statement (.cmdClockBurstRead) := by
  intro bytes h _
  cases h
  exact ⟨.clockBurstRead, [], rfl, by decide, by decide⟩

theorem cmdClockBurstWrite (f : Frame) (p : Byte) (q : Byte) : Statement (.cmdClockBurstWrite f p q) := by
  intro bytes h _
  cases h
  exact ⟨.clockBurstWrite, (f.toList ++ [p, q]), rfl, by simp [Command.writeCount, Frame.toList, Config.frameLen, Config.padCount], by simp [Frame.toList]⟩

theorem cmdRamBurstRead : Statement (.cmdRamBurstRead) := by
  intro bytes h _
  cases h
  exact ⟨.ramBurstRead, [], rfl, by decide, by decide⟩

theorem cmdRamBurstWrite (data : List Byte) : Statement (.cmdRamBurstWrite data) := by
  intro bytes h hw
  cases h
  exact ⟨.ramBurstWrite, data, rfl, Nat.zero_le _, by simpa [Instr.wellFormed, Config.ramLen] using hw⟩

theorem init : Statement (.init) := by
  intro bytes h _
  cases h

theorem readDatetime : Statement (.readDatetime) := by
  intro bytes h _
  cases h

theorem writeDatetime (cv : Calendar) : Statement (.writeDatetime cv) := by
  intro bytes h _
  cases h

theorem readRam : Statement (.readRam) := by
  intro bytes h _
  cases h

theorem writeRam (block : List Byte) : Statement (.writeRam block) := by
  intro bytes h _
  cases h

theorem teardown : Statement (.teardown) := by
  intro bytes h _
  cases h

theorem txnBegin : Statement (.txnBegin) := by
  intro bytes h _
  cases h

theorem txnEnd : Statement (.txnEnd) := by
  intro bytes h _
  cases h

theorem transaction (body : List ByteOp) : Statement (.transaction body) := by
  intro bytes h _
  cases h

theorem wrByte (v : Byte) : Statement (.wrByte v) := by
  intro bytes h _
  cases h

theorem rdByte : Statement (.rdByte) := by
  intro bytes h _
  cases h

theorem bcdEnc (v : Nat) : Statement (.bcdEnc v) := by
  intro bytes h _
  cases h

theorem bcdDec (b : Byte) : Statement (.bcdDec b) := by
  intro bytes h _
  cases h

theorem frameEnc (cv : Calendar) : Statement (.frameEnc cv) := by
  intro bytes h _
  cases h

theorem frameDec (raw : Frame) : Statement (.frameDec raw) := by
  intro bytes h _
  cases h

theorem yyOfYear (year : Nat) : Statement (.yyOfYear year) := by
  intro bytes h _
  cases h

theorem yearOfYy (yy : Nat) : Statement (.yearOfYy yy) := by
  intro bytes h _
  cases h

end Sys2Proof.Laws.WireForm
end

