-- ==== Sys2Proof/Laws/Text.lean ====
section
/-! SUPPORT. The line form of R109, once: words, separators, numbers. -/

namespace Sys2Proof

/-- A word is collected. -/
theorem lex_word (w rest acc : List Char) (h : ∀ c ∈ w, isWordChar c = true) :
    lexFrom acc (w ++ rest) = lexFrom (w.reverse ++ acc) rest := by
  induction w generalizing acc with
  | nil => rfl
  | cons c w ih =>
    have hc := h c (by simp)
    have n1 : c ≠ ';' := by rintro rfl; simp [isWordChar] at hc
    have n2 : c ≠ ' ' := by rintro rfl; simp [isWordChar] at hc
    have n3 : c ≠ ',' := by rintro rfl; simp [isWordChar] at hc
    have n4 : c ≠ '[' := by rintro rfl; simp [isWordChar] at hc
    have n5 : c ≠ ']' := by rintro rfl; simp [isWordChar] at hc
    rw [List.cons_append, lexFrom, if_neg n1, if_neg n2, if_neg n3, if_neg n4, if_neg n5, if_pos hc, ih _ (fun c hc => h c (by simp [hc]))]
    simp

/-- What may end a line: nothing, or a space and a comment. -/
def LineEnd (tl : List Char) : Prop := tl = [] ∨ ∃ c, tl = [' ', ';'] ++ c

/-- The end of a line ends its word. -/
theorem lex_lineEnd (acc tl : List Char) (h : LineEnd tl) : lexFrom acc tl = some (flushWord acc) := by
  obtain rfl | ⟨c, rfl⟩ := h
  · rfl
  · simp [lexFrom, flushWord]

/-- A collected word is a token. -/
theorem flush_ne (w : List Char) (h : w ≠ []) : flushWord w.reverse = [.word w] := by
  cases hw : w.reverse with
  | nil => simp at hw; exact absurd hw h
  | cons a l => simp only [flushWord]; rw [← hw, List.reverse_reverse]

/-- A word at the end of a line. -/
theorem lex_word_lineEnd (w tl : List Char) (h : ∀ c ∈ w, isWordChar c = true) (hw : w ≠ []) (ht : LineEnd tl) :
    lexFrom [] (w ++ tl) = some [.word w] := by
  rw [lex_word _ _ _ h, List.append_nil, lex_lineEnd _ _ ht, flush_ne _ hw]

/-- A word before a space. -/
theorem lex_word_sp (w rest : List Char) (h : ∀ c ∈ w, isWordChar c = true) (hw : w ≠ []) :
    lexFrom [] (w ++ ' ' :: rest) = (lexFrom [] rest).map (.word w :: ·) := by
  rw [lex_word _ _ _ h, List.append_nil, lexFrom]; simp [flush_ne _ hw]

/-- A word before a comma. -/
theorem lex_word_comma (w rest : List Char) (h : ∀ c ∈ w, isWordChar c = true) (hw : w ≠ []) :
    lexFrom [] (w ++ ',' :: ' ' :: rest) = (lexFrom [] rest).map (fun l => .word w :: .comma :: l) := by
  rw [lex_word _ _ _ h, List.append_nil, lexFrom]; simp [flush_ne _ hw, lexFrom]
  rfl

/-- A word before the closing bracket at the end of a line. -/
theorem lex_close (w tl : List Char) (h : ∀ c ∈ w, isWordChar c = true) (hw : w ≠ []) (ht : LineEnd tl) :
    lexFrom [] (w ++ ']' :: tl) = some [.word w, .closing] := by
  rw [lex_word _ _ _ h, List.append_nil, lexFrom]; simp [flush_ne _ hw, lex_lineEnd _ _ ht]; rfl

theorem hexChar_word (n : Nat) (h : n < 16) : isWordChar (hexChar n) = true := by interval_cases n <;> decide

theorem hexDigit_hexChar (n : Nat) (h : n < 16) : hexDigit (hexChar n) = some n := by interval_cases n <;> decide

theorem decDigit_hexChar (n : Nat) (h : n < 10) : decDigit (hexChar n) = some n := by interval_cases n <;> decide

/-- Decimal digits are read back. -/
theorem digits_spec (fuel n : Nat) (acc : List Char) (h : n < fuel) :
    ∃ ds, decDigitsFrom fuel n acc = ds ++ acc ∧ ds ≠ [] ∧ (∀ c ∈ ds, isWordChar c = true) ∧ ∀ v rest, decFrom v (ds ++ rest) = decFrom (v * 10 ^ ds.length + n) rest := by
  induction fuel generalizing n acc with
  | zero => omega
  | succ fuel ih =>
    unfold decDigitsFrom
    split
    · rename_i h10
      refine ⟨[hexChar n], rfl, by simp, by simpa using hexChar_word n (by omega), fun v rest => ?_⟩
      simp [decFrom, decDigit_hexChar n h10]; congr 1; omega
    · obtain ⟨ds, h1, h2, h3, h4⟩ := ih (n / 10) (hexChar (n % 10) :: acc) (by omega)
      refine ⟨ds ++ [hexChar (n % 10)], by simp [h1], by simp, ?_, fun v rest => ?_⟩
      · intro c hc
        rw [List.mem_append] at hc
        obtain hc | hc := hc
        · exact h3 c hc
        · simp at hc; subst hc; exact hexChar_word _ (by omega)
      · rw [List.append_assoc, h4]
        simp only [List.singleton_append, decFrom, decDigit_hexChar (n % 10) (by omega)]
        congr 1
        simp [pow_succ]
        have : n = 10 * (n / 10) + n % 10 := by omega
        generalize n / 10 = q at *; generalize n % 10 = r at *
        subst this; ring

/-- A natural is printed as a word that is read back. -/
theorem printNat_spec (n : Nat) : (∀ c ∈ printNat n, isWordChar c = true) ∧ printNat n ≠ [] ∧ parseNat (printNat n) = some n := by
  obtain ⟨ds, h1, h2, h3, h4⟩ := digits_spec (n + 1) n [] (by omega)
  have : printNat n = ds := by unfold printNat; rw [h1]; simp
  rw [this]
  refine ⟨h3, h2, ?_⟩
  have := h4 0 []
  simp at this
  cases ds with
  | nil => exact absurd rfl h2
  | cons a l => show decFrom 0 (a :: l) = _; rw [this]; rfl

/-- A byte is printed as a word that is read back. -/
theorem hexByte_spec (b : Byte) : (∀ c ∈ printHexByte b, isWordChar c = true) ∧ printHexByte b ≠ [] ∧ parseHexByte (printHexByte b) = some b := by
  have := b.isLt
  refine ⟨?_, by simp [printHexByte], ?_⟩
  · intro c hc
    simp only [printHexByte, List.mem_cons, List.not_mem_nil, or_false] at hc
    obtain rfl | rfl := hc <;> exact hexChar_word _ (by omega)
  · simp only [printHexByte, parseHexByte, hexDigit_hexChar _ (show b.toNat / 16 < 16 by omega), hexDigit_hexChar _ (show b.toNat % 16 < 16 by omega)]
    congr 1
    apply BitVec.eq_of_toNat_eq; simp; omega

/-- The names of the operations are words. -/
theorem kw_word : ∀ w ∈ [kwInit, kwTeardown, kwReadDatetime, kwWriteDatetime, kwReadRam, kwWriteRam, kwBegin, kwEnd, kwWrByte, kwRdByte], (∀ c ∈ w, isWordChar c = true) ∧ w ≠ [] := by
  intro w hw
  simp only [List.mem_cons, List.not_mem_nil, or_false] at hw
  rcases hw with rfl | rfl | rfl | rfl | rfl | rfl | rfl | rfl | rfl | rfl <;> exact ⟨List.all_eq_true.1 rfl, List.cons_ne_nil _ _⟩

/-- A list of bytes is read back. -/
theorem lex_bytes (bs : List Byte) (b : Byte) (tl : List Char) (ht : LineEnd tl) :
    ∃ toks, lexFrom [] (printSeparated ((b :: bs).map printHexByte) ++ ']' :: tl) = some (.word (printHexByte b) :: toks) ∧ parseMoreBytes toks = some bs := by
  induction bs generalizing b with
  | nil =>
    refine ⟨[.closing], ?_, rfl⟩
    obtain ⟨h1, h2, -⟩ := hexByte_spec b
    exact lex_close _ _ h1 h2 ht
  | cons c bs ih =>
    obtain ⟨toks, h3, h4⟩ := ih c
    obtain ⟨h1, h2, -⟩ := hexByte_spec b
    refine ⟨.comma :: .word (printHexByte c) :: toks, ?_, ?_⟩
    · simp only [List.map_cons, printSeparated, List.append_assoc, List.cons_append, List.nil_append] at h3 ⊢
      rw [lex_word_comma _ _ h1 h2, h3]; rfl
    · simp [parseMoreBytes, (hexByte_spec c).2.2, h4]

end Sys2Proof
end

