-- ==== Sys2Proof/Tests/Slice0.lean ====
section
/-! SUPPORT. The author's own tests: the checks of WellFormed, the words of 30_encoding.md, vectors of 95_test_vectors.md on one
step each, and for each statement with hypotheses a state and operands that meet them. -/

namespace Sys2Proof.Machine.Tests

/-! ### Small states -/

/-- S_READY of 95_test_vectors.md section 0, with a device and scripted answers. -/
def ready (d : Device) (plan : List Answer) : State :=
  { State.reset with
    lifecycle := .ready, initAttempted := true,
    pins := { clk := { mode := .output, lvl := .low }, data := { mode := .input, lvl := .x },
              rst := { mode := .output, lvl := .low } },
    env := { plan := plan, device := d, draws := 0 } }

/-- A counterpart between transactions with this storage. -/
def chip (m : Memory) : Chip := { mem := m, ce := false, cmd := none, index := 0, bits := [], reads := 0, gets := 0 }

/-- CLK[0..6] = 45 30 10 15 01 01 24, RAM[0] = A5, RAM[1] = 5A, WP = 00, TC = 5C. -/
def cells : Memory :=
  [(0, 0x45#8), (1, 0x30#8), (2, 0x10#8), (3, 0x15#8), (4, 0x01#8), (5, 0x01#8), (6, 0x24#8), (9, 0xA5#8), (10, 0x5A#8),
   (41, 0x5C#8)]

/-- READY with that counterpart, ideal. -/
def live : State := ready (.counterpart (chip cells)) []

/-- READY after a RAM burst write whose END could not drop CE: CE is UNKNOWN, and the failed transaction still stands open at the
counterpart, one data byte and one bit into it. -/
def stuckChip : Chip := { chip cells with ce := true, cmd := some 0xFE#8, index := 1, bits := [true] }
def stuck : State :=
  { live with
    pins := { live.pins with rst := { mode := .unknown, lvl := .x } }
    env := { plan := [], device := .counterpart stuckChip, draws := 0 } }

/-- S0 with that counterpart and WP = 80. -/
def fresh : State :=
  { State.reset with env := { plan := [], device := .counterpart (chip [(40, 0x80#8), (41, 0xA5#8)]), draws := 0 } }

/-- n calls left to what is attached, then an `Err`. -/
def failAt (n : Nat) : List Answer := List.replicate n .defer ++ [.err]

/-- A check on the next state. -/
def after (o : Host.Outcome State Fault Refusal) (f : State → Bool) : Bool :=
  match o with
  | .next t => f t
  | .fault _ => false
  | .refused _ => false

/-- The name of a refusal. -/
def refusalOf (o : Host.Outcome State Fault Refusal) : Option Refusal :=
  match o with
  | .next _ => none
  | .fault _ => none
  | .refused r => some r

/-- The example of 42_bcd_codec.md. -/
def jan15 : Calendar := { sec := 45, min := 30, hour := 10, day := 15, month := 1, wday := 1, yy := 24 }
def jan15Frame : Frame := ⟨0x45#8, 0x30#8, 0x10#8, 0x15#8, 0x01#8, 0x01#8, 0x24#8⟩

/-! ### WellFormed: an ill-formed term for each check -/

theorem test_wf_ram_burst_of_32 : Instr.wellFormed (.cmdRamBurstWrite (List.replicate 32 0#8)) = false := by decide
theorem test_wf_ram_burst_of_31 : Instr.wellFormed (.cmdRamBurstWrite (List.replicate 31 0#8)) = true := by decide

/-! ### Decoding: words written out from 30_encoding.md R90 to R97 -/

theorem test_decode_wp_read : decode [0b10001111#8] = .ok .cmdWpRead := by decide
theorem test_decode_wp_write : decode [0b10001110#8, 0b00000000#8] = .ok (.cmdWpWrite 0x00#8) := by decide
theorem test_decode_tc_read : decode [0b10010001#8] = .ok .cmdTcRead := by decide
theorem test_decode_tc_write : decode [0b10010000#8, 0b10100101#8] = .ok (.cmdTcWrite 0xA5#8) := by decide
theorem test_decode_clock_burst_read : decode [0b10111111#8] = .ok .cmdClockBurstRead := by decide
theorem test_decode_clock_burst_write :
    decode [0b10111110#8, 0x45#8, 0x30#8, 0x10#8, 0x15#8, 0x01#8, 0x01#8, 0x24#8, 0x00#8, 0xFF#8] =
      .ok (.cmdClockBurstWrite jan15Frame 0x00#8 0xFF#8) := by decide
theorem test_decode_ram_burst_read : decode [0b11111111#8] = .ok .cmdRamBurstRead := by decide
theorem test_decode_ram_burst_write : decode [0b11111110#8, 0x5A#8, 0xA5#8] = .ok (.cmdRamBurstWrite [0x5A#8, 0xA5#8]) := by
  decide
theorem test_decode_unlisted : decode [0x80#8] = .error (.unknownCommand 0x80#8) := by decide
theorem test_decode_short : decode [0xBE#8, 0x45#8] = .error (.wrongLength .clockBurstWrite 1) := by decide
theorem test_table_words :
    decodeTableWord 8 0x8F = some .cmdWpRead ∧ decodeTableWord 8 0xBE =
      some (.cmdClockBurstWrite ⟨0#8, 0#8, 0#8, 0#8, 0#8, 0#8, 0#8⟩ 0#8 0#8) ∧
      decodeTableWord 16 0xA590 = some (.cmdTcWrite 0xA5#8) ∧ decodeTableWord 8 0x00 = none := by decide

/-- Lines of R109, one for each operation that has one. -/
theorem test_lines :
    parseLine kwInit = .ok .init ∧ parseLine kwTeardown = .ok .teardown ∧ parseLine kwReadDatetime = .ok .readDatetime ∧
      parseLine kwReadRam = .ok .readRam ∧ parseLine kwBegin = .ok .txnBegin ∧ parseLine kwEnd = .ok .txnEnd ∧
      parseLine kwRdByte = .ok .rdByte := by decide +kernel
theorem test_line_write_datetime :
    parseLine ("WRITE_DATETIME 45, 30, 10, 15, 1, 1, 24".toList) = .ok (.writeDatetime jan15) := by decide +kernel
theorem test_line_write_ram :
    parseLine ("WRITE_RAM [5A, 0f]   ; two bytes".toList) = .ok (.writeRam [0x5A#8, 0x0F#8]) ∧
      parseLine ("WRITE_RAM []".toList) = .ok (.writeRam []) := by decide +kernel
theorem test_line_wrbyte : parseLine ("WRBYTE 0xA5".toList) = .ok (.wrByte 0xA5#8) := by decide +kernel

/-! ### The BCD codec (95_test_vectors.md section 2.3) -/

theorem test_bcd_enc : bcdEncode none 45 = .ok 0x45#8 ∧ bcdEncode none 99 = .ok 0x99#8 ∧ bcdEncode none 100 = .error (.encode none 100) := by
  decide
theorem test_bcd_dec : bcdDecode none 0x59#8 = .ok 59 ∧ bcdDecode none 0x1F#8 = .error (.decode none 0x1F#8 .badDigit) ∧
    bcdDecode none 0xA0#8 = .error (.decode none 0xA0#8 .badDigit) := by decide
theorem test_frame_enc : frameEncode jan15 = .ok jan15Frame := by decide
theorem test_frame_enc_lowest_slot : frameEncode ⟨0, 60, 24, 0, 13, 0, 100⟩ = .error (.encode (some 1) 60) := by decide
theorem test_frame_dec_bit7 : frameDecode ⟨0x80#8, 0#8, 0#8, 1#8, 1#8, 1#8, 0#8⟩ = .error (.decode (some 0) 0x80#8 .outOfRange) := by
  decide
theorem test_frame_dec_digit_first :
    frameDecode ⟨0x00#8, 0x6F#8, 0x00#8, 0x01#8, 0x13#8, 0x01#8, 0x00#8⟩ = .error (.decode (some 1) 0x6F#8 .badDigit) := by decide
theorem test_yy_of_year : yyOfYear 2000 2024 = .ok 24 ∧ yyOfYear 2000 1999 = .error (.encode (some 6) 1999) ∧
    yyOfYear 2000 2100 = .error (.encode (some 6) 2100) ∧ yyOfYear 1900 1999 = .ok 99 := by decide
theorem test_result_codes : (Result.ok .none).code = 0 ∧ (Result.error (.encode (some 2) 24)).code = 4 := by decide
theorem test_year_of_yy : after (exec (.yearOfYy 24) State.reset) (fun t => t.returned = some (.number 2024)) = true := by
  decide +kernel

/-! ### The transport and the framer (sections 2.2 and 2.4) -/

/-- T1: the levels of WRBYTE(0xA5) at its rising edges, 8 rising and 7 falling edges, and the registers at the end. -/
theorem test_wrbyte_a5 : after (exec (.wrByte 0xA5#8) live) (fun t =>
    decide (levelsAtRising live.pins t.trace = [.high, .low, .high, .low, .low, .high, .low, .high]) &&
    decide (countEdge .falling (edges live.pins t.trace) = 7) && decide (t.bc = 8) && decide (t.sr = 0#8)) = true := by
  decide +kernel
/-- T6: an `Err` at the `SET(DATA, v[3])`, the 12th call, offset 18. -/
theorem test_wrbyte_fails_at_18 : after (exec (.wrByte 0xA5#8) (ready .absent (List.replicate 11 (.ok false) ++ [.err]))) (fun t =>
    decide (t.returned = some (.error (.pinAccess (.set .data false) 18 (some ⟨.wrByte, 18⟩)))) &&
    decide (t.trace.length = 19) && decide (t.pins.data = ⟨.unknown, .x⟩)) = true := by decide +kernel
/-- T2: GETs 1, 0, 1, 0, 0, 1, 0, 1. -/
theorem test_rdbyte_a5 : after (exec .rdByte (ready (.loopback [true, false, true, false, false, true, false, true]) [])) (fun t =>
    decide (t.returned = some (.byte 0xA5#8)) && decide (t.pins.data = ⟨.input, .x⟩) && decide (t.pins.clk.lvl = .low)) = true := by
  decide +kernel
/-- T7: an `Err` at the GET of cell 4, the 16th call, offset 25. -/
theorem test_rdbyte_fails_at_25 : after (exec .rdByte (ready (.loopback []) (List.replicate 15 (.ok true) ++ [.err]))) (fun t =>
    decide (t.returned = some (.error (.pinAccess (.get .data) 25 (some ⟨.rdByte, 25⟩))))) = true := by decide +kernel
/-- X1. -/
theorem test_begin : after (exec .txnBegin live) (fun t =>
    decide (t.trace = [.call (.set .clk false) .ok, .call (.set .rst true) .ok]) && decide (t.pins.rst.lvl = .high)) = true := by
  decide +kernel
/-- END goes on after its first call fails, and returns that failure (R121). -/
theorem test_end_first_call_fails : after (exec .txnEnd (ready (.counterpart (chip [])) [.err])) (fun t =>
    decide (t.trace.length = 3) &&
    decide (t.returned = some (.endStatus (some (.pinAccess (.cfg [.data] .input none) 0 (some ⟨.txnEnd, 0⟩)))))) = true := by
  decide +kernel
/-- The example of R122: 87 events, no bytes read. -/
theorem test_transaction : after (exec (.transaction [.wr 0x8E#8, .wr 0x00#8]) live) (fun t =>
    decide (t.trace.length = 87) && decide (t.returned = some (.bytes []))) = true := by decide +kernel

/-! ### The command rows against the counterpart (20_memory.md R82, R83) -/

theorem test_wp_read : after (exec .cmdWpRead (ready (.counterpart (chip [(40, 0x80#8)])) [])) (fun t =>
    decide (t.returned = some (.bytes [0x80#8]))) = true := by decide +kernel
theorem test_tc_read : after (exec .cmdTcRead live) (fun t => decide (t.returned = some (.bytes [0x5C#8]))) = true := by decide +kernel
theorem test_wp_write : after (exec (.cmdWpWrite 0x80#8) live) (fun t => decide (t.env.slot .wp 0 = 0x80#8)) = true := by decide +kernel
theorem test_tc_write : after (exec (.cmdTcWrite 0xA1#8) live) (fun t => decide (t.env.slot .tc 0 = 0xA1#8)) = true := by decide +kernel
theorem test_clock_burst_read : after (exec .cmdClockBurstRead live) (fun t =>
    decide (t.returned = some (.bytes jan15Frame.toList))) = true := by decide +kernel
theorem test_clock_burst_write : after (exec (.cmdClockBurstWrite jan15Frame 1#8 2#8) (ready (.counterpart (chip [])) [])) (fun t =>
    decide (t.env.storage = cells.take 7)) = true := by decide +kernel
theorem test_ram_burst_read_fails : after (exec .cmdRamBurstRead (ready (.counterpart (chip cells)) (failAt 52))) (fun t =>
    decide (t.returned = some (.error (.pinAccess (.cfg [.data] .input none) 84 (some ⟨.command .ramBurstRead, 84⟩))))) = true := by
  decide +kernel
theorem test_ram_burst_write : after (exec (.cmdRamBurstWrite [0x11#8]) live) (fun t =>
    decide (t.env.slot .ram 0 = 0x11#8) && decide (t.env.slot .ram 1 = 0x5A#8)) = true := by decide +kernel
/-- A transaction that failed stands open at the counterpart: the next one starts with its command byte (R85; 70_reset_and_hazards.md
R287). -/
theorem test_ram_burst_write_resumes_nothing : after (exec (.cmdRamBurstWrite [0x11#8]) stuck) (fun t =>
    decide (t.env.slot .ram 0 = 0x11#8) && decide (t.env.slot .ram 1 = 0x5A#8)) = true := by decide +kernel

/-! ### The host operations (sections 2.5 and 2.6) -/

/-- L1. -/
theorem test_init : after (exec .init fresh) (fun t =>
    decide (t.result = some (.ok .none)) && decide (t.trace.length = 175) && decide (t.lifecycle = .ready) &&
    decide (t.env.slot .wp 0 = 0#8)) = true := by decide +kernel
/-- L8: an `Err` at event 47, the 31st call. -/
theorem test_init_fails_at_47 : after (exec .init { fresh with env := { fresh.env with plan := failAt 30 } }) (fun t =>
    decide (t.result = some (.error (.pinAccess (.set .data false) 47 (some ⟨.init, 47⟩)))) && decide (t.trace.length = 51) &&
    decide (t.lifecycle = .uninit) && decide (t.env.slot .wp 0 = 0x80#8)) = true := by decide +kernel
/-- D1. -/
theorem test_read_datetime : after (exec .readDatetime live) (fun t =>
    decide (t.result = some (.ok (.calendar jan15))) && decide (t.trace.length = 333)) = true := by decide +kernel
/-- S7: after TEARDOWN. -/
theorem test_read_datetime_closed : after (exec .readDatetime { live with lifecycle := .closed }) (fun t =>
    decide (t.result = some (.error (.lifecycle .readDatetime .closed true))) && decide (t.trace = [])) = true := by decide +kernel
/-- D4. -/
theorem test_write_datetime : after (exec (.writeDatetime jan15) (ready (.counterpart (chip [])) [])) (fun t =>
    decide (t.result = some (.ok .none)) && decide (t.env.storage = cells.take 7)) = true := by decide +kernel
/-- D5. -/
theorem test_write_datetime_hour_24 : after (exec (.writeDatetime ⟨0, 0, 24, 1, 1, 1, 0⟩) live) (fun t =>
    decide (t.result = some (.error (.encode (some 2) 24))) && decide (t.trace = [])) = true := by decide +kernel
/-- READ_RAM's third RDBYTE fails at its GET of bit 0: events 2 + 41·3 + 5, call 2 + 25·3 + 4. -/
theorem test_read_ram_fails : after (exec .readRam (ready (.counterpart (chip cells)) (failAt 80))) (fun t =>
    decide (t.result = some (.error (.pinAccess (.get .data) 130 (some ⟨.readRam, 130⟩)))) &&
    decide (t.buf.take 2 = [0xA5#8, 0x5A#8]) && decide (t.txnOpen = false)) = true := by decide +kernel
/-- D7. -/
theorem test_write_ram_empty : after (exec (.writeRam []) live) (fun t =>
    decide (t.result = some (.ok (.truncated false))) && decide (t.trace.length = 46) && decide (t.env.storage = cells)) = true := by
  decide +kernel
/-- X5: BEGIN's first call and END's last both fail. -/
theorem test_write_ram_both_fail : after (exec (.writeRam []) (ready (.counterpart (chip [])) [.err, .defer, .defer, .err])) (fun t =>
    decide (t.result = some (.error (.pinAccess (.set .clk false) 0 (some ⟨.writeRam, 0⟩)))) && decide (t.trace.length = 4) &&
    decide (t.pins.rst.mode = .unknown) && decide (t.pins.clk = ⟨.unknown, .x⟩)) = true := by decide +kernel
/-- L10. -/
theorem test_teardown_fails : after (exec .teardown (ready (.counterpart (chip [])) [.err])) (fun t =>
    decide (t.result = some (.error (.pinAccess (.rel [.clk, .data, .rst]) 0 (some ⟨.teardown, 0⟩)))) &&
    decide (t.lifecycle = .closed) && decide (t.pins.data.mode = .unknown)) = true := by decide +kernel
/-- L11. -/
theorem test_teardown_again : after (exec .teardown { live with lifecycle := .closed }) (fun t =>
    decide (t.result = some (.ok .none)) && decide (t.trace = [])) = true := by decide +kernel
/-- The written form of an event. -/
theorem test_event_text :
    eventText (.call (.cfg [.data] .output (some .any)) .ok) = "CFG([DATA],OUT,ANY)".toList ∧
      eventText (.call (.get .data) (.level true)) = "GET(DATA) → 1".toList := by decide +kernel

/-! ### Witnesses: for each statement with hypotheses, a state and operands that meet them -/

/-- Decides `Issues`. -/
theorem issues_of (s t : State) (evs : List Event) (h : (decide (t.trace = s.trace ++ evs) && decide (t.pins = s.pins.replay evs) &&
    decide (t.env = s.env.replay s.pins evs) && s.env.gave s.pins evs && decide (t.cfg = s.cfg)) = true) : Issues s t evs := by
  simp only [Bool.and_eq_true, decide_eq_true_eq] at h
  exact ⟨h.1.1.1.1, h.1.1.1.2, h.1.1.2, h.1.2, h.2⟩

/-- Decides that an instruction answers a next state, by events of which f holds. -/
theorem runs_of (i : Instr) (s : State) (f : State → List Event → Bool)
    (h : after (exec i s) (fun t => decide (t.trace = s.trace ++ t.trace.drop s.trace.length) &&
      decide (t.pins = s.pins.replay (t.trace.drop s.trace.length)) &&
      decide (t.env = s.env.replay s.pins (t.trace.drop s.trace.length)) && s.env.gave s.pins (t.trace.drop s.trace.length) &&
      decide (t.cfg = s.cfg) && f t (t.trace.drop s.trace.length)) = true) :
    ∃ t evs, exec i s = .next t ∧ Issues s t evs ∧ f t evs = true := by
  cases hx : exec i s with
  | next t =>
    rw [hx] at h
    simp only [after, Bool.and_eq_true] at h
    refine ⟨t, t.trace.drop s.trace.length, rfl, issues_of _ _ _ ?_, h.2⟩
    simp only [Bool.and_eq_true]
    exact h.1
  | fault r => rw [hx] at h; cases h
  | refused r => rw [hx] at h; cases h

theorem witness_WireRoundTrip :
    (encode (.cmdRamBurstWrite []) = some [0xFE#8] ∧ Instr.wellFormed (.cmdRamBurstWrite []) = true) ∧
      (encode (.cmdRamBurstWrite (List.replicate 31 0xFF#8)) = some (0xFE#8 :: List.replicate 31 0xFF#8) ∧
        Instr.wellFormed (.cmdRamBurstWrite (List.replicate 31 0xFF#8)) = true) := by decide
theorem witness_WireDecodingExact : decode (0xFE#8 :: List.replicate 31 0xFF#8) = .ok (.cmdRamBurstWrite (List.replicate 31 0xFF#8)) := by
  decide
theorem witness_LineRoundTrip :
    printLine (.writeRam []) = some "WRITE_RAM []".toList ∧
      printLine (.writeDatetime ⟨0, 10, 123, 1, 1, 1, 0⟩) = some "WRITE_DATETIME 0, 10, 123, 1, 1, 1, 0".toList ∧
      printLine (.wrByte 0x0A#8) = some "WRBYTE 0x0A".toList := by decide +kernel
theorem witness_StepRunsDecodedInstruction :
    live.cfg.pinsDistinct = true ∧ ({ live with requests := [.line kwInit] } : State).requests = [.line kwInit] ∧
      readRequest (.line kwInit) = .ok .init ∧ Instr.wellFormed .init = true ∧ decodeTableWord 8 0x8F = some .cmdWpRead ∧
      Instr.wellFormed .cmdWpRead = true := by decide +kernel
theorem witness_StepWaitsOrRefuses :
    live.requests = [] ∧ ({ Config.standard with pinRst := 0 } : Config).pinsDistinct = false ∧
      readRequest (.wire [0x80#8]) = .error (.unknownCommand 0x80#8) ∧ readRequest (.wire []) = .error .empty ∧
      readRequest (.call (.cmdRamBurstWrite (List.replicate 32 0#8))) = .ok (.cmdRamBurstWrite (List.replicate 32 0#8)) ∧
      Instr.wellFormed (.cmdRamBurstWrite (List.replicate 32 0#8)) = false := by decide
theorem witness_RefusedExactlyWhenBusy :
    live.busyFor .readRam = none ∧ ({ live with txnOpen := true } : State).busyFor .readRam = some .nestedTransaction ∧
      ({ live with txnOpen := true } : State).busyFor .rdByte = none ∧
      ({ live with seq := some ⟨.init, 3⟩, txnOpen := true } : State).busyFor .readRam = some .overlappingInvocation ∧
      ({ live with seq := some ⟨.init, 3⟩ } : State).busyFor (.bcdEnc 7) = none := by decide
theorem witness_StepOnlyIssuesEvents : ∃ t, step { live with requests := [.call .txnBegin] } = .next t := ⟨_, rfl⟩
theorem witness_FailedCallLosesItsPins : Pin.clk ∈ (Call.cfg [.clk, .rst] .output (some .low)).pins ∧
    Pin.data ∉ (Call.cfg [.clk, .rst] .output (some .low)).pins := by decide
theorem witness_AnsweredCallMovesShadow :
    Response.ok ≠ .err ∧ Pin.clk ∈ [Pin.clk, .rst] ∧ (live.pins.at .clk).mode = .output ∧
      (({ live.pins with data := ⟨.unknown, .x⟩ } : Shadow).at .data).mode = .unknown ∧ Pin.data ∉ (Call.rel [.clk]).pins := by decide

theorem live_inv : live.Inv := by
  refine ⟨rfl, rfl, by decide, rfl, fun _ => rfl, fun _ => by decide, rfl, by decide⟩

theorem witness_BlockSetsOnlyOutputs : isHostOp (.writeRam []) = true ∧ live.Inv ∧
    ∃ t evs, exec (.writeRam []) live = .next t ∧ Issues live t evs ∧ true = true :=
  ⟨rfl, live_inv, runs_of _ _ (fun _ _ => true) (by decide +kernel)⟩
/-- RDBYTE of eight ones. -/
def looped : State := ready (.loopback (List.replicate 8 true)) []
theorem witness_DataDirectionIsClear : ∃ t evs, exec .rdByte looped = .next t ∧ Issues looped t evs ∧ (!evs.isEmpty) = true :=
  runs_of _ _ (fun _ evs => !evs.isEmpty) (by decide +kernel)
/-- With a counterpart and no scripted answer every operation meets an ideal capability (R88). -/
theorem live_ideal (i : Instr) : live.IdealFor i := by simp [State.IdealFor, Env.idealFor, live, ready]
theorem fresh_ideal (i : Instr) : fresh.IdealFor i := by simp [State.IdealFor, Env.idealFor, fresh]

theorem witness_WriteByteCompletes : live.seq = none ∧ live.IdealFor (.wrByte 0xFF#8) := ⟨rfl, live_ideal _⟩
/-- An unknown capability whose next 25 answers are scripted `Ok` is ideal for one byte. -/
theorem witness_WriteByteDrivesLsbFirst :
    (ready .absent (List.replicate 25 (.ok true))).seq = none ∧
      (ready .absent (List.replicate 25 (.ok true))).IdealFor (.wrByte 0x80#8) ∧
      (ready .absent (List.replicate 25 (.ok true))).pins.clk.mode = .output := ⟨rfl, by decide +kernel, rfl⟩
theorem witness_ReadByteCompletes : live.seq = none ∧ live.IdealFor .rdByte := ⟨rfl, live_ideal _⟩
theorem witness_ReadByteClockEdges : live.seq = none ∧ live.IdealFor .rdByte ∧ live.pins.clk.mode = .output :=
  ⟨rfl, live_ideal _, rfl⟩
theorem witness_LoopbackReturnsTheByte : (ready (.loopback []) []).seq = none ∧ (ready (.loopback []) []).env.plan = [] ∧
    (ready (.loopback []) []).env.device = .loopback [] := by decide
theorem witness_BeginDrivesClockLowThenCeHigh : live.seq = none ∧ live.IdealFor .txnBegin ∧ live.pins.clk.lvl = .low :=
  ⟨rfl, live_ideal _, rfl⟩
theorem witness_EndReleasesThenDropsCe : live.seq = none ∧ live.IdealFor .txnEnd ∧ live.pins.clk.mode = .output ∧
    live.pins.rst.mode = .output := ⟨rfl, live_ideal _, rfl, rfl⟩
theorem live_idle : live.Idle := ⟨rfl, rfl⟩
theorem witness_TransactionCompletes : live.Idle ∧ live.IdealFor (.transaction [.wr 0x8F#8, .rd]) := ⟨live_idle, live_ideal _⟩
theorem witness_CommandRowsComplete :
    isCommandRow (.cmdRamBurstWrite (List.replicate 31 0#8)) = true ∧
      Instr.wellFormed (.cmdRamBurstWrite (List.replicate 31 0#8)) = true ∧ live.Idle ∧
      live.IdealFor (.cmdRamBurstWrite (List.replicate 31 0#8)) := ⟨rfl, rfl, live_idle, live_ideal _⟩
theorem witness_TransactionFramesItsEdges : bodyOf live.cfg (.writeRam []) = some [.wr 0xFE#8] ∧
    (∃ t evs, exec (.writeRam []) live = .next t ∧ Issues live t evs ∧ (noErr evs && !evs.isEmpty) = true) ∧
    live.pins.rst.mode = .output ∧ live.pins.clk.lvl ≠ .high ∧ startsAlone .init = true ∧
    (∃ t evs, exec .init fresh = .next t ∧ Issues fresh t evs ∧ noErr evs = true) :=
  ⟨rfl, runs_of _ _ (fun _ evs => noErr evs && !evs.isEmpty) (by decide +kernel), rfl, by decide, rfl,
    runs_of _ _ (fun _ evs => noErr evs) (by decide +kernel)⟩
theorem witness_CodecFunctionsArePure : isCodecFn (.yyOfYear 2024) = true ∧
    (∃ t, exec (.yyOfYear 2024) live = .next t) ∧ (∀ year, Instr.bcdEnc 3 ≠ .yyOfYear year) ∧ (∀ yy, Instr.bcdEnc 3 ≠ .yearOfYy yy) :=
  ⟨rfl, ⟨_, rfl⟩, nofun, nofun⟩
theorem witness_BcdEncoderResult : 99 ≤ 99 ∧ 99 < 100 := by decide
theorem witness_BcdDecoderResult : ((0x99#8).toNat / 16 ≤ 9 ∧ (0x99#8).toNat % 16 ≤ 9) ∧ 9 < (0x0A#8).toNat % 16 ∧ 9 < (0xA0#8).toNat / 16 := by
  decide
theorem witness_BcdCodesAreABijection : 99 ≤ 99 ∧ highNibble 0x99#8 ≤ 9 ∧ lowNibble 0x99#8 ≤ 9 ∧ bcdEncode none 9 = .ok 0x09#8 ∧
    bcdEncode none 10 = .ok 0x10#8 := by decide

/-- `validCalendar`, decided. -/
theorem valid_of (cv : Calendar) (h : firstBadField 0 (calendarFields cv) = none) : validCalendar cv := by
  intro k hk
  simp only [calendarFields, firstBadField] at h
  split_ifs at h with h0 h1 h2 h3 h4 h5 h6
  simp only [fieldInRange, fieldMin, fieldMax, Bool.and_eq_true, decide_eq_true_eq] at h0 h1 h2 h3 h4 h5 h6
  have : k = 0 ∨ k = 1 ∨ k = 2 ∨ k = 3 ∨ k = 4 ∨ k = 5 ∨ k = 6 := by omega
  rcases this with rfl | rfl | rfl | rfl | rfl | rfl | rfl <;> assumption

/-- All maxima, and in the second clause the first bad slot 5 (wday 0) and slot 0 (sec 60). -/
theorem witness_FrameEncoderResult : validCalendar ⟨59, 59, 23, 31, 12, 7, 99⟩ ∧
    (∀ j, j < 5 → inRange j (fieldOf ⟨0, 0, 0, 1, 1, 0, 0⟩ j)) ∧ ¬ inRange 5 (fieldOf ⟨0, 0, 0, 1, 1, 0, 0⟩ 5) ∧
    ¬ inRange 0 (fieldOf ⟨60, 0, 0, 1, 1, 1, 0⟩ 0) := by
  refine ⟨valid_of _ (by decide), fun j hj => ?_, by decide, by decide⟩
  have : j = 0 ∨ j = 1 ∨ j = 2 ∨ j = 3 ∨ j = 4 := by omega
  rcases this with rfl | rfl | rfl | rfl | rfl <;> decide
/-- The third and fourth clauses at slot 0: 6A and 60. -/
theorem witness_FrameDecoderResult :
    (∀ k, k < 7 → ∃ v, bcdDecode none (slotOf ⟨0x59#8, 0x59#8, 0x23#8, 0x31#8, 0x12#8, 0x07#8, 0x99#8⟩ k) = .ok v ∧ inRange k v) ∧
      9 < lowNibble (slotOf ⟨0x6A#8, 0#8, 0#8, 1#8, 1#8, 1#8, 0#8⟩ 0) ∧
      bcdDecode none (slotOf ⟨0x60#8, 0#8, 0#8, 1#8, 1#8, 1#8, 0#8⟩ 0) = .ok 60 ∧ ¬ inRange 0 60 := by
  refine ⟨fun k hk => ?_, by decide, by decide, by decide⟩
  have : k = 0 ∨ k = 1 ∨ k = 2 ∨ k = 3 ∨ k = 4 ∨ k = 5 ∨ k = 6 := by omega
  rcases this with rfl | rfl | rfl | rfl | rfl | rfl | rfl
  · exact ⟨59, by decide⟩
  · exact ⟨59, by decide⟩
  · exact ⟨23, by decide⟩
  · exact ⟨31, by decide⟩
  · exact ⟨12, by decide⟩
  · exact ⟨7, by decide⟩
  · exact ⟨99, by decide⟩
theorem witness_FrameRoundTrip : validCalendar ⟨0, 0, 0, 1, 1, 1, 0⟩ ∧ frameDecode jan15Frame = .ok jan15 :=
  ⟨valid_of _ (by decide), by decide⟩
theorem witness_YearAdaptersResult : live.cfg.centuryBase ≤ 2099 ∧ 2099 ≤ live.cfg.centuryBase + 99 ∧ 1999 < live.cfg.centuryBase ∧
    live.cfg.centuryBase + 99 < 2100 := by decide
theorem witness_DataOpsAreGated : isDataOp .readRam = true ∧ opOf .readRam = some .readRam ∧ State.reset.Idle ∧
    State.reset.lifecycle ≠ .ready := ⟨rfl, rfl, ⟨rfl, rfl⟩, by decide⟩
theorem witness_ReadDatetimeCompletes : live.Idle ∧ live.lifecycle = .ready ∧ live.IdealFor .readDatetime :=
  ⟨live_idle, rfl, live_ideal _⟩
theorem witness_WriteDatetimeCompletes : frameEncode jan15 = .ok jan15Frame ∧ live.Idle ∧ live.lifecycle = .ready ∧
    live.IdealFor (.writeDatetime jan15) := ⟨by decide, live_idle, rfl, live_ideal _⟩
theorem witness_WriteDatetimeRefusesBadFields : live.Idle ∧ live.lifecycle = .ready ∧
    (∀ j, j < 2 → inRange j (fieldOf ⟨0, 0, 24, 1, 1, 1, 0⟩ j)) ∧ ¬ inRange 2 (fieldOf ⟨0, 0, 24, 1, 1, 1, 0⟩ 2) := by
  refine ⟨live_idle, rfl, fun j hj => ?_, by decide⟩
  have : j = 0 ∨ j = 1 := by omega
  rcases this with rfl | rfl <;> decide
theorem witness_ReadRamCompletes : live.Idle ∧ live.lifecycle = .ready ∧ live.IdealFor .readRam := ⟨live_idle, rfl, live_ideal _⟩
theorem witness_WriteRamCompletes : live.Idle ∧ live.lifecycle = .ready ∧ live.IdealFor (.writeRam (List.replicate 32 0#8)) :=
  ⟨live_idle, rfl, live_ideal _⟩
theorem witness_DataOpsAreBounded : isDataOp (.writeRam []) = true ∧
    ∃ t evs, exec (.writeRam []) live = .next t ∧ Issues live t evs ∧ true = true :=
  ⟨rfl, runs_of _ _ (fun _ _ => true) (by decide +kernel)⟩
theorem fresh_idle : fresh.Idle := ⟨rfl, rfl⟩
theorem witness_InitCompletes : fresh.Idle ∧ fresh.lifecycle = .uninit ∧ fresh.initAttempted = false ∧ fresh.IdealFor .init :=
  ⟨fresh_idle, rfl, rfl, fresh_ideal _⟩
/-- The last clause: an INIT whose first call fails. -/
theorem witness_InitRunsAtMostOnce : live.lifecycle ≠ .uninit ∧
    ({ fresh with env := { fresh.env with plan := [.err] } } : State).Idle ∧
    after (exec .init { fresh with env := { fresh.env with plan := [.err] } }) (fun t => decide (t.lifecycle ≠ .ready)) = true :=
  ⟨by decide, ⟨rfl, rfl⟩, by decide +kernel⟩
theorem witness_TeardownReleasesOnce : live.Idle ∧ live.lifecycle ≠ .closed ∧ live.IdealFor .teardown ∧
    ({ live with lifecycle := .closed } : State).Idle := ⟨live_idle, by decide, live_ideal _, ⟨rfl, rfl⟩⟩
theorem witness_LifecycleMovesAsTheTable : (∃ t, exec .init fresh = .next t) ∧ fresh.permitsInit = true ∧ live.permitsInit = false ∧
    (∃ t, exec .readRam fresh = .next t) ∧ fresh.lifecycle ≠ .ready ∧ (∃ t, exec .teardown live = .next t) ∧
    isHostOp .rdByte = false ∧ (∃ t, exec .rdByte live = .next t) :=
  ⟨⟨_, rfl⟩, rfl, rfl, ⟨_, rfl⟩, by decide, ⟨_, rfl⟩, rfl, ⟨_, rfl⟩⟩
theorem witness_ErrorsArePrecise :
    after (exec (.writeRam []) (ready (.counterpart (chip [])) (failAt 27))) (fun t => (t.reported (.writeRam [])).isSome) = true := by
  decide +kernel
theorem witness_ErrorPrecedence : isHostOp (.writeRam []) = true ∧
    ∃ t evs, exec (.writeRam []) (ready (.counterpart (chip [])) (failAt 27)) = .next t ∧
      Issues (ready (.counterpart (chip [])) (failAt 27)) t evs ∧ (firstErr evs).isSome = true :=
  ⟨rfl, runs_of _ _ (fun _ evs => (firstErr evs).isSome) (by decide +kernel)⟩
theorem witness_HostOpsLeaveTheBlockIdle : isHostOp .init = true ∧
    after (exec .init { fresh with env := { fresh.env with plan := [.err] } }) (fun t => (t.reported .init).isSome) = true :=
  ⟨rfl, by decide +kernel⟩
theorem witness_EventAndWaitCounts :
    (∃ t evs, exec .init fresh = .next t ∧ Issues fresh t evs ∧ noErr evs = true) ∧ fresh.permitsInit = true ∧
    (∃ t evs, exec .readDatetime live = .next t ∧ Issues live t evs ∧ noErr evs = true) ∧ live.lifecycle = .ready ∧
    (∃ t evs, exec (.writeRam []) live = .next t ∧ Issues live t evs ∧ noErr evs = true) ∧
    (∃ t evs, exec .teardown live = .next t ∧ Issues live t evs ∧ noErr evs = true) :=
  ⟨runs_of _ _ (fun _ evs => noErr evs) (by decide +kernel), rfl, runs_of _ _ (fun _ evs => noErr evs) (by decide +kernel), rfl,
    runs_of _ _ (fun _ evs => noErr evs) (by decide +kernel), runs_of _ _ (fun _ evs => noErr evs) (by decide +kernel)⟩
theorem witness_EveryWaitIsTheSettleDelay :
    ∃ t evs, exec .rdByte looped = .next t ∧ Issues looped t evs ∧ decide (Event.wait 5000 ∈ evs) = true :=
  runs_of _ _ (fun _ evs => decide (Event.wait 5000 ∈ evs)) (by decide +kernel)
theorem witness_StepKeepsInv : live.Inv ∧ ∃ t, step live = .next t := ⟨live_inv, ⟨_, rfl⟩⟩
theorem live_quiet : live.QuietShadow := rfl
theorem witness_QuietShadowIsKept : isHostOp .teardown = true ∧ live.QuietShadow ∧
    ∃ t evs, exec .teardown live = .next t ∧ Issues live t evs ∧ noErr evs = true :=
  ⟨rfl, live_quiet, runs_of _ _ (fun _ evs => noErr evs) (by decide +kernel)⟩
theorem witness_HiddenRegistersAreUnread : (∃ t, exec .readRam live = .next t) ∧ isDataOp .readRam = true ∧ live.lifecycle = .ready :=
  ⟨⟨_, rfl⟩, rfl, rfl⟩
theorem witness_GpioHandleIsUnread : ∃ t, step { live with requests := [.call .readRam] } = .next t := ⟨_, rfl⟩
/-- WRITE_RAM of one byte may store to slot 0 of RAM, address 9, so address 10 must stand. -/
theorem witness_StorageOutsideStoredSlotsStands : (∃ t, exec (.writeRam [0x11#8]) live = .next t) ∧
    live.slotsOf (.writeRam [0x11#8]) = [(.ram, 0)] ∧ (10 : Nat) ≠ Region.ram.base + 0 := ⟨⟨_, rfl⟩, by decide +kernel, by decide⟩
theorem live_ready_with_chip : live.ReadyWithChip (chip cells) :=
  ⟨live_idle, rfl, rfl, rfl, rfl, by decide⟩
/-- Also after a failure that left a transaction open. -/
theorem stuck_ready_with_chip : stuck.ReadyWithChip stuckChip := ⟨⟨rfl, rfl⟩, rfl, rfl, rfl, rfl, by decide⟩
theorem witness_ReadRowsReturnStorage : live.ReadyWithChip (chip cells) ∧ stuck.ReadyWithChip stuckChip :=
  ⟨live_ready_with_chip, stuck_ready_with_chip⟩
theorem witness_WriteRowsStoreTheirData : live.ReadyWithChip (chip cells) ∧ (List.replicate 31 0xFF#8).length ≤ 31 :=
  ⟨live_ready_with_chip, by decide⟩
theorem witness_DatetimeWrittenIsReadBack : validCalendar jan15 ∧ live.ReadyWithChip (chip cells) ∧
    (chip cells).mem.readSlot .wp 0 = 0x00#8 := ⟨valid_of _ (by decide), live_ready_with_chip, by decide⟩
theorem witness_RamWritesTruncateAndKeepTheRest : (List.replicate 40 0x5A#8).length = 40 ∧ (List.replicate 10 0xA5#8).length = 10 ∧
    live.ReadyWithChip (chip cells) ∧ (chip cells).mem.readSlot .wp 0 = 0x00#8 := ⟨by decide, by decide, live_ready_with_chip, by decide⟩
/-- Each clause with an Ok result, and P4's failure: an `Err` at event 102, the 64th call, leaves a prefix of one slot. -/
theorem witness_WritesReachAPrefix : stuck.env.device = .counterpart stuckChip ∧ stuckChip.mem.wf = true ∧
    (∃ t, exec (.writeRam [0x11#8]) stuck = .next t ∧ ∃ b, t.result = some (.ok (.truncated b))) ∧
    after (exec (.writeRam [0x11#8, 0x22#8]) (ready (.counterpart (chip cells)) (failAt 63))) (fun t =>
      decide (t.result = some (.error (.pinAccess (.set .data false) 102 (some ⟨.writeRam, 102⟩)))) &&
      decide (t.env.slot .ram 0 = 0x11#8) && decide (t.env.slot .ram 1 = 0x5A#8)) = true ∧
    after (exec (.writeDatetime jan15) stuck) (fun t => decide (t.result = some (.ok .none))) = true ∧
    stuck.pins.clk.mode = .output ∧ stuckChip.mem.readSlot .wp 0 = 0x00#8 ∧
    fresh.env.device = .counterpart (chip [(40, 0x80#8), (41, 0xA5#8)]) ∧ (chip [(40, 0x80#8), (41, 0xA5#8)]).mem.wf = true ∧
    after (exec .init fresh) (fun t => decide (t.result = some (.ok .none))) = true :=
  ⟨rfl, by decide, ⟨_, rfl, ⟨_, rfl⟩⟩, by decide +kernel, by decide +kernel, rfl, by decide, rfl, by decide, by decide +kernel⟩
theorem witness_InitClearsProtection : fresh.Idle ∧ fresh.lifecycle = .uninit ∧ fresh.initAttempted = false ∧
    fresh.env.device = .counterpart (chip [(40, 0x80#8), (41, 0xA5#8)]) ∧ fresh.env.plan = [] ∧
    (chip [(40, 0x80#8), (41, 0xA5#8)]).mem.wf = true := ⟨fresh_idle, rfl, rfl, rfl, rfl, by decide⟩

end Sys2Proof.Machine.Tests
end

section
/-! PROOF. The shadow of the pins: what a failed call does to it (10_state.md R41), what a run without an `Err` leaves it at (R46),
and the completion of WRITE_RAM. -/

namespace Sys2Proof.Machine

/-! ### The shadow, pin by pin -/

@[simp] theorem Shadow.at_put (sh : Shadow) (p q : Pin) (v : PinShadow) :
    (sh.put p v).at q = if q = p then v else sh.at q := by
  cases p <;> cases q <;> rfl

/-- Replacing the pins of a list: each pin of it holds the new value, and no other pin moves. -/
theorem Shadow.at_putAll (sh : Shadow) (v : PinShadow) (ps : List Pin) (q : Pin) :
    (sh.putAll v ps).at q = if q ∈ ps then v else sh.at q := by
  induction ps generalizing sh with
  | nil => rfl
  | cons p ps ih =>
    rw [Shadow.putAll, ih, Shadow.at_put]
    by_cases hps : q ∈ ps <;> by_cases hp : q = p <;> simp [hps, hp]

/-- Settles O10: R41 is what `putAll` does to the pins the call names and to the others. -/
theorem failedCallLosesItsPins : Obligations.FailedCallLosesItsPins := by
  intro sh c p
  have hat : (sh.after c .err).at p = if p ∈ c.pins then { mode := .unknown, lvl := .x } else sh.at p :=
    Shadow.at_putAll _ _ _ _
  exact ⟨fun hp => by rw [hat, if_pos hp], fun hp => by rw [hat, if_neg hp]⟩

/-! ### The shadow along a layout: what events do to it when none is answered `Err` -/

/-- The shadow after an event of this shape that is not answered `Err` (10_state.md R40). -/
def Shadow.afterShape (sh : Shadow) : Shape → Shadow
  | .call c => sh.onOk c
  | .wait _ => sh

/-- The shadow after the events of a layout, none of them answered `Err`. -/
def Shadow.along (sh : Shadow) (L : List Shape) : Shadow := L.foldl Shadow.afterShape sh

theorem Shadow.along_append (sh : Shadow) (L M : List Shape) : sh.along (L ++ M) = (sh.along L).along M :=
  List.foldl_append

theorem Shadow.afterEvent_of_not_err (sh : Shadow) (e : Event) (h : e.isErr = false) :
    sh.afterEvent e = sh.afterShape e.shape := by
  cases e with
  | wait t => rfl
  | call c r =>
    cases r with
    | ok => rfl
    | level l => rfl
    | err => cases h

/-- Events of which none was answered `Err` move the shadow as their layout says, whatever the levels read. -/
theorem Shadow.replay_eq_along (sh : Shadow) (evs : List Event) (hn : noErr evs = true) :
    sh.replay evs = sh.along (evs.map Event.shape) := by
  induction evs generalizing sh with
  | nil => rfl
  | cons e evs ih =>
    simp only [noErr, List.all_cons, Bool.and_eq_true, Bool.not_eq_true'] at hn
    rw [Shadow.replay, ih _ hn.2, Shadow.afterEvent_of_not_err _ _ hn.1]
    rfl

/-- The pins an event of this shape gives another mode: those a CFG or a REL names. -/
def Shape.configured : Shape → List Pin
  | .call (.cfg ps _ _) => ps
  | .call (.rel ps) => ps
  | .call (.set _ _) => []
  | .call (.get _) => []
  | .wait _ => []

/-- A SET moves no pin but its own. -/
theorem Shadow.at_onOk_set_of_ne (sh : Shadow) {p q : Pin} (l : Bool) (h : p ≠ q) :
    (sh.onOk (.set q l)).at p = sh.at p := by
  rw [Shadow.onOk]
  split
  · rw [Shadow.at_put, if_neg h]
  · rfl

/-- A SET that is not answered `Err` gives no pin another mode. -/
theorem Shadow.mode_onOk_set (sh : Shadow) (p q : Pin) (l : Bool) : ((sh.onOk (.set q l)).at p).mode = (sh.at p).mode := by
  by_cases hp : p = q
  · subst hp
    rw [Shadow.onOk]
    split
    next hout => rw [Shadow.at_put, if_pos rfl, hout]
    next => rfl
  · rw [sh.at_onOk_set_of_ne l hp]

theorem Shadow.mode_afterShape (sh : Shadow) (x : Shape) (p : Pin) (h : p ∉ x.configured) :
    ((sh.afterShape x).at p).mode = (sh.at p).mode := by
  cases x with
  | wait t => rfl
  | call c =>
    cases c with
    | get q => rfl
    | rel ps => exact congrArg _ ((Shadow.at_putAll _ _ _ _).trans (if_neg h))
    | cfg ps d l => cases d <;> exact congrArg _ ((Shadow.at_putAll _ _ _ _).trans (if_neg h))
    | set q l => exact sh.mode_onOk_set p q l

/-- A layout that configures a pin nowhere keeps the pin's mode. -/
theorem Shadow.mode_along (sh : Shadow) (L : List Shape) (p : Pin) (h : ∀ x ∈ L, p ∉ x.configured) :
    ((sh.along L).at p).mode = (sh.at p).mode := by
  induction L generalizing sh with
  | nil => rfl
  | cons x L ih =>
    obtain ⟨hx, hL⟩ := List.forall_mem_cons.1 h
    exact (ih _ hL).trans (sh.mode_afterShape x p hx)

/-- A byte configures PIN_DATA alone (41_bit_transport.md R140, R141). -/
theorem byteLayout_configures_data (cfg : Config) (b : ByteOp) {p : Pin} (hp : p ≠ .data) :
    ∀ x ∈ byteLayout cfg b, p ∉ x.configured := by
  cases b with
  | wr v => simp [byteLayout, writeByteLayout, writeCellLayout, byteBits, Shape.configured, hp]
  | rd => simp [byteLayout, readByteLayout, readCellLayout, Shape.configured, hp]

/-- BEGIN and the body configure PIN_DATA alone. -/
theorem beginBody_configures_data (cfg : Config) (body : List ByteOp) {p : Pin} (hp : p ≠ .data) :
    ∀ x ∈ beginLayout ++ body.flatMap (byteLayout cfg), p ∉ x.configured := by
  intro x hx
  obtain hx | hx := List.mem_append.1 hx
  · have hbegin : ∀ y ∈ beginLayout, p ∉ y.configured := by simp [beginLayout, Shape.configured]
    exact hbegin x hx
  · obtain ⟨b, -, hb⟩ := List.mem_flatMap.1 hx
    exact byteLayout_configures_data cfg b hp x hb

/-- The pins of a READY block between operations (10_state.md R46). -/
def Shadow.resting : Shadow :=
  { clk := { mode := .output, lvl := .low }, data := { mode := .input, lvl := .x }, rst := { mode := .output, lvl := .low } }

/-- END leaves PIN_DATA released as an input, whatever the pins were (40_transaction_framer.md R121). -/
theorem Shadow.along_endLayout_data (sh : Shadow) : (sh.along endLayout).data = { mode := .input, lvl := .x } := by
  have hce : (sh.along endLayout).at .data = _ := Shadow.at_onOk_set_of_ne _ false (show Pin.data ≠ .rst by decide)
  exact hce.trans (Shadow.at_onOk_set_of_ne _ false (show Pin.data ≠ .clk by decide))

/-- END brings clock and CE to 0 where they are outputs. -/
theorem Shadow.along_endLayout (sh : Shadow) (hc : sh.clk.mode = .output) (hr : sh.rst.mode = .output) :
    sh.along endLayout = Shadow.resting := by
  simp [endLayout, Shadow.along, Shadow.afterShape, Shadow.onOk, Shadow.putAll, Shadow.at, Shadow.put, hc, hr, Level.ofBool,
    Shadow.resting]

theorem Shadow.along_transactionLayout_data (sh : Shadow) (cfg : Config) (body : List ByteOp) :
    (sh.along (transactionLayout cfg body)).data = { mode := .input, lvl := .x } := by
  rw [transactionLayout, Shadow.along_append, Shadow.along_endLayout_data]

/-- A transaction of a block whose clock and CE are outputs leaves the pins at rest, whatever its body. -/
theorem Shadow.along_transactionLayout (sh : Shadow) (cfg : Config) (body : List ByteOp) (hc : sh.clk.mode = .output)
    (hr : sh.rst.mode = .output) : sh.along (transactionLayout cfg body) = Shadow.resting := by
  have hmode : ∀ p, p ≠ .data → ((sh.along (beginLayout ++ body.flatMap (byteLayout cfg))).at p).mode = (sh.at p).mode :=
    fun p hp => sh.mode_along _ p (beginBody_configures_data cfg body hp)
  rw [transactionLayout, Shadow.along_append]
  exact Shadow.along_endLayout _ ((hmode .clk (by decide)).trans hc) ((hmode .rst (by decide)).trans hr)

/-! ### A part that meets no `Err` is done -/

/-- The events that lead to a state are one list. -/
theorem Issues.events_unique {s t : State} {a b : List Event} (ha : Issues s t a) (hb : Issues s t b) : a = b :=
  List.append_cancel_left (ha.trace.symm.trans hb.trace)

theorem Issues.pins_eq_along {s t : State} {evs : List Event} (h : Issues s t evs) (hn : noErr evs = true) :
    t.pins = s.pins.along (evs.map Event.shape) := by
  rw [h.pins, Shadow.replay_eq_along _ _ hn]

/-- A part raises an error only at a pin call answered `Err` (00_scope.md R16, 60_exceptions.md R241). -/
def FailsAtErr {α : Type} (s : State) (x : Attempt α) : Prop :=
  ∃ evs, Issues s x.state evs ∧ (noErr evs = true → ∃ a t, x = .done a t)

theorem FailsAtErr.done {α : Type} {s : State} {x : Attempt α} {evs : List Event} (h : FailsAtErr s x)
    (hi : Issues s x.state evs) (hn : noErr evs = true) : ∃ a t, x = .done a t := by
  obtain ⟨evs', hi', hd⟩ := h
  exact hd (hi'.events_unique hi ▸ hn)

theorem Follows.failsAtErr {α : Type} {L : List Shape} {s : State} {x : Attempt α} (h : Follows L s x) : FailsAtErr s x := by
  cases x with
  | done a t =>
    obtain ⟨evs, he, -, -⟩ := h
    exact ⟨evs, he.toIssues, fun _ => ⟨a, t, rfl⟩⟩
  | failed e t =>
    obtain ⟨evs, c, he, -, -, -⟩ := h
    exact ⟨_, he.toIssues, fun hn => by rw [noErr_err] at hn; cases hn⟩

theorem runTransaction_failsAtErr (toBuf : Bool) (body : List ByteOp) (s : State) :
    FailsAtErr s (runTransaction toBuf body s) := by
  obtain ⟨evs, hi, hfit, -⟩ := runTransaction_fits toBuf body s
  refine ⟨evs, hi, fun hn => ?_⟩
  cases hx : runTransaction toBuf body s with
  | done bs t => exact ⟨bs, t, rfl⟩
  | failed e t =>
    obtain ⟨c, idx, pos, rfl⟩ := runTransaction_error _ _ _ _ _ hx
    rw [hx] at hfit
    obtain ⟨n, hfirst, -⟩ := hfit
    rw [(firstErr_none_iff evs).2 hn] at hfirst
    cases hfirst

theorem FailsAtErr.andThen {α β : Type} {s : State} {x : Attempt α} {f : α → State → Attempt β} (hx : FailsAtErr s x)
    (hf : ∀ a t, x = .done a t → FailsAtErr t (f a t)) : FailsAtErr s (x.andThen f) := by
  obtain ⟨evs, hi, hd⟩ := hx
  cases x with
  | failed e t =>
    refine ⟨evs, hi, fun hn => ?_⟩
    obtain ⟨a, u, h⟩ := hd hn
    cases h
  | done a t =>
    obtain ⟨evs', hi', hd'⟩ := hf a t rfl
    refine ⟨evs ++ evs', hi.append hi', fun hn => hd' ?_⟩
    rw [noErr_append, Bool.and_eq_true] at hn
    exact hn.2

/-! ### A transaction and the shadow -/

theorem runTransaction_pins {toBuf : Bool} {body : List ByteOp} {s t : State} {bs : List Byte}
    (h : runTransaction toBuf body s = .done bs t) : t.pins = s.pins.along (transactionLayout s.cfg body) := by
  obtain ⟨evs, hi, hn, hL, -⟩ := runTransaction_done toBuf body h
  rw [hi.pins_eq_along hn, hL]

/-- A transaction that is done leaves the pins at rest, where clock and CE are outputs. -/
theorem runTransaction_rests {toBuf : Bool} {body : List ByteOp} {s t : State} {bs : List Byte}
    (h : runTransaction toBuf body s = .done bs t) (hc : s.pins.clk.mode = .output) (hr : s.pins.rst.mode = .output) :
    t.pins = Shadow.resting := by
  rw [runTransaction_pins h, Shadow.along_transactionLayout _ _ _ hc hr]

/-! ### The shadow between host operations (10_state.md R46) -/

/-- `QuietShadow` of a block in READY, through the name of its pins. -/
theorem State.quietShadow_ready {s : State} (h : s.lifecycle = .ready) : s.QuietShadow ↔ s.pins = Shadow.resting := by
  unfold State.QuietShadow
  rw [h]
  rfl

/-- `QuietShadow` reads the lifecycle, the pins and init_attempted alone. -/
theorem State.QuietShadow.congr {s t : State} (h : s.QuietShadow) (hl : t.lifecycle = s.lifecycle) (hp : t.pins = s.pins)
    (hi : t.initAttempted = s.initAttempted) : t.QuietShadow := by
  unfold State.QuietShadow at h ⊢
  rw [hl, hp, hi]
  exact h

/-- How R46 wants every host operation to leave the block: the shadow quiet, no transaction open. -/
def State.Quiet (s : State) : Prop := s.QuietShadow ∧ s.txnOpen = false

theorem State.Quiet.congr {s t : State} (h : s.Quiet) (hl : t.lifecycle = s.lifecycle) (hp : t.pins = s.pins)
    (hi : t.initAttempted = s.initAttempted) (ht : t.txnOpen = s.txnOpen) : t.Quiet :=
  ⟨h.1.congr hl hp hi, ht.trans h.2⟩

/-- A run that meets no `Err` leaves a quiet block quiet. -/
def KeepsQuiet (run : State → Attempt Value) : Prop :=
  ∀ (s : State) (evs : List Event), s.Quiet → Issues s (run s).state evs → noErr evs = true → (run s).state.Quiet

theorem finishHost_quiet {x : Attempt Value} (h : x.state.Quiet) : (finishHost x).Quiet := by
  cases x <;> exact h.congr rfl rfl rfl rfl

/-- The events of a host operation are those of its run (the converse of `finishHost_issues`). -/
theorem issues_of_finishHost {op : Op} {s : State} {x : Attempt Value} {evs : List Event} (h : Issues s (finishHost x) evs) :
    Issues (s.startOp op) x.state evs := by
  have h' : Issues (s.startOp op) (finishHost x) evs := h.of_left rfl rfl rfl rfl
  cases x <;> exact h'.of_right rfl rfl rfl rfl

/-- A host operation whose run keeps the block quiet keeps R46. -/
theorem hostOp_quiet {op : Op} {run : State → Attempt Value} {s t : State} {evs : List Event} (hrun : KeepsQuiet run)
    (hq : s.QuietShadow) (h : hostOp op run s = .next t) (hi : Issues s t evs) (hn : noErr evs = true) : t.Quiet := by
  obtain ⟨-, htxn, rfl⟩ := hostOp_next h
  have hstart : (s.startOp op).Quiet := State.Quiet.congr ⟨hq, htxn⟩ rfl rfl rfl rfl
  exact finishHost_quiet (hrun _ evs hstart (issues_of_finishHost hi) hn)

/-- A part that ends on the state it is given reaches the state of the part before it. -/
theorem Attempt.andThen_state {α β : Type} {x : Attempt α} {f : α → State → Attempt β} (hf : ∀ a t, (f a t).state = t) :
    (x.andThen f).state = x.state := by
  cases x with
  | done a t => exact hf a t
  | failed e t => rfl

/-- A transaction in READY that meets no `Err` leaves the block as R46 says. -/
theorem runTransaction_quiet {toBuf : Bool} {body : List ByteOp} {s : State} {evs : List Event} (hr : s.lifecycle = .ready)
    (hq : s.Quiet) (hi : Issues s (runTransaction toBuf body s).state evs) (hn : noErr evs = true) :
    (runTransaction toBuf body s).state.Quiet := by
  have hsame := runTransaction_same toBuf body s
  obtain ⟨bs, t, hx⟩ := (runTransaction_failsAtErr toBuf body s).done hi hn
  rw [hx] at hsame ⊢
  have hpins : s.pins = Shadow.resting := (State.quietShadow_ready hr).1 hq.1
  have hrest : t.pins = Shadow.resting := runTransaction_rests hx (by rw [hpins]; rfl) (by rw [hpins]; rfl)
  exact ⟨(State.quietShadow_ready (hsame.lifecycle.trans hr)).2 hrest, hsame.txnOpen⟩

/-- So does a data operation past its gate: one transaction, and then no more events. -/
theorem transactionThen_quiet {toBuf : Bool} {body : List ByteOp} {s : State} {f : List Byte → State → Attempt Value}
    {evs : List Event} (hf : ∀ bs t, (f bs t).state = t) (hr : s.lifecycle = .ready) (hq : s.Quiet)
    (hi : Issues s ((runTransaction toBuf body s).andThen f).state evs) (hn : noErr evs = true) :
    ((runTransaction toBuf body s).andThen f).state.Quiet := by
  rw [Attempt.andThen_state hf] at hi ⊢
  exact runTransaction_quiet hr hq hi hn

theorem dataGate_ready {op : Op} {run : State → Attempt Value} {s : State} (h : s.lifecycle = .ready) :
    dataGate op run s = run s := by
  rw [dataGate, h]
  rfl

theorem dataGate_not_ready {op : Op} {run : State → Attempt Value} {s : State} (h : s.lifecycle ≠ .ready) :
    dataGate op run s = .failed (s.lifecycleError op) s := by
  unfold dataGate
  cases hl : s.lifecycle with
  | ready => exact absurd hl h
  | uninit => rfl
  | closed => rfl

/-- A gated run keeps the block quiet if it does so in READY: elsewhere the gate leaves the state as it is. -/
theorem dataGate_keepsQuiet {op : Op} {run : State → Attempt Value}
    (hrun : ∀ (s : State) (evs : List Event), s.lifecycle = .ready → s.Quiet → Issues s (run s).state evs → noErr evs = true →
      (run s).state.Quiet) : KeepsQuiet (dataGate op run) := by
  intro s evs hq hi hn
  by_cases hready : s.lifecycle = .ready
  · rw [dataGate_ready hready] at hi ⊢
    exact hrun s evs hready hq hi hn
  · rw [dataGate_not_ready hready]
    exact hq

theorem readDatetime_keepsQuiet : KeepsQuiet (dataGate .readDatetime runReadDatetime) :=
  dataGate_keepsQuiet fun _ _ hr hq hi hn =>
    transactionThen_quiet (fun _ t => by cases frameDecode (frameOfBuf t.buf) <;> rfl) hr (hq.congr rfl rfl rfl rfl)
      (hi.of_left rfl rfl rfl rfl) hn

theorem writeDatetime_keepsQuiet (cv : Calendar) : KeepsQuiet (dataGate .writeDatetime (runWriteDatetime cv)) := by
  refine dataGate_keepsQuiet fun s evs hr hq hi hn => ?_
  unfold runWriteDatetime at hi ⊢
  cases hf : frameEncode cv with
  | error e => exact hq.congr rfl rfl rfl rfl
  | ok f =>
    rw [hf] at hi
    exact transactionThen_quiet (fun _ _ => rfl) hr (hq.congr rfl rfl rfl rfl) (hi.of_left rfl rfl rfl rfl) hn

theorem readRam_keepsQuiet : KeepsQuiet (dataGate .readRam runReadRam) :=
  dataGate_keepsQuiet fun _ _ hr hq hi hn =>
    transactionThen_quiet (fun _ _ => rfl) hr (hq.congr rfl rfl rfl rfl) (hi.of_left rfl rfl rfl rfl) hn

theorem writeRam_keepsQuiet (block : List Byte) : KeepsQuiet (dataGate .writeRam (runWriteRam block)) :=
  dataGate_keepsQuiet fun _ _ hr hq hi hn =>
    transactionThen_quiet (fun _ _ => rfl) hr (hq.congr rfl rfl rfl rfl) (hi.of_left rfl rfl rfl rfl) hn

theorem runInitSequence_failsAtErr (s : State) : FailsAtErr s.markInit (runInitSequence s) :=
  (Follows.pinCall _ _).failsAtErr.andThen fun _ _ _ =>
    (runTransaction_failsAtErr _ _ _).andThen fun _ _ _ =>
      (runTransaction_failsAtErr _ _ _).andThen fun _ t _ => ⟨[], (Issues.nil t).of_right rfl rfl rfl rfl, fun _ => ⟨_, _, rfl⟩⟩

/-- INIT's sequence that is done ends in READY with the pins at rest, whatever they were (44_lifecycle.md R220). -/
theorem runInitSequence_done {s t : State} {v : Value} (h : runInitSequence s = .done v t) :
    t.lifecycle = .ready ∧ t.pins = Shadow.resting ∧ t.txnOpen = false := by
  obtain ⟨hok, h1⟩ := callThen_done h
  rw [Env.answer_ok hok fun _ => rfl] at h1
  obtain ⟨_, u, hu, h2⟩ := Attempt.andThen_done h1
  obtain ⟨_, w, hw, h3⟩ := Attempt.andThen_done h2
  obtain ⟨-, rfl⟩ := Attempt.done.inj h3
  have hupins : u.pins = Shadow.resting := runTransaction_rests hu rfl rfl
  have hwpins : w.pins = Shadow.resting := runTransaction_rests hw (by rw [hupins]; rfl) (by rw [hupins]; rfl)
  have hsame := runTransaction_same false (writeFormat .tcWrite [0x00#8]) u
  rw [hw] at hsame
  exact ⟨rfl, hwpins, hsame.txnOpen⟩

theorem runInit_keepsQuiet : KeepsQuiet runInit := by
  intro s evs hq hi hn
  unfold runInit at hi ⊢
  split at hi
  next hpermits =>
    obtain ⟨v, t, hx⟩ := (runInitSequence_failsAtErr s).done (hi.of_left rfl rfl rfl rfl) hn
    obtain ⟨hready, hpins, htxn⟩ := runInitSequence_done hx
    rw [if_pos hpermits, hx]
    exact ⟨(State.quietShadow_ready hready).2 hpins, htxn⟩
  next hpermits =>
    rw [if_neg hpermits]
    exact hq

theorem runTeardown_keepsQuiet : KeepsQuiet runTeardown := by
  intro s evs hq hi hn
  unfold runTeardown at hi ⊢
  split at hi
  next hclosed =>
    rw [if_pos hclosed]
    exact hq
  next hclosed =>
    have hfails : FailsAtErr s.becomeClosed
        (callThen (.rel [.clk, .data, .rst]) s.becomeClosed fun t => .done Value.none t) :=
      (Follows.callThen _ _ _ fun t _ => Follows.done_nil _ t).failsAtErr
    obtain ⟨v, t, hx⟩ := hfails.done (hi.of_left rfl rfl rfl rfl) hn
    obtain ⟨hok, hend⟩ := callThen_done hx
    rw [Env.answer_ok hok fun _ => rfl] at hend
    obtain ⟨-, rfl⟩ := Attempt.done.inj hend
    rw [if_neg hclosed, hx]
    exact ⟨rfl, hq.2⟩

/-- Settles O51: reset is quiet, and each host operation that meets no `Err` runs to the shadow R46 gives its lifecycle. -/
theorem quietShadowIsKept : Obligations.QuietShadowIsKept := by
  refine ⟨⟨rfl, rfl⟩, fun i s t evs hop hq h hi hn => ?_⟩
  cases i with
  | init => exact hostOp_quiet runInit_keepsQuiet hq h hi hn
  | readDatetime => exact hostOp_quiet readDatetime_keepsQuiet hq h hi hn
  | writeDatetime cv => exact hostOp_quiet (writeDatetime_keepsQuiet cv) hq h hi hn
  | readRam => exact hostOp_quiet readRam_keepsQuiet hq h hi hn
  | writeRam block => exact hostOp_quiet (writeRam_keepsQuiet block) hq h hi hn
  | teardown => exact hostOp_quiet runTeardown_keepsQuiet hq h hi hn
  | _ => cases hop

/-! ### Completion under an ideal capability (20_memory.md R88) -/

/-- What a transaction from `s` to `t` that meets no `Err` did: the events of its layout, the bytes of its GET levels, in BUF
where asked, PIN_DATA released, and nothing else touched but the transfer registers. -/
structure TransactionDone (toBuf : Bool) (body : List ByteOp) (s : State) (bs : List Byte) (t : State) (evs : List Event) :
    Prop where
  run : runTransaction toBuf body s = .done bs t
  issues : Issues s t evs
  clean : noErr evs = true
  layout : evs.map Event.shape = transactionLayout s.cfg body
  length : evs.length = 5 + 41 * body.length
  bytes : bs = bytesOfLevels (getLevels evs)
  reads : bs.length = readsOf body
  buf : t.buf = if toBuf then storeFrom 0 bs s.buf else s.buf
  data : t.pins.data = { mode := .input, lvl := .x }
  same : SameButTransfer (s.closeTxn.setBuf t.buf) t

theorem transactionDone_of_ideal (toBuf : Bool) (body : List ByteOp) (s : State)
    (hideal : s.env.idealFor (callCount (transactionLayout s.cfg body)) = true) :
    ∃ bs t evs, TransactionDone toBuf body s bs t evs := by
  obtain ⟨bs, t, hx⟩ := runTransaction_ideal toBuf body s hideal
  obtain ⟨evs, hi, hn, hL, hbytes, hreads, hbuf⟩ := runTransaction_done toBuf body hx
  have hsame := runTransaction_same toBuf body s
  rw [hx] at hsame
  have hlen : evs.length = 5 + 41 * body.length := by
    rw [← List.length_map (f := Event.shape), hL, transactionLayout_length]
  have hdata : t.pins.data = { mode := .input, lvl := .x } := by
    rw [runTransaction_pins hx, Shadow.along_transactionLayout_data]
  exact ⟨bs, t, evs, hx, hi, hn, hL, hlen, hbytes, hreads, hbuf, hdata, hsame⟩

/-- A host operation whose run from an idle block is done, by the events of its layout and no `Err`, completes. -/
theorem completes_of_run_done {i : Instr} {op : Op} {run : State → Attempt Value} {s t : State} {v : Value}
    {evs : List Event} (hexec : exec i s = hostOp op run s) (hidle : s.Idle) (hrun : run (s.startOp op) = .done v t)
    (hi : Issues (s.startOp op) t evs) (hL : evs.map Event.shape = eventLayout s.cfg i) (hn : noErr evs = true) :
    Completes i s (t.complete v) evs where
  next := by rw [hexec, hostOp_idle hidle, hrun]; rfl
  issues := finishHost_issues (x := .done v t) hi
  layout := hL
  clean := hn
  seq := rfl

/-- WRITE_RAM past its gate: the first 31 bytes go to BUF, and from there to the transaction (43_register_codec.md R193). -/
theorem runWriteRam_eq (block : List Byte) (s : State) :
    runWriteRam block s =
      (runTransaction false ((0xFE#8 :: block.take 31).map .wr) (s.beginBuf.storeBuf (block.take 31))).andThen fun _ t =>
        .done (.truncated (decide (31 < block.length))) t := by
  rw [runWriteRam, ramBytes_storeBuf]
  rfl

/-- Settles O37: past its gate WRITE_RAM is the transaction FE and the first 31 bytes, which an ideal capability lets run to
its end. -/
theorem writeRamCompletes : Obligations.WriteRamCompletes := by
  intro block s hidle hready hideal
  obtain ⟨bs, t, evs, h⟩ := transactionDone_of_ideal false ((0xFE#8 :: block.take 31).map .wr)
    ((s.startOp .writeRam).beginBuf.storeBuf (block.take 31)) hideal
  have hrun : dataGate .writeRam (runWriteRam block) (s.startOp .writeRam) =
      .done (.truncated (decide (31 < block.length))) t := by
    rw [dataGate_ready (s := s.startOp .writeRam) hready, runWriteRam_eq, h.run]
    rfl
  have hissues : Issues (s.startOp .writeRam) t evs := h.issues.of_left rfl rfl rfl rfl
  have hcompletes := completes_of_run_done (i := .writeRam block) rfl hidle hrun hissues h.layout h.clean
  have hlen : evs.length = 46 + 41 * min block.length 31 := by
    rw [h.length, List.length_map, List.length_cons, List.length_take]
    omega
  have hbuf : t.buf = storeFrom 0 (block.take 31) (unspecifiedBuf s.opCount) := h.buf
  have hbuflen : t.buf.length = 31 := by
    rw [hbuf, storeFrom_length]
    exact unspecifiedBuf_length _
  have htake : t.buf.take (min block.length 31) = block.take 31 := by
    rw [hbuf, Nat.min_comm, ← List.length_take]
    refine storeFrom_take _ _ ?_
    rw [List.length_take, unspecifiedBuf_length]
    exact Nat.min_le_left _ _
  have hframe : HostFrame s (t.complete (.truncated (decide (31 < block.length)))) :=
    ⟨h.same.cfg, h.same.txnOpen.trans hidle.2.symm, h.same.returned, h.same.requests⟩
  exact ⟨_, evs, hcompletes, hlen, h.layout, hbuflen, htake, rfl, h.data, h.same.lifecycle.trans hready,
    h.same.initAttempted, hframe⟩

end Sys2Proof.Machine
end

section
/-! PROOF. The command set: which bytes are a command, and what their bits say (30_encoding.md R90 to R98). -/

namespace Sys2Proof

/-- A byte is read as a command exactly when it is that command's byte (R98, R99). -/
theorem Command.ofByte_eq_some_iff {b : Byte} {c : Command} : Command.ofByte b = some c ↔ b = c.code :=
  ⟨Command.ofByte_some, fun h => h ▸ Command.ofByte_code c⟩

theorem Command.mem_all (c : Command) : c ∈ Command.all := by cases c <;> decide

/-- The bytes read as some command are the codes of the commands, and no other (R98). -/
theorem Command.isSome_ofByte_iff (b : Byte) : (Command.ofByte b).isSome = true ↔ b ∈ Command.all.map Command.code := by
  rw [Option.isSome_iff_exists, List.mem_map]
  constructor
  · rintro ⟨c, h⟩
    exact ⟨c, c.mem_all, (Command.ofByte_some h).symm⟩
  · rintro ⟨c, -, rfl⟩
    exact ⟨c, c.ofByte_code⟩

/-- The mask 0xFF takes all 8 bits of a byte (R98). -/
theorem Byte.and_fullMask (b : Byte) : b &&& 0xFF#8 = b := BitVec.and_allOnes

/-- Bit 7 of every command byte is 1 (R98). -/
theorem Command.bit7_code (c : Command) : Machine.bitAt c.code 7 = true := by cases c <;> rfl

end Sys2Proof

namespace Sys2Proof.Machine

/-- Settles O2: decoding inverts `Command.code`, so the commands' bytes are the set R98 lists; the pattern of the bits is read
off the table. -/
theorem commandSetIsTheEight : Obligations.CommandSetIsTheEight := by
  refine ⟨Command.isSome_ofByte_iff, fun b c => ?_, Command.bit7_code, ?readBit, ?writeBit, ?pairs⟩
  · rw [Byte.and_fullMask, Command.ofByte_eq_some_iff]
  case readBit => decide
  case writeBit => decide
  case pairs => decide

end Sys2Proof.Machine
end

section
/-! PROOF. The Transaction Framer: a transaction that meets no `Err` keeps its clock edges inside CE (40_transaction_framer.md
R123), and PIN_DATA is an input when CE drops (10_state.md R47). -/

namespace Sys2Proof.Machine

/-! ### Events that a pin does not see -/

/-- The pins an event of this shape names (60_exceptions.md R257). -/
def Shape.named : Shape → List Pin
  | .call c => c.pins
  | .wait _ => []

/-- An event leaves a pin that it does not name as it is, whatever is answered. -/
theorem Shadow.at_afterEvent_of_not_named (sh : Shadow) (e : Event) {p : Pin} (h : p ∉ e.shape.named) :
    (sh.afterEvent e).at p = sh.at p := by
  cases e with
  | wait t => rfl
  | call c r =>
    have hput : ∀ v, (sh.putAll v c.pins).at p = sh.at p := fun v => (Shadow.at_putAll _ _ _ _).trans (if_neg h)
    by_cases hr : r = .err
    · exact (congrArg (Shadow.at · p) (if_pos hr)).trans (hput _)
    · refine (congrArg (Shadow.at · p) (if_neg hr)).trans ?_
      cases c with
      | cfg ps d l => cases d <;> exact hput _
      | set q l => exact sh.at_onOk_set_of_ne l (List.ne_of_not_mem_cons h)
      | get q => rfl
      | rel ps => exact hput _

theorem Shadow.at_replay_of_not_named (sh : Shadow) (evs : List Event) {p : Pin} (h : ∀ e ∈ evs, p ∉ e.shape.named) :
    (sh.replay evs).at p = sh.at p := by
  induction evs generalizing sh with
  | nil => rfl
  | cons e evs ih =>
    obtain ⟨he, hevs⟩ := List.forall_mem_cons.1 h
    exact (ih _ hevs).trans (sh.at_afterEvent_of_not_named e he)

/-- No byte of a body names PIN_RST (41_bit_transport.md R140, R141). -/
theorem byteLayout_not_named_rst (cfg : Config) (b : ByteOp) : ∀ x ∈ byteLayout cfg b, Pin.rst ∉ x.named := by
  cases b with
  | wr v => simp [byteLayout, writeByteLayout, writeCellLayout, byteBits, Shape.named, Call.pins]
  | rd => simp [byteLayout, readByteLayout, readCellLayout, Shape.named, Call.pins]

/-- A SET of an output that is answered `Ok` gives it the level (10_state.md R40). -/
theorem Shadow.at_onOk_set_of_output (sh : Shadow) {p : Pin} (l : Bool) (h : (sh.at p).mode = .output) :
    (sh.onOk (.set p l)).at p = { mode := .output, lvl := Level.ofBool l } := by
  rw [Shadow.onOk, if_pos h, Shadow.at_put, if_pos rfl]

/-! ### Framed events -/

/-- What R123 and R47 want of an event that finds the pins at `sh`: a clock edge finds CE at 1, and `SET(PIN_RST, 0)` finds
PIN_DATA an input. -/
def Shadow.Frames (sh : Shadow) (e : Event) : Prop :=
  (∀ x, edgeOf sh e = some x → sh.ce = .high) ∧ (∀ r, e = .call (.set .rst false) r → sh.data.mode = .input)

/-- Every event of a list is framed where it happens. -/
def Framed : Shadow → List Event → Prop
  | _, [] => True
  | sh, e :: es => sh.Frames e ∧ Framed (sh.afterEvent e) es

theorem Framed.append {sh : Shadow} {a b : List Event} (ha : Framed sh a) (hb : Framed (sh.replay a) b) :
    Framed sh (a ++ b) := by
  induction a generalizing sh with
  | nil => exact hb
  | cons e a ih => exact ⟨ha.1, ih ha.2 hb⟩

theorem Framed.getElem? {sh : Shadow} {evs : List Event} (h : Framed sh evs) {k : Nat} {e : Event} (he : evs[k]? = some e) :
    (sh.replay (evs.take k)).Frames e := by
  induction evs generalizing sh k with
  | nil => cases he
  | cons x evs ih =>
    obtain ⟨hx, hevs⟩ := h
    cases k with
    | zero => cases he; exact hx
    | succ k => exact ih hevs he

/-- While CE is 1, events that do not name PIN_RST are framed. -/
theorem Framed.of_ce_high {sh : Shadow} {evs : List Event} (hce : sh.ce = .high) (h : ∀ e ∈ evs, Pin.rst ∉ e.shape.named) :
    Framed sh evs := by
  induction evs generalizing sh with
  | nil => trivial
  | cons e evs ih =>
    obtain ⟨he, hevs⟩ := List.forall_mem_cons.1 h
    refine ⟨⟨fun _ _ => hce, ?_⟩, ih ?_ hevs⟩
    · rintro r rfl
      exact absurd (List.mem_singleton_self _) he
    · exact (congrArg PinShadow.lvl (sh.at_afterEvent_of_not_named e he)).trans hce

/-- Entry k of the edges is the edge of event k, at the shadow it finds. -/
theorem edges_getElem? (sh : Shadow) (evs : List Event) (k : Nat) :
    (edges sh evs)[k]? = evs[k]?.map (edgeOf (sh.replay (evs.take k))) := by
  induction evs generalizing sh k with
  | nil => rfl
  | cons e evs ih =>
    cases k with
    | zero => rfl
    | succ k => exact ih _ k

/-- Framed events, read off by their index. -/
theorem Framed.edges_and_drops {sh : Shadow} {evs : List Event} (h : Framed sh evs) :
    (∀ k x, (edges sh evs)[k]? = some (some x) → (sh.replay (evs.take k)).ce = .high) ∧
    (∀ k r, evs[k]? = some (.call (.set .rst false) r) → (sh.replay (evs.take k)).data.mode = .input) := by
  refine ⟨fun k x hk => ?_, fun k r hk => (h.getElem? hk).2 r rfl⟩
  rw [edges_getElem?, Option.map_eq_some_iff] at hk
  obtain ⟨e, he, hx⟩ := hk
  exact (h.getElem? he).1 x hx

/-! ### The events of a transaction that meets no `Err` -/

/-- BEGIN, answered `Ok` (40_transaction_framer.md R120). -/
def beginAnswered : List Event := [.call (.set .clk false) .ok, .call (.set .rst true) .ok]

/-- END before CE drops, answered `Ok` (R121). -/
def releaseAnswered : List Event := [.call (.cfg [.data] .input none) .ok, .call (.set .clk false) .ok]

/-- END's last event, answered `Ok`. -/
def dropAnswered : Event := .call (.set .rst false) .ok

/-- A transaction around the events of its body. -/
def transactionAround (mid : List Event) : List Event := beginAnswered ++ (mid ++ releaseAnswered ++ [dropAnswered])

/-- Calls other than GETs, none answered `Err`, are answered `Ok` (00_scope.md R16). -/
theorem Env.gave_eq_ok {e : Env} {sh : Shadow} {evs : List Event} (cs : List Call) (hcs : ∀ c ∈ cs, ∀ l, c.okWith l = .ok)
    (hg : e.gave sh evs = true) (hn : noErr evs = true) (hs : evs.map Event.shape = cs.map Shape.call) :
    evs = cs.map (Event.call · .ok) := by
  induction cs generalizing e sh evs with
  | nil => exact List.map_eq_nil_iff.1 hs
  | cons c cs ih =>
    obtain ⟨x, evs, rfl, hx, hrest⟩ := List.map_eq_cons_iff.1 hs
    obtain ⟨hc, hcs⟩ := List.forall_mem_cons.1 hcs
    cases x with
    | wait t => cases hx
    | call c' r =>
      cases hx
      simp only [Env.gave, Bool.and_eq_true, decide_eq_true_eq] at hg
      obtain ⟨rfl, hg⟩ := hg
      have hne : e.answer c ≠ .err := fun h => by rw [h] at hn; cases hn
      rw [noErr, List.all_cons, Bool.and_eq_true] at hn
      rw [Env.answer_ok hne hc, ih hcs hg hn.2 hrest]
      rfl

/-- Events of a transaction's layout, none answered `Err`: BEGIN and END answered `Ok`, around the body's. -/
theorem transaction_events {e : Env} {sh : Shadow} {cfg : Config} {body : List ByteOp} {evs : List Event}
    (hg : e.gave sh evs = true) (hn : noErr evs = true) (hL : evs.map Event.shape = transactionLayout cfg body) :
    ∃ mid, evs = transactionAround mid ∧ mid.map Event.shape = body.flatMap (byteLayout cfg) := by
  obtain ⟨pre, fin, rfl, hpre, hfin⟩ := List.map_eq_append_iff.1 hL
  obtain ⟨beg, mid, rfl, hbeg, hmid⟩ := List.map_eq_append_iff.1 hpre
  simp only [Env.gave_append, noErr_append, Bool.and_eq_true] at hg hn
  obtain ⟨⟨gbeg, -⟩, gfin⟩ := hg
  obtain ⟨⟨nbeg, -⟩, nfin⟩ := hn
  have ebeg : beg = beginAnswered :=
    Env.gave_eq_ok [.set .clk false, .set .rst true] (by simp [Call.okWith]) gbeg nbeg hbeg
  have efin : fin = releaseAnswered ++ [dropAnswered] := Env.gave_eq_ok endCalls (by simp [endCalls, Call.okWith]) gfin nfin hfin
  refine ⟨mid, ?_, hmid⟩
  rw [ebeg, efin, transactionAround, List.append_assoc, List.append_assoc]

/-- The body and END before CE drops do not name PIN_RST. -/
theorem inside_not_named_rst {cfg : Config} {body : List ByteOp} {mid : List Event}
    (hmid : mid.map Event.shape = body.flatMap (byteLayout cfg)) :
    ∀ e ∈ mid ++ releaseAnswered, Pin.rst ∉ e.shape.named := by
  intro e he
  obtain he | he := List.mem_append.1 he
  · have hx : e.shape ∈ body.flatMap (byteLayout cfg) := hmid ▸ List.mem_map_of_mem he
    obtain ⟨b, -, hb⟩ := List.mem_flatMap.1 hx
    exact byteLayout_not_named_rst cfg b _ hb
  · have hrelease : ∀ x ∈ releaseAnswered, Pin.rst ∉ x.shape.named := by
      simp [releaseAnswered, Event.shape, Shape.named, Call.pins]
    exact hrelease e he

/-- BEGIN brings CE to 1 where it is an output. -/
theorem beginAnswered_ce {sh : Shadow} (hr : sh.rst.mode = .output) : (sh.replay beginAnswered).ce = .high :=
  congrArg PinShadow.lvl (Shadow.at_onOk_set_of_output _ (p := .rst) true ((sh.mode_onOk_set .rst .clk false).trans hr))

/-- END switches PIN_DATA to input before CE drops (10_state.md R47). -/
theorem releaseAnswered_data (sh : Shadow) : (sh.replay releaseAnswered).data.mode = .input :=
  Shadow.mode_onOk_set (sh.onOk (.cfg [.data] .input none)) .data .clk false

/-- No edge of SCLK comes from a SET to 0 of a clock that is not at 1 (10_state.md R39). -/
theorem edgeOf_set_clk_low {sh : Shadow} (hc : sh.clk.lvl ≠ .high) (r : Response) :
    edgeOf sh (.call (.set .clk false) r) = none :=
  if_neg fun h => hc h.2

/-- How a transaction must find the pins for its frame to hold: CE an output, and the clock not at 1. -/
def Shadow.TransactionReady (sh : Shadow) : Prop := sh.rst.mode = .output ∧ sh.clk.lvl ≠ .high

/-- A transaction that meets no `Err` is framed. -/
theorem transactionAround_framed {sh : Shadow} {cfg : Config} {body : List ByteOp} {mid : List Event} (hsh : sh.TransactionReady)
    (hmid : mid.map Event.shape = body.flatMap (byteLayout cfg)) : Framed sh (transactionAround mid) := by
  have hbegin : Framed sh beginAnswered := by
    refine ⟨⟨fun x hx => ?_, nofun⟩, ⟨nofun, nofun⟩, trivial⟩
    rw [edgeOf_set_clk_low hsh.2] at hx
    cases hx
  have hinside : Framed (sh.replay beginAnswered) (mid ++ releaseAnswered) :=
    .of_ce_high (beginAnswered_ce hsh.1) (inside_not_named_rst hmid)
  have hdrop : Framed ((sh.replay beginAnswered).replay (mid ++ releaseAnswered)) [dropAnswered] := by
    refine ⟨⟨nofun, fun _ _ => ?_⟩, trivial⟩
    rw [Shadow.replay_append]
    exact releaseAnswered_data _
  exact hbegin.append (hinside.append hdrop)

theorem transactionAround_length (mid : List Event) : (transactionAround mid).length = mid.length + 5 := by
  simp [transactionAround, beginAnswered, releaseAnswered, dropAnswered]

/-- END's events stand behind BEGIN's two and the body's. -/
theorem transactionAround_getElem?_end (mid : List Event) (j : Nat) :
    (transactionAround mid)[mid.length + 2 + j]? = (releaseAnswered ++ [dropAnswered])[j]? := by
  have hsplit : transactionAround mid = (beginAnswered ++ mid) ++ (releaseAnswered ++ [dropAnswered]) := by
    simp only [transactionAround, List.append_assoc]
  have hlen : (beginAnswered ++ mid).length = mid.length + 2 := by rw [List.length_append, Nat.add_comm]; rfl
  rw [hsplit, List.getElem?_append_right (by omega)]
  congr 1
  omega

theorem transactionAround_getElem?_last (mid : List Event) :
    (transactionAround mid)[mid.length + 4]? = some dropAnswered := transactionAround_getElem?_end mid 2

/-- Every clock edge lies strictly between `SET(PIN_RST, 1)` and `SET(PIN_RST, 0)` (R123). -/
theorem transactionAround_edge_between {sh : Shadow} {mid : List Event} (hc : sh.clk.lvl ≠ .high) {k : Nat} {x : Edge}
    (hk : (edges sh (transactionAround mid))[k]? = some (some x)) : 1 < k ∧ k < mid.length + 4 := by
  rw [edges_getElem?, Option.map_eq_some_iff] at hk
  obtain ⟨e, he, hx⟩ := hk
  have hlt : k < mid.length + 5 := transactionAround_length mid ▸ (List.getElem?_eq_some_iff.1 he).1
  have h0 : k ≠ 0 := by
    rintro rfl
    cases he
    cases hx.symm.trans (edgeOf_set_clk_low hc .ok)
  have h1 : k ≠ 1 := by
    rintro rfl
    cases he
    cases hx
  have hlast : k ≠ mid.length + 4 := by
    rintro rfl
    cases he.symm.trans (transactionAround_getElem?_last mid)
    cases hx
  omega

/-- From `SET(PIN_RST, 1)` to `SET(PIN_RST, 0)` CE is 1 (R123). -/
theorem transactionAround_ce {sh : Shadow} {cfg : Config} {body : List ByteOp} {mid : List Event} (hr : sh.rst.mode = .output)
    (hmid : mid.map Event.shape = body.flatMap (byteLayout cfg)) {k : Nat} (h2 : 2 ≤ k) (hk : k < mid.length + 5) :
    (sh.replay ((transactionAround mid).take k)).ce = .high := by
  obtain ⟨j, rfl⟩ := Nat.exists_eq_add_of_le h2
  have hlen : (mid ++ releaseAnswered).length = mid.length + 2 := List.length_append
  have htake : (transactionAround mid).take (2 + j) = beginAnswered ++ (mid ++ releaseAnswered).take j := by
    rw [transactionAround, show 2 + j = beginAnswered.length + j from rfl, List.take_length_add_append,
      List.take_append_of_le_length (by omega)]
  have hstays : ∀ e ∈ (mid ++ releaseAnswered).take j, Pin.rst ∉ e.shape.named := fun e he =>
    inside_not_named_rst hmid e (List.mem_of_mem_take he)
  rw [htake, Shadow.replay_append]
  exact (congrArg PinShadow.lvl (Shadow.at_replay_of_not_named _ _ hstays)).trans (beginAnswered_ce hr)

/-! ### The events of an operation made of one transaction -/

/-- A part that meets no `Err` issues nothing, or the events of a layout. -/
def IssuesWhenClean {α : Type} (L : List Shape) (s : State) (x : Attempt α) : Prop :=
  ∀ evs, Issues s x.state evs → noErr evs = true → evs = [] ∨ evs.map Event.shape = L

/-- Where the trace stands, no event was issued. -/
theorem Issues.eq_nil {s t : State} {evs : List Event} (h : Issues s t evs) (ht : t.trace = s.trace) : evs = [] :=
  List.append_right_eq_self.1 (h.trace.symm.trans ht)

/-- A transaction that meets no `Err` issued the events of its layout. -/
theorem runTransaction_layout {toBuf : Bool} {body : List ByteOp} {s : State} {evs : List Event}
    (hi : Issues s (runTransaction toBuf body s).state evs) (hn : noErr evs = true) :
    evs.map Event.shape = transactionLayout s.cfg body := by
  obtain ⟨bs, t, hx⟩ := (runTransaction_failsAtErr toBuf body s).done hi hn
  obtain ⟨evs', hi', -, hL, -⟩ := runTransaction_done toBuf body hx
  rw [hx] at hi
  rw [hi.events_unique hi', hL]

/-- One transaction, and then no more events. -/
theorem transactionThen_clean {α : Type} {toBuf : Bool} {body : List ByteOp} {s : State} {f : List Byte → State → Attempt α}
    (hf : ∀ bs t, (f bs t).state = t) :
    IssuesWhenClean (transactionLayout s.cfg body) s ((runTransaction toBuf body s).andThen f) := by
  intro evs hi hn
  rw [Attempt.andThen_state hf] at hi
  exact .inr (runTransaction_layout hi hn)

/-- A change of the state that events do not read, first. -/
theorem IssuesWhenClean.of_left {α : Type} {L : List Shape} {s s' : State} {x : Attempt α} (h : IssuesWhenClean L s' x)
    (ht : s.trace = s'.trace) (hp : s.pins = s'.pins) (he : s.env = s'.env) (hc : s.cfg = s'.cfg) : IssuesWhenClean L s x :=
  fun evs hi hn => h evs (hi.of_left ht hp he hc) hn

/-- The gate of a data operation issues nothing. -/
theorem dataGate_clean {L : List Shape} {op : Op} {run : State → Attempt Value} {s : State}
    (h : IssuesWhenClean L s (run s)) : IssuesWhenClean L s (dataGate op run s) := by
  by_cases hready : s.lifecycle = .ready
  · rwa [dataGate_ready hready]
  · rw [dataGate_not_ready hready]
    exact fun evs hi _ => .inl (hi.eq_nil rfl)

theorem hostOp_clean {L : List Shape} {op : Op} {run : State → Attempt Value} {s t : State} {evs : List Event}
    (hrun : IssuesWhenClean L (s.startOp op) (run (s.startOp op))) (h : hostOp op run s = .next t) (hi : Issues s t evs)
    (hn : noErr evs = true) : evs = [] ∨ evs.map Event.shape = L := by
  obtain ⟨-, -, rfl⟩ := hostOp_next h
  exact hrun evs (issues_of_finishHost hi) hn

/-- The events of a harness's invocation are those of its run (the converse of `finishHarness_issues`). -/
theorem issues_of_finishHarness {op : Op} {s : State} {x : Attempt Returned} {evs : List Event}
    (h : Issues s (finishHarness x) evs) : Issues (s.startOp op) x.state evs := by
  have h' : Issues (s.startOp op) (finishHarness x) evs := h.of_left rfl rfl rfl rfl
  cases x <;> exact h'.of_right rfl rfl rfl rfl

/-- A transaction a harness invokes. -/
theorem harnessTransaction_clean {op : Op} {body : List ByteOp} {s t : State} {evs : List Event}
    (h : harnessTransaction op (fun s => (runTransaction false body s).andThen fun bs t => .done (.bytes bs) t) s = .next t)
    (hi : Issues s t evs) (hn : noErr evs = true) : evs = [] ∨ evs.map Event.shape = transactionLayout s.cfg body := by
  obtain ⟨-, -, rfl⟩ := harnessTransaction_next h
  exact transactionThen_clean (s := s.startOp op) (fun _ _ => rfl) evs (issues_of_finishHarness hi) hn

theorem runReadDatetime_clean (s : State) :
    IssuesWhenClean (transactionLayout s.cfg (.wr 0xBF#8 :: List.replicate 7 .rd)) s (runReadDatetime s) :=
  (transactionThen_clean (s := s.beginBuf) fun _ t => by cases frameDecode (frameOfBuf t.buf) <;> rfl).of_left rfl rfl rfl rfl

theorem runReadRam_clean (s : State) :
    IssuesWhenClean (transactionLayout s.cfg (.wr 0xFF#8 :: List.replicate 31 .rd)) s (runReadRam s) :=
  (transactionThen_clean (s := s.beginBuf) fun _ _ => rfl).of_left rfl rfl rfl rfl

theorem runWriteRam_clean (block : List Byte) (s : State) :
    IssuesWhenClean (transactionLayout s.cfg ((0xFE#8 :: block.take 31).map .wr)) s (runWriteRam block s) := by
  rw [runWriteRam_eq]
  exact (transactionThen_clean (s := s.beginBuf.storeBuf (block.take 31)) fun _ _ => rfl).of_left rfl rfl rfl rfl

/-- WRITE_DATETIME past its gate, of a value FRAME_ENC takes (43_register_codec.md R191). -/
theorem runWriteDatetime_ok {cv : Calendar} {f : Frame} (hf : frameEncode cv = .ok f) (s : State) :
    runWriteDatetime cv s =
      (runTransaction false ((0xBE#8 :: (f.toList ++ [s.cfg.padByte, s.cfg.padByte])).map .wr)
        (s.beginBuf.storeBuf f.toList)).andThen fun _ t => .done .none t := by
  rw [runWriteDatetime, hf]
  simp only [datetimeBytes_storeBuf]
  rfl

theorem runWriteDatetime_error {cv : Calendar} {e : OpError} (hf : frameEncode cv = .error e) (s : State) :
    runWriteDatetime cv s = .failed e s.beginBuf := by
  rw [runWriteDatetime, hf]

theorem runWriteDatetime_clean (cv : Calendar) (s : State) :
    IssuesWhenClean (layoutOfBody s.cfg (bodyOf s.cfg (.writeDatetime cv))) s (runWriteDatetime cv s) := by
  cases hf : frameEncode cv with
  | error e =>
    rw [runWriteDatetime_error hf]
    exact fun evs hi _ => .inl (hi.eq_nil rfl)
  | ok f =>
    rw [runWriteDatetime_ok hf, bodyOf, hf]
    exact (transactionThen_clean (s := s.beginBuf.storeBuf f.toList) fun _ _ => rfl).of_left rfl rfl rfl rfl

/-- The operations made of at most one transaction: all that start alone but INIT and TEARDOWN. -/
def isOneTransaction (i : Instr) : Bool := startsAlone i && decide (i ≠ .init) && decide (i ≠ .teardown)

/-- Such an operation that meets no `Err` issues nothing, or the transaction of its body (30_encoding.md R100, R101). -/
theorem oneTransaction_clean {i : Instr} {s t : State} {evs : List Event} (hone : isOneTransaction i = true)
    (h : exec i s = .next t) (hi : Issues s t evs) (hn : noErr evs = true) :
    evs = [] ∨ evs.map Event.shape = layoutOfBody s.cfg (bodyOf s.cfg i) := by
  cases i with
  | cmdWpRead => exact harnessTransaction_clean h hi hn
  | cmdWpWrite d => exact harnessTransaction_clean h hi hn
  | cmdTcRead => exact harnessTransaction_clean h hi hn
  | cmdTcWrite d => exact harnessTransaction_clean h hi hn
  | cmdClockBurstRead => exact harnessTransaction_clean h hi hn
  | cmdClockBurstWrite f p q => exact harnessTransaction_clean h hi hn
  | cmdRamBurstRead => exact harnessTransaction_clean h hi hn
  | cmdRamBurstWrite data => exact harnessTransaction_clean h hi hn
  | transaction body => exact harnessTransaction_clean h hi hn
  | readDatetime => exact hostOp_clean (dataGate_clean (runReadDatetime_clean _)) h hi hn
  | writeDatetime cv => exact hostOp_clean (dataGate_clean (runWriteDatetime_clean cv _)) h hi hn
  | readRam => exact hostOp_clean (dataGate_clean (runReadRam_clean _)) h hi hn
  | writeRam block => exact hostOp_clean (dataGate_clean (runWriteRam_clean block _)) h hi hn
  | _ => cases hone

/-- An instruction with a body is made of one transaction. -/
theorem isOneTransaction_of_bodyOf {cfg : Config} {i : Instr} {body : List ByteOp} (h : bodyOf cfg i = some body) :
    isOneTransaction i = true := by
  cases i with
  | init | teardown | txnBegin | txnEnd | wrByte _ | rdByte => cases h
  | bcdEnc _ | bcdDec _ | frameEnc _ | frameDec _ | yyOfYear _ | yearOfYy _ => cases h
  | _ => rfl

/-! ### The frame of each operation -/

/-- Events of a layout that is a transaction's or empty are framed. -/
theorem framed_of_clean {e : Env} {sh : Shadow} {cfg : Config} {body : Option (List ByteOp)} {evs : List Event}
    (hsh : sh.TransactionReady) (hg : e.gave sh evs = true) (hn : noErr evs = true)
    (h : evs = [] ∨ evs.map Event.shape = layoutOfBody cfg body) : Framed sh evs := by
  obtain rfl | hL := h
  · trivial
  · cases body with
    | none =>
      rw [List.map_eq_nil_iff.1 hL]
      trivial
    | some body =>
      obtain ⟨mid, rfl, hmid⟩ := transaction_events hg hn hL
      exact transactionAround_framed hsh hmid

theorem runTransaction_framed {toBuf : Bool} {body : List ByteOp} {s t : State} {bs : List Byte}
    (h : runTransaction toBuf body s = .done bs t) (hsh : s.pins.TransactionReady) :
    ∃ evs, Issues s t evs ∧ Framed s.pins evs := by
  obtain ⟨evs, hi, hn, hL, -⟩ := runTransaction_done toBuf body h
  exact ⟨evs, hi, framed_of_clean (body := some body) hsh hi.gave hn (.inr hL)⟩

theorem Shadow.resting_transactionReady : Shadow.resting.TransactionReady := ⟨rfl, by decide⟩

/-- INIT's CFG makes the pins ready for its first transaction, which leaves them ready for its second (44_lifecycle.md R220). -/
theorem runInitSequence_framed {s t : State} {v : Value} (h : runInitSequence s = .done v t) :
    ∃ evs, Issues s t evs ∧ Framed s.pins evs := by
  obtain ⟨hok, h1⟩ := callThen_done h
  obtain ⟨_, u, hu, h2⟩ := Attempt.andThen_done h1
  obtain ⟨_, w, hw, h3⟩ := Attempt.andThen_done h2
  obtain ⟨-, rfl⟩ := Attempt.done.inj h3
  have hcfg := (Emits.afterCall s.markInit (.cfg [.clk, .rst] .output (some .low))).toIssues
  rw [Env.answer_ok hok fun _ => rfl] at hu hcfg
  have hready : (s.markInit.afterCall (.cfg [.clk, .rst] .output (some .low)) .ok).pins.TransactionReady := ⟨rfl, nofun⟩
  have hupins : u.pins = Shadow.resting := runTransaction_rests hu rfl rfl
  obtain ⟨evs1, hi1, hf1⟩ := runTransaction_framed hu hready
  obtain ⟨evs2, hi2, hf2⟩ := runTransaction_framed hw (hupins ▸ Shadow.resting_transactionReady)
  have hfirst : Framed s.pins [.call (.cfg [.clk, .rst] .output (some .low)) .ok] := ⟨⟨nofun, nofun⟩, trivial⟩
  have hupto : Issues s u _ := (hcfg.append hi1).of_left rfl rfl rfl rfl
  refine ⟨_, (hupto.append hi2).of_right rfl rfl rfl rfl, (hfirst.append hf1).append ?_⟩
  rw [← hupto.pins]
  exact hf2

theorem init_framed {s t : State} {evs : List Event} (h : exec .init s = .next t) (hi : Issues s t evs)
    (hn : noErr evs = true) : Framed s.pins evs := by
  obtain ⟨-, -, rfl⟩ := hostOp_next h
  replace hi := issues_of_finishHost (op := .init) hi
  unfold runInit at hi
  split at hi
  next =>
    obtain ⟨v, u, hx⟩ := (runInitSequence_failsAtErr (s.startOp .init)).done (hi.of_left rfl rfl rfl rfl) hn
    obtain ⟨evs', hi', hf⟩ := runInitSequence_framed hx
    rw [hx] at hi
    rw [hi.events_unique hi']
    exact hf
  next =>
    rw [hi.eq_nil rfl]
    trivial

theorem teardown_framed {s t : State} {evs : List Event} (h : exec .teardown s = .next t) (hi : Issues s t evs) :
    Framed s.pins evs := by
  obtain ⟨-, -, rfl⟩ := hostOp_next h
  replace hi := issues_of_finishHost (op := .teardown) hi
  unfold runTeardown at hi
  split at hi
  next =>
    rw [hi.eq_nil rfl]
    trivial
  next =>
    have hrel := (Emits.afterCall (s.startOp .teardown).becomeClosed (.rel [.clk, .data, .rst])).toIssues
    rw [callThen, Attempt.andThen_state fun _ _ => rfl, pinCall_state] at hi
    rw [hi.events_unique (hrel.of_left rfl rfl rfl rfl)]
    exact ⟨⟨nofun, nofun⟩, trivial⟩

/-- Every operation that starts alone is framed when it meets no `Err`; INIT needs nothing of the pins. -/
theorem startsAlone_framed {i : Instr} {s t : State} {evs : List Event} (halone : startsAlone i = true)
    (h : exec i s = .next t) (hi : Issues s t evs) (hn : noErr evs = true) (hsh : i = .init ∨ s.pins.TransactionReady) :
    Framed s.pins evs := by
  by_cases hinit : i = .init
  · subst hinit
    exact init_framed h hi hn
  by_cases htear : i = .teardown
  · subst htear
    exact teardown_framed h hi
  have hone : isOneTransaction i = true := by simp [isOneTransaction, halone, hinit, htear]
  exact framed_of_clean (hsh.resolve_left hinit) hi.gave hn (oneTransaction_clean hone h hi hn)

/-- Settles O23: with no `Err` a transaction is BEGIN answered `Ok`, events that leave CE alone, and END answered `Ok`; so CE is 1
between, the clock moves only there, and PIN_DATA is released before CE drops. -/
theorem transactionFramesItsEdges : Obligations.TransactionFramesItsEdges := by
  refine ⟨fun i body s t evs hbody h hi hn hne hr hc => ?_, fun i s t evs halone h hi hn hsh =>
    (startsAlone_framed halone h hi hn hsh).edges_and_drops⟩
  have hL := (oneTransaction_clean (isOneTransaction_of_bodyOf hbody) h hi hn).resolve_left hne
  rw [hbody] at hL
  obtain ⟨mid, rfl, hmid⟩ := transaction_events hi.gave hn hL
  have hlen : mid.length = 41 * body.length := by rw [← List.length_map, hmid, bytesLayout_length]
  rw [transactionAround_length]
  exact ⟨by omega, rfl, transactionAround_getElem?_last mid, transactionAround_getElem?_end mid 0,
    fun k x hk => transactionAround_edge_between hc hk, fun k h2 hk => transactionAround_ce hr hmid h2 hk⟩

end Sys2Proof.Machine
end

section
/-! PROOF. The loopback harness (20_memory.md R87): WRBYTE leaves its byte's bits in the FIFO, RDBYTE takes them in the same order
(41_bit_transport.md R144). -/

namespace Sys2Proof.Machine

/-! ### A pin call under the harness -/

/-- The loopback harness holds these bits, oldest first, and nothing scripted stands in its way (R87, R88). -/
def Env.Loops (e : Env) (fifo : List Bool) : Prop := e.device = .loopback fifo ∧ e.plan = []

/-- The harness answers every call `Ok`, a GET with the level it finds (R87, R88). -/
theorem Env.Loops.answer {e : Env} {fifo : List Bool} (h : e.Loops fifo) (c : Call) :
    e.answer c = c.okWith ((Device.loopback fifo).levelOf e.draws c) := by
  obtain ⟨hdev, hplan⟩ := h
  simp [Env.answer, hplan, hdev, Device.answer]

/-- A call answered `Ok` moves the FIFO as R87 says. -/
theorem Env.Loops.after {e : Env} {fifo : List Bool} (h : e.Loops fifo) (sh : Shadow) (c : Call) {r : Response} (hr : r ≠ .err) :
    (e.after sh c r).Loops (fifoReact fifo sh c) := by
  obtain ⟨hdev, hplan⟩ := h
  simp [Env.Loops, Env.after, hplan, hdev, hr, Device.react]

/-- A call that is no GET is done. -/
theorem Env.Loops.callThen_eq {β : Type} {s : State} {fifo : List Bool} (h : s.env.Loops fifo) {c : Call}
    (hc : ∀ l, c.okWith l = .ok) (f : State → Attempt β) : callThen c s f = f (s.afterCall c .ok) := by
  simp [callThen, pinCall, h.answer, hc, Attempt.andThen]

/-- A GET of PIN_DATA is done with the oldest bit. -/
theorem Env.Loops.pinCall_get {s : State} {b : Bool} {fifo : List Bool} (h : s.env.Loops (b :: fifo)) :
    pinCall (.get .data) s = .done b (s.afterCall (.get .data) (.level b)) := by
  simp [pinCall, h.answer, Call.okWith, Device.levelOf, Device.line]

/-! ### A write byte fills the FIFO -/

/-- A write cell, PIN_DATA an output, appends SR[0]. -/
theorem writeCell_loops {s : State} {fifo : List Bool} (h : s.env.Loops fifo) (hd : s.pins.data.mode = .output) :
    ∃ t, writeCell s = .done () t ∧ t.env.Loops (fifo ++ [bitAt s.sr 0]) ∧ t.pins.data.mode = .output := by
  let a := (s.afterCall (.set .clk false) .ok).settle
  let b := (a.afterCall (.set .data (bitAt a.sr 0)) .ok).shiftSr
  have ha : a.env.Loops fifo := h.after _ _ nofun
  have hda : a.pins.data.mode = .output := (s.pins.mode_onOk_set .data .clk false).trans hd
  have hb : b.env.Loops (fifo ++ [bitAt s.sr 0]) := by
    have hset := ha.after a.pins (.set .data (bitAt a.sr 0)) (r := .ok) nofun
    rwa [fifoReact, if_pos hda] at hset
  have hdb : b.pins.data.mode = .output := (a.pins.mode_onOk_set .data .data _).trans hda
  refine ⟨(b.afterCall (.set .clk true) .ok).settle.countBit, ?_, hb.after _ _ nofun,
    (b.pins.mode_onOk_set .data .clk true).trans hdb⟩
  rw [writeCell, h.callThen_eq fun _ => rfl, ha.callThen_eq fun _ => rfl, hb.callThen_eq fun _ => rfl]

/-- n write cells append the bits SR still holds, lowest first. -/
theorem writeCells_loops (n : Nat) {s : State} {fifo : List Bool} (h : s.env.Loops fifo) (hd : s.pins.data.mode = .output) :
    ∃ t, writeCells n s = .done () t ∧ t.env.Loops (fifo ++ srBits n s.sr) := by
  induction n generalizing s fifo with
  | zero => exact ⟨s, rfl, by rwa [srBits, List.append_nil]⟩
  | succ n ih =>
    obtain ⟨t, ht, hlt, hdt⟩ := writeCell_loops h hd
    obtain ⟨u, hu, hlu⟩ := ih hlt hdt
    refine ⟨u, by rw [writeCells, ht]; exact hu, ?_⟩
    rwa [(writeCell_done ht).1, List.append_assoc] at hlu

/-- WRBYTE(v) appends v's bits, least significant first. -/
theorem writeByte_loops (v : Byte) {s : State} {fifo : List Bool} (h : s.env.Loops fifo) :
    ∃ t, writeByte v s = .done () t ∧ t.env.Loops (fifo ++ byteBits v) := by
  let c : Call := .cfg [.data] .output (some s.cfg.dataOutInit)
  have hd := (afterCall_cfg_data s .output (some s.cfg.dataOutInit) .ok).2 nofun
  obtain ⟨t, ht, hl⟩ := writeCells_loops 8 (s := (s.afterCall c .ok).loadSr v) (h.after s.pins c nofun) hd
  rw [State.loadSr_sr, srBits_eight] at hl
  exact ⟨t, (h.callThen_eq (fun _ => rfl) _).trans ht, hl⟩

/-! ### A read byte empties it -/

/-- A read cell takes the oldest bit into SR[i]. -/
theorem readCell_loops (i : Nat) {s : State} {b : Bool} {fifo : List Bool} (h : s.env.Loops (b :: fifo)) :
    ∃ t, readCell i s = .done () t ∧ t.env.Loops fifo ∧ t.sr = orBit s.sr b i := by
  let u := (s.afterCall (.set .clk true) .ok).settle
  let v := (u.afterCall (.set .clk false) .ok).settle
  have hu : u.env.Loops (b :: fifo) := h.after _ _ nofun
  have hv : v.env.Loops (b :: fifo) := hu.after _ _ nofun
  refine ⟨((v.afterCall (.get .data) (.level b)).orSr b i).countBit, ?_, ?_, ?_⟩
  · rw [readCell, h.callThen_eq fun _ => rfl, hu.callThen_eq fun _ => rfl, hv.pinCall_get, Attempt.andThen]
  · exact hv.after v.pins (.get .data) nofun
  · simp [u, v]

/-- As many read cells as there are bits take them into SR from bit i on, oldest first. -/
theorem readCells_loops (bs : List Bool) (i : Nat) {s : State} {fifo : List Bool} (h : s.env.Loops (bs ++ fifo)) :
    ∃ t, readCells bs.length i s = .done () t ∧ t.env.Loops fifo ∧ t.sr = orBits s.sr i bs := by
  induction bs generalizing i s with
  | nil => exact ⟨s, rfl, h, rfl⟩
  | cons b bs ih =>
    obtain ⟨t, ht, hlt, hst⟩ := readCell_loops i h
    obtain ⟨u, hu, hlu, hsu⟩ := ih (i + 1) hlt
    exact ⟨u, by rw [List.length_cons, readCells, ht]; exact hu, hlu, by rw [hsu, hst, orBits]⟩

/-- RDBYTE returns the byte whose bits stand first in the FIFO. -/
theorem readByte_loops {v : Byte} {s : State} {fifo : List Bool} (h : s.env.Loops (byteBits v ++ fifo)) :
    ∃ t, readByte s = .done v t ∧ t.env.Loops fifo := by
  let u := (s.afterCall (.cfg [.data] .input none) .ok).loadSr 0x00#8
  obtain ⟨t, ht, hl, hsr⟩ := readCells_loops (byteBits v) 0 (s := u) (h.after _ (.cfg [.data] .input none) nofun)
  rw [State.loadSr_sr, orBits_zero _ rfl, byteOfBits_byteBits] at hsr
  refine ⟨t, ?_, hl⟩
  rw [readByte, h.callThen_eq fun _ => rfl, show readCells 8 0 _ = _ from ht, Attempt.andThen, hsr]

/-! ### The two operations as a harness invokes them -/

/-- WRBYTE(v) from an idle block: it is idle again, and v's bits stand last in the FIFO. -/
theorem wrByte_loops (v : Byte) {s : State} {fifo : List Bool} (hs : s.seq = none) (h : s.env.Loops fifo) :
    ∃ t, exec (.wrByte v) s = .next t ∧ t.seq = none ∧ t.env.Loops (fifo ++ byteBits v) := by
  obtain ⟨t, ht, hl⟩ := writeByte_loops v (s := s.startOp .wrByte) h
  refine ⟨t.handBack .done, ?_, rfl, hl⟩
  show execWrByte v s = _
  rw [execWrByte, microOp_idle hs, ht]
  rfl

/-- RDBYTE from an idle block hands back the byte whose bits stand first in the FIFO (log 7). -/
theorem rdByte_loops {v : Byte} {s : State} {fifo : List Bool} (hs : s.seq = none) (h : s.env.Loops (byteBits v ++ fifo)) :
    ∃ t, exec .rdByte s = .next t ∧ t.returned = some (.byte v) ∧ t.env.Loops fifo := by
  obtain ⟨t, ht, hl⟩ := readByte_loops (s := s.startOp .rdByte) h
  refine ⟨t.handBack (.byte v), ?_, rfl, hl⟩
  show execRdByte s = _
  rw [execRdByte, microOp_idle hs, ht]
  rfl

/-- Settles O18: WRBYTE leaves exactly the byte's bits in the empty FIFO, and RDBYTE takes them in the order they went in. -/
theorem loopbackReturnsTheByte : Obligations.LoopbackReturnsTheByte := by
  intro v s hs hplan hdev
  obtain ⟨t, ht, hts, hlt⟩ := wrByte_loops v hs (fifo := []) ⟨hdev, hplan⟩
  obtain ⟨u, hu, hret, -⟩ := rdByte_loops (fifo := []) hts (by simpa using hlt)
  exact ⟨t, u, ht, hu, hret⟩

end Sys2Proof.Machine
end

section
/-! PROOF. The BCD codec: BCD_ENC and BCD_DEC are inverse and ordered (42_bcd_codec.md R162), and FRAME_DEC accepts a frame as a
calendar value exactly where FRAME_ENC makes that frame of it (R168). -/

namespace Sys2Proof.Machine

/-! ### One byte -/

/-- BCD_ENC makes a byte of a value exactly up to 99, and it is the value's code (R160). -/
theorem bcdEncode_eq_ok_iff {k : Option Nat} {v : Nat} {b : Byte} : bcdEncode k v = .ok b ↔ v ≤ 99 ∧ bcdCode v = b := by
  unfold bcdEncode
  split <;> simp [*]

/-- BCD_DEC of a byte whose nibbles are digits (R161). -/
theorem bcdDecode_of_digits (k : Option Nat) {b : Byte} (hhigh : highNibble b ≤ 9) (hlow : lowNibble b ≤ 9) :
    bcdDecode k b = .ok (10 * highNibble b + lowNibble b) := by
  rw [bcdDecode, if_neg (by omega)]

/-- The nibbles of a code are the tens and the units digit. -/
theorem bcdCode_nibbles {v : Nat} (h : v ≤ 99) : highNibble (bcdCode v) = v / 10 ∧ lowNibble (bcdCode v) = v % 10 := by
  rw [highNibble_eq, lowNibble_eq, bcdCode_toNat v h]
  omega

/-- Codes are ordered as their values are (R162). -/
theorem bcdCode_lt_iff {v w : Nat} (hv : v ≤ 99) (hw : w ≤ 99) : v < w ↔ (bcdCode v).toNat < (bcdCode w).toNat := by
  rw [bcdCode_toNat v hv, bcdCode_toNat w hw]
  omega

/-- Settles O27: the code of a value is made of its two digits, so it decodes to the value and is ordered as the value is. -/
theorem bcdCodesAreABijection : Obligations.BcdCodesAreABijection := by
  intro k k'
  refine ⟨fun v hv => ?_, fun b hhigh hlow => ?_, fun v w b c hb hc => ?_⟩
  · obtain ⟨hhigh, hlow⟩ := bcdCode_nibbles hv
    exact ⟨bcdCode v, bcdEncode_eq_ok_iff.2 ⟨hv, rfl⟩, bcdDecode_bcdCode k' v hv, by omega, by omega⟩
  · exact ⟨10 * highNibble b + lowNibble b, by omega, bcdDecode_of_digits k' hhigh hlow,
      bcdEncode_eq_ok_iff.2 ⟨by omega, bcdCode_of_digits b hhigh hlow⟩⟩
  · obtain ⟨hv, rfl⟩ := bcdEncode_eq_ok_iff.1 hb
    obtain ⟨hw, rfl⟩ := bcdEncode_eq_ok_iff.1 hc
    exact bcdCode_lt_iff hv hw

/-! ### One slot, and the seven slots of a frame -/

/-- A slot decodes to exactly the value in its range whose code it is (R165). -/
theorem fieldDecode_eq_ok_iff {k : Nat} (hk : k < 7) {b : Byte} {v : Nat} :
    fieldDecode k b = .ok v ↔ inRange k v ∧ bcdCode v = b := by
  constructor
  · intro h
    obtain ⟨hrange, -, hcode⟩ := fieldDecode_inv k b v hk h
    exact ⟨hrange, hcode⟩
  · rintro ⟨hrange, rfl⟩
    exact fieldDecode_ok k _ v hk (bcdDecode_bcdCode none v (inRange_le k v hrange)) hrange

/-- A frame is its seven slots. -/
theorem Frame.eq_of_slotOf {f g : Frame} (h : ∀ k, k < 7 → slotOf f k = slotOf g k) : f = g := by
  have hlist : f.toList = g.toList := List.ext_getElem rfl fun k hf hg => by
    rw [Frame.toList_get, Frame.toList_get, h k hf]
  cases f
  cases g
  simpa [Frame.toList] using hlist

/-- The components of the calendar value of seven values. -/
theorem fieldOf_calendarOf {vs : List Nat} {k : Nat} (hk : k < 7) (hlen : k < vs.length) : fieldOf (calendarOf vs) k = vs[k] := by
  rw [← List.getD_eq_getElem vs 0 hlen]
  interval_cases k <;> rfl

/-- FRAME_DEC accepts a frame as a calendar value exactly when every slot decodes to its component (R165). -/
theorem frameDecode_eq_ok_iff {raw : Frame} {cv : Calendar} :
    frameDecode raw = .ok cv ↔ ∀ k, k < 7 → fieldDecode k (slotOf raw k) = .ok (fieldOf cv k) := by
  unfold frameDecode
  constructor
  · intro h k hk
    cases hvs : fieldsDecode 0 raw.toList with
    | error e => rw [hvs] at h; cases h
    | ok vs =>
      rw [hvs] at h
      cases h
      obtain ⟨hlen, hslots⟩ := fieldsDecode_inv 0 raw.toList vs hvs
      have hraw : k < raw.toList.length := hk
      have hslot := hslots k hraw (hlen ▸ hraw)
      rwa [Nat.zero_add, Frame.toList_get, ← fieldOf_calendarOf hk] at hslot
  · intro h
    have hvs : fieldsDecode 0 raw.toList = .ok (calendarFields cv) := by
      refine fieldsDecode_ok 0 _ _ rfl fun k hk => ?_
      rw [Nat.zero_add, Frame.toList_get, calendarFields_get]
      exact h k hk
    rw [hvs]
    rfl

/-- FRAME_ENC makes a frame of a calendar value exactly when every slot decodes to its component (R164). -/
theorem frameEncode_eq_ok_iff {cv : Calendar} {f : Frame} :
    frameEncode cv = .ok f ↔ ∀ k, k < 7 → fieldDecode k (slotOf f k) = .ok (fieldOf cv k) := by
  constructor
  · intro h k hk
    obtain ⟨hvalid, hslots⟩ := frameEncode_slots h
    exact (fieldDecode_eq_ok_iff hk).2 ⟨hvalid k hk, (bcdEncode_eq_ok_iff.1 (hslots k hk)).2⟩
  · intro h
    have hcodes := fun k hk => (fieldDecode_eq_ok_iff hk).1 (h k hk)
    have hg := frameEncode_valid cv fun k hk => (hcodes k hk).1
    rw [hg]
    refine congrArg _ (Frame.eq_of_slotOf fun k hk => ?_)
    rw [← (bcdEncode_eq_ok_iff.1 ((frameEncode_slots hg).2 k hk)).2, (hcodes k hk).2]

/-- FRAME_DEC reads a calendar value off exactly the frame FRAME_ENC makes of it (R168). -/
theorem frameDecode_eq_ok_iff_frameEncode {raw : Frame} {cv : Calendar} : frameDecode raw = .ok cv ↔ frameEncode cv = .ok raw :=
  frameDecode_eq_ok_iff.trans frameEncode_eq_ok_iff.symm

/-- Settles O30: FRAME_ENC and FRAME_DEC relate a calendar value and a frame by the same seven slots. -/
theorem frameRoundTrip : Obligations.FrameRoundTrip := by
  refine ⟨fun cv hvalid => ?_, fun raw cv hdec => ?_⟩
  · have henc := frameEncode_valid cv hvalid
    exact ⟨_, henc, frameDecode_eq_ok_iff_frameEncode.2 henc⟩
  · have henc := frameDecode_eq_ok_iff_frameEncode.1 hdec
    exact ⟨(frameEncode_slots henc).1, henc⟩

end Sys2Proof.Machine
end

section
/-! PROOF. The gate of the data operations outside READY (43_register_codec.md R194). -/

namespace Sys2Proof.Machine

/-- Every data operation is a host operation whose run, from any state, stands behind the gate. -/
theorem exec_dataOp {i : Instr} {op : Op} (hdata : isDataOp i = true) (hop : opOf i = some op) :
    ∃ run, ∀ s, exec i s = hostOp op (dataGate op run) s := by
  cases i
  case readDatetime => cases hop; exact ⟨runReadDatetime, fun _ => rfl⟩
  case writeDatetime cv => cases hop; exact ⟨runWriteDatetime cv, fun _ => rfl⟩
  case readRam => cases hop; exact ⟨runReadRam, fun _ => rfl⟩
  case writeRam block => cases hop; exact ⟨runWriteRam block, fun _ => rfl⟩
  all_goals cases hdata

/-- A gated host operation outside READY only raises the LifecycleError: its run is never entered. -/
theorem hostOp_dataGate_not_ready {op : Op} {run : State → Attempt Value} {s : State} (hidle : s.Idle)
    (hnot : s.lifecycle ≠ .ready) :
    hostOp op (dataGate op run) s = .next { s with result := some (.error (s.lifecycleError op)) } := by
  have hrefused : dataGate op run (s.startOp op) = .failed (s.lifecycleError op) (s.startOp op) :=
    dataGate_not_ready (s := s.startOp op) hnot
  have hrest : (s.startOp op).raise (s.lifecycleError op) = { s with result := some (.error (s.lifecycleError op)) } := by
    rw [State.raise, State.startOp, ← hidle.1]
  rw [hostOp_idle hidle, hrefused, finishHost, hrest]

/-- Settles O32: whichever data operation it is, the gate refuses it before its run. -/
theorem dataOpsAreGated : Obligations.DataOpsAreGated := by
  intro i op s hdata hop hidle hnot
  obtain ⟨run, hexec⟩ := exec_dataOp hdata hop
  rw [hexec, hostOp_dataGate_not_ready hidle hnot]
  rfl

end Sys2Proof.Machine
end

section
/-! PROOF. The lifecycle table (44_lifecycle.md R222): a transaction and a micro-op leave the lifecycle as it is, so only INIT and
TEARDOWN move it. -/

namespace Sys2Proof.Machine

/-! ### What leaves the lifecycle as it is -/

/-- The lifecycle and init_attempted are as before. -/
structure SameLifecycle (s t : State) : Prop where
  lifecycle : t.lifecycle = s.lifecycle
  initAttempted : t.initAttempted = s.initAttempted

theorem SameLifecycle.refl (s : State) : SameLifecycle s s := ⟨rfl, rfl⟩

theorem SameLifecycle.trans {s t u : State} (h : SameLifecycle s t) (k : SameLifecycle t u) : SameLifecycle s u :=
  ⟨k.lifecycle.trans h.lifecycle, k.initAttempted.trans h.initAttempted⟩

theorem SameButTransfer.sameLifecycle {s t : State} (h : SameButTransfer s t) : SameLifecycle s t :=
  ⟨h.lifecycle, h.initAttempted⟩

/-- A run that leaves the lifecycle as it is, done or failed. -/
def KeepsLifecycle {α : Type} (run : State → Attempt α) : Prop := ∀ s, SameLifecycle s (run s).state

/-- So does such a run between a change of other fields and a part that only makes its value. -/
theorem KeepsLifecycle.andThen {α β : Type} {run : State → Attempt α} {f : α → State → Attempt β} {s u : State}
    (hrun : KeepsLifecycle run) (hu : SameLifecycle s u) (hf : ∀ a t, (f a t).state = t) :
    SameLifecycle s ((run u).andThen f).state := by
  rw [Attempt.andThen_state hf]
  exact hu.trans (hrun u)

theorem pinCall_keepsLifecycle (c : Call) : KeepsLifecycle (pinCall c) := fun s => by
  rw [pinCall_state]
  exact ⟨rfl, rfl⟩

theorem runTransaction_keepsLifecycle (toBuf : Bool) (body : List ByteOp) : KeepsLifecycle (runTransaction toBuf body) := fun s =>
  .trans (t := s.closeTxn.setBuf _) ⟨rfl, rfl⟩ (runTransaction_same toBuf body s).sameLifecycle

/-! ### What a harness invokes -/

/-- The end of what a harness invokes writes `returned` and the sequencer alone. -/
theorem finishHarness_lifecycle (x : Attempt Returned) : SameLifecycle x.state (finishHarness x) := by
  cases x <;> exact ⟨rfl, rfl⟩

/-- A harness's run from its first event to its end leaves the lifecycle as it is where the run does. -/
theorem finishHarness_sameLifecycle {op : Op} {run : State → Attempt Returned} {s : State} (hrun : KeepsLifecycle run) :
    SameLifecycle s (finishHarness (run (s.startOp op))) :=
  .trans (t := s.startOp op) ⟨rfl, rfl⟩ ((hrun _).trans (finishHarness_lifecycle _))

theorem microOp_sameLifecycle {op : Op} {run : State → Attempt Returned} {s t : State} (hrun : KeepsLifecycle run)
    (h : microOp op run s = .next t) : SameLifecycle s t := by
  obtain ⟨-, rfl⟩ := microOp_next h
  exact finishHarness_sameLifecycle hrun

/-- TRANSACTION and the command rows are one transaction, whose bytes are handed back. -/
theorem harnessTransaction_sameLifecycle {op : Op} {body : List ByteOp} {s t : State}
    (h : harnessTransaction op (fun s => (runTransaction false body s).andThen fun bs t => .done (.bytes bs) t) s = .next t) :
    SameLifecycle s t := by
  obtain ⟨-, -, rfl⟩ := harnessTransaction_next h
  exact finishHarness_sameLifecycle fun s => (runTransaction_keepsLifecycle false body).andThen (.refl s) fun _ _ => rfl

theorem codecCall_sameLifecycle {r : Returned} {s t : State} (h : codecCall r s = .next t) : SameLifecycle s t := by
  cases h
  exact ⟨rfl, rfl⟩

/-- No instruction but a host operation moves the lifecycle. -/
theorem harness_sameLifecycle {i : Instr} {s t : State} (hharness : isHostOp i = false) (h : exec i s = .next t) :
    SameLifecycle s t := by
  cases i with
  | cmdWpRead | cmdTcRead | cmdClockBurstRead | cmdRamBurstRead => exact harnessTransaction_sameLifecycle h
  | cmdWpWrite _ | cmdTcWrite _ | cmdRamBurstWrite _ | transaction _ => exact harnessTransaction_sameLifecycle h
  | cmdClockBurstWrite _ _ _ => exact harnessTransaction_sameLifecycle h
  | txnBegin =>
    have hbegin : KeepsLifecycle beginTxn := fun s => (beginTxn_same s).1.sameLifecycle
    exact microOp_sameLifecycle (fun s => hbegin.andThen (.refl s) fun _ _ => rfl) h
  | txnEnd => exact microOp_sameLifecycle (run := fun s => .done _ (endTxn s).2) (fun s => (endTxn_same s).1.sameLifecycle) h
  | wrByte v =>
    have hwrite : KeepsLifecycle (writeByte v) := fun s => (writeByte_same v s).sameLifecycle
    exact microOp_sameLifecycle (fun s => hwrite.andThen (.refl s) fun _ _ => rfl) h
  | rdByte =>
    have hread : KeepsLifecycle readByte := fun s => (readByte_same s).sameLifecycle
    exact microOp_sameLifecycle (fun s => hread.andThen (.refl s) fun _ _ => rfl) h
  | bcdEnc _ | bcdDec _ | frameEnc _ | frameDec _ | yyOfYear _ | yearOfYy _ => exact codecCall_sameLifecycle h
  | init | readDatetime | writeDatetime _ | readRam | writeRam _ | teardown => cases hharness

/-! ### The data operations -/

/-- The end of a host operation writes `result` and the sequencer alone. -/
theorem finishHost_lifecycle (x : Attempt Value) :
    SameLifecycle x.state (finishHost x) ∧ (finishHost x).trace = x.state.trace := by
  cases x <;> exact ⟨⟨rfl, rfl⟩, rfl⟩

theorem runReadDatetime_keepsLifecycle : KeepsLifecycle runReadDatetime := fun s =>
  (runTransaction_keepsLifecycle true _).andThen (u := s.beginBuf) ⟨rfl, rfl⟩ fun _ t => by
    cases frameDecode (frameOfBuf t.buf) <;> rfl

theorem runWriteDatetime_keepsLifecycle (cv : Calendar) : KeepsLifecycle (runWriteDatetime cv) := fun s => by
  cases hf : frameEncode cv with
  | error e =>
    rw [runWriteDatetime_error hf]
    exact ⟨rfl, rfl⟩
  | ok f =>
    rw [runWriteDatetime_ok hf]
    exact (runTransaction_keepsLifecycle false _).andThen ⟨rfl, rfl⟩ fun _ _ => rfl

theorem runReadRam_keepsLifecycle : KeepsLifecycle runReadRam := fun s =>
  (runTransaction_keepsLifecycle true _).andThen (u := s.beginBuf) ⟨rfl, rfl⟩ fun _ _ => rfl

theorem runWriteRam_keepsLifecycle (block : List Byte) : KeepsLifecycle (runWriteRam block) := fun s => by
  rw [runWriteRam_eq]
  exact (runTransaction_keepsLifecycle false _).andThen ⟨rfl, rfl⟩ fun _ _ => rfl

theorem dataGate_keepsLifecycle {op : Op} {run : State → Attempt Value} (hrun : KeepsLifecycle run) :
    KeepsLifecycle (dataGate op run) := fun s => by
  by_cases hready : s.lifecycle = .ready
  · rw [dataGate_ready hready]
    exact hrun s
  · rw [dataGate_not_ready hready]
    exact ⟨rfl, rfl⟩

/-- Every data operation is a host operation whose gated run leaves the lifecycle as it is. -/
theorem exec_dataOp_keepsLifecycle {i : Instr} (hdata : isDataOp i = true) :
    ∃ op run, KeepsLifecycle run ∧ ∀ s, exec i s = hostOp op (dataGate op run) s := by
  cases i
  case readDatetime => exact ⟨.readDatetime, _, runReadDatetime_keepsLifecycle, fun _ => rfl⟩
  case writeDatetime cv => exact ⟨.writeDatetime, _, runWriteDatetime_keepsLifecycle cv, fun _ => rfl⟩
  case readRam => exact ⟨.readRam, _, runReadRam_keepsLifecycle, fun _ => rfl⟩
  case writeRam block => exact ⟨.writeRam, _, runWriteRam_keepsLifecycle block, fun _ => rfl⟩
  all_goals cases hdata

theorem dataOp_sameLifecycle {i : Instr} {s t : State} (hdata : isDataOp i = true) (h : exec i s = .next t) :
    SameLifecycle s t := by
  obtain ⟨op, run, hrun, hexec⟩ := exec_dataOp_keepsLifecycle hdata
  rw [hexec] at h
  obtain ⟨-, -, rfl⟩ := hostOp_next h
  exact .trans (t := s.startOp op) ⟨rfl, rfl⟩ ((dataGate_keepsLifecycle hrun _).trans (finishHost_lifecycle _).1)

/-- Outside READY a data operation issues nothing and reports a LifecycleError (R222, 43_register_codec.md R194). -/
theorem dataOp_refused {i : Instr} {s t : State} (hdata : isDataOp i = true) (hnot : s.lifecycle ≠ .ready)
    (h : exec i s = .next t) :
    t.trace = s.trace ∧ ∃ op, t.result = some (.error (.lifecycle op s.lifecycle s.initAttempted)) := by
  obtain ⟨op, run, -, hexec⟩ := exec_dataOp_keepsLifecycle hdata
  rw [hexec] at h
  obtain ⟨hseq, htxn, -⟩ := hostOp_next h
  rw [hostOp_dataGate_not_ready ⟨hseq, htxn⟩ hnot] at h
  cases h
  exact ⟨rfl, op, rfl⟩

/-! ### INIT -/

/-- How INIT's sequence ends: in READY with `Ok`, or where it was with an error; init_attempted is true in both (R220). -/
def InitEnds (s : State) : Attempt Value → Prop
  | .done v t => v = .none ∧ t.lifecycle = .ready ∧ t.initAttempted = true
  | .failed _ t => t.lifecycle = s.lifecycle ∧ t.initAttempted = true

/-- A part of the sequence either fails, where INIT then ends, or hands on the lifecycle it was given. -/
theorem InitEnds.andThen {α : Type} {s u : State} {run : State → Attempt α} {f : α → State → Attempt Value}
    (hrun : KeepsLifecycle run) (hu : SameLifecycle s.markInit u)
    (hf : ∀ a t, SameLifecycle s.markInit t → InitEnds s (f a t)) : InitEnds s ((run u).andThen f) := by
  have hreached := hu.trans (hrun u)
  cases hx : run u with
  | done a t =>
    rw [hx] at hreached
    exact hf a t hreached
  | failed e t =>
    rw [hx] at hreached
    exact ⟨hreached.lifecycle, hreached.initAttempted⟩

theorem runInitSequence_ends (s : State) : InitEnds s (runInitSequence s) :=
  .andThen (pinCall_keepsLifecycle _) ⟨rfl, rfl⟩ fun _ _ h1 =>
    .andThen (runTransaction_keepsLifecycle _ _) h1 fun _ _ h2 =>
      .andThen (runTransaction_keepsLifecycle _ _) h2 fun _ _ h3 => ⟨rfl, rfl, h3.initAttempted⟩

theorem State.permitsInit_uninit {s : State} (h : s.permitsInit = true) : s.lifecycle = .uninit := by
  rw [State.permitsInit, Bool.and_eq_true, decide_eq_true_eq] at h
  exact h.1

/-- An INIT that is permitted moves to READY exactly when it returns `Ok` (R222). -/
theorem init_permitted {s t : State} (hpermits : s.permitsInit = true) (h : exec .init s = .next t) :
    t.initAttempted = true ∧ t.lifecycle = (if t.result = some (.ok .none) then .ready else .uninit) := by
  obtain ⟨-, -, rfl⟩ := hostOp_next h
  have hrun : runInit (s.startOp .init) = runInitSequence (s.startOp .init) := if_pos hpermits
  have hends := runInitSequence_ends (s.startOp .init)
  rw [hrun]
  cases hx : runInitSequence (s.startOp .init) with
  | done v t =>
    rw [hx] at hends
    obtain ⟨rfl, hready, hattempted⟩ := hends
    exact ⟨hattempted, hready.trans (if_pos rfl).symm⟩
  | failed e t =>
    rw [hx] at hends
    obtain ⟨hkept, hattempted⟩ := hends
    have huninit : t.lifecycle = .uninit := hkept.trans (State.permitsInit_uninit hpermits)
    exact ⟨hattempted, huninit.trans (if_neg nofun).symm⟩

/-- An INIT that is not permitted only reports the LifecycleError (R220). -/
theorem init_refused {s t : State} (hpermits : s.permitsInit = false) (h : exec .init s = .next t) :
    SameLifecycle s t ∧ t.trace = s.trace ∧ t.result = some (.error (.lifecycle .init s.lifecycle s.initAttempted)) := by
  obtain ⟨-, -, rfl⟩ := hostOp_next h
  have hrun : runInit (s.startOp .init) = .failed (s.lifecycleError .init) (s.startOp .init) :=
    if_neg (Bool.eq_false_iff.1 hpermits)
  rw [hrun]
  exact ⟨⟨rfl, rfl⟩, rfl, rfl⟩

/-! ### TEARDOWN -/

/-- TEARDOWN ends in CLOSED whatever is answered, with one REL unless it was there before (R221). -/
theorem teardown_closes {s t : State} (h : exec .teardown s = .next t) :
    t.lifecycle = .closed ∧ t.initAttempted = s.initAttempted ∧
      (if s.lifecycle = .closed then t.trace = s.trace else ∃ r, t.trace = s.trace ++ [.call (.rel [.clk, .data, .rst]) r]) := by
  obtain ⟨-, -, rfl⟩ := hostOp_next h
  obtain ⟨hsame, htrace⟩ := finishHost_lifecycle (runTeardown (s.startOp .teardown))
  rw [hsame.lifecycle, hsame.initAttempted, htrace]
  by_cases hclosed : s.lifecycle = .closed
  · have hrun : runTeardown (s.startOp .teardown) = .done .none (s.startOp .teardown) := if_pos hclosed
    rw [hrun, if_pos hclosed]
    exact ⟨hclosed, rfl, rfl⟩
  · have hrun : (runTeardown (s.startOp .teardown)).state = _ :=
      (congrArg Attempt.state (if_neg hclosed)).trans ((Attempt.andThen_state fun _ _ => rfl).trans (pinCall_state _ _))
    rw [hrun, if_neg hclosed]
    exact ⟨rfl, rfl, _, rfl⟩

/-! ### The table -/

theorem Lifecycle.mayBecome_refl (a : Lifecycle) : a.mayBecome a = true := by cases a <;> rfl

theorem Lifecycle.mayBecome_closed (a : Lifecycle) : a.mayBecome .closed = true := by cases a <;> rfl

/-- UNINIT alone has all three moves. -/
theorem Lifecycle.uninit_mayBecome (a : Lifecycle) : Lifecycle.uninit.mayBecome a = true := by cases a <;> rfl

theorem instr_kinds (i : Instr) : isHostOp i = false ∨ isDataOp i = true ∨ i = .init ∨ i = .teardown := by
  cases i <;> simp [isHostOp, isDataOp]

/-- A step makes a legal move, and keeps init_attempted once it is true. -/
def LegalMove (s t : State) : Prop :=
  s.lifecycle.mayBecome t.lifecycle = true ∧ (s.initAttempted = true → t.initAttempted = true)

theorem SameLifecycle.legalMove {s t : State} (h : SameLifecycle s t) : LegalMove s t :=
  ⟨h.lifecycle ▸ s.lifecycle.mayBecome_refl, fun hattempted => h.initAttempted.trans hattempted⟩

theorem init_legalMove {s t : State} (h : exec .init s = .next t) : LegalMove s t := by
  cases hpermits : s.permitsInit with
  | true => exact ⟨State.permitsInit_uninit hpermits ▸ t.lifecycle.uninit_mayBecome, fun _ => (init_permitted hpermits h).1⟩
  | false => exact (init_refused hpermits h).1.legalMove

theorem teardown_legalMove {s t : State} (h : exec .teardown s = .next t) : LegalMove s t := by
  obtain ⟨hclosed, hattempted, -⟩ := teardown_closes h
  exact ⟨hclosed ▸ s.lifecycle.mayBecome_closed, hattempted.trans⟩

theorem exec_legalMove {i : Instr} {s t : State} (h : exec i s = .next t) : LegalMove s t := by
  obtain hharness | hdata | rfl | rfl := instr_kinds i
  · exact (harness_sameLifecycle hharness h).legalMove
  · exact (dataOp_sameLifecycle hdata h).legalMove
  · exact init_legalMove h
  · exact teardown_legalMove h

/-- Settles O42: harness calls and data operations leave the lifecycle as it is, INIT moves only from UNINIT, and TEARDOWN only to
CLOSED. -/
theorem lifecycleMovesAsTheTable : Obligations.LifecycleMovesAsTheTable := by
  intro i s t h
  obtain ⟨hmove, hattempted⟩ := exec_legalMove h
  refine ⟨hmove, hattempted, ?permitted, ?refused, fun hdata => ?data, ?teardown, fun hharness => ?harness⟩
  case permitted =>
    rintro rfl hpermits
    exact init_permitted hpermits h
  case refused =>
    rintro rfl hpermits
    obtain ⟨hsame, htrace, hresult⟩ := init_refused hpermits h
    exact ⟨hsame.lifecycle, htrace, hresult⟩
  case data => exact ⟨(dataOp_sameLifecycle hdata h).lifecycle, fun hnot => dataOp_refused hdata hnot h⟩
  case teardown =>
    rintro rfl
    obtain ⟨hclosed, -, htrace⟩ := teardown_closes h
    exact ⟨hclosed, htrace⟩
  case harness => exact (harness_sameLifecycle hharness h).lifecycle

end Sys2Proof.Machine
end

section
/-! PROOF. The order of the checks (60_exceptions.md R249): which of the errors that apply to a host operation is the one it
reports. -/

namespace Sys2Proof.Machine

/-! ### A part raises its first failing call, and nothing else -/

/-- The error is the PinAccessError of the first of these events answered `Err`, by its index in the trace; none where no event
is (60_exceptions.md R241, R245). -/
def FirstErrRaised (s : State) (evs : List Event) (err : Option OpError) : Prop :=
  ∃ pos, err = (firstErr evs).map fun p => .pinAccess p.2 (s.trace.length + p.1) pos

/-- A part raises the PinAccessError of the first of its calls answered `Err`, and no other error. -/
def RaisesFirstErr {α : Type} (s : State) (x : Attempt α) : Prop :=
  ∃ evs, Issues s x.state evs ∧ FirstErrRaised s evs x.error?

theorem RaisesFirstErr.raised {α : Type} {s : State} {x : Attempt α} {evs : List Event} (h : RaisesFirstErr s x)
    (hi : Issues s x.state evs) : FirstErrRaised s evs x.error? := by
  obtain ⟨evs', hi', hraised⟩ := h
  rwa [hi.events_unique hi']

theorem RaisesFirstErr.done {α : Type} (a : α) (s : State) : RaisesFirstErr s (.done a s) :=
  ⟨[], Issues.nil s, none, rfl⟩

/-- A change of the state that events do not read, first. -/
theorem RaisesFirstErr.of_left {α : Type} {s s' : State} {x : Attempt α} (h : RaisesFirstErr s' x) (ht : s'.trace = s.trace)
    (hp : s'.pins = s.pins) (he : s'.env = s.env) (hc : s'.cfg = s.cfg) : RaisesFirstErr s x := by
  obtain ⟨evs, hi, hraised⟩ := h
  rw [FirstErrRaised, ht] at hraised
  exact ⟨evs, hi.of_left ht hp he hc, hraised⟩

theorem Follows.raisesFirstErr {α : Type} {L : List Shape} {s : State} {x : Attempt α} (h : Follows L s x) :
    RaisesFirstErr s x := by
  cases x with
  | done a t =>
    obtain ⟨evs, he, -, hn⟩ := h
    exact ⟨evs, he.toIssues, none, by rw [(firstErr_none_iff evs).2 hn]; rfl⟩
  | failed e t =>
    obtain ⟨evs, c, he, hn, -, rfl⟩ := h
    exact ⟨_, he.toIssues, _, by rw [firstErr_append_err _ _ _ hn]; rfl⟩

theorem runTransaction_raisesFirstErr (toBuf : Bool) (body : List ByteOp) (s : State) :
    RaisesFirstErr s (runTransaction toBuf body s) := by
  obtain ⟨evs, hi, hfit, -⟩ := runTransaction_fits toBuf body s
  refine ⟨evs, hi, ?_⟩
  cases hx : runTransaction toBuf body s with
  | done bs t =>
    rw [hx] at hfit
    obtain ⟨-, hn⟩ := hfit
    exact ⟨none, by rw [(firstErr_none_iff evs).2 hn]; rfl⟩
  | failed e t =>
    obtain ⟨c, idx, pos, rfl⟩ := runTransaction_error _ _ _ _ _ hx
    rw [hx] at hfit
    obtain ⟨n, hfirst, -, rfl, -⟩ := hfit
    exact ⟨pos, by rw [hfirst]; rfl⟩

/-- One part after another: the second starts only where the first met no `Err`. -/
theorem RaisesFirstErr.andThen {α β : Type} {s : State} {x : Attempt α} {f : α → State → Attempt β} (hx : RaisesFirstErr s x)
    (hf : ∀ a t, x = .done a t → RaisesFirstErr t (f a t)) : RaisesFirstErr s (x.andThen f) := by
  obtain ⟨evs, hi, pos, herr⟩ := hx
  cases x with
  | failed e t => exact ⟨evs, hi, pos, herr⟩
  | done a t =>
    obtain ⟨evs', hi', pos', herr'⟩ := hf a t rfl
    have hclean : noErr evs = true := (firstErr_none_iff evs).1 (Option.map_eq_none_iff.1 herr.symm)
    have hlen : t.trace.length = s.trace.length + evs.length := by
      rw [show t.trace = s.trace ++ evs from hi.trace, List.length_append]
    refine ⟨evs ++ evs', hi.append hi', pos', herr'.trans ?_⟩
    rw [firstErr_append_clean _ _ hclean, Option.map_map, hlen]
    refine congrArg (Option.map · (firstErr evs')) (funext fun p => ?_)
    rw [Function.comp_apply, Nat.add_assoc, Nat.add_comm evs.length]

/-! ### What a host operation reports -/

/-- The lifecycle check of a host operation fails: a data operation outside READY (43_register_codec.md R194), an INIT that is
not permitted (44_lifecycle.md R220). -/
def State.refuses (s : State) (i : Instr) : Prop :=
  (isDataOp i = true ∧ s.lifecycle ≠ .ready) ∨ (i = .init ∧ s.permitsInit = false)

/-- The operand of a WRITE_DATETIME can be encoded; the other operations encode none (43_register_codec.md R191). -/
def Encodable (i : Instr) : Prop := ∀ cv, i = .writeDatetime cv → validCalendar cv

/-- What a host operation from `s` reports after the events `evs`, by R249's order: each outcome has the checks before it
passed. -/
inductive Reports (i : Instr) (s : State) (evs : List Event) : Result → Prop
  | lifecycle (op : Op) (hrefuses : s.refuses i) (hevs : evs = []) : Reports i s evs (.error (s.lifecycleError op))
  | encode {cv : Calendar} {k : Nat} (hpasses : ¬ s.refuses i) (hop : i = .writeDatetime cv) (hk : k < 7)
      (hlowest : ∀ j, j < k → inRange j (fieldOf cv j)) (hbad : ¬ inRange k (fieldOf cv k)) (hevs : evs = []) :
      Reports i s evs (.error (.encode (some k) (fieldOf cv k)))
  | pinAccess {n : Nat} {c : Call} (pos : Option SeqPos) (hpasses : ¬ s.refuses i) (henc : Encodable i)
      (hfirst : firstErr evs = some (n, c)) : Reports i s evs (.error (.pinAccess c (s.trace.length + n) pos))
  | decode {raw : Frame} {k : Option Nat} {b : Byte} {why : DecodeReason} (hpasses : ¬ s.refuses i) (hop : i = .readDatetime)
      (hclean : firstErr evs = none) (hraw : raw.toList = bytesOfLevels (getLevels evs))
      (hdec : frameDecode raw = .error (.decode k b why)) : Reports i s evs (.error (.decode k b why))
  | ok {v : Value} (hpasses : ¬ s.refuses i) (henc : Encodable i) (hclean : firstErr evs = none)
      (hflag : ∀ b, v = .truncated b → ∃ block, i = .writeRam block ∧ b = decide (31 < block.length)) : Reports i s evs (.ok v)

theorem State.refuses_dataOp_iff {s : State} {i : Instr} (hdata : isDataOp i = true) : s.refuses i ↔ s.lifecycle ≠ .ready := by
  have hinit : i ≠ .init := by rintro rfl; cases hdata
  simp [State.refuses, hdata, hinit]

theorem State.refuses_init_iff {s : State} : s.refuses .init ↔ s.permitsInit = false := by
  simp [State.refuses, isDataOp]

theorem encodable_of_not_writeDatetime {i : Instr} (h : ∀ cv, i ≠ .writeDatetime cv) : Encodable i :=
  fun cv hcv => absurd hcv (h cv)

section
variable {i : Instr} {s : State} {evs : List Event} {r : Result}

theorem Reports.lifecycle_iff (h : Reports i s evs r) :
    (∃ op lc a, r = .error (.lifecycle op lc a)) ↔ s.refuses i := by
  cases h with
  | lifecycle op hrefuses _ => exact ⟨fun _ => hrefuses, fun _ => ⟨_, _, _, rfl⟩⟩
  | _ => exact ⟨nofun, fun hrefuses => absurd hrefuses ‹¬ s.refuses i›⟩

theorem Reports.events_of_lifecycle (h : Reports i s evs r) {op : Op} {lc : Lifecycle} {a : Bool}
    (hr : r = .error (.lifecycle op lc a)) : evs = [] := by
  cases h with
  | lifecycle _ _ hevs => exact hevs
  | _ => cases hr

/-- A value that cannot be encoded is reported by its lowest bad slot, before any event. -/
theorem Reports.encode_of_not_valid {cv : Calendar} (h : Reports (.writeDatetime cv) s evs r) (hready : s.lifecycle = .ready)
    (hinvalid : ¬ validCalendar cv) : evs = [] ∧ ∃ k, k < 7 ∧ (∀ j, j < k → inRange j (fieldOf cv j)) ∧
      ¬ inRange k (fieldOf cv k) ∧ r = .error (.encode (some k) (fieldOf cv k)) := by
  cases h with
  | lifecycle _ hrefuses _ => exact absurd hready ((State.refuses_dataOp_iff rfl).1 hrefuses)
  | encode _ hop hk hlowest hbad hevs => cases hop; exact ⟨hevs, _, hk, hlowest, hbad, rfl⟩
  | pinAccess _ _ henc _ => exact absurd (henc cv rfl) hinvalid
  | decode _ hop _ _ _ => cases hop
  | ok _ henc _ _ => exact absurd (henc cv rfl) hinvalid

theorem Reports.pinAccess_of_firstErr (h : Reports i s evs r) {n : Nat} {c : Call} (hfirst : firstErr evs = some (n, c)) :
    ∃ pos, r = .error (.pinAccess c (s.trace.length + n) pos) := by
  cases h with
  | lifecycle _ _ hevs => subst hevs; cases hfirst
  | encode _ _ _ _ _ hevs => subst hevs; cases hfirst
  | pinAccess pos _ _ hfirst' => cases hfirst'.symm.trans hfirst; exact ⟨pos, rfl⟩
  | decode _ _ hclean _ _ => cases hclean.symm.trans hfirst
  | ok _ _ hclean _ => cases hclean.symm.trans hfirst

theorem Reports.firstErr_of_pinAccess (h : Reports i s evs r) {c : Call} {idx : Nat} {pos : Option SeqPos}
    (hr : r = .error (.pinAccess c idx pos)) : firstErr evs ≠ none := by
  cases h with
  | pinAccess _ _ _ hfirst => rw [hfirst]; nofun
  | _ => cases hr

theorem Reports.frame_of_decode (h : Reports i s evs r) {k : Option Nat} {b : Byte} {why : DecodeReason}
    (hr : r = .error (.decode k b why)) : i = .readDatetime ∧ firstErr evs = none ∧
      ∃ raw : Frame, raw.toList = bytesOfLevels (getLevels evs) ∧ frameDecode raw = .error (.decode k b why) := by
  cases h with
  | decode _ hop hclean hraw hdec => cases hr; exact ⟨hop, hclean, _, hraw, hdec⟩
  | _ => cases hr

theorem Reports.block_of_truncated (h : Reports i s evs r) {b : Bool} (hr : r = .ok (.truncated b)) :
    firstErr evs = none ∧ ∃ block, i = .writeRam block ∧ b = decide (31 < block.length) := by
  cases h with
  | ok _ _ hclean hflag => cases hr; exact ⟨hclean, hflag b rfl⟩
  | _ => cases hr

end

/-! ### The runs -/

/-- How an attempt ends, as the result of a host operation. -/
def Attempt.outcome : Attempt Value → Result
  | .done v _ => .ok v
  | .failed e _ => .error e

theorem finishHost_result (x : Attempt Value) : (finishHost x).result = some x.outcome := by
  cases x <;> rfl

/-- An operation that passed its checks and raises only its first failing call. -/
theorem RaisesFirstErr.reports {i : Instr} {s : State} {x : Attempt Value} {evs : List Event} (h : RaisesFirstErr s x)
    (hi : Issues s x.state evs) (hpasses : ¬ s.refuses i) (henc : Encodable i)
    (hflag : ∀ b t, x = .done (.truncated b) t → ∃ block, i = .writeRam block ∧ b = decide (31 < block.length)) :
    Reports i s evs x.outcome := by
  obtain ⟨pos, herr⟩ := h.raised hi
  cases x with
  | done v t => exact .ok hpasses henc (Option.map_eq_none_iff.1 herr.symm) fun b hb => hflag b t (hb ▸ rfl)
  | failed e t =>
    obtain ⟨⟨n, c⟩, hfirst, rfl⟩ := Option.map_eq_some_iff.1 herr.symm
    exact .pinAccess pos hpasses henc hfirst

/-- So does one transaction, from a state that differs from `s` in what events do not read, and then a value. -/
theorem transactionThen_reports {i : Instr} {s u : State} {toBuf : Bool} {body : List ByteOp} {evs : List Event}
    {v : List Byte → State → Value} (ht : u.trace = s.trace) (hp : u.pins = s.pins) (he : u.env = s.env) (hc : u.cfg = s.cfg)
    (hi : Issues s ((runTransaction toBuf body u).andThen fun bs t => .done (v bs t) t).state evs) (hpasses : ¬ s.refuses i)
    (henc : Encodable i)
    (hflag : ∀ bs t b, v bs t = .truncated b → ∃ block, i = .writeRam block ∧ b = decide (31 < block.length)) :
    Reports i s evs ((runTransaction toBuf body u).andThen fun bs t => .done (v bs t) t).outcome := by
  have hraises : RaisesFirstErr u ((runTransaction toBuf body u).andThen fun bs t => .done (v bs t) t) :=
    (runTransaction_raisesFirstErr toBuf body u).andThen fun _ t _ => .done _ t
  refine (hraises.of_left ht hp he hc).reports hi hpasses henc fun b t hdone => ?_
  obtain ⟨bs, u', -, hvalue⟩ := Attempt.andThen_done hdone
  obtain ⟨hb, -⟩ := Attempt.done.inj hvalue
  exact hflag bs u' b hb

/-- A run reports by R249's order, from any state and whatever fails. -/
def RunReports (i : Instr) (run : State → Attempt Value) : Prop :=
  ∀ (s : State) (evs : List Event), Issues s (run s).state evs → Reports i s evs (run s).outcome

/-- A gated run does so if it does in READY: elsewhere the gate reports before any event. -/
theorem dataGate_reports {i : Instr} {op : Op} {run : State → Attempt Value} (hdata : isDataOp i = true)
    (hrun : ∀ (s : State) (evs : List Event), ¬ s.refuses i → Issues s (run s).state evs → Reports i s evs (run s).outcome) :
    RunReports i (dataGate op run) := by
  intro s evs hi
  by_cases hready : s.lifecycle = .ready
  · rw [dataGate_ready hready] at hi ⊢
    exact hrun s evs (fun hrefuses => (State.refuses_dataOp_iff hdata).1 hrefuses hready) hi
  · rw [dataGate_not_ready hready] at hi ⊢
    exact .lifecycle op ((State.refuses_dataOp_iff hdata).2 hready) (hi.eq_nil rfl)

/-- The error of FRAME_DEC is a DecodeError, of a slot it names (42_bcd_codec.md R165). -/
theorem fieldDecode_error {k : Nat} {b : Byte} {e : OpError} (h : fieldDecode k b = .error e) :
    ∃ why, e = .decode (some k) b why := by
  unfold fieldDecode bcdDecode at h
  split at h
  next e' hdigits =>
    split at hdigits
    · cases hdigits; cases h; exact ⟨_, rfl⟩
    · cases hdigits
  next v _ =>
    split at h
    · cases h
    · cases h; exact ⟨_, rfl⟩

theorem fieldsDecode_error {k : Nat} {bs : List Byte} {e : OpError} (h : fieldsDecode k bs = .error e) :
    ∃ slot b why, e = .decode slot b why := by
  induction bs generalizing k with
  | nil => cases h
  | cons b bs ih =>
    rw [fieldsDecode] at h
    cases hslot : fieldDecode k b with
    | error e' =>
      rw [hslot] at h
      cases h
      obtain ⟨why, rfl⟩ := fieldDecode_error hslot
      exact ⟨_, _, _, rfl⟩
    | ok v =>
      cases hrest : fieldsDecode (k + 1) bs with
      | error e' => rw [hslot, hrest] at h; cases h; exact ih hrest
      | ok vs => rw [hslot, hrest] at h; cases h

theorem frameDecode_error {raw : Frame} {e : OpError} (h : frameDecode raw = .error e) : ∃ slot b why, e = .decode slot b why := by
  unfold frameDecode at h
  cases hslots : fieldsDecode 0 raw.toList with
  | error e' => rw [hslots] at h; cases h; exact fieldsDecode_error hslots
  | ok vs => rw [hslots] at h; cases h

/-- BUF[0..6] after storing the 7 bytes read: those bytes (43_register_codec.md R190). -/
theorem frameOfBuf_storeFrom {bs buf : List Byte} (hbs : bs.length = 7) (hbuf : 7 ≤ buf.length) :
    (frameOfBuf (storeFrom 0 bs buf)).toList = bs :=
  bufBytes_storeBuf { State.reset with buf := buf } bs 7 hbs hbuf

/-- The frame READ_DATETIME decodes is made of the levels it read. -/
theorem readDatetime_frame {s t : State} {bs : List Byte} {evs : List Event}
    (h : runTransaction true (readFormat .clockBurstRead) s.beginBuf = .done bs t) (hi : Issues s t evs) :
    firstErr evs = none ∧ (frameOfBuf t.buf).toList = bytesOfLevels (getLevels evs) := by
  obtain ⟨evs', hi', hn, -, hbytes, hreads, hbuf⟩ := runTransaction_done true _ h
  cases hi.events_unique (hi'.of_left rfl rfl rfl rfl)
  refine ⟨(firstErr_none_iff evs).2 hn, ?_⟩
  rw [hbuf, ← hbytes]
  refine frameOfBuf_storeFrom hreads ?_
  rw [State.beginBuf_buf, unspecifiedBuf_length]
  decide

theorem runReadDatetime_reports : RunReports .readDatetime (dataGate .readDatetime runReadDatetime) := by
  refine dataGate_reports rfl fun s evs hpasses hi => ?_
  have henc := encodable_of_not_writeDatetime (i := .readDatetime) nofun
  have htxn : RaisesFirstErr s (runTransaction true (readFormat .clockBurstRead) s.beginBuf) :=
    (runTransaction_raisesFirstErr _ _ _).of_left rfl rfl rfl rfl
  unfold runReadDatetime at hi ⊢
  cases hx : runTransaction true (readFormat .clockBurstRead) s.beginBuf with
  | failed e t =>
    rw [hx] at hi htxn
    exact RaisesFirstErr.reports (x := .failed e t) htxn hi hpasses henc fun _ _ h => nomatch h
  | done bs t =>
    rw [hx, Attempt.andThen] at hi
    rw [Attempt.andThen]
    cases hdec : frameDecode (frameOfBuf t.buf) with
    | ok cv =>
      rw [hdec] at hi
      exact .ok hpasses henc (readDatetime_frame hx hi).1 nofun
    | error e =>
      rw [hdec] at hi
      obtain ⟨k, b, why, rfl⟩ := frameDecode_error hdec
      obtain ⟨hclean, hraw⟩ := readDatetime_frame hx hi
      exact .decode hpasses rfl hclean hraw hdec

/-- A calendar value that is not valid has a lowest slot out of range. -/
theorem exists_lowest_bad_slot {cv : Calendar} (h : ¬ validCalendar cv) :
    ∃ k, k < 7 ∧ (∀ j, j < k → inRange j (fieldOf cv j)) ∧ ¬ inRange k (fieldOf cv k) := by
  have hbad : ∃ k, k < 7 ∧ ¬ inRange k (fieldOf cv k) := by simpa [validCalendar] using h
  obtain ⟨hk, hout⟩ := Nat.find_spec hbad
  exact ⟨Nat.find hbad, hk, fun j hj => not_not.1 fun hj' => Nat.find_min hbad hj ⟨hj.trans hk, hj'⟩, hout⟩

theorem runWriteDatetime_reports (cv : Calendar) :
    RunReports (.writeDatetime cv) (dataGate .writeDatetime (runWriteDatetime cv)) := by
  refine dataGate_reports rfl fun s evs hpasses hi => ?_
  by_cases hvalid : validCalendar cv
  · rw [runWriteDatetime_ok (frameEncode_valid cv hvalid)] at hi ⊢
    have henc : Encodable (.writeDatetime cv) := by rintro _ ⟨⟩; exact hvalid
    exact transactionThen_reports rfl rfl rfl rfl hi hpasses henc fun _ _ _ h => nomatch h
  · obtain ⟨k, hk, hlowest, hbad⟩ := exists_lowest_bad_slot hvalid
    rw [runWriteDatetime_error (frameEncode_bad cv k hk hlowest hbad)] at hi ⊢
    exact .encode hpasses rfl hk hlowest hbad (hi.eq_nil rfl)

theorem runReadRam_reports : RunReports .readRam (dataGate .readRam runReadRam) :=
  dataGate_reports rfl fun _ _ hpasses hi =>
    transactionThen_reports rfl rfl rfl rfl hi hpasses (encodable_of_not_writeDatetime nofun) fun _ _ _ h => nomatch h

theorem runWriteRam_reports (block : List Byte) : RunReports (.writeRam block) (dataGate .writeRam (runWriteRam block)) := by
  refine dataGate_reports rfl fun s evs hpasses hi => ?_
  rw [runWriteRam_eq] at hi ⊢
  refine transactionThen_reports rfl rfl rfl rfl hi hpasses (encodable_of_not_writeDatetime nofun) fun _ _ b hb => ?_
  exact ⟨block, rfl, (Value.truncated.inj hb).symm⟩

theorem runInitSequence_raisesFirstErr (s : State) : RaisesFirstErr s (runInitSequence s) :=
  ((Follows.pinCall _ s.markInit).raisesFirstErr.andThen fun _ _ _ =>
    (runTransaction_raisesFirstErr _ _ _).andThen fun _ _ _ =>
      (runTransaction_raisesFirstErr _ _ _).andThen fun _ t _ =>
        (RaisesFirstErr.done Value.none t.becomeReady).of_left rfl rfl rfl rfl).of_left rfl rfl rfl rfl

theorem runInit_reports : RunReports .init runInit := by
  intro s evs hi
  cases hpermits : s.permitsInit with
  | false =>
    have hrun : runInit s = .failed (s.lifecycleError .init) s := if_neg (Bool.eq_false_iff.1 hpermits)
    rw [hrun] at hi ⊢
    exact .lifecycle .init (State.refuses_init_iff.2 hpermits) (hi.eq_nil rfl)
  | true =>
    have hrun : runInit s = runInitSequence s := if_pos hpermits
    have hpasses : ¬ s.refuses .init := by rw [State.refuses_init_iff, hpermits]; decide
    rw [hrun] at hi ⊢
    refine (runInitSequence_raisesFirstErr s).reports hi hpasses (encodable_of_not_writeDatetime nofun) fun b t ht => ?_
    have hends := runInitSequence_ends s
    rw [ht] at hends
    cases hends.1

theorem runTeardown_raisesFirstErr (s : State) : RaisesFirstErr s (runTeardown s) := by
  unfold runTeardown
  split
  · exact .done _ _
  · exact ((Follows.callThen _ s.becomeClosed _ fun t _ => Follows.done_nil _ t).raisesFirstErr).of_left rfl rfl rfl rfl

theorem runTeardown_value {s t : State} {v : Value} (h : runTeardown s = .done v t) : v = .none := by
  unfold runTeardown at h
  split at h
  · cases h; rfl
  · obtain ⟨-, hend⟩ := callThen_done h
    cases hend
    rfl

theorem runTeardown_reports : RunReports .teardown runTeardown := by
  intro s evs hi
  have hpasses : ¬ s.refuses .teardown := by simp [State.refuses, isDataOp]
  exact (runTeardown_raisesFirstErr s).reports hi hpasses (encodable_of_not_writeDatetime nofun) fun b t ht => by
    cases runTeardown_value ht

/-! ### The host operations -/

/-- Starting an operation moves the sequencer alone, which no check reads. -/
theorem Reports.of_startOp {i : Instr} {s : State} {op : Op} {evs : List Event} {r : Result}
    (h : Reports i (s.startOp op) evs r) : Reports i s evs r := by
  cases h with
  | lifecycle op' hrefuses hevs => exact .lifecycle (s := s) op' hrefuses hevs
  | encode hpasses hop hk hlowest hbad hevs => exact .encode hpasses hop hk hlowest hbad hevs
  | pinAccess pos hpasses henc hfirst => exact .pinAccess (s := s) pos hpasses henc hfirst
  | decode hpasses hop hclean hraw hdec => exact .decode hpasses hop hclean hraw hdec
  | ok hpasses henc hclean hflag => exact .ok hpasses henc hclean hflag

theorem hostOp_reports {i : Instr} {op : Op} {run : State → Attempt Value} {s t : State} {evs : List Event}
    (hrun : RunReports i run) (h : hostOp op run s = .next t) (hi : Issues s t evs) :
    ∃ r, t.result = some r ∧ Reports i s evs r := by
  obtain ⟨-, -, rfl⟩ := hostOp_next h
  exact ⟨_, finishHost_result _, (hrun _ evs (issues_of_finishHost hi)).of_startOp⟩

/-- Every host operation reports by R249's order. -/
theorem exec_reports {i : Instr} {s t : State} {evs : List Event} (hop : isHostOp i = true) (h : exec i s = .next t)
    (hi : Issues s t evs) : ∃ r, t.result = some r ∧ Reports i s evs r := by
  cases i with
  | init => exact hostOp_reports runInit_reports h hi
  | readDatetime => exact hostOp_reports runReadDatetime_reports h hi
  | writeDatetime cv => exact hostOp_reports (runWriteDatetime_reports cv) h hi
  | readRam => exact hostOp_reports runReadRam_reports h hi
  | writeRam block => exact hostOp_reports (runWriteRam_reports block) h hi
  | teardown => exact hostOp_reports runTeardown_reports h hi
  | _ => cases hop

/-- Settles O44: every host operation reports by the order of `Reports`, and each clause reads one outcome of it. -/
theorem errorPrecedence : Obligations.ErrorPrecedence := by
  intro i s t evs hop h hi
  obtain ⟨r, hr, hrep⟩ := exec_reports hop h hi
  simp only [hr, ne_eq, Option.some.injEq]
  refine ⟨fun hdata => ?data, ?init, fun _ _ _ hlc => ?noEvent, ?encode, fun _ _ hfirst => ?pinAccess,
    fun hclean _ _ _ herr => ?noPinAccess, fun _ _ _ hdec => ?decode, fun _ hflag => ?truncated⟩
  case data => exact hrep.lifecycle_iff.trans (State.refuses_dataOp_iff hdata)
  case init =>
    rintro rfl
    exact hrep.lifecycle_iff.trans State.refuses_init_iff
  case noEvent => exact hrep.events_of_lifecycle hlc
  case encode =>
    rintro cv rfl hready hinvalid
    exact hrep.encode_of_not_valid hready hinvalid
  case pinAccess => exact hrep.pinAccess_of_firstErr hfirst
  case noPinAccess => exact hrep.firstErr_of_pinAccess herr hclean
  case decode => exact hrep.frame_of_decode hdec
  case truncated => exact hrep.block_of_truncated hflag

end Sys2Proof.Machine
end

section
/-! PROOF. Reset (70_reset_and_hazards.md R270), and the events and the least time of each host operation that meets no `Err` (R291):
past its checks it issues exactly its layout, whose events and waits are counted byte by byte. -/

namespace Sys2Proof.Machine

/-- Settles O50: each field of `State.reset` that R270 names, and the shadow pin by pin. -/
theorem resetValues : Obligations.ResetValues :=
  ⟨rfl, rfl, rfl, fun p => by cases p <;> rfl, rfl, rfl, rfl⟩

/-! ### Parts that issue exactly a layout -/

/-- A part that meets no `Err` issues exactly the events of a layout. -/
def IssuesLayout {α : Type} (L : List Shape) (s : State) (x : Attempt α) : Prop :=
  ∃ evs, Issues s x.state evs ∧ (noErr evs = true → evs.map Event.shape = L)

section
variable {α β : Type} {L M : List Shape} {s s' : State} {x : Attempt α}

theorem IssuesLayout.layout {evs : List Event} (h : IssuesLayout L s x) (hi : Issues s x.state evs) (hn : noErr evs = true) :
    evs.map Event.shape = L := by
  obtain ⟨evs', hi', hL⟩ := h
  cases hi'.events_unique hi
  exact hL hn

theorem IssuesLayout.of_state (h : x.state = s) : IssuesLayout [] s x :=
  ⟨[], h ▸ Issues.nil s, fun _ => rfl⟩

/-- A change of the state that events do not read, first. -/
theorem IssuesLayout.of_left (h : IssuesLayout L s' x) (ht : s'.trace = s.trace) (hp : s'.pins = s.pins) (he : s'.env = s.env)
    (hc : s'.cfg = s.cfg) : IssuesLayout L s x := by
  obtain ⟨evs, hi, hL⟩ := h
  exact ⟨evs, hi.of_left ht hp he hc, hL⟩

theorem Follows.issuesLayout (h : Follows L s x) : IssuesLayout L s x := by
  cases x with
  | done a t =>
    obtain ⟨evs, he, hL, -⟩ := h
    exact ⟨evs, he.toIssues, fun _ => hL⟩
  | failed e t =>
    obtain ⟨evs, c, he, -⟩ := h
    exact ⟨_, he.toIssues, fun hn => by rw [noErr_err] at hn; cases hn⟩

/-- One part after another, where the first fails only at an `Err`; the second has the configuration of the first. -/
theorem IssuesLayout.andThen {f : α → State → Attempt β} (hx : IssuesLayout L s x) (hfails : FailsAtErr s x)
    (hf : ∀ a t, t.cfg = s.cfg → IssuesLayout M t (f a t)) : IssuesLayout (L ++ M) s (x.andThen f) := by
  obtain ⟨evs, hi, hL⟩ := hx
  cases x with
  | failed e t =>
    refine ⟨evs, hi, fun hn => ?_⟩
    obtain ⟨a, u, hdone⟩ := hfails.done hi hn
    cases hdone
  | done a t =>
    obtain ⟨evs', hi', hM⟩ := hf a t hi.cfg
    refine ⟨evs ++ evs', hi.append hi', fun hn => ?_⟩
    rw [noErr_append, Bool.and_eq_true] at hn
    rw [List.map_append, hL hn.1, hM hn.2]

end

theorem runTransaction_issuesLayout (toBuf : Bool) (body : List ByteOp) (s : State) :
    IssuesLayout (transactionLayout s.cfg body) s (runTransaction toBuf body s) := by
  obtain ⟨evs, hi, -⟩ := runTransaction_events toBuf body s
  exact ⟨evs, hi, runTransaction_layout hi⟩

/-- One transaction, and then a part without events. -/
theorem transactionThen_issuesLayout {α : Type} {toBuf : Bool} {body : List ByteOp} {s : State}
    {f : List Byte → State → Attempt α} (hf : ∀ bs t, IssuesLayout [] t (f bs t)) :
    IssuesLayout (transactionLayout s.cfg body) s ((runTransaction toBuf body s).andThen f) := by
  have h := (runTransaction_issuesLayout toBuf body s).andThen (runTransaction_failsAtErr toBuf body s)
    fun bs t _ => hf bs t
  rwa [List.append_nil] at h

/-! ### The host operations past their checks -/

/-- A run that passes the checks of its operation and meets no `Err` issues exactly that operation's events. -/
def RunIssuesLayout (i : Instr) (run : State → Attempt Value) : Prop :=
  ∀ s : State, ¬ s.refuses i → Encodable i → IssuesLayout (s.layoutFor i) s (run s)

theorem layoutFor_of_dataOp {i : Instr} (hdata : isDataOp i = true) (s : State) : s.layoutFor i = eventLayout s.cfg i :=
  if_neg fun h => by rw [h.1] at hdata; cases hdata

theorem dataGate_issuesLayout {i : Instr} {op : Op} {run : State → Attempt Value} (hdata : isDataOp i = true)
    (hrun : ∀ s : State, Encodable i → IssuesLayout (eventLayout s.cfg i) s (run s)) : RunIssuesLayout i (dataGate op run) := by
  intro s hpasses henc
  have hready : s.lifecycle = .ready := not_not.1 (mt (State.refuses_dataOp_iff hdata).2 hpasses)
  rw [dataGate_ready hready, layoutFor_of_dataOp hdata]
  exact hrun s henc

theorem runReadDatetime_issuesLayout : RunIssuesLayout .readDatetime (dataGate .readDatetime runReadDatetime) :=
  dataGate_issuesLayout rfl fun s _ =>
    (transactionThen_issuesLayout (s := s.beginBuf) fun _ t => .of_state (by cases frameDecode (frameOfBuf t.buf) <;> rfl)).of_left
      rfl rfl rfl rfl

/-- The layout of a WRITE_DATETIME whose value FRAME_ENC takes (43_register_codec.md R191). -/
theorem eventLayout_writeDatetime {cv : Calendar} {f : Frame} (hf : frameEncode cv = .ok f) (cfg : Config) :
    eventLayout cfg (.writeDatetime cv) =
      transactionLayout cfg ((0xBE#8 :: (f.toList ++ [cfg.padByte, cfg.padByte])).map .wr) := by
  rw [eventLayout, bodyOf, hf]
  rfl

theorem runWriteDatetime_issuesLayout (cv : Calendar) :
    RunIssuesLayout (.writeDatetime cv) (dataGate .writeDatetime (runWriteDatetime cv)) :=
  dataGate_issuesLayout rfl fun s henc => by
    have hf := frameEncode_valid cv (henc cv rfl)
    rw [runWriteDatetime_ok hf, eventLayout_writeDatetime hf]
    exact (transactionThen_issuesLayout (s := s.beginBuf.storeBuf _) fun _ _ => .of_state rfl).of_left rfl rfl rfl rfl

theorem runReadRam_issuesLayout : RunIssuesLayout .readRam (dataGate .readRam runReadRam) :=
  dataGate_issuesLayout rfl fun s _ =>
    (transactionThen_issuesLayout (s := s.beginBuf) fun _ _ => .of_state rfl).of_left rfl rfl rfl rfl

theorem runWriteRam_issuesLayout (block : List Byte) :
    RunIssuesLayout (.writeRam block) (dataGate .writeRam (runWriteRam block)) :=
  dataGate_issuesLayout rfl fun s _ => by
    rw [runWriteRam_eq]
    exact (transactionThen_issuesLayout (s := s.beginBuf.storeBuf (block.take 31)) fun _ _ => .of_state rfl).of_left
      rfl rfl rfl rfl

/-- INIT's sequence: the CFG, then its two transactions (44_lifecycle.md R220). -/
theorem runInitSequence_issuesLayout (s : State) : IssuesLayout (eventLayout s.cfg .init) s (runInitSequence s) := by
  refine (IssuesLayout.andThen (L := [.call (.cfg [.clk, .rst] .output (some .low))])
    (Follows.pinCall _ s.markInit).issuesLayout (Follows.pinCall _ s.markInit).failsAtErr fun _ t ht => ?_).of_left rfl rfl rfl rfl
  rw [← show t.cfg = s.cfg from ht]
  refine (runTransaction_issuesLayout false (writeFormat .wpWrite [0x00#8]) t).andThen (runTransaction_failsAtErr _ _ _)
    fun _ u hu => ?_
  rw [← hu]
  exact transactionThen_issuesLayout fun _ w => (IssuesLayout.of_state (s := w.becomeReady) rfl).of_left rfl rfl rfl rfl

theorem runInit_issuesLayout : RunIssuesLayout .init runInit := by
  intro s hpasses _
  have hpermits : s.permitsInit = true := by rwa [State.refuses_init_iff, Bool.not_eq_false] at hpasses
  rw [show runInit s = runInitSequence s from if_pos hpermits]
  exact runInitSequence_issuesLayout s

theorem layoutFor_teardown (s : State) :
    s.layoutFor .teardown = if s.lifecycle = .closed then [] else [.call (.rel [.clk, .data, .rst])] := by
  simp [State.layoutFor, eventLayout]

theorem runTeardown_issuesLayout : RunIssuesLayout .teardown runTeardown := by
  intro s _ _
  rw [layoutFor_teardown]
  unfold runTeardown
  split
  · exact .of_state rfl
  · exact (Follows.callThen _ s.becomeClosed _ fun t _ => Follows.done_nil _ t).issuesLayout.of_left rfl rfl rfl rfl

theorem hostOp_layout {i : Instr} {op : Op} {run : State → Attempt Value} {s t : State} {evs : List Event}
    (hrun : RunIssuesLayout i run) (hpasses : ¬ s.refuses i) (henc : Encodable i) (h : hostOp op run s = .next t)
    (hi : Issues s t evs) (hn : noErr evs = true) : evs.map Event.shape = s.layoutFor i := by
  obtain ⟨-, -, rfl⟩ := hostOp_next h
  exact (hrun (s.startOp op) hpasses henc).layout (issues_of_finishHost hi) hn

/-- A host operation past its checks that meets no `Err` issues exactly its events. -/
theorem exec_layout {i : Instr} {s t : State} {evs : List Event} (hop : isHostOp i = true) (hpasses : ¬ s.refuses i)
    (henc : Encodable i) (h : exec i s = .next t) (hi : Issues s t evs) (hn : noErr evs = true) :
    evs.map Event.shape = s.layoutFor i := by
  cases i with
  | init => exact hostOp_layout runInit_issuesLayout hpasses henc h hi hn
  | readDatetime => exact hostOp_layout runReadDatetime_issuesLayout hpasses henc h hi hn
  | writeDatetime cv => exact hostOp_layout (runWriteDatetime_issuesLayout cv) hpasses henc h hi hn
  | readRam => exact hostOp_layout runReadRam_issuesLayout hpasses henc h hi hn
  | writeRam block => exact hostOp_layout (runWriteRam_issuesLayout block) hpasses henc h hi hn
  | teardown => exact hostOp_layout runTeardown_issuesLayout hpasses henc h hi hn
  | _ => cases hop

theorem isHostOp_of_isDataOp {i : Instr} (h : isDataOp i = true) : isHostOp i = true := by
  cases i with
  | readDatetime | writeDatetime _ | readRam | writeRam _ => rfl
  | _ => cases h

theorem dataOp_layout {i : Instr} {s t : State} {evs : List Event} (hdata : isDataOp i = true) (hready : s.lifecycle = .ready)
    (henc : Encodable i) (h : exec i s = .next t) (hi : Issues s t evs) (hn : noErr evs = true) :
    evs.map Event.shape = eventLayout s.cfg i := by
  rw [← layoutFor_of_dataOp hdata]
  exact exec_layout (isHostOp_of_isDataOp hdata) (fun hrefuses => (State.refuses_dataOp_iff hdata).1 hrefuses hready) henc h hi hn

/-! ### The least time of a layout (70_reset_and_hazards.md R290) -/

/-- The time an event of this shape takes at least. -/
def Shape.waitTime : Shape → Nat
  | .call _ => 0
  | .wait t => t

/-- The least time of a layout: the sum of its waits. -/
def layoutTime (L : List Shape) : Nat := (L.map Shape.waitTime).sum

@[simp] theorem layoutTime_nil : layoutTime [] = 0 := rfl

@[simp] theorem layoutTime_cons (x : Shape) (L : List Shape) : layoutTime (x :: L) = x.waitTime + layoutTime L :=
  List.sum_cons

@[simp] theorem layoutTime_append (L M : List Shape) : layoutTime (L ++ M) = layoutTime L + layoutTime M := by
  rw [layoutTime, List.map_append, List.sum_append]
  rfl

theorem waitTotal_eq_layoutTime (evs : List Event) : waitTotal evs = layoutTime (evs.map Event.shape) := by
  induction evs with
  | nil => rfl
  | cons e evs ih =>
    rw [List.map_cons, layoutTime_cons, ← ih]
    cases e with
    | call c r => exact (Nat.zero_add _).symm
    | wait t => rfl

/-- Parts that take the same time each. -/
theorem layoutTime_flatMap {α : Type} {f : α → List Shape} {k : Nat} {as : List α} (h : ∀ a ∈ as, layoutTime (f a) = k) :
    layoutTime (as.flatMap f) = as.length * k := by
  induction as with
  | nil => exact (Nat.zero_mul k).symm
  | cons a as ih =>
    rw [List.forall_mem_cons] at h
    rw [List.flatMap_cons, layoutTime_append, h.1, ih h.2, List.length_cons, Nat.succ_mul, Nat.add_comm]

/-- A cell of a write byte has 2 waits (41_bit_transport.md R143). -/
theorem layoutTime_writeCellLayout (cfg : Config) (b : Bool) : layoutTime (writeCellLayout cfg b) = 2 * cfg.tSettle := by
  simp [writeCellLayout, Shape.waitTime, Nat.two_mul]

/-- So has a cell of a read byte. -/
theorem layoutTime_readCellLayout (cfg : Config) : layoutTime (readCellLayout cfg) = 2 * cfg.tSettle := by
  simp [readCellLayout, Shape.waitTime, Nat.two_mul]

/-- A byte of either direction is a CFG, which takes no time, and 8 cells. -/
theorem layoutTime_byteLayout (cfg : Config) (b : ByteOp) : layoutTime (byteLayout cfg b) = 16 * cfg.tSettle := by
  have hcells : 0 + 8 * (2 * cfg.tSettle) = 16 * cfg.tSettle := by omega
  cases b with
  | wr v =>
    rw [byteLayout, writeByteLayout, layoutTime_cons, layoutTime_flatMap fun b _ => layoutTime_writeCellLayout cfg b]
    exact hcells
  | rd =>
    rw [byteLayout, readByteLayout, layoutTime_cons, ← List.flatMap_id, layoutTime_flatMap (k := 2 * cfg.tSettle) fun L hL =>
      List.eq_of_mem_replicate hL ▸ layoutTime_readCellLayout cfg]
    exact hcells

theorem layoutTime_bytesLayout (cfg : Config) (body : List ByteOp) :
    layoutTime (body.flatMap (byteLayout cfg)) = 16 * body.length * cfg.tSettle := by
  rw [layoutTime_flatMap fun b _ => layoutTime_byteLayout cfg b]
  ring

/-- BEGIN and END wait for nothing, so a transaction takes the time of its bytes. -/
theorem layoutTime_transactionLayout (cfg : Config) (body : List ByteOp) :
    layoutTime (transactionLayout cfg body) = 16 * body.length * cfg.tSettle := by
  rw [transactionLayout, layoutTime_append, layoutTime_append, layoutTime_bytesLayout]
  exact Nat.zero_add _

/-! ### The counts -/

/-- How many events, and how long they take at least, by the layout they have. -/
theorem counts_of_layout {evs : List Event} {L : List Shape} (h : evs.map Event.shape = L) :
    evs.length = L.length ∧ waitTotal evs = layoutTime L := by
  rw [waitTotal_eq_layoutTime, h, ← h, List.length_map]
  exact ⟨rfl, rfl⟩

/-- A transaction of m bytes has 5 + 41 m events and takes 16 m settle delays (30_encoding.md R102, R290). -/
theorem transaction_counts {evs : List Event} {cfg : Config} {body : List ByteOp} {m : Nat} (hm : body.length = m)
    (h : evs.map Event.shape = transactionLayout cfg body) :
    evs.length = 5 + 41 * m ∧ waitTotal evs = 16 * m * cfg.tSettle := by
  rw [← hm, ← transactionLayout_length cfg, ← layoutTime_transactionLayout]
  exact counts_of_layout h

/-- INIT: one CFG and two transactions of two bytes (44_lifecycle.md R220). -/
theorem init_counts {evs : List Event} {cfg : Config} (h : evs.map Event.shape = eventLayout cfg .init) :
    evs.length = 175 ∧ waitTotal evs = 64 * cfg.tSettle := by
  obtain ⟨hlen, htime⟩ := counts_of_layout h
  rw [eventLayout, List.length_cons, List.length_append, transactionLayout_length, transactionLayout_length] at hlen
  rw [eventLayout, layoutTime_cons, layoutTime_append, layoutTime_transactionLayout, layoutTime_transactionLayout] at htime
  refine ⟨hlen, htime.trans ?_⟩
  simp only [Shape.waitTime, List.length_cons, List.length_nil]
  omega

theorem teardown_counts {s : State} {evs : List Event} (h : evs.map Event.shape = s.layoutFor .teardown) :
    evs.length = (if s.lifecycle = .closed then 0 else 1) ∧ waitTotal evs = 0 := by
  rw [layoutFor_teardown] at h
  obtain ⟨hlen, htime⟩ := counts_of_layout h
  rw [hlen, htime]
  split <;> exact ⟨rfl, rfl⟩

/-- Settles O46: past its checks each host operation issues its layout, one CFG and two transactions for INIT, one REL for TEARDOWN,
and one transaction of 8, 10, 32 or 1 + min(L, 31) bytes for the data operations. -/
theorem eventAndWaitCounts : Obligations.EventAndWaitCounts := by
  intro i s t evs h hi hn
  refine ⟨?init, ?readDatetime, ?writeDatetime, ?readRam, ?writeRam, ?teardown⟩
  case init =>
    rintro rfl hpermits
    have hpasses : ¬ s.refuses .init := by rw [State.refuses_init_iff, hpermits]; decide
    exact init_counts (exec_layout rfl hpasses (encodable_of_not_writeDatetime nofun) h hi hn)
  case readDatetime =>
    rintro rfl hready
    exact transaction_counts (m := 8) rfl (dataOp_layout rfl hready (encodable_of_not_writeDatetime (i := .readDatetime) nofun) h hi hn)
  case writeDatetime =>
    rintro cv rfl hvalid hready
    have henc : Encodable (.writeDatetime cv) := by rintro _ ⟨⟩; exact hvalid
    have hlayout := dataOp_layout rfl hready henc h hi hn
    rw [eventLayout_writeDatetime (frameEncode_valid cv hvalid)] at hlayout
    exact transaction_counts (m := 10) rfl hlayout
  case readRam =>
    rintro rfl hready
    exact transaction_counts (m := 32) rfl (dataOp_layout rfl hready (encodable_of_not_writeDatetime (i := .readRam) nofun) h hi hn)
  case writeRam =>
    rintro block rfl hready
    have hbytes : ((0xFE#8 :: block.take 31).map ByteOp.wr).length = 1 + min block.length 31 := by
      rw [List.length_map, List.length_cons, List.length_take]
      omega
    have henc : Encodable (.writeRam block) := encodable_of_not_writeDatetime nofun
    obtain ⟨hlen, htime⟩ := transaction_counts hbytes (dataOp_layout rfl hready henc h hi hn)
    exact ⟨by omega, htime⟩
  case teardown =>
    rintro rfl
    have hpasses : ¬ s.refuses .teardown := by simp [State.refuses, isDataOp]
    exact teardown_counts (exec_layout rfl hpasses (encodable_of_not_writeDatetime nofun) h hi hn)

end Sys2Proof.Machine
end

section
/-! PROOF. Wire images and lines: encoding and printing lose nothing, and the decoder accepts nothing else (30_encoding.md sections 1, 2
and 6). -/

namespace Sys2Proof

/-- Settles O1: each word is decoded by evaluation. -/
theorem commandWordsDecode : Obligations.CommandWordsDecode := by
  unfold Obligations.CommandWordsDecode
  decide

/-! ### Wire images -/

/-- A wire image that starts with a command's byte is decoded by the command's format (R101). -/
theorem decode_code (c : Command) (data : List Byte) : decode (c.code :: data) = decodeData c data := by
  simp only [decode, Command.ofByte_code]

theorem decodeNone_eq_ok {c : Command} {i j : Instr} {data : List Byte} (h : decodeNone c i data = .ok j) :
    data = [] ∧ i = j := by
  cases data with
  | nil => exact ⟨rfl, Except.ok.inj h⟩
  | cons d ds => cases h

theorem decodeOne_eq_ok {c : Command} {f : Byte → Instr} {j : Instr} {data : List Byte} (h : decodeOne c f data = .ok j) :
    ∃ d, data = [d] ∧ f d = j := by
  match data with
  | [] => cases h
  | [d] => exact ⟨d, rfl, Except.ok.inj h⟩
  | _ :: _ :: _ => cases h

theorem decodeNine_eq_ok {j : Instr} {data : List Byte} (h : decodeNine data = .ok j) :
    ∃ (f : Frame) (p q : Byte), data = f.toList ++ [p, q] ∧ .cmdClockBurstWrite f p q = j := by
  unfold decodeNine at h
  split at h
  next s m hr d mo w y p q => exact ⟨⟨s, m, hr, d, mo, w, y⟩, p, q, rfl, Except.ok.inj h⟩
  next => cases h

theorem decodeUpTo31_eq_ok {j : Instr} {data : List Byte} (h : decodeUpTo31 data = .ok j) :
    data.length ≤ Config.ramLen ∧ .cmdRamBurstWrite data = j := by
  unfold decodeUpTo31 at h
  split at h
  next hlen => exact ⟨hlen, Except.ok.inj h⟩
  next => cases h

/-- What a command's format accepts is the data of a well-formed instruction of that command. -/
theorem encode_of_decodeData {c : Command} {data : List Byte} {i : Instr} (h : decodeData c data = .ok i) :
    encode i = some (c.code :: data) ∧ i.wellFormed = true := by
  cases c with
  | wpRead | tcRead | clockBurstRead | ramBurstRead =>
    obtain ⟨rfl, rfl⟩ := decodeNone_eq_ok h
    exact ⟨rfl, rfl⟩
  | wpWrite | tcWrite =>
    obtain ⟨d, rfl, rfl⟩ := decodeOne_eq_ok h
    exact ⟨rfl, rfl⟩
  | clockBurstWrite =>
    obtain ⟨f, p, q, rfl, rfl⟩ := decodeNine_eq_ok h
    exact ⟨rfl, rfl⟩
  | ramBurstWrite =>
    obtain ⟨hlen, rfl⟩ := decodeUpTo31_eq_ok h
    exact ⟨rfl, decide_eq_true hlen⟩

/-- Settles O4: what is decoded starts with a command's byte, and each format accepts only its own data. -/
theorem wireDecodingExact : Obligations.WireDecodingExact := by
  intro bytes i h
  cases bytes with
  | nil => cases h
  | cons b data =>
    cases hc : Command.ofByte b with
    | none => simp [decode, hc] at h
    | some c =>
      obtain rfl := Command.ofByte_some hc
      rw [decode_code] at h
      exact encode_of_decodeData h

/-- A well-formed command row is decoded from its wire image. -/
theorem decode_encode {i : Instr} {bytes : List Byte} (h : encode i = some bytes) (hwf : i.wellFormed = true) :
    decode bytes = .ok i := by
  cases i with
  | cmdWpRead => cases h; exact decode_code .wpRead []
  | cmdWpWrite d => cases h; exact decode_code .wpWrite [d]
  | cmdTcRead => cases h; exact decode_code .tcRead []
  | cmdTcWrite d => cases h; exact decode_code .tcWrite [d]
  | cmdClockBurstRead => cases h; exact decode_code .clockBurstRead []
  | cmdClockBurstWrite f p q => cases h; exact decode_code .clockBurstWrite (f.toList ++ [p, q])
  | cmdRamBurstRead => cases h; exact decode_code .ramBurstRead []
  | cmdRamBurstWrite data =>
    cases h
    exact (decode_code .ramBurstWrite data).trans (if_pos (of_decide_eq_true hwf))
  | _ => cases h

theorem encode_wireForm (i : Instr) : Laws.WireForm.Statement i := by
  cases i with
  | cmdWpRead => exact Laws.WireForm.cmdWpRead
  | cmdWpWrite d => exact Laws.WireForm.cmdWpWrite d
  | cmdTcRead => exact Laws.WireForm.cmdTcRead
  | cmdTcWrite d => exact Laws.WireForm.cmdTcWrite d
  | cmdClockBurstRead => exact Laws.WireForm.cmdClockBurstRead
  | cmdClockBurstWrite f p q => exact Laws.WireForm.cmdClockBurstWrite f p q
  | cmdRamBurstRead => exact Laws.WireForm.cmdRamBurstRead
  | cmdRamBurstWrite data => exact Laws.WireForm.cmdRamBurstWrite data
  | _ => intro bytes h; cases h

/-- The table word of bytes that lack no data byte of their command is those bytes: nothing is filled in (log 6). -/
theorem tableBytes_wordOfBytes {c : Command} {data : List Byte} (hlen : c.writeCount ≤ data.length) :
    tableBytes (8 * (c.code :: data).length) (wordOfBytes (c.code :: data)) = c.code :: data := by
  rw [tableBytes, Nat.mul_div_cancel_left _ (by decide), lowBytes_word]
  simp only [Command.ofByte_code, Nat.sub_eq_zero_of_le hlen, List.replicate_zero, List.append_nil]

/-- Settles O3: each format reads back the data its encoder laid out, and a wire image is its own table word's bytes. -/
theorem wireRoundTrip : Obligations.WireRoundTrip := by
  intro i bytes h hwf
  have hdecode := decode_encode h hwf
  obtain ⟨c, data, rfl, hlen, -⟩ := encode_wireForm i bytes h hwf
  refine ⟨hdecode, ?_⟩
  rw [decodeTableWord, tableBytes_wordOfBytes hlen, hdecode]

/-! ### Lines -/

theorem parseLine_of_tokens {cs : List Char} {toks : List Token} {i : Instr} (hlex : lexFrom [] cs = some toks)
    (hparse : parseTokens toks = some i) : parseLine cs = .ok i := by
  simp only [parseLine, lexLine, hlex, Option.bind_some, hparse]

/-- A line of one word: the operation it names. -/
theorem parseLine_word {w tl : List Char} {i : Instr} (hw : (∀ c ∈ w, isWordChar c = true) ∧ w ≠ []) (ht : LineEnd tl)
    (hparse : parseTokens [.word w] = some i) : parseLine (w ++ tl) = .ok i :=
  parseLine_of_tokens (lex_word_lineEnd w tl hw.1 hw.2 ht) hparse

/-- A line of a word and operands. -/
theorem parseLine_operands {w rest : List Char} {toks : List Token} {i : Instr} (hw : (∀ c ∈ w, isWordChar c = true) ∧ w ≠ [])
    (hlex : lexFrom [] rest = some toks) (hparse : parseTokens (.word w :: toks) = some i) :
    parseLine (w ++ ' ' :: rest) = .ok i :=
  parseLine_of_tokens (by rw [lex_word_sp w rest hw.1 hw.2, hlex]; rfl) hparse

/-- The tokens of words with commas between them. -/
def separatedTokens : List (List Char) → List Token
  | [] => []
  | [w] => [.word w]
  | w :: v :: ws => .word w :: .comma :: separatedTokens (v :: ws)

/-- Naturals with commas between them are split into their words. -/
theorem lex_numbers (ns : List Nat) (n : Nat) {tl : List Char} (ht : LineEnd tl) :
    lexFrom [] (printSeparated ((n :: ns).map printNat) ++ tl) = some (separatedTokens ((n :: ns).map printNat)) := by
  induction ns generalizing n with
  | nil => exact lex_word_lineEnd _ _ (printNat_spec n).1 (printNat_spec n).2.1 ht
  | cons m ns ih =>
    have hrest := ih m
    obtain ⟨hword, hne, -⟩ := printNat_spec n
    simp only [List.map_cons, printSeparated, List.append_assoc, List.cons_append, List.nil_append] at hrest ⊢
    rw [lex_word_comma _ _ hword hne, hrest]
    rfl

theorem parseCalendar_printed (cv : Calendar) :
    parseCalendar (separatedTokens ([cv.sec, cv.min, cv.hour, cv.day, cv.month, cv.wday, cv.yy].map printNat)) = some cv := by
  simp [separatedTokens, parseCalendar, printNat_spec]

/-- A RAM block is read back, whatever may end the line. -/
theorem lex_block (block : List Byte) {tl : List Char} (ht : LineEnd tl) :
    ∃ toks, lexFrom [] ('[' :: (printSeparated (block.map printHexByte) ++ ']' :: tl)) = some (.opening :: toks) ∧
      parseBlock (.opening :: toks) = some block := by
  cases block with
  | nil =>
    refine ⟨[.closing], ?_, rfl⟩
    simp [printSeparated, lexFrom, flushWord, lex_lineEnd [] tl ht]
  | cons b bs =>
    obtain ⟨toks, hlex, hmore⟩ := lex_bytes bs b tl ht
    refine ⟨.word (printHexByte b) :: toks, ?_, ?_⟩
    · rw [lexFrom, hlex]
      rfl
    · simp [parseBlock, (hexByte_spec b).2.2, hmore]

/-- WRBYTE's operand is one word, `0x` and two digits. -/
theorem hexOperand_word (v : Byte) : (∀ c ∈ '0' :: 'x' :: printHexByte v, isWordChar c = true) ∧ '0' :: 'x' :: printHexByte v ≠ [] := by
  refine ⟨?_, nofun⟩
  rw [List.forall_mem_cons, List.forall_mem_cons]
  exact ⟨by decide, by decide, (hexByte_spec v).1⟩

theorem parse_printLine {i : Instr} {text tl : List Char} (h : printLine i = some text) (ht : LineEnd tl) :
    parseLine (text ++ tl) = .ok i := by
  cases i with
  | init => cases h; exact parseLine_word (kw_word _ (by simp)) ht rfl
  | readDatetime => cases h; exact parseLine_word (kw_word _ (by simp)) ht rfl
  | readRam => cases h; exact parseLine_word (kw_word _ (by simp)) ht rfl
  | teardown => cases h; exact parseLine_word (kw_word _ (by simp)) ht rfl
  | txnBegin => cases h; exact parseLine_word (kw_word _ (by simp)) ht rfl
  | txnEnd => cases h; exact parseLine_word (kw_word _ (by simp)) ht rfl
  | rdByte => cases h; exact parseLine_word (kw_word _ (by simp)) ht rfl
  | writeDatetime cv =>
    cases h
    have hlex := lex_numbers [cv.min, cv.hour, cv.day, cv.month, cv.wday, cv.yy] cv.sec ht
    rw [List.append_assoc, List.append_assoc]
    refine parseLine_operands (kw_word kwWriteDatetime (by simp)) hlex ?_
    exact congrArg (Option.map Instr.writeDatetime) (parseCalendar_printed cv)
  | writeRam block =>
    cases h
    obtain ⟨toks, hlex, hblock⟩ := lex_block block ht
    simp only [List.append_assoc, List.cons_append, List.nil_append]
    refine parseLine_operands (kw_word kwWriteRam (by simp)) hlex ?_
    exact congrArg (Option.map Instr.writeRam) hblock
  | wrByte v =>
    cases h
    obtain ⟨hword, hne⟩ := hexOperand_word v
    simp only [List.append_assoc, List.cons_append, List.nil_append]
    refine parseLine_operands (kw_word kwWrByte (by simp)) (lex_word_lineEnd _ tl hword hne ht) ?_
    exact congrArg (Option.map Instr.wrByte) (hexByte_spec v).2.2
  | _ => cases h

/-- Settles O5: a line lexes to its word and its operands' tokens, and the end of the line adds none. -/
theorem lineRoundTrip : Obligations.LineRoundTrip := by
  intro i text comment h
  refine ⟨?_, ?_⟩
  · have hline := parse_printLine h (tl := []) (.inl rfl)
    rwa [List.append_nil] at hline
  · rw [List.append_assoc]
    exact parse_printLine h (.inr ⟨comment, rfl⟩)

end Sys2Proof
end

section
/-! PROOF. Precise errors (60_exceptions.md R241, R250): the run of every instruction fits its layout, so its trace is what R250 says
for the error it reports, and every step only issues events (10_state.md R40 to R42). -/

namespace Sys2Proof.Machine

/-! ### Runs that fit the layout of their instruction -/

/-- A part with the state and the error of one that fits. -/
theorem Fits.congr {α β : Type} {L : List Shape} {aft : Nat → List Shape} {s : State} {x : Attempt α} {y : Attempt β}
    (h : Fits L aft s x) (hstate : y.state = x.state) (herr : y.error? = x.error?) : Fits L aft s y := by
  rwa [Fits, hstate, herr]

/-- A part that makes its value at once, and changes nothing that events read. -/
theorem Fits.andThen_done {α β : Type} {L : List Shape} {aft : Nat → List Shape} {s : State} {x : Attempt α}
    {v : α → State → β} {g : State → State} (h : Fits L aft s x)
    (hg : ∀ t, (g t).trace = t.trace ∧ (g t).seq = t.seq ∧ (g t).pins = t.pins ∧ (g t).env = t.env ∧ (g t).cfg = t.cfg) :
    Fits L aft s (x.andThen fun a t => .done (v a t) (g t)) := by
  cases x with
  | failed e t => exact h.congr rfl rfl
  | done a t =>
    obtain ⟨evs, hi, hfit, hseq⟩ := h
    obtain ⟨htrace, hgseq, hpins, henv, hcfg⟩ := hg t
    exact ⟨evs, hi.of_right htrace hpins henv hcfg, hfit, fun h => hgseq.trans (hseq h)⟩

/-- One transaction from a state that differs from `s` in what events do not read, and then a value. -/
theorem transactionThen_fits {β : Type} {toBuf : Bool} {body : List ByteOp} {s u : State} {v : List Byte → State → β}
    (htrace : u.trace = s.trace) (hseq : u.seq = s.seq) (hpins : u.pins = s.pins) (henv : u.env = s.env) (hcfg : u.cfg = s.cfg) :
    Fits (transactionLayout s.cfg body) (txnAfterFailure body.length) s
      ((runTransaction toBuf body u).andThen fun bs t => .done (v bs t) t) := by
  rw [← hcfg]
  exact ((runTransaction_fits toBuf body u).andThen_done fun _ => ⟨rfl, rfl, rfl, rfl, rfl⟩).of_left htrace hseq hpins henv hcfg

/-- Only what runs after an event of the layout matters. -/
theorem Fits.congr_after {α : Type} {L : List Shape} {aft aft' : Nat → List Shape} {s : State} {x : Attempt α}
    (h : Fits L aft s x) (haft : ∀ n, n < L.length → aft n = aft' n) : Fits L aft' s x := by
  obtain ⟨evs, hi, hfit, hseq⟩ := h
  refine ⟨evs, hi, ?_, hseq⟩
  unfold EventsFit at hfit ⊢
  split
  case h_5 c idx pos herr =>
    rw [herr] at hfit
    obtain ⟨n, hfirst, hn, hidx, hpos, htake, hdrop⟩ := hfit
    exact ⟨n, hfirst, hn, hidx, hpos, htake, hdrop.trans (haft n hn)⟩
  all_goals simp_all

/-- A part that raises at once an error that no pin call gives. -/
theorem Fits.refused {α : Type} {L : List Shape} {aft : Nat → List Shape} {s t : State} {e : OpError}
    (he : (∃ op lc a, e = .lifecycle op lc a) ∨ ∃ k v, e = .encode k v) (hi : Issues s t []) :
    Fits L aft s (Attempt.failed (α := α) e t) := by
  refine ⟨[], hi, ?_, nofun⟩
  obtain ⟨op, lc, a, rfl⟩ | ⟨k, v, rfl⟩ := he <;> rfl

/-- A run that, from any state, fits the layout of its instruction. -/
def RunFits (i : Instr) (run : State → Attempt Value) : Prop :=
  ∀ s : State, Fits (s.layoutFor i) (afterFailure s.cfg i) s (run s)

theorem dataGate_fits {i : Instr} {op : Op} {run : State → Attempt Value} (hdata : isDataOp i = true)
    (hrun : ∀ s : State, Fits (eventLayout s.cfg i) (afterFailure s.cfg i) s (run s)) : RunFits i (dataGate op run) := by
  intro s
  by_cases hready : s.lifecycle = .ready
  · rw [dataGate_ready hready, layoutFor_of_dataOp hdata]
    exact hrun s
  · rw [dataGate_not_ready hready]
    exact .refused (.inl ⟨_, _, _, rfl⟩) (.nil s)

theorem runReadDatetime_fits : RunFits .readDatetime (dataGate .readDatetime runReadDatetime) := by
  refine dataGate_fits rfl fun s => ?_
  have hfits := (runTransaction_fits true (readFormat .clockBurstRead) s.beginBuf).of_left (s := s) rfl rfl rfl rfl rfl
  unfold runReadDatetime
  cases hx : runTransaction true (readFormat .clockBurstRead) s.beginBuf with
  | failed e t => rw [hx] at hfits; exact hfits.congr rfl rfl
  | done bs t =>
    rw [hx] at hfits
    rw [Attempt.andThen]
    cases hdec : frameDecode (frameOfBuf t.buf) with
    | ok cv => exact hfits.congr rfl rfl
    | error e =>
      obtain ⟨slot, b, why, rfl⟩ := frameDecode_error hdec
      obtain ⟨evs, hi, hlayout, -⟩ := hfits
      exact ⟨evs, hi, hlayout, nofun⟩

theorem runWriteDatetime_fits (cv : Calendar) : RunFits (.writeDatetime cv) (dataGate .writeDatetime (runWriteDatetime cv)) := by
  refine dataGate_fits rfl fun s => ?_
  by_cases hvalid : validCalendar cv
  · have henc := frameEncode_valid cv hvalid
    rw [runWriteDatetime_ok henc, eventLayout_writeDatetime henc]
    have haft : afterFailure s.cfg (.writeDatetime cv) = txnAfterFailure 10 := by
      funext n
      rw [afterFailure, bodyOf, henc]
      rfl
    rw [haft]
    exact transactionThen_fits rfl rfl rfl rfl rfl
  · obtain ⟨k, hk, hlowest, hbad⟩ := exists_lowest_bad_slot hvalid
    rw [runWriteDatetime_error (frameEncode_bad cv k hk hlowest hbad)]
    exact .refused (.inr ⟨_, _, rfl⟩) ((Issues.nil s).of_right rfl rfl rfl rfl)

theorem runReadRam_fits : RunFits .readRam (dataGate .readRam runReadRam) :=
  dataGate_fits rfl fun _ => transactionThen_fits (body := readFormat .ramBurstRead) rfl rfl rfl rfl rfl

theorem runWriteRam_fits (block : List Byte) : RunFits (.writeRam block) (dataGate .writeRam (runWriteRam block)) :=
  dataGate_fits rfl fun s => by
    rw [runWriteRam_eq]
    exact transactionThen_fits rfl rfl rfl rfl rfl

/-- A part whose only error is that of a pin call. -/
def OnlyPinAccess {α : Type} (x : Attempt α) : Prop := ∀ e t, x = .failed e t → ∃ c idx pos, e = .pinAccess c idx pos

theorem pinCall_onlyPinAccess (c : Call) (s : State) : OnlyPinAccess (pinCall c s) := by
  intro e t h
  obtain ⟨l, hx, -⟩ | ⟨hx, -⟩ := pinCall_cases c s <;> rw [hx] at h <;> cases h
  exact ⟨_, _, _, rfl⟩

theorem OnlyPinAccess.andThen {α β : Type} {x : Attempt α} {f : α → State → Attempt β} (hx : OnlyPinAccess x)
    (hf : ∀ a t, OnlyPinAccess (f a t)) : OnlyPinAccess (x.andThen f) := by
  intro e t h
  cases x with
  | done a u => exact hf a u e t h
  | failed e' u => cases h; exact hx _ _ rfl

theorem runTransaction_onlyPinAccess (toBuf : Bool) (body : List ByteOp) (s : State) :
    OnlyPinAccess (runTransaction toBuf body s) := fun _ _ h => runTransaction_error _ _ _ _ _ h

/-- One part after another, where neither raises an error but that of a call. -/
theorem Fits.andThen_calls {α β : Type} {L M : List Shape} {aft aft' : Nat → List Shape} {s : State} {x : Attempt α}
    {f : α → State → Attempt β} (hx : Fits L aft s x) (hcalls : OnlyPinAccess x) (hcalls' : ∀ a t, OnlyPinAccess (f a t))
    (hf : ∀ a t, t.cfg = s.cfg → Fits M aft' t (f a t)) :
    Fits (L ++ M) (fun n => if n < L.length then aft n else aft' (n - L.length)) s (x.andThen f) := by
  refine hx.andThen (fun k b w t h => ?_) (fun a t h => ?_) (fun a t k v u _ h => ?_) (fun a t o l i u _ h => ?_)
  · obtain ⟨_, _, _, he⟩ := hcalls _ _ h
    cases he
  · obtain ⟨evs, hi, -⟩ := hx
    rw [h] at hi
    exact hf a t hi.cfg
  · obtain ⟨_, _, _, he⟩ := hcalls' a t _ _ h
    cases he
  · obtain ⟨_, _, _, he⟩ := hcalls' a t _ _ h
    cases he

/-- INIT's last transaction, after which it is READY (R220). -/
theorem initSecond_onlyPinAccess (s : State) :
    OnlyPinAccess ((runTransaction false (writeFormat .tcWrite [0x00#8]) s).andThen fun _ t => .done Value.none t.becomeReady) :=
  (runTransaction_onlyPinAccess _ _ _).andThen fun _ _ _ _ h => nomatch h

/-- INIT's two transactions (R220). -/
theorem initTransactions_fits (s : State) :
    Fits (transactionLayout s.cfg [.wr 0x8E#8, .wr 0x00#8] ++ transactionLayout s.cfg [.wr 0x90#8, .wr 0x00#8])
      (fun n => txnAfterFailure 2 (n % 87)) s
      ((runTransaction false (writeFormat .wpWrite [0x00#8]) s).andThen fun _ t =>
        (runTransaction false (writeFormat .tcWrite [0x00#8]) t).andThen fun _ u => .done Value.none u.becomeReady) := by
  have hparts := (runTransaction_fits false (writeFormat .wpWrite [0x00#8]) s).andThen_calls
    (M := transactionLayout s.cfg [.wr 0x90#8, .wr 0x00#8]) (aft' := txnAfterFailure 2) (runTransaction_onlyPinAccess _ _ _)
    (fun _ t => initSecond_onlyPinAccess t) fun _ t hcfg => by
      rw [← hcfg]
      exact (runTransaction_fits false (writeFormat .tcWrite [0x00#8]) t).andThen_done fun _ => ⟨rfl, rfl, rfl, rfl, rfl⟩
  refine hparts.congr_after fun n hn => ?_
  simp only [List.length_append, transactionLayout_length, writeFormat, List.length_cons, List.length_map, List.length_nil] at hn ⊢
  split
  · rw [Nat.mod_eq_of_lt (by omega)]
  · rw [show n % 87 = n - 87 by omega]

/-- INIT's sequence: the CFG, then its two transactions; after a failing call, END of the transaction it was in (R220). -/
theorem runInitSequence_fits (s : State) : Fits (eventLayout s.cfg .init) (afterFailure s.cfg .init) s (runInitSequence s) := by
  have hcfg : Fits [.call (.cfg [.clk, .rst] .output (some .low))] (fun _ => []) s
      (pinCall (.cfg [.clk, .rst] .output (some .low)) s.markInit) :=
    (Follows.pinCall _ s.markInit).fits.of_left rfl rfl rfl rfl rfl
  have hparts := hcfg.andThen_calls (f := fun _ t => (runTransaction false (writeFormat .wpWrite [0x00#8]) t).andThen fun _ t =>
      (runTransaction false (writeFormat .tcWrite [0x00#8]) t).andThen fun _ u => .done Value.none u.becomeReady)
    (pinCall_onlyPinAccess _ _)
    (fun _ t => (runTransaction_onlyPinAccess _ _ t).andThen fun _ => initSecond_onlyPinAccess)
    fun _ t hcfg => hcfg ▸ initTransactions_fits t
  refine hparts.congr_after fun n _ => ?_
  simp only [List.length_singleton, Nat.lt_one_iff]
  rfl

theorem runInit_fits : RunFits .init runInit := by
  intro s
  unfold runInit
  split
  · exact runInitSequence_fits s
  · exact .refused (.inl ⟨_, _, _, rfl⟩) (.nil s)

theorem runTeardown_fits : RunFits .teardown runTeardown := by
  intro s
  rw [layoutFor_teardown]
  unfold runTeardown
  split
  · exact (Follows.done_nil _ s).fits
  · exact (Follows.callThen _ s.becomeClosed _ fun t _ => Follows.done_nil _ t).fits.of_left rfl rfl rfl rfl rfl

/-! ### From the run to the trace of the instruction (R250) -/

/-- Events that fit the layout of an instruction, from its first event on, are its trace as R250 says it. -/
theorem EventsFit.traceFits {i : Instr} {op : Op} {s : State} {evs : List Event} {e : Option OpError} (hop : opOf i = some op)
    (h : EventsFit (s.layoutFor i) (afterFailure s.cfg i) (s.startOp op) evs e) : s.traceFits i evs e := by
  cases e with
  | none => exact h
  | some e =>
    cases e with
    | pinAccess c idx pos =>
      obtain ⟨n, hfirst, hn, hidx, hpos, htake, hdrop⟩ := h
      have hlayout : s.layoutFor i = eventLayout s.cfg i := by
        unfold State.layoutFor at hn ⊢
        split at hn
        · cases hn
        · rw [if_neg ‹_›]
      refine ⟨n, hfirst, hidx, ?_, hlayout ▸ htake, hdrop⟩
      rw [hpos, hop, State.startOp_seq]
      simp [SeqPos.plus]
    | _ => exact h

/-- What an instruction reports and the trace it leaves are R250's. -/
def PreciseTrace (i : Instr) (s t : State) : Prop := ∃ evs, Issues s t evs ∧ s.traceFits i evs (t.reported i)

theorem reported_of_hostOp {i : Instr} (h : isHostOp i = true) (t : State) :
    t.reported i = t.result.bind Result.error? := by
  rw [State.reported, if_pos h]

theorem reported_of_harness {i : Instr} (h : isHostOp i = false) (t : State) :
    t.reported i = t.returned.bind Returned.error? := by
  rw [State.reported, if_neg (by rw [h]; decide)]

theorem hostOp_precise {i : Instr} {op : Op} {run : State → Attempt Value} {s t : State} (hhost : isHostOp i = true)
    (hop : opOf i = some op) (hrun : RunFits i run) (h : hostOp op run s = .next t) : PreciseTrace i s t := by
  obtain ⟨-, -, rfl⟩ := hostOp_next h
  obtain ⟨evs, hi, hfit, -⟩ := hrun (s.startOp op)
  refine ⟨evs, finishHost_issues hi, ?_⟩
  rw [reported_of_hostOp hhost, finishHost_error]
  exact hfit.traceFits hop

/-- The error handed back is the one raised, where a value is none. -/
theorem finishHarness_error {x : Attempt Returned} (hvalue : ∀ r t, x = .done r t → r.error? = none) :
    (finishHarness x).returned.bind Returned.error? = x.error? := by
  cases x with
  | done r t => exact hvalue r t rfl
  | failed e t => rfl

theorem finishHarness_precise {i : Instr} {op : Op} {s : State} {x : Attempt Returned} (hharness : isHostOp i = false)
    (hop : opOf i = some op) (hvalue : ∀ r t, x = .done r t → r.error? = none)
    (hx : Fits (s.layoutFor i) (afterFailure s.cfg i) (s.startOp op) x) : PreciseTrace i s (finishHarness x) := by
  obtain ⟨evs, hi, hfit, -⟩ := hx
  refine ⟨evs, finishHarness_issues hi, ?_⟩
  rw [reported_of_harness hharness, finishHarness_error hvalue]
  exact hfit.traceFits hop

/-- The value a part makes of what it yields is none of an error. -/
theorem andThen_value_error {α : Type} {x : Attempt α} {v : α → Returned} (hv : ∀ a, (v a).error? = none) :
    ∀ r t, (x.andThen fun a t => .done (v a) t) = .done r t → r.error? = none := by
  intro r t h
  obtain ⟨a, u, -, hdone⟩ := Attempt.andThen_done h
  obtain ⟨rfl, -⟩ := Attempt.done.inj hdone
  exact hv a

/-- TRANSACTION and the command rows. -/
theorem harnessTransaction_precise {i : Instr} {op : Op} {body : List ByteOp} {s t : State} (hharness : isHostOp i = false)
    (hop : opOf i = some op) (hlayout : s.layoutFor i = transactionLayout s.cfg body)
    (haft : afterFailure s.cfg i = txnAfterFailure body.length)
    (h : harnessTransaction op (fun s => (runTransaction false body s).andThen fun bs t => .done (.bytes bs) t) s = .next t) :
    PreciseTrace i s t := by
  obtain ⟨-, -, rfl⟩ := harnessTransaction_next h
  refine finishHarness_precise hharness hop (andThen_value_error fun _ => rfl) ?_
  rw [hlayout, haft]
  exact transactionThen_fits (s := s.startOp op) rfl rfl rfl rfl rfl

/-- WRBYTE, RDBYTE and BEGIN: nothing runs after a failure. -/
theorem microOp_precise {α : Type} {i : Instr} {op : Op} {run : State → Attempt α} {v : α → Returned} {s t : State}
    (hharness : isHostOp i = false) (hop : opOf i = some op) (hv : ∀ a, (v a).error? = none)
    (haft : afterFailure s.cfg i = fun _ => []) (hrun : Follows (s.layoutFor i) (s.startOp op) (run (s.startOp op)))
    (h : microOp op (fun s => (run s).andThen fun a t => .done (v a) t) s = .next t) : PreciseTrace i s t := by
  obtain ⟨-, rfl⟩ := microOp_next h
  refine finishHarness_precise hharness hop (andThen_value_error hv) ?_
  rw [haft]
  exact hrun.fits.andThen_done fun _ => ⟨rfl, rfl, rfl, rfl, rfl⟩

/-- END keeps going, and hands back its first failure (40_transaction_framer.md R121). -/
theorem txnEnd_precise {s t : State} (h : exec .txnEnd s = .next t) : PreciseTrace .txnEnd s t := by
  obtain ⟨-, rfl⟩ := microOp_next (op := .txnEnd) (run := fun s => .done (.endStatus (endTxn s).1) (endTxn s).2) h
  obtain ⟨evs, he, hshape, hfirst⟩ := endTxn_spec (s.startOp .txnEnd)
  refine ⟨evs, finishHarness_issues he.toIssues, ?_⟩
  rw [reported_of_harness rfl]
  show s.traceFits .txnEnd evs (endTxn (s.startOp .txnEnd)).1
  cases herr : (endTxn (s.startOp .txnEnd)).1 with
  | none =>
    rw [herr] at hfirst
    exact ⟨hshape, hfirst⟩
  | some e =>
    rw [herr] at hfirst
    obtain ⟨a, c, b, rfl, ha, rfl⟩ := hfirst
    refine ⟨a.length, firstErr_append_err a b c ha, rfl, ?_, ?_, ?_⟩
    · rw [State.startOp_seq]
      simp [opOf, SeqPos.plus]
    · rw [List.map_take, hshape]
      rfl
    · rw [List.map_drop, hshape]
      rfl

/-- The errors of the codec: EncodeError and DecodeError (60_exceptions.md R242, R243). -/
def IsCodecError (e : OpError) : Prop := (∃ k v, e = .encode k v) ∨ ∃ k b w, e = .decode k b w

theorem bcdEncode_error {slot : Option Nat} {v : Nat} {e : OpError} (h : bcdEncode slot v = .error e) : IsCodecError e := by
  unfold bcdEncode at h
  split at h
  · cases h
  · cases h; exact .inl ⟨_, _, rfl⟩

theorem bcdDecode_error {slot : Option Nat} {b : Byte} {e : OpError} (h : bcdDecode slot b = .error e) : IsCodecError e := by
  unfold bcdDecode at h
  split at h
  · cases h; exact .inr ⟨_, _, _, rfl⟩
  · cases h

theorem frameEncode_error {cv : Calendar} {e : OpError} (h : frameEncode cv = .error e) : IsCodecError e := by
  by_cases hvalid : validCalendar cv
  · cases (frameEncode_valid cv hvalid).symm.trans h
  · obtain ⟨k, hk, hlowest, hbad⟩ := exists_lowest_bad_slot hvalid
    cases (frameEncode_bad cv k hk hlowest hbad).symm.trans h
    exact .inl ⟨_, _, rfl⟩

theorem yyOfYear_error {base year : Nat} {e : OpError} (h : yyOfYear base year = .error e) : IsCodecError e := by
  unfold yyOfYear at h
  split at h
  · cases h
  · cases h; exact .inl ⟨_, _, rfl⟩

theorem isHostOp_of_isCodecFn {i : Instr} (h : isCodecFn i = true) : isHostOp i = false := by
  cases i with
  | bcdEnc _ | bcdDec _ | frameEnc _ | frameDec _ | yyOfYear _ | yearOfYy _ => rfl
  | _ => cases h

theorem layoutFor_of_isCodecFn {i : Instr} (h : isCodecFn i = true) (s : State) : s.layoutFor i = [] := by
  cases i with
  | bcdEnc _ | bcdDec _ | frameEnc _ | frameDec _ | yyOfYear _ | yearOfYy _ => rfl
  | _ => cases h

/-- A codec function issues nothing, and its error is the codec's (30_encoding.md R106). -/
theorem codecCall_precise {α : Type} {i : Instr} {x : Except OpError α} {v : α → Returned} {s t : State}
    (hcodec : isCodecFn i = true) (hv : ∀ a, (v a).error? = none) (herr : ∀ e, x = .error e → IsCodecError e)
    (h : codecCall (handed v x) s = .next t) : PreciseTrace i s t := by
  cases h
  refine ⟨[], (Issues.nil s).of_right rfl rfl rfl rfl, ?_⟩
  rw [reported_of_harness (isHostOp_of_isCodecFn hcodec)]
  have hlayout := layoutFor_of_isCodecFn hcodec s
  cases x with
  | ok a =>
    show s.traceFits i [] (v a).error?
    rw [hv]
    exact ⟨hlayout.symm, rfl⟩
  | error e =>
    obtain ⟨k, n, rfl⟩ | ⟨k, b, w, rfl⟩ := herr e rfl
    · exact (rfl : ([] : List Event) = [])
    · exact ⟨hlayout.symm, rfl⟩

/-- Settles O43: the run of each instruction fits its layout, and what runs after a failure is END's. -/
theorem errorsArePrecise : Obligations.ErrorsArePrecise := by
  intro i s t h
  show PreciseTrace i s t
  cases i with
  | cmdWpRead | cmdTcRead | cmdClockBurstRead | cmdRamBurstRead => exact harnessTransaction_precise rfl rfl rfl rfl h
  | cmdWpWrite _ | cmdTcWrite _ | cmdRamBurstWrite _ | transaction _ => exact harnessTransaction_precise rfl rfl rfl rfl h
  | cmdClockBurstWrite _ _ _ => exact harnessTransaction_precise rfl rfl rfl rfl h
  | init => exact hostOp_precise rfl rfl runInit_fits h
  | readDatetime => exact hostOp_precise rfl rfl runReadDatetime_fits h
  | writeDatetime cv => exact hostOp_precise rfl rfl (runWriteDatetime_fits cv) h
  | readRam => exact hostOp_precise rfl rfl runReadRam_fits h
  | writeRam block => exact hostOp_precise rfl rfl (runWriteRam_fits block) h
  | teardown => exact hostOp_precise rfl rfl runTeardown_fits h
  | txnBegin =>
    exact microOp_precise (run := beginTxn) (v := fun _ => .done) rfl rfl (fun _ => rfl) rfl (beginTxn_follows _) h
  | txnEnd => exact txnEnd_precise h
  | wrByte v =>
    exact microOp_precise (run := writeByte v) (v := fun _ => .done) rfl rfl (fun _ => rfl) rfl (writeByte_follows v _) h
  | rdByte => exact microOp_precise (run := readByte) (v := .byte) rfl rfl (fun _ => rfl) rfl (readByte_follows _) h
  | bcdEnc v => exact codecCall_precise rfl (fun _ => rfl) (fun _ => bcdEncode_error) h
  | bcdDec b => exact codecCall_precise rfl (fun _ => rfl) (fun _ => bcdDecode_error) h
  | frameEnc cv => exact codecCall_precise rfl (fun _ => rfl) (fun _ => frameEncode_error) h
  | frameDec raw => exact codecCall_precise rfl (fun _ => rfl) (fun _ he => .inr (frameDecode_error he)) h
  | yyOfYear year => exact codecCall_precise rfl (fun _ => rfl) (fun _ => yyOfYear_error) h
  | yearOfYy yy =>
    exact codecCall_precise (x := .ok (yearOfYy s.cfg.centuryBase yy)) (v := .number) rfl (fun _ => rfl) nofun h

/-! ### The step -/

/-- What a step that answers a next state did: it waited, or it ran the instruction of the oldest request. -/
theorem step_cases {s t : State} (h : step s = .next t) :
    (s.requests = [] ∧ t = s) ∨ ∃ r rest i, s.requests = r :: rest ∧ readRequest r = .ok i ∧ i.wellFormed = true ∧
      exec i s.popRequest = .next t := by
  unfold step at h
  split at h
  · cases hreq : s.requests with
    | nil => rw [hreq] at h; cases h; exact .inl ⟨rfl, rfl⟩
    | cons r rest =>
      simp only [hreq] at h
      unfold runRead at h
      split at h
      · cases h
      · split at h
        · exact .inr ⟨r, rest, _, rfl, ‹_›, ‹_›, h⟩
        · cases h
  · cases h

theorem exec_issues {i : Instr} {s t : State} (h : exec i s = .next t) : ∃ evs, Issues s t evs := by
  obtain ⟨evs, hi, -⟩ := errorsArePrecise i s t h
  exact ⟨evs, hi⟩

/-- Settles O9: a step waits, or issues the events of the instruction it runs. -/
theorem stepOnlyIssuesEvents : Obligations.StepOnlyIssuesEvents := by
  intro s t h
  obtain ⟨-, rfl⟩ | ⟨_, _, i, -, -, -, hexec⟩ := step_cases h
  · exact ⟨[], .nil t⟩
  · obtain ⟨evs, hi⟩ := exec_issues hexec
    exact ⟨evs, hi.of_left rfl rfl rfl rfl⟩

end Sys2Proof.Machine
end

section
/-! PROOF. The events of an instruction by their shapes, whatever fails: the waits (41_bit_transport.md R143), the bound of a data
operation (43_register_codec.md R195), the direction of PIN_DATA (R142), and the pins that are set (10_state.md R40). -/

namespace Sys2Proof.Machine

/-! ### The events of an instruction in its layout -/

theorem exists_of_firstErr {evs : List Event} {n : Nat} {c : Call} (h : firstErr evs = some (n, c)) :
    ∃ pre post, evs = pre ++ .call c .err :: post ∧ noErr pre = true ∧ pre.length = n := by
  induction evs generalizing n with
  | nil => cases h
  | cons e evs ih =>
    rcases e with ⟨d, _ | l | _⟩ | t
    case call.err =>
      cases h
      exact ⟨[], evs, rfl, rfl, rfl⟩
    all_goals
      simp only [firstErr, Option.map_eq_some_iff] at h
      obtain ⟨⟨m, c'⟩, hm, heq⟩ := h
      cases heq
      obtain ⟨pre, post, rfl, hclean, rfl⟩ := ih hm
      exact ⟨_ :: pre, post, rfl, hclean, rfl⟩

/-- How the events of an instruction lie in its layout: there are none, or all of it, or the part up to a failing call and what
still runs after that call (60_exceptions.md R250). -/
inductive LayoutEvents (cfg : Config) (i : Instr) : List Event → Prop
  | none : LayoutEvents cfg i []
  | whole {evs : List Event} (hlayout : evs.map Event.shape = eventLayout cfg i) (hclean : noErr evs = true) :
    LayoutEvents cfg i evs
  | cut {pre post : List Event} {c : Call} (hclean : noErr pre = true)
    (hprefix : pre.map Event.shape ++ [.call c] <+: eventLayout cfg i)
    (hpost : post.map Event.shape = afterFailure cfg i pre.length) : LayoutEvents cfg i (pre ++ .call c .err :: post)

theorem layoutEvents_of_layoutFor {i : Instr} {s : State} {evs : List Event} (hlayout : evs.map Event.shape = s.layoutFor i)
    (hclean : noErr evs = true) : LayoutEvents s.cfg i evs := by
  unfold State.layoutFor at hlayout
  split at hlayout
  · obtain rfl := List.map_eq_nil_iff.1 hlayout
    exact .none
  · exact .whole hlayout hclean

theorem layoutEvents_of_traceFits {i : Instr} {s : State} {evs : List Event} {e : Option OpError} (h : s.traceFits i evs e) :
    LayoutEvents s.cfg i evs := by
  cases e with
  | none => exact layoutEvents_of_layoutFor h.1 h.2
  | some e =>
    cases e with
    | decode k b w => exact layoutEvents_of_layoutFor h.1 h.2
    | lifecycle op lc a =>
      obtain rfl : evs = [] := h
      exact .none
    | encode k v =>
      obtain rfl : evs = [] := h
      exact .none
    | pinAccess c idx pos =>
      obtain ⟨n, hfirst, -, -, htake, hdrop⟩ := h
      obtain ⟨pre, post, rfl, hclean, rfl⟩ := exists_of_firstErr hfirst
      have hsplit : pre ++ Event.call c .err :: post = (pre ++ [.call c .err]) ++ post := (List.append_cons ..)
      have hlen : pre.length + 1 = (pre ++ [Event.call c .err]).length := by simp
      rw [hsplit, hlen, List.take_left] at htake
      rw [hsplit, hlen, List.drop_left] at hdrop
      refine .cut hclean ?_ hdrop
      rw [List.map_append] at htake
      exact htake ▸ List.take_prefix _ _

/-- Whatever fails, the events of an instruction lie in its layout so. -/
theorem exec_layoutEvents {i : Instr} {s t : State} {evs : List Event} (h : exec i s = .next t) (hi : Issues s t evs) :
    LayoutEvents s.cfg i evs := by
  obtain ⟨evs', hi', hfits⟩ := errorsArePrecise i s t h
  rw [hi.events_unique hi']
  exact layoutEvents_of_traceFits hfits

/-- The layout of an operation made of one transaction is that of its body, if it has one. -/
theorem eventLayout_oneTransaction {i : Instr} (hone : isOneTransaction i = true) (cfg : Config) :
    eventLayout cfg i = layoutOfBody cfg (bodyOf cfg i) ∧ afterFailure cfg i = bodyAfterFailure (bodyOf cfg i) := by
  cases i with
  | init | teardown | txnBegin | txnEnd | wrByte _ | rdByte => cases hone
  | bcdEnc _ | bcdDec _ | frameEnc _ | frameDec _ | yyOfYear _ | yearOfYy _ => cases hone
  | _ => exact ⟨rfl, rfl⟩

/-- What runs after a failure is some end of END (R250). -/
theorem afterFailure_suffix (cfg : Config) (i : Instr) (n : Nat) : afterFailure cfg i n <:+ endLayout := by
  have htxn : ∀ m k, txnAfterFailure m k <:+ endLayout := fun m k => by
    unfold txnAfterFailure
    split
    · exact List.suffix_rfl
    · exact List.drop_suffix _ _
  have hbody : ∀ body k, bodyAfterFailure body k <:+ endLayout := fun body k => by
    cases body with
    | none => exact List.nil_suffix
    | some b => exact htxn _ _
  cases i with
  | init =>
    rw [afterFailure]
    split
    · exact List.nil_suffix
    · exact htxn _ _
  | txnEnd => exact List.drop_suffix _ _
  | teardown | txnBegin | wrByte _ | rdByte => exact List.nil_suffix
  | bcdEnc _ | bcdDec _ | frameEnc _ | frameDec _ | yyOfYear _ | yearOfYy _ => exact List.nil_suffix
  | _ =>
    rw [(eventLayout_oneTransaction rfl cfg).2]
    exact hbody _ _

/-! ### The shapes of the events -/

/-- The events an instruction may issue: waits of the settle delay, SETs, GETs of PIN_DATA, CFGs to input of PIN_DATA alone, CFGs to
output, and RELs in TEARDOWN only. -/
def Shape.IssuedBy (cfg : Config) (i : Instr) : Shape → Prop
  | .wait t => t = cfg.tSettle
  | .call (.set _ _) => True
  | .call (.get p) => p = .data
  | .call (.cfg ps .input _) => ps = [.data]
  | .call (.cfg _ .output _) => True
  | .call (.rel _) => i = .teardown

theorem byteLayout_issued (cfg : Config) (i : Instr) (b : ByteOp) : ∀ x ∈ byteLayout cfg b, x.IssuedBy cfg i := by
  cases b with
  | wr v => simp [byteLayout, writeByteLayout, writeCellLayout, byteBits, Shape.IssuedBy]
  | rd => simp [byteLayout, readByteLayout, readCellLayout, Shape.IssuedBy]

theorem beginLayout_issued (cfg : Config) (i : Instr) : ∀ x ∈ beginLayout, x.IssuedBy cfg i := by
  simp [beginLayout, Shape.IssuedBy]

theorem endLayout_issued (cfg : Config) (i : Instr) : ∀ x ∈ endLayout, x.IssuedBy cfg i := by
  simp [endLayout, Shape.IssuedBy]

theorem transactionLayout_issued (cfg : Config) (i : Instr) (body : List ByteOp) :
    ∀ x ∈ transactionLayout cfg body, x.IssuedBy cfg i := by
  intro x hx
  simp only [transactionLayout, List.mem_append, List.mem_flatMap] at hx
  obtain (hx | ⟨b, -, hx⟩) | hx := hx
  · exact beginLayout_issued cfg i x hx
  · exact byteLayout_issued cfg i b x hx
  · exact endLayout_issued cfg i x hx

/-- The layout of an instruction whose events are one transaction, or none. -/
theorem layoutOfBody_forall {P : Shape → Prop} {cfg : Config} (h : ∀ body, ∀ x ∈ transactionLayout cfg body, P x)
    (body : Option (List ByteOp)) : ∀ x ∈ layoutOfBody cfg body, P x := by
  cases body with
  | none => exact List.forall_mem_nil _
  | some b => exact h b

theorem eventLayout_issued (cfg : Config) (i : Instr) : ∀ x ∈ eventLayout cfg i, x.IssuedBy cfg i := by
  have hbody := layoutOfBody_forall (transactionLayout_issued cfg i)
  cases i with
  | init =>
    refine List.forall_mem_cons.2 ⟨trivial, fun x hx => ?_⟩
    obtain hx | hx := List.mem_append.1 hx
    · exact transactionLayout_issued cfg _ _ x hx
    · exact transactionLayout_issued cfg _ _ x hx
  | teardown => exact List.forall_mem_singleton.2 rfl
  | txnBegin => exact beginLayout_issued cfg _
  | txnEnd => exact endLayout_issued cfg _
  | wrByte v => exact byteLayout_issued cfg _ (.wr v)
  | rdByte => exact byteLayout_issued cfg _ .rd
  | bcdEnc _ | bcdDec _ | frameEnc _ | frameDec _ | yyOfYear _ | yearOfYy _ => exact List.forall_mem_nil _
  | _ =>
    rw [(eventLayout_oneTransaction rfl cfg).1]
    exact hbody _

/-- Every event of an instruction is one it may issue. -/
theorem LayoutEvents.issued {cfg : Config} {i : Instr} {evs : List Event} (h : LayoutEvents cfg i evs) :
    ∀ e ∈ evs, e.shape.IssuedBy cfg i := by
  rw [← List.forall_mem_map (f := Event.shape) (P := Shape.IssuedBy cfg i)]
  cases h with
  | none => exact List.forall_mem_nil _
  | whole hlayout _ =>
    rw [hlayout]
    exact eventLayout_issued cfg i
  | cut _ hprefix hpost =>
    rw [List.map_append, List.map_cons, hpost, List.append_cons]
    intro x hx
    obtain hx | hx := List.mem_append.1 hx
    · exact eventLayout_issued cfg i x (hprefix.subset hx)
    · exact endLayout_issued cfg i x ((afterFailure_suffix cfg i _).subset hx)

theorem exec_issued {i : Instr} {s t : State} {evs : List Event} (h : exec i s = .next t) (hi : Issues s t evs) :
    ∀ e ∈ evs, e.shape.IssuedBy s.cfg i := (exec_layoutEvents h hi).issued

/-- Settles O47: each wait stands in the layout of the instruction or in END, whose waits are the settle delay. -/
theorem everyWaitIsTheSettleDelay : Obligations.EveryWaitIsTheSettleDelay := by
  refine ⟨fun i s t evs h hi w hw => exec_issued h hi _ hw, fun v s => ⟨?_, ?_, fun b => ⟨rfl, rfl⟩⟩⟩
  · rfl
  · rfl

/-! ### A data operation is bounded (R195) -/

/-- The events of a transaction of m bytes, failed or not, are no more than its layout's. -/
theorem txnAfterFailure_bound {m n : Nat} (hn : n + 1 ≤ 5 + 41 * m) : n + 1 + (txnAfterFailure m n).length ≤ 5 + 41 * m := by
  have hend : endLayout.length = 3 := rfl
  unfold txnAfterFailure
  split
  · omega
  · rw [List.length_drop]
    omega

/-- The body of a data operation, if it has one, has at most 32 bytes. -/
theorem bodyOf_dataOp_length {cfg : Config} {i : Instr} {body : List ByteOp} (hdata : isDataOp i = true)
    (h : bodyOf cfg i = some body) : body.length ≤ 32 := by
  cases i with
  | readDatetime => cases h; decide
  | readRam => cases h; decide
  | writeRam block =>
    cases h
    simp
  | writeDatetime cv =>
    rw [bodyOf] at h
    split at h
    · cases h
      simp [Frame.toList]
    · cases h
  | _ => cases hdata

theorem isOneTransaction_of_isDataOp {i : Instr} (h : isDataOp i = true) : isOneTransaction i = true := by
  cases i with
  | readDatetime | writeDatetime _ | readRam | writeRam _ => rfl
  | _ => cases h

/-- A transaction opens CE once. -/
theorem transactionLayout_opens (cfg : Config) (body : List ByteOp) :
    (transactionLayout cfg body).count (.call (.set .rst true)) = 1 := by
  have hbytes : (body.flatMap (byteLayout cfg)).count (.call (.set .rst true)) = 0 := by
    refine List.count_eq_zero.2 fun h => ?_
    obtain ⟨b, -, hb⟩ := List.mem_flatMap.1 h
    exact byteLayout_not_named_rst cfg b _ hb (List.mem_singleton_self _)
  rw [transactionLayout, List.count_append, List.count_append, hbytes]
  rfl

/-- Settles O38: the events of one transaction of at most 32 bytes, failed or not, are at most 1317, and END opens none. -/
theorem dataOpsAreBounded : Obligations.DataOpsAreBounded := by
  intro i s t evs hdata h hi
  obtain ⟨hlayout, hafter⟩ := eventLayout_oneTransaction (isOneTransaction_of_isDataOp hdata) s.cfg
  have hevs := exec_layoutEvents h hi
  cases hbody : bodyOf s.cfg i with
  | none =>
    rw [hbody] at hlayout
    cases hevs with
    | none => simp
    | whole hshape _ =>
      obtain rfl := List.map_eq_nil_iff.1 (hshape.trans hlayout)
      simp
    | cut _ hprefix _ =>
      rw [hlayout] at hprefix
      exact absurd (List.prefix_nil.1 hprefix) (by simp)
  | some body =>
    have hlen : 5 + 41 * body.length ≤ 1317 := by
      have := bodyOf_dataOp_length hdata hbody
      omega
    rw [hbody] at hlayout hafter
    replace hlayout : eventLayout s.cfg i = transactionLayout s.cfg body := hlayout
    cases hevs with
    | none => simp
    | whole hshape _ =>
      rw [hlayout] at hshape
      rw [hshape, transactionLayout_opens, ← List.length_map (f := Event.shape), hshape, transactionLayout_length]
      exact ⟨hlen, Nat.le_refl 1⟩
    | @cut pre post c _ hprefix hpost =>
      rw [hlayout] at hprefix
      rw [hafter] at hpost
      replace hpost : post.map Event.shape = txnAfterFailure body.length pre.length := hpost
      have hpre := hprefix.length_le
      rw [List.length_append, List.length_map, transactionLayout_length] at hpre
      have hbound := txnAfterFailure_bound hpre
      rw [← hpost, List.length_map] at hbound
      have hopens := hprefix.sublist.count_le (Shape.call (.set .rst true))
      rw [transactionLayout_opens] at hopens
      have hcloses : (post.map Event.shape).count (.call (.set .rst true)) = 0 := by
        refine List.count_eq_zero.2 fun h => ?_
        rw [hpost] at h
        have hend := (afterFailure_suffix s.cfg (.transaction body) pre.length).subset h
        revert hend
        decide
      refine ⟨?_, ?_⟩
      · rw [List.length_append, List.length_cons]
        omega
      · rw [List.map_append, List.map_cons, List.append_cons, List.count_append, hcloses]
        exact hopens

end Sys2Proof.Machine
end

section
/-! PROOF. The pins along the events of an instruction, whatever fails: PIN_DATA is an output where it is set and an input where it is
read (41_bit_transport.md R142), and a host operation sets only outputs and pins an `Err` left UNKNOWN (10_state.md R40). -/

namespace Sys2Proof.Machine

/-! ### The direction of PIN_DATA along a layout -/

/-- The mode a direction gives a pin. -/
def Dir.mode : Dir → PinMode
  | .input => .input
  | .output => .output

/-- The direction an event of this shape wants of PIN_DATA: output for a SET of it, input for a GET (R142). -/
def Shape.wantsDir : Shape → Option Dir
  | .call (.set .data _) => some .output
  | .call (.set .clk _) => none
  | .call (.set .rst _) => none
  | .call (.get _) => some .input
  | .call (.cfg _ _ _) => none
  | .call (.rel _) => none
  | .wait _ => none

/-- The direction PIN_DATA is known to have after an event of this shape that is not answered `Err`, from the one known before. -/
def Shape.dirAfter (d : Option Dir) : Shape → Option Dir
  | .call (.cfg ps dir _) => if .data ∈ ps then some dir else d
  | .call (.rel ps) => if .data ∈ ps then none else d
  | .call (.set _ _) => d
  | .call (.get _) => d
  | .wait _ => d

/-- Each event of a layout finds PIN_DATA known to have the direction it wants. -/
def DirectionKept : Option Dir → List Shape → Prop
  | _, [] => True
  | d, x :: L => (∀ dir, x.wantsDir = some dir → d = some dir) ∧ DirectionKept (x.dirAfter d) L

theorem DirectionKept.append {d : Option Dir} {A B : List Shape} (hA : DirectionKept d A) (hB : ∀ d', DirectionKept d' B) :
    DirectionKept d (A ++ B) := by
  induction A generalizing d with
  | nil => exact hB d
  | cons x A ih => exact ⟨hA.1, ih hA.2⟩

theorem DirectionKept.of_prefix {d : Option Dir} {A L : List Shape} (h : A <+: L) (hL : DirectionKept d L) : DirectionKept d A := by
  obtain ⟨B, rfl⟩ := h
  induction A generalizing d with
  | nil => trivial
  | cons x A ih => exact ⟨hL.1, ih hL.2⟩

/-- A byte sets the direction it wants before it reads or sets PIN_DATA (41_bit_transport.md R140, R141). -/
theorem byteLayout_directionKept (cfg : Config) (b : ByteOp) (d : Option Dir) : DirectionKept d (byteLayout cfg b) := by
  cases b with
  | wr v =>
    simp [byteLayout, writeByteLayout, writeCellLayout, byteBits, DirectionKept, Shape.wantsDir, Shape.dirAfter]
  | rd =>
    simp [byteLayout, readByteLayout, readCellLayout, List.replicate, DirectionKept, Shape.wantsDir, Shape.dirAfter]

theorem beginLayout_directionKept (d : Option Dir) : DirectionKept d beginLayout := ⟨nofun, nofun, trivial⟩

theorem endLayout_directionKept (d : Option Dir) : DirectionKept d endLayout := ⟨nofun, nofun, nofun, trivial⟩

theorem transactionLayout_directionKept (cfg : Config) (body : List ByteOp) (d : Option Dir) :
    DirectionKept d (transactionLayout cfg body) := by
  have hbytes : ∀ d, DirectionKept d (body.flatMap (byteLayout cfg)) := by
    induction body with
    | nil => exact fun _ => trivial
    | cons b body ih => exact fun d => (byteLayout_directionKept cfg b d).append ih
  exact ((beginLayout_directionKept d).append hbytes).append endLayout_directionKept

theorem eventLayout_directionKept (cfg : Config) (i : Instr) (d : Option Dir) : DirectionKept d (eventLayout cfg i) := by
  cases i with
  | init =>
    exact ⟨nofun, (transactionLayout_directionKept cfg _ _).append (transactionLayout_directionKept cfg _)⟩
  | teardown => exact ⟨nofun, trivial⟩
  | txnBegin => exact beginLayout_directionKept d
  | txnEnd => exact endLayout_directionKept d
  | wrByte v => exact byteLayout_directionKept cfg (.wr v) d
  | rdByte => exact byteLayout_directionKept cfg .rd d
  | bcdEnc _ | bcdDec _ | frameEnc _ | frameDec _ | yyOfYear _ | yearOfYy _ => trivial
  | _ =>
    rw [(eventLayout_oneTransaction rfl cfg).1]
    cases bodyOf cfg _ with
    | none => trivial
    | some body => exact transactionLayout_directionKept cfg body d

/-! ### From the layout to the events -/

/-- PIN_DATA has the direction that is known of it. -/
def Shadow.HasDir (sh : Shadow) (d : Option Dir) : Prop := ∀ dir, d = some dir → sh.data.mode = dir.mode

theorem Shadow.HasDir.afterShape {sh : Shadow} {d : Option Dir} (h : sh.HasDir d) (x : Shape) :
    (sh.afterShape x).HasDir (x.dirAfter d) := by
  have hkept : .data ∉ x.configured → (sh.afterShape x).HasDir d := fun hx dir hd =>
    (sh.mode_afterShape x .data hx).trans (h dir hd)
  cases x with
  | wait t => exact h
  | call c =>
    cases c with
    | get p => exact h
    | set p l => exact hkept (List.not_mem_nil)
    | rel ps =>
      by_cases hps : Pin.data ∈ ps
      · rw [Shape.dirAfter, if_pos hps]
        exact nofun
      · rw [Shape.dirAfter, if_neg hps]
        exact hkept hps
    | cfg ps dir l =>
      by_cases hps : Pin.data ∈ ps
      · rw [Shape.dirAfter, if_pos hps]
        rintro _ ⟨⟩
        cases dir <;> exact congrArg PinShadow.mode ((Shadow.at_putAll _ _ _ .data).trans (if_pos hps))
      · rw [Shape.dirAfter, if_neg hps]
        exact hkept hps

/-- What `directionClear` asks of one event. -/
theorem directionClear_cons (sh : Shadow) (e : Event) (es : List Event) :
    directionClear sh (e :: es) = true ↔ sh.HasDir e.shape.wantsDir ∧ directionClear (sh.afterEvent e) es = true := by
  cases e with
  | wait t => simp [directionClear, Shadow.HasDir, Event.shape, Shape.wantsDir, Shadow.afterEvent]
  | call c r =>
    cases c with
    | set p l => cases p <;> simp [directionClear, Shadow.HasDir, Event.shape, Shape.wantsDir, Shadow.afterEvent, Dir.mode]
    | _ => simp [directionClear, Shadow.HasDir, Event.shape, Shape.wantsDir, Shadow.afterEvent, Dir.mode]

theorem directionClear_append (sh : Shadow) (a b : List Event) :
    directionClear sh (a ++ b) = true ↔ directionClear sh a = true ∧ directionClear (sh.replay a) b = true := by
  induction a generalizing sh with
  | nil => simp [directionClear, Shadow.replay]
  | cons e a ih => rw [List.cons_append, directionClear_cons, directionClear_cons, ih, and_assoc]; rfl

/-- Events that want no direction are clear. -/
theorem directionClear_of_wants_none {evs : List Event} (h : ∀ e ∈ evs, e.shape.wantsDir = none) (sh : Shadow) :
    directionClear sh evs = true := by
  induction evs generalizing sh with
  | nil => rfl
  | cons e evs ih =>
    obtain ⟨he, hevs⟩ := List.forall_mem_cons.1 h
    rw [directionClear_cons, he]
    exact ⟨nofun, ih hevs _⟩

/-- Events before the first `Err`, and the one that meets it, are clear where their layout keeps the direction. -/
theorem directionClear_of_kept {sh : Shadow} {d : Option Dir} {pre : List Event} (hd : sh.HasDir d) (hclean : noErr pre = true)
    (fin : List Event) (hfin : fin.length ≤ 1) (hkept : DirectionKept d ((pre ++ fin).map Event.shape)) :
    directionClear sh (pre ++ fin) = true := by
  induction pre generalizing sh d with
  | nil =>
    match fin, hfin with
    | [], _ => rfl
    | [e], _ => exact (directionClear_cons sh e []).2 ⟨fun dir hdir => hd dir (hkept.1 dir hdir), rfl⟩
  | cons e pre ih =>
    simp only [noErr, List.all_cons, Bool.and_eq_true, Bool.not_eq_true'] at hclean
    refine (directionClear_cons sh e _).2 ⟨fun dir hdir => hd dir (hkept.1 dir hdir), ?_⟩
    rw [Shadow.afterEvent_of_not_err sh e hclean.1]
    exact ih (hd.afterShape e.shape) hclean.2 hkept.2

/-- END wants no direction of PIN_DATA. -/
theorem endLayout_wants_none : ∀ x ∈ endLayout, x.wantsDir = none := by decide

/-- Settles O13: up to the first `Err` the layout keeps the direction, and what runs after it is END's, which wants none. -/
theorem dataDirectionIsClear : Obligations.DataDirectionIsClear := by
  intro i s t evs h hi
  have hunknown : s.pins.HasDir none := nofun
  have hkept := eventLayout_directionKept s.cfg i none
  cases exec_layoutEvents h hi with
  | none => rfl
  | whole hlayout hclean =>
    have hclear := directionClear_of_kept hunknown hclean [] (Nat.zero_le 1) (by rwa [List.append_nil, hlayout])
    rwa [List.append_nil] at hclear
  | @cut pre post c hclean hprefix hpost =>
    rw [List.append_cons, directionClear_append]
    refine ⟨directionClear_of_kept hunknown hclean [.call c .err] (Nat.le_refl 1) ?_, directionClear_of_wants_none ?_ _⟩
    · rw [List.map_append]
      exact hkept.of_prefix hprefix
    · intro e he
      refine endLayout_wants_none _ ((afterFailure_suffix s.cfg i pre.length).subset ?_)
      exact hpost ▸ List.mem_map_of_mem he

/-! ### The pins a layout sets -/

/-- The pin an event of this shape sets. -/
def Shape.sets : Shape → Option Pin
  | .call (.set p _) => some p
  | .call (.get _) => none
  | .call (.cfg _ _ _) => none
  | .call (.rel _) => none
  | .wait _ => none

/-- The pins that are outputs or UNKNOWN after an event of this shape, whatever is answered, from those that were before. -/
def Shape.drivenAfter (ps : List Pin) : Shape → List Pin
  | .call (.cfg qs .output _) => qs ++ ps
  | .call (.cfg qs .input _) => ps.filter (· ∉ qs)
  | .call (.rel qs) => ps.filter (· ∉ qs)
  | .call (.set _ _) => ps
  | .call (.get _) => ps
  | .wait _ => ps

/-- Each SET of a layout finds its pin among these. -/
def SetsDriven : List Pin → List Shape → Prop
  | _, [] => True
  | ps, x :: L => (∀ p, x.sets = some p → p ∈ ps) ∧ SetsDriven (x.drivenAfter ps) L

theorem Shape.drivenAfter_subset {ps qs : List Pin} (h : ps ⊆ qs) (x : Shape) : x.drivenAfter ps ⊆ x.drivenAfter qs := by
  cases x with
  | wait t => exact h
  | call c =>
    cases c with
    | set p l => exact h
    | get p => exact h
    | rel rs => exact List.filter_subset _ h
    | cfg rs dir l =>
      cases dir with
      | output => exact List.append_subset.2 ⟨List.subset_append_left _ _, List.Subset.trans h (List.subset_append_right _ _)⟩
      | input => exact List.filter_subset _ h

theorem SetsDriven.mono {ps qs : List Pin} {L : List Shape} (hL : SetsDriven ps L) (h : ps ⊆ qs) : SetsDriven qs L := by
  induction L generalizing ps qs with
  | nil => trivial
  | cons x L ih => exact ⟨fun p hp => h (hL.1 p hp), ih hL.2 (x.drivenAfter_subset h)⟩

theorem SetsDriven.append {ps : List Pin} {A B : List Shape} (hA : SetsDriven ps A)
    (hB : SetsDriven (A.foldl Shape.drivenAfter ps) B) : SetsDriven ps (A ++ B) := by
  induction A generalizing ps with
  | nil => exact hB
  | cons x A ih => exact ⟨hA.1, ih hA.2 hB⟩

theorem SetsDriven.of_prefix {ps : List Pin} {A L : List Shape} (h : A <+: L) (hL : SetsDriven ps L) : SetsDriven ps A := by
  obtain ⟨B, rfl⟩ := h
  induction A generalizing ps with
  | nil => trivial
  | cons x A ih => exact ⟨hL.1, ih hL.2⟩

/-- The pins INIT makes outputs and only TEARDOWN releases: clock and CE. -/
def ownedPins : List Pin := [.clk, .rst]

/-- An operation other than TEARDOWN takes neither clock nor CE from those that are driven. -/
theorem owned_subset_drivenAfter {cfg : Config} {i : Instr} (hi : i ≠ .teardown) {ps : List Pin} (h : ownedPins ⊆ ps)
    {A : List Shape} (hA : ∀ x ∈ A, x.IssuedBy cfg i) : ownedPins ⊆ A.foldl Shape.drivenAfter ps := by
  induction A generalizing ps with
  | nil => exact h
  | cons x A ih =>
    obtain ⟨hx, hA⟩ := List.forall_mem_cons.1 hA
    refine ih ?_ hA
    cases x with
    | wait t => exact h
    | call c =>
      cases c with
      | set p l => exact h
      | get p => exact h
      | rel qs => exact absurd hx hi
      | cfg qs dir l =>
        cases dir with
        | output => exact List.Subset.trans h (List.subset_append_right _ _)
        | input =>
          obtain rfl : qs = [.data] := hx
          intro p hp
          refine List.mem_filter.2 ⟨h hp, ?_⟩
          revert p
          decide

/-- BEGIN, a byte and END set clock, CE and, once it is an output, PIN_DATA. -/
theorem byteLayout_setsDriven (cfg : Config) (b : ByteOp) : SetsDriven ownedPins (byteLayout cfg b) := by
  cases b with
  | wr v =>
    simp [byteLayout, writeByteLayout, writeCellLayout, byteBits, SetsDriven, Shape.sets, Shape.drivenAfter, ownedPins]
  | rd =>
    simp [byteLayout, readByteLayout, readCellLayout, List.replicate, SetsDriven, Shape.sets, Shape.drivenAfter, ownedPins]

theorem beginLayout_setsDriven : SetsDriven ownedPins beginLayout := by
  simp [beginLayout, SetsDriven, Shape.sets, Shape.drivenAfter, ownedPins]

theorem endLayout_setsDriven : SetsDriven ownedPins endLayout := by
  simp [endLayout, SetsDriven, Shape.sets, Shape.drivenAfter, ownedPins]

/-- One part after another, where the first leaves clock and CE driven. -/
theorem SetsDriven.append_owned {cfg : Config} {A B : List Shape} (hA : SetsDriven ownedPins A)
    (hissued : ∀ x ∈ A, x.IssuedBy cfg .txnEnd) (hB : SetsDriven ownedPins B) : SetsDriven ownedPins (A ++ B) :=
  hA.append (hB.mono (owned_subset_drivenAfter (i := .txnEnd) nofun (List.Subset.refl _) hissued))

theorem transactionLayout_setsDriven (cfg : Config) (body : List ByteOp) : SetsDriven ownedPins (transactionLayout cfg body) := by
  have hbytes : SetsDriven ownedPins (body.flatMap (byteLayout cfg) ++ endLayout) := by
    induction body with
    | nil => exact endLayout_setsDriven
    | cons b body ih =>
      rw [List.flatMap_cons, List.append_assoc]
      exact (byteLayout_setsDriven cfg b).append_owned (byteLayout_issued cfg _ b) ih
  rw [transactionLayout, List.append_assoc]
  exact beginLayout_setsDriven.append_owned (beginLayout_issued cfg _) hbytes

/-- Any end of END sets clock and CE alone. -/
theorem endSuffix_setsDriven {L : List Shape} (h : L <:+ endLayout) : SetsDriven ownedPins L := by
  have hmem : L ∈ endLayout.tails := (List.mem_tails L endLayout).2 h
  simp only [endLayout, List.tails, List.mem_cons, List.not_mem_nil, or_false] at hmem
  obtain rfl | rfl | rfl | rfl := hmem <;> simp [SetsDriven, Shape.sets, Shape.drivenAfter, ownedPins]

/-- The events of an instruction set driven pins only, where its layout does so and whatever starts the layout leaves clock and CE
driven. -/
theorem LayoutEvents.setsDriven {cfg : Config} {i : Instr} {evs : List Event} {ps : List Pin} (h : LayoutEvents cfg i evs)
    (hlayout : SetsDriven ps (eventLayout cfg i))
    (howned : ∀ M, M ≠ [] → M <+: eventLayout cfg i → ownedPins ⊆ M.foldl Shape.drivenAfter ps) :
    SetsDriven ps (evs.map Event.shape) := by
  cases h with
  | none => trivial
  | whole hshape _ => rwa [hshape]
  | @cut pre post c _ hprefix hpost =>
    have hend : SetsDriven ownedPins (post.map Event.shape) := hpost ▸ endSuffix_setsDriven (afterFailure_suffix cfg i _)
    rw [List.map_append, List.map_cons, List.append_cons]
    exact (hlayout.of_prefix hprefix).append (hend.mono (howned _ (by simp) hprefix))

/-- A data operation sets driven pins only, once clock and CE are. -/
theorem dataOp_setsDriven {cfg : Config} {i : Instr} {evs : List Event} (hdata : isDataOp i = true) (h : LayoutEvents cfg i evs) :
    SetsDriven ownedPins (evs.map Event.shape) := by
  have hteardown : i ≠ .teardown := by rintro rfl; cases hdata
  refine h.setsDriven ?_ fun M _ hM => owned_subset_drivenAfter hteardown (List.Subset.refl _) fun x hx =>
    eventLayout_issued cfg i x (hM.subset hx)
  rw [(eventLayout_oneTransaction (isOneTransaction_of_isDataOp hdata) cfg).1]
  cases bodyOf cfg i with
  | none => trivial
  | some body => exact transactionLayout_setsDriven cfg body

/-- INIT's CFG makes clock and CE outputs before anything is set (44_lifecycle.md R220). -/
theorem init_setsDriven {cfg : Config} {evs : List Event} (h : LayoutEvents cfg .init evs) :
    SetsDriven [] (evs.map Event.shape) := by
  refine h.setsDriven ⟨nofun, ?_⟩ fun M hne hM => ?_
  · exact (transactionLayout_setsDriven cfg _).append_owned (transactionLayout_issued cfg _ _) (transactionLayout_setsDriven cfg _)
  · obtain ⟨x, M, rfl⟩ := List.exists_cons_of_ne_nil hne
    obtain rfl := (List.cons_prefix_cons.1 hM).1
    refine owned_subset_drivenAfter (cfg := cfg) (i := .init) (ps := [.clk, .rst]) nofun (List.Subset.refl _) fun y hy => ?_
    exact eventLayout_issued cfg .init y (hM.subset (List.mem_cons_of_mem _ hy))

/-- TEARDOWN sets nothing. -/
theorem teardown_setsDriven {cfg : Config} {evs : List Event} (h : LayoutEvents cfg .teardown evs) :
    SetsDriven [] (evs.map Event.shape) := by
  have hlayout : SetsDriven [] (eventLayout cfg .teardown) := ⟨nofun, trivial⟩
  cases h with
  | none => trivial
  | whole hshape _ => rwa [hshape]
  | cut _ hprefix hpost =>
    rw [List.map_append, List.map_cons, hpost]
    exact hlayout.of_prefix hprefix

/-! ### From the layout to the events -/

/-- The pin is an output, or an `Err` left it UNKNOWN. -/
def Shadow.Driven (sh : Shadow) (p : Pin) : Prop := (sh.at p).mode = .output ∨ (sh.at p).mode = .unknown

/-- What `setsDriven` asks of one event. -/
theorem setsDriven_cons (sh : Shadow) (e : Event) (es : List Event) :
    setsDriven sh (e :: es) = true ↔ (∀ p, e.shape.sets = some p → sh.Driven p) ∧ setsDriven (sh.afterEvent e) es = true := by
  cases e with
  | wait t => simp [setsDriven, Event.shape, Shape.sets, Shadow.afterEvent]
  | call c r => cases c <;> simp [setsDriven, Event.shape, Shape.sets, Shadow.afterEvent, Shadow.Driven]

/-- A pin that is driven after an event was driven before and is not configured by it, or is made an output. -/
theorem mem_drivenAfter {ps : List Pin} {p : Pin} {x : Shape} (h : p ∈ x.drivenAfter ps) :
    (p ∈ ps ∧ p ∉ x.configured) ∨ ∃ qs l, x = .call (.cfg qs .output l) ∧ p ∈ qs := by
  have hfilter : ∀ qs : List Pin, p ∈ ps.filter (· ∉ qs) → p ∈ ps ∧ p ∉ qs := fun qs hp => by simpa using hp
  cases x with
  | wait t => exact .inl ⟨h, List.not_mem_nil⟩
  | call c =>
    cases c with
    | set q l => exact .inl ⟨h, List.not_mem_nil⟩
    | get q => exact .inl ⟨h, List.not_mem_nil⟩
    | rel qs => exact .inl (hfilter qs h)
    | cfg qs dir l =>
      cases dir with
      | input => exact .inl (hfilter qs h)
      | output =>
        by_cases hp : p ∈ qs
        · exact .inr ⟨qs, l, rfl, hp⟩
        · exact .inl ⟨(List.mem_append.1 h).resolve_left hp, hp⟩

/-- A call answered `Err` leaves a pin UNKNOWN or as it was, so driven if it was driven or named. -/
theorem Shadow.Driven.after_err {sh : Shadow} {c : Call} {p : Pin} (h : p ∈ c.pins ∨ sh.Driven p) : (sh.after c .err).Driven p := by
  obtain ⟨hlost, hkept⟩ := failedCallLosesItsPins sh c p
  by_cases hp : p ∈ c.pins
  · exact .inr (congrArg PinShadow.mode (hlost hp))
  · rw [Shadow.Driven, hkept hp]
    exact h.resolve_left hp

theorem Shadow.Driven.afterEvent {sh : Shadow} {ps : List Pin} (h : ∀ p ∈ ps, sh.Driven p) (e : Event) :
    ∀ p ∈ e.shape.drivenAfter ps, (sh.afterEvent e).Driven p := by
  intro p hp
  cases herr : e.isErr with
  | false =>
    rw [Shadow.afterEvent_of_not_err sh e herr, Shadow.Driven]
    obtain ⟨hps, hconf⟩ | ⟨qs, l, hx, hqs⟩ := mem_drivenAfter hp
    · rw [sh.mode_afterShape _ p hconf]
      exact h p hps
    · rw [hx]
      exact .inl (congrArg PinShadow.mode ((Shadow.at_putAll _ _ _ p).trans (if_pos hqs)))
  | true =>
    obtain ⟨c, rfl⟩ : ∃ c, e = .call c .err := by
      rcases e with ⟨c, _ | l | _⟩ | t
      case call.err => exact ⟨c, rfl⟩
      all_goals cases herr
    refine Shadow.Driven.after_err ?_
    obtain ⟨hps, -⟩ | ⟨qs, l, hx, hqs⟩ := mem_drivenAfter hp
    · exact .inr (h p hps)
    · obtain rfl : c = .cfg qs .output l := Shape.call.inj hx
      exact .inl hqs

theorem setsDriven_of_shapes {sh : Shadow} {ps : List Pin} {evs : List Event} (h : ∀ p ∈ ps, sh.Driven p)
    (hsets : SetsDriven ps (evs.map Event.shape)) : setsDriven sh evs = true := by
  induction evs generalizing sh ps with
  | nil => rfl
  | cons e evs ih =>
    exact (setsDriven_cons sh e evs).2 ⟨fun p hp => h p (hsets.1 p hp), ih (Shadow.Driven.afterEvent h e) hsets.2⟩

/-- In READY the invariant makes clock and CE driven: neither UNCONF nor IN (10_state.md R37, 44_lifecycle.md R220). -/
theorem State.Inv.owned_driven {s : State} (h : s.Inv) (hready : s.lifecycle = .ready) : ∀ p ∈ ownedPins, s.pins.Driven p := by
  obtain ⟨-, -, -, -, -, howned, hok, -⟩ := h
  obtain ⟨hclk, hrst⟩ := howned hready
  simp only [Shadow.ok, Bool.and_eq_true, decide_eq_true_eq] at hok
  obtain ⟨⟨-, hclk'⟩, hrst'⟩ := hok
  have hmode : ∀ m : PinMode, m ≠ .unconf → m ≠ .input → m = .output ∨ m = .unknown := by
    intro m h1 h2
    cases m with
    | unconf => exact absurd rfl h1
    | input => exact absurd rfl h2
    | output => exact .inl rfl
    | unknown => exact .inr rfl
  intro p hp
  cases p with
  | clk => exact hmode _ hclk hclk'
  | rst => exact hmode _ hrst hrst'
  | data => cases hp with | tail _ h => cases h with | tail _ h => cases h

/-- Settles O12: in READY clock and CE are driven, INIT makes them so before it sets them, and PIN_DATA is made an output by the byte
that sets it. -/
theorem blockSetsOnlyOutputs : Obligations.BlockSetsOnlyOutputs := by
  intro i s t evs hhost hinv h hi
  have hevs := exec_layoutEvents h hi
  obtain hharness | hdata | rfl | rfl := instr_kinds i
  · cases hhost.symm.trans hharness
  · by_cases hready : s.lifecycle = .ready
    · exact setsDriven_of_shapes (hinv.owned_driven hready) (dataOp_setsDriven hdata hevs)
    · rw [hi.eq_nil (dataOp_refused hdata hready h).1]
      rfl
  · exact setsDriven_of_shapes (List.forall_mem_nil _) (init_setsDriven hevs)
  · exact setsDriven_of_shapes (List.forall_mem_nil _) (teardown_setsDriven hevs)

end Sys2Proof.Machine
end

section
/-! PROOF. The step (30_encoding.md R100, R104, R109; 70_reset_and_hazards.md R271), and when an instruction is refused (20_memory.md
R71, 10_state.md R33). -/

namespace Sys2Proof.Machine

/-! ### Which request a step runs -/

theorem step_of_request {s : State} {r : Request} {rest : List Request} (hpins : s.cfg.pinsDistinct = true)
    (hreq : s.requests = r :: rest) : step s = runRead { s with requests := rest } (readRequest r) := by
  have hpop : s.popRequest = { s with requests := rest } := by rw [State.popRequest, hreq]; rfl
  rw [step, if_pos hpins, hreq, ← hpop]

theorem runRead_wellFormed {s : State} {i : Instr} (hwf : i.wellFormed = true) : runRead s (.ok i) = exec i s := if_pos hwf

theorem decode_of_decodeTableWord {nbits w : Nat} {i : Instr} (h : decodeTableWord nbits w = some i) :
    decode (tableBytes nbits w) = .ok i := by
  unfold decodeTableWord at h
  split at h
  · cases h; assumption
  · cases h

/-- Settles O6: the step pops the oldest request and runs what it reads as, a table word by its wire image. -/
theorem stepRunsDecodedInstruction : Obligations.StepRunsDecodedInstruction := by
  refine ⟨fun s r rest i hpins hreq hread hwf => ?_, fun s nbits w i hpins hword hwf => ?_⟩
  · rw [step_of_request hpins hreq, hread, runRead_wellFormed hwf]
  · have hread : readRequest (.wire (tableBytes nbits w)) = .ok i := decode_of_decodeTableWord hword
    rw [step_of_request (s := s.withFetchWord nbits w) hpins rfl, hread, runRead_wellFormed hwf]
    rfl

/-- Settles O7: each of the step's checks, in its order. -/
theorem stepWaitsOrRefuses : Obligations.StepWaitsOrRefuses := by
  intro s
  refine ⟨fun hpins hreq => ?_, fun hpins => ?_, fun r rest hpins hreq => ⟨fun why hread => ?_, fun i hread hwf => ?_⟩⟩
  · rw [step, if_pos hpins, hreq]
  · rw [step, if_neg (by rw [hpins]; decide)]
  · rw [step_of_request hpins hreq, hread, runRead]
  · rw [step_of_request hpins hreq, hread, runRead, if_neg (by rw [hwf]; decide)]

/-! ### What stands in the way of an instruction -/

/-- A next state where nothing stands in the way, and else the refusal by that name. -/
def AnswersUnless (busy : Option Refusal) (o : Host.Outcome State Fault Refusal) : Prop :=
  (busy = none → ∃ t, o = .next t) ∧ ∀ r, busy = some r → o = .refused r

theorem hostOp_answers (op : Op) (run : State → Attempt Value) (s : State) : AnswersUnless s.startRefusal (hostOp op run s) := by
  unfold hostOp
  cases s.startRefusal with
  | none => exact ⟨fun _ => ⟨_, rfl⟩, nofun⟩
  | some r => exact ⟨nofun, by rintro _ ⟨⟩; rfl⟩

theorem harnessTransaction_answers (op : Op) (run : State → Attempt Returned) (s : State) :
    AnswersUnless s.startRefusal (harnessTransaction op run s) := by
  unfold harnessTransaction
  cases s.startRefusal with
  | none => exact ⟨fun _ => ⟨_, rfl⟩, nofun⟩
  | some r => exact ⟨nofun, by rintro _ ⟨⟩; rfl⟩

theorem microOp_answers (op : Op) (run : State → Attempt Returned) (s : State) :
    AnswersUnless s.overlapRefusal (microOp op run s) := by
  unfold microOp
  cases s.overlapRefusal with
  | none => exact ⟨fun _ => ⟨_, rfl⟩, nofun⟩
  | some r => exact ⟨nofun, by rintro _ ⟨⟩; rfl⟩

theorem busyFor_codecFn {i : Instr} (h : isCodecFn i = true) (s : State) : s.busyFor i = none := if_pos h

/-- What starts alone is refused by the start's checks (10_state.md R33; log 10). -/
theorem busyFor_startsAlone {i : Instr} (halone : startsAlone i = true) (hcodec : isCodecFn i = false) (s : State) :
    s.busyFor i = s.startRefusal := by
  rw [State.busyFor, hcodec, State.startRefusal]
  cases s.seq <;> simp [halone]

/-- A micro-op is refused by an operation in progress alone (log 25). -/
theorem busyFor_microOp {i : Instr} (halone : startsAlone i = false) (hcodec : isCodecFn i = false) (s : State) :
    s.busyFor i = s.overlapRefusal := by
  rw [State.busyFor, hcodec, State.overlapRefusal]
  cases s.seq <;> simp [halone]

/-- TRANSACTION and the command rows are one transaction of their body, which hands back the bytes read (40_transaction_framer.md R122,
30_encoding.md R101). -/
theorem exec_harnessTransaction {i : Instr} (hharness : isHostOp i = false) (halone : startsAlone i = true) :
    ∃ op body, opOf i = some op ∧ (∀ cfg, bodyOf cfg i = some body) ∧ ∀ s, exec i s =
      harnessTransaction op (fun s => (runTransaction false body s).andThen fun bs t => .done (.bytes bs) t) s := by
  cases i with
  | init | readDatetime | writeDatetime _ | readRam | writeRam _ | teardown => cases hharness
  | txnBegin | txnEnd | wrByte _ | rdByte => cases halone
  | bcdEnc _ | bcdDec _ | frameEnc _ | frameDec _ | yyOfYear _ | yearOfYy _ => cases halone
  | _ => exact ⟨_, _, rfl, fun _ => rfl, fun _ => rfl⟩

theorem exec_answers (i : Instr) (s : State) : AnswersUnless (s.busyFor i) (exec i s) := by
  have hrow (hharness : isHostOp i = false) (halone : startsAlone i = true) (hcodec : isCodecFn i = false) :
      AnswersUnless (s.busyFor i) (exec i s) := by
    obtain ⟨op, body, -, -, hexec⟩ := exec_harnessTransaction hharness halone
    rw [busyFor_startsAlone halone hcodec, hexec]
    exact harnessTransaction_answers op _ s
  cases i with
  | txnBegin | txnEnd | wrByte _ | rdByte =>
    rw [busyFor_microOp rfl rfl]
    simp only [exec, execTxnBegin, execTxnEnd, execWrByte, execRdByte, microOp_answers]
  | bcdEnc _ | bcdDec _ | frameEnc _ | frameDec _ | yyOfYear _ | yearOfYy _ => exact ⟨fun _ => ⟨_, rfl⟩, nofun⟩
  | init | readDatetime | writeDatetime _ | readRam | writeRam _ | teardown =>
    rw [busyFor_startsAlone rfl rfl]
    exact hostOp_answers _ _ s
  | _ => exact hrow rfl rfl rfl

/-- Settles O8: host operations and transactions make the start's checks, micro-ops one of them, codec functions none. -/
theorem refusedExactlyWhenBusy : Obligations.RefusedExactlyWhenBusy := exec_answers

theorem busyFor_idle {s : State} (h : s.Idle) (i : Instr) : s.busyFor i = none := by
  obtain ⟨hseq, htxn⟩ := h
  simp [State.busyFor, hseq, htxn]

/-- An idle block answers every instruction. -/
theorem exec_of_idle {s : State} (h : s.Idle) (i : Instr) : ∃ t, exec i s = .next t := (exec_answers i s).1 (busyFor_idle h i)

end Sys2Proof.Machine
end

section
/-! PROOF. What every instruction leaves alone, whatever fails: the frames of a harness's invocation and of a host operation, and the
invariant of the state (10_state.md sections 1 and 3, 60_exceptions.md R251). -/

namespace Sys2Proof.Machine

/-! ### The frame of what a harness invokes -/

/-- A run that leaves all but the transfer registers alone ends in the harness's frame. -/
theorem harnessFrame_of_same {op : Op} {s : State} {x : Attempt Returned} (h : SameButTransfer (s.startOp op) x.state) :
    HarnessFrame s (finishHarness x) := by
  cases x <;> exact ⟨h.cfg, h.lifecycle, h.initAttempted, h.txnOpen, h.buf, h.result, h.requests, h.opCount⟩

theorem microOp_frame {op : Op} {run : State → Attempt Returned} {s t : State} (hrun : ∀ s, SameButTransfer s (run s).state)
    (h : microOp op run s = .next t) : HarnessFrame s t := by
  obtain ⟨-, rfl⟩ := microOp_next h
  exact harnessFrame_of_same (hrun _)

/-- A transaction that keeps nothing it reads, where none was open before. -/
theorem runTransaction_sameButTransfer (body : List ByteOp) {s : State} (h : s.txnOpen = false) :
    SameButTransfer s (runTransaction false body s).state := by
  have hsame := runTransaction_same false body s
  exact ⟨hsame.cfg, hsame.lifecycle, hsame.initAttempted, hsame.txnOpen.trans h.symm, runTransaction_keeps_buf body s,
    hsame.result, hsame.returned, hsame.requests, hsame.opCount⟩

theorem harnessTransaction_frame {op : Op} {body : List ByteOp} {s t : State}
    (h : harnessTransaction op (fun s => (runTransaction false body s).andThen fun bs t => .done (.bytes bs) t) s = .next t) :
    HarnessFrame s t := by
  obtain ⟨-, htxn, rfl⟩ := harnessTransaction_next h
  refine harnessFrame_of_same (op := op) ?_
  rw [Attempt.andThen_state fun _ _ => rfl]
  exact runTransaction_sameButTransfer body (s := s.startOp op) htxn

/-- Whatever fails, a harness's invocation leaves the fields of its frame alone. -/
theorem exec_harnessFrame {i : Instr} {s t : State} (hharness : isHostOp i = false) (h : exec i s = .next t) :
    HarnessFrame s t := by
  have hvalue : ∀ {α : Type} {run : State → Attempt α} {v : α → Returned}, (∀ s, SameButTransfer s (run s).state) →
      ∀ s, SameButTransfer s ((run s).andThen fun a t => .done (v a) t).state := fun hrun s => by
    rw [Attempt.andThen_state fun _ _ => rfl]
    exact hrun s
  cases i with
  | init | readDatetime | writeDatetime _ | readRam | writeRam _ | teardown => cases hharness
  | txnBegin => exact microOp_frame (hvalue fun s => (beginTxn_same s).1) h
  | txnEnd => exact microOp_frame (run := fun s => .done (.endStatus (endTxn s).1) (endTxn s).2) (fun s => (endTxn_same s).1) h
  | wrByte v => exact microOp_frame (hvalue fun s => writeByte_same v s) h
  | rdByte => exact microOp_frame (hvalue (v := .byte) readByte_same) h
  | bcdEnc _ | bcdDec _ | frameEnc _ | frameDec _ | yyOfYear _ | yearOfYy _ => cases h; exact ⟨rfl, rfl, rfl, rfl, rfl, rfl, rfl, rfl⟩
  | _ =>
    obtain ⟨op, body, -, -, hexec⟩ := exec_harnessTransaction hharness rfl
    exact harnessTransaction_frame ((hexec s).symm.trans h)

/-! ### The frame of a host operation -/

theorem HostFrame.refl (s : State) : HostFrame s s := ⟨rfl, rfl, rfl, rfl⟩

theorem HostFrame.trans {s t u : State} (h : HostFrame s t) (k : HostFrame t u) : HostFrame s u :=
  ⟨k.cfg.trans h.cfg, k.txnOpen.trans h.txnOpen, k.returned.trans h.returned, k.requests.trans h.requests⟩

/-- A run that leaves a host operation's frame alone, done or failed, where no transaction is open. -/
def KeepsHostFrame (run : State → Attempt Value) : Prop := ∀ s : State, s.txnOpen = false → HostFrame s (run s).state

theorem runTransaction_hostFrame (toBuf : Bool) (body : List ByteOp) {s : State} (h : s.txnOpen = false) :
    HostFrame s (runTransaction toBuf body s).state := by
  have hsame := runTransaction_same toBuf body s
  exact ⟨hsame.cfg, hsame.txnOpen.trans h.symm, hsame.returned, hsame.requests⟩

/-- One transaction, from a state with the same frame, and then a part that leaves the state as it is. -/
theorem transactionThen_hostFrame {toBuf : Bool} {body : List ByteOp} {s u : State} {f : List Byte → State → Attempt Value}
    (hf : ∀ bs t, (f bs t).state = t) (h : s.txnOpen = false) (hu : HostFrame s u) :
    HostFrame s ((runTransaction toBuf body u).andThen f).state := by
  rw [Attempt.andThen_state hf]
  exact hu.trans (runTransaction_hostFrame toBuf body (hu.txnOpen.trans h))

theorem dataGate_hostFrame {op : Op} {run : State → Attempt Value} (hrun : KeepsHostFrame run) : KeepsHostFrame (dataGate op run) := by
  intro s h
  by_cases hready : s.lifecycle = .ready
  · rw [dataGate_ready hready]
    exact hrun s h
  · rw [dataGate_not_ready hready]
    exact .refl s

theorem runReadDatetime_hostFrame : KeepsHostFrame runReadDatetime := fun _ h =>
  transactionThen_hostFrame (fun _ t => by cases frameDecode (frameOfBuf t.buf) <;> rfl) h ⟨rfl, rfl, rfl, rfl⟩

theorem runWriteDatetime_hostFrame (cv : Calendar) : KeepsHostFrame (runWriteDatetime cv) := fun s h => by
  cases hf : frameEncode cv with
  | error e =>
    rw [runWriteDatetime_error hf]
    exact ⟨rfl, rfl, rfl, rfl⟩
  | ok f =>
    rw [runWriteDatetime_ok hf]
    exact transactionThen_hostFrame (fun _ _ => rfl) h ⟨rfl, rfl, rfl, rfl⟩

theorem runReadRam_hostFrame : KeepsHostFrame runReadRam := fun _ h =>
  transactionThen_hostFrame (fun _ _ => rfl) h ⟨rfl, rfl, rfl, rfl⟩

theorem runWriteRam_hostFrame (block : List Byte) : KeepsHostFrame (runWriteRam block) := fun s h => by
  rw [runWriteRam_eq]
  exact transactionThen_hostFrame (fun _ _ => rfl) h ⟨rfl, rfl, rfl, rfl⟩

theorem runInit_hostFrame : KeepsHostFrame runInit := by
  intro s h
  unfold runInit runInitSequence
  split
  · refine callThen_keeps (P := HostFrame s) (fun _ => ⟨rfl, rfl, rfl, rfl⟩) fun t r ht => ?_
    have htframe : HostFrame s t := ht ▸ ⟨rfl, rfl, rfl, rfl⟩
    have hfirst := htframe.trans (runTransaction_hostFrame false (writeFormat .wpWrite [0x00#8]) (htframe.txnOpen.trans h))
    refine Attempt.andThen_keeps hfirst fun _ u _ hu => ?_
    have hsecond := hu.trans (runTransaction_hostFrame false (writeFormat .tcWrite [0x00#8]) (hu.txnOpen.trans h))
    exact Attempt.andThen_keeps hsecond fun _ v _ hv => hv.trans ⟨rfl, rfl, rfl, rfl⟩
  · exact .refl s

theorem runTeardown_hostFrame : KeepsHostFrame runTeardown := by
  intro s _
  unfold runTeardown
  split
  · exact .refl s
  · exact callThen_keeps (P := HostFrame s) (fun _ => ⟨rfl, rfl, rfl, rfl⟩) fun t r ht => ht ▸ ⟨rfl, rfl, rfl, rfl⟩

/-- What a host operation leaves whatever fails: its frame, and an idle block with a result. -/
structure HostOpEnds (s t : State) : Prop where
  frame : HostFrame s t
  idle : t.Idle
  result : t.result.isSome = true

theorem hostOp_ends {op : Op} {run : State → Attempt Value} {s t : State} (hrun : KeepsHostFrame run)
    (h : hostOp op run s = .next t) : HostOpEnds s t := by
  obtain ⟨-, htxn, rfl⟩ := hostOp_next h
  have hframe : HostFrame s (run (s.startOp op)).state := HostFrame.trans (t := s.startOp op) ⟨rfl, rfl, rfl, rfl⟩ (hrun _ htxn)
  have hfinish : ∀ x : Attempt Value, HostFrame x.state (finishHost x) ∧ (finishHost x).seq = none := fun x => by
    cases x <;> exact ⟨⟨rfl, rfl, rfl, rfl⟩, rfl⟩
  have hall := hframe.trans (hfinish _).1
  exact ⟨hall, ⟨(hfinish _).2, hall.txnOpen.trans htxn⟩, by rw [finishHost_result]; rfl⟩

theorem exec_hostOp_ends {i : Instr} {s t : State} (hhost : isHostOp i = true) (h : exec i s = .next t) : HostOpEnds s t := by
  cases i with
  | init => exact hostOp_ends runInit_hostFrame h
  | readDatetime => exact hostOp_ends (dataGate_hostFrame runReadDatetime_hostFrame) h
  | writeDatetime cv => exact hostOp_ends (dataGate_hostFrame (runWriteDatetime_hostFrame cv)) h
  | readRam => exact hostOp_ends (dataGate_hostFrame runReadRam_hostFrame) h
  | writeRam block => exact hostOp_ends (dataGate_hostFrame (runWriteRam_hostFrame block)) h
  | teardown => exact hostOp_ends runTeardown_hostFrame h
  | _ => cases hhost

/-! ### After a host operation (60_exceptions.md R251, R252) -/

theorem result_of_reported {i : Instr} {t : State} (hhost : isHostOp i = true) (h : t.reported i ≠ none) : t.result ≠ some (.ok .none) := by
  intro hok
  rw [reported_of_hostOp hhost, hok] at h
  exact h rfl

/-- After an error a host operation other than TEARDOWN leaves the lifecycle as it was. -/
theorem lifecycle_of_reported {i : Instr} {s t : State} (hhost : isHostOp i = true) (h : exec i s = .next t)
    (herr : t.reported i ≠ none) (hi : i ≠ .teardown) : t.lifecycle = s.lifecycle := by
  obtain hharness | hdata | rfl | rfl := instr_kinds i
  · cases hhost.symm.trans hharness
  · exact (dataOp_sameLifecycle hdata h).lifecycle
  · cases hpermits : s.permitsInit with
    | true =>
      rw [(init_permitted hpermits h).2, if_neg (result_of_reported hhost herr), State.permitsInit_uninit hpermits]
    | false => exact (init_refused hpermits h).1.lifecycle
  · exact absurd rfl hi

/-- An INIT that found the block in UNINIT leaves init_attempted true (44_lifecycle.md R220). -/
theorem init_attempted {s t : State} (h : exec .init s = .next t) : t.initAttempted = true ∨ s.lifecycle ≠ .uninit := by
  cases hpermits : s.permitsInit with
  | true => exact .inl (init_permitted hpermits h).1
  | false =>
    by_cases hlc : s.lifecycle = .uninit
    · refine .inl ((init_refused hpermits h).1.initAttempted.trans ?_)
      simpa [State.permitsInit, hlc] using hpermits
    · exact .inr hlc

/-- Settles O45: every run keeps its frame and ends idle with a result, so nothing blocks the next operation. -/
theorem hostOpsLeaveTheBlockIdle : Obligations.HostOpsLeaveTheBlockIdle := by
  intro i s t hhost h
  obtain ⟨hframe, hidle, hresult⟩ := exec_hostOp_ends hhost h
  refine ⟨hidle, hresult, hframe.returned, hframe.requests, lifecycle_of_reported hhost h, fun _ hinit => ?_, exec_of_idle hidle⟩
  subst hinit
  exact init_attempted h

end Sys2Proof.Machine
end

section
/-! PROOF. The invariant of the state (`State.Inv`): BC and BUF's cells stay in their ranges (10_state.md R34, R36), the shadow stays as
R37 and R38 say, a READY block's pins stay configured (R40), and the counterpart's storage keeps its form (20_memory.md R80). -/

namespace Sys2Proof.Machine

/-! ### BC and BUF -/

/-- BC is in 0..8 (R34), and BUF has 31 cells (R36). -/
def State.RegistersOk (s : State) : Prop := s.bc ≤ 8 ∧ s.buf.length = Config.ramLen

/-- A part that keeps the two registers in their ranges, done or failed. -/
def KeepsRegisters {α : Type} (run : State → Attempt α) : Prop := ∀ s : State, s.RegistersOk → (run s).state.RegistersOk

theorem writeCell_bc_le (s : State) : (writeCell s).state.bc ≤ s.bc + 1 := by
  unfold writeCell
  refine callThen_keeps (P := fun t => t.bc ≤ s.bc + 1) (fun _ => by simp) fun t _ ht => ?_
  refine callThen_keeps (P := fun t => t.bc ≤ s.bc + 1) (fun _ => by simp [ht]) fun u _ hu => ?_
  refine callThen_keeps (P := fun t => t.bc ≤ s.bc + 1) (fun _ => by simp [ht, hu]) fun v _ hv => ?_
  simp [Attempt.state, ht, hu, hv]

/-- n write cells count at most n bits. -/
theorem writeCells_bc_le (n : Nat) (s : State) : (writeCells n s).state.bc ≤ s.bc + n := by
  induction n generalizing s with
  | zero => exact Nat.le_refl _
  | succ n ih =>
    have hfirst := writeCell_bc_le s
    refine Attempt.andThen_keeps (P := fun t => t.bc ≤ s.bc + (n + 1)) (by omega) fun _ t hdone _ => ?_
    have hcell := (writeCell_done hdone).2
    have hrest := ih t
    omega

theorem readCell_bc_le (i : Nat) (s : State) : (readCell i s).state.bc ≤ s.bc + 1 := by
  unfold readCell
  refine callThen_keeps (P := fun t => t.bc ≤ s.bc + 1) (fun _ => by simp) fun t _ ht => ?_
  refine callThen_keeps (P := fun t => t.bc ≤ s.bc + 1) (fun _ => by simp [ht]) fun u _ hu => ?_
  refine Attempt.andThen_keeps (P := fun t => t.bc ≤ s.bc + 1) ?_ fun b v hv _ => ?_
  · simp [pinCall_state, ht, hu]
  · simp [Attempt.state, pinCall_done hv, ht, hu]

/-- n read cells count at most n bits. -/
theorem readCells_bc_le (n i : Nat) (s : State) : (readCells n i s).state.bc ≤ s.bc + n := by
  induction n generalizing i s with
  | zero => exact Nat.le_refl _
  | succ n ih =>
    have hfirst := readCell_bc_le i s
    refine Attempt.andThen_keeps (P := fun t => t.bc ≤ s.bc + (n + 1)) (by omega) fun _ t hdone _ => ?_
    obtain ⟨_, _, _, _, _, _, hcell⟩ := readCell_done hdone
    have hrest := ih (i + 1) t
    omega

theorem writeByte_keepsRegisters (v : Byte) : KeepsRegisters (writeByte v) := fun s h =>
  callThen_keeps (P := State.RegistersOk) (fun _ => h) fun t _ ht => by
    subst ht
    refine ⟨(writeCells_bc_le 8 _).trans (Nat.le_of_eq (Nat.zero_add 8)), ?_⟩
    rw [(writeCells_same 8 _).buf]
    exact h.2

theorem readByte_keepsRegisters : KeepsRegisters readByte := fun s h =>
  callThen_keeps (P := State.RegistersOk) (fun _ => h) fun t _ ht => by
    subst ht
    rw [Attempt.andThen_state fun _ _ => rfl]
    refine ⟨(readCells_bc_le 8 0 _).trans (Nat.le_of_eq (Nat.zero_add 8)), ?_⟩
    rw [(readCells_same 8 0 _).buf]
    exact h.2

theorem beginTxn_keepsRegisters : KeepsRegisters beginTxn := by
  intro s h
  obtain ⟨hsame, -, hbc⟩ := beginTxn_same s
  rwa [State.RegistersOk, hbc, hsame.buf]

theorem endTxn_registersOk {s : State} (h : s.RegistersOk) : (endTxn s).2.RegistersOk := by
  obtain ⟨hsame, -, hbc⟩ := endTxn_same s
  rwa [State.RegistersOk, hbc, hsame.buf]

theorem keepByte_registersOk {s : State} (h : s.RegistersOk) (toBuf : Bool) (k : Nat) (b : Byte) :
    (s.keepByte toBuf k b).RegistersOk := by
  cases toBuf with
  | false => exact h
  | true => exact ⟨h.1, (List.length_set ..).trans h.2⟩

theorem runBody_keepsRegisters (toBuf : Bool) (k : Nat) (ops : List ByteOp) : KeepsRegisters (runBody toBuf k ops) := by
  intro s h
  induction ops generalizing k s with
  | nil => exact h
  | cons op ops ih =>
    cases op with
    | wr v => exact Attempt.andThen_keeps (writeByte_keepsRegisters v s h) fun _ t _ ht => ih k t ht
    | rd =>
      refine Attempt.andThen_keeps (readByte_keepsRegisters s h) fun b t _ ht => ?_
      rw [Attempt.andThen_state fun _ _ => rfl]
      exact ih _ _ (keepByte_registersOk ht toBuf k b)

theorem runTransaction_keepsRegisters (toBuf : Bool) (body : List ByteOp) : KeepsRegisters (runTransaction toBuf body) := by
  intro s h
  have hbody : ((beginTxn s.openTxn).andThen fun _ t => runBody toBuf 0 body t).state.RegistersOk :=
    Attempt.andThen_keeps (beginTxn_keepsRegisters s.openTxn h) fun _ t _ ht => runBody_keepsRegisters toBuf 0 body t ht
  unfold runTransaction
  cases hx : (beginTxn s.openTxn).andThen fun _ t => runBody toBuf 0 body t with
  | done v t =>
    rw [hx] at hbody
    have hend : (endTxn t).2.RegistersOk := endTxn_registersOk hbody
    dsimp only
    cases (endTxn t).1 with
    | none => exact hend
    | some e => exact hend
  | failed e t =>
    rw [hx] at hbody
    exact endTxn_registersOk (s := t.seekEnd s.seq body.length) hbody

/-- One transaction, and then a part that leaves the state as it is. -/
theorem transactionThen_registersOk {α : Type} {toBuf : Bool} {body : List ByteOp} {u : State} {f : List Byte → State → Attempt α}
    (hf : ∀ bs t, (f bs t).state = t) (h : u.RegistersOk) : ((runTransaction toBuf body u).andThen f).state.RegistersOk := by
  rw [Attempt.andThen_state hf]
  exact runTransaction_keepsRegisters toBuf body u h

/-- BUF's free values are 31 cells (log 3), and storing to them keeps their number. -/
theorem beginBuf_registersOk {s : State} (h : s.RegistersOk) (bs : List Byte) :
    s.beginBuf.RegistersOk ∧ (s.beginBuf.storeBuf bs).RegistersOk :=
  ⟨⟨h.1, unspecifiedBuf_length _⟩, h.1, (storeFrom_length _ _ _).trans (unspecifiedBuf_length _)⟩

theorem dataGate_keepsRegisters {op : Op} {run : State → Attempt Value} (hrun : KeepsRegisters run) :
    KeepsRegisters (dataGate op run) := by
  intro s h
  by_cases hready : s.lifecycle = .ready
  · rw [dataGate_ready hready]
    exact hrun s h
  · rw [dataGate_not_ready hready]
    exact h

theorem runReadDatetime_keepsRegisters : KeepsRegisters runReadDatetime := fun _ h =>
  transactionThen_registersOk (fun _ t => by cases frameDecode (frameOfBuf t.buf) <;> rfl) (beginBuf_registersOk h []).1

theorem runWriteDatetime_keepsRegisters (cv : Calendar) : KeepsRegisters (runWriteDatetime cv) := fun s h => by
  cases hf : frameEncode cv with
  | error e =>
    rw [runWriteDatetime_error hf]
    exact (beginBuf_registersOk h []).1
  | ok f =>
    rw [runWriteDatetime_ok hf]
    exact transactionThen_registersOk (fun _ _ => rfl) (beginBuf_registersOk h _).2

theorem runReadRam_keepsRegisters : KeepsRegisters runReadRam := fun _ h =>
  transactionThen_registersOk (fun _ _ => rfl) (beginBuf_registersOk h []).1

theorem runWriteRam_keepsRegisters (block : List Byte) : KeepsRegisters (runWriteRam block) := fun s h => by
  rw [runWriteRam_eq]
  exact transactionThen_registersOk (fun _ _ => rfl) (beginBuf_registersOk h _).2

theorem runInit_keepsRegisters : KeepsRegisters runInit := by
  intro s h
  unfold runInit runInitSequence
  split
  · refine callThen_keeps (P := State.RegistersOk) (fun _ => h) fun t _ ht => ?_
    subst ht
    refine Attempt.andThen_keeps (runTransaction_keepsRegisters _ _ _ h) fun _ u _ hu => ?_
    exact Attempt.andThen_keeps (runTransaction_keepsRegisters _ _ _ hu) fun _ _ _ hv => hv
  · exact h

theorem runTeardown_keepsRegisters : KeepsRegisters runTeardown := by
  intro s h
  unfold runTeardown
  split
  · exact h
  · exact callThen_keeps (P := State.RegistersOk) (fun _ => h) fun t _ ht => ht ▸ h

theorem hostOp_registersOk {op : Op} {run : State → Attempt Value} {s t : State} (hrun : KeepsRegisters run)
    (h : hostOp op run s = .next t) (hs : s.RegistersOk) : t.RegistersOk := by
  obtain ⟨-, -, rfl⟩ := hostOp_next h
  have hx := hrun (s.startOp op) hs
  revert hx
  cases run (s.startOp op) <;> exact id

theorem finishHarness_registersOk {x : Attempt Returned} (h : x.state.RegistersOk) : (finishHarness x).RegistersOk := by
  revert h
  cases x <;> exact id

theorem microOp_registersOk {op : Op} {run : State → Attempt Returned} {s t : State} (hrun : KeepsRegisters run)
    (h : microOp op run s = .next t) (hs : s.RegistersOk) : t.RegistersOk := by
  obtain ⟨-, rfl⟩ := microOp_next h
  exact finishHarness_registersOk (hrun _ hs)

theorem harnessTransaction_registersOk {op : Op} {run : State → Attempt Returned} {s t : State} (hrun : KeepsRegisters run)
    (h : harnessTransaction op run s = .next t) (hs : s.RegistersOk) : t.RegistersOk := by
  obtain ⟨-, -, rfl⟩ := harnessTransaction_next h
  exact finishHarness_registersOk (hrun _ hs)

theorem KeepsRegisters.thenReturn {α : Type} {run : State → Attempt α} (hrun : KeepsRegisters run) (v : α → Returned) :
    KeepsRegisters fun s => (run s).andThen fun a t => .done (v a) t := fun s h => by
  rw [Attempt.andThen_state fun _ _ => rfl]
  exact hrun s h

theorem exec_registersOk {i : Instr} {s t : State} (h : exec i s = .next t) (hs : s.RegistersOk) : t.RegistersOk := by
  cases i with
  | init => exact hostOp_registersOk runInit_keepsRegisters h hs
  | readDatetime => exact hostOp_registersOk (dataGate_keepsRegisters runReadDatetime_keepsRegisters) h hs
  | writeDatetime cv => exact hostOp_registersOk (dataGate_keepsRegisters (runWriteDatetime_keepsRegisters cv)) h hs
  | readRam => exact hostOp_registersOk (dataGate_keepsRegisters runReadRam_keepsRegisters) h hs
  | writeRam block => exact hostOp_registersOk (dataGate_keepsRegisters (runWriteRam_keepsRegisters block)) h hs
  | teardown => exact hostOp_registersOk runTeardown_keepsRegisters h hs
  | txnBegin => exact microOp_registersOk (beginTxn_keepsRegisters.thenReturn fun _ => .done) h hs
  | txnEnd =>
    exact microOp_registersOk (run := fun s => .done (.endStatus (endTxn s).1) (endTxn s).2) (fun _ => endTxn_registersOk) h hs
  | wrByte v => exact microOp_registersOk ((writeByte_keepsRegisters v).thenReturn fun _ => .done) h hs
  | rdByte => exact microOp_registersOk (readByte_keepsRegisters.thenReturn .byte) h hs
  | bcdEnc _ | bcdDec _ | frameEnc _ | frameDec _ | yyOfYear _ | yearOfYy _ => cases h; exact hs
  | _ => exact harnessTransaction_registersOk ((runTransaction_keepsRegisters false _).thenReturn .bytes) h hs

/-! ### The block between instructions (10_state.md R33, R35) -/

theorem finishHarness_seq (x : Attempt Returned) : (finishHarness x).seq = none := by cases x <;> rfl

theorem exec_seq {i : Instr} {s t : State} (h : exec i s = .next t) (hs : s.seq = none) : t.seq = none := by
  have hrow (hharness : isHostOp i = false) (halone : startsAlone i = true) : t.seq = none := by
    obtain ⟨op, body, -, -, hexec⟩ := exec_harnessTransaction hharness halone
    rw [hexec] at h
    obtain ⟨-, -, rfl⟩ := harnessTransaction_next h
    exact finishHarness_seq _
  cases i with
  | init | readDatetime | writeDatetime _ | readRam | writeRam _ | teardown => exact (exec_hostOp_ends rfl h).idle.1
  | txnBegin | txnEnd | wrByte _ | rdByte =>
    simp only [exec, execTxnBegin, execTxnEnd, execWrByte, execRdByte] at h
    obtain ⟨-, rfl⟩ := microOp_next h
    exact finishHarness_seq _
  | bcdEnc _ | bcdDec _ | frameEnc _ | frameDec _ | yyOfYear _ | yearOfYy _ => cases h; exact hs
  | _ => exact hrow rfl rfl

theorem exec_idle {i : Instr} {s t : State} (h : exec i s = .next t) (hs : s.Idle) : t.Idle := by
  cases hhost : isHostOp i with
  | true => exact (exec_hostOp_ends hhost h).idle
  | false => exact ⟨exec_seq h hs.1, (exec_harnessFrame hhost h).txnOpen.trans hs.2⟩

/-! ### The shadow (10_state.md R37 to R41) -/

/-- What an event of an operation can make of the shadow of one pin. -/
theorem Shadow.at_afterEvent_cases {cfg : Config} {i : Instr} {e : Event} (h : e.shape.IssuedBy cfg i) (sh : Shadow) (p : Pin) :
    (sh.afterEvent e).at p = sh.at p ∨ ((sh.afterEvent e).at p).mode = .output ∨
      (p = .data ∧ (sh.afterEvent e).at p = { mode := .input, lvl := .x }) ∨
      (sh.afterEvent e).at p = { mode := .unknown, lvl := .x } ∨
      (i = .teardown ∧ (sh.afterEvent e).at p = { mode := .unconf, lvl := .x }) := by
  cases e with
  | wait t => exact .inl rfl
  | call c r =>
    by_cases herr : r = .err
    · rw [Shadow.afterEvent, Shadow.after, if_pos herr, Shadow.onErr, Shadow.at_putAll]
      split
      · exact .inr (.inr (.inr (.inl rfl)))
      · exact .inl rfl
    · rw [Shadow.afterEvent, Shadow.after, if_neg herr]
      cases c with
      | get q => exact .inl rfl
      | set q l =>
        simp only [Shadow.onOk]
        split
        · rw [Shadow.at_put]
          split
          · exact .inr (.inl rfl)
          · exact .inl rfl
        · exact .inl rfl
      | rel ps =>
        simp only [Shadow.onOk, Shadow.at_putAll]
        split
        · exact .inr (.inr (.inr (.inr ⟨h, rfl⟩)))
        · exact .inl rfl
      | cfg ps d l =>
        cases d with
        | output =>
          simp only [Shadow.onOk, Shadow.at_putAll]
          split
          · exact .inr (.inl rfl)
          · exact .inl rfl
        | input =>
          obtain rfl : ps = [.data] := h
          simp only [Shadow.onOk, Shadow.at_putAll]
          split
          next hp => exact .inr (.inr (.inl ⟨List.mem_singleton.1 hp, rfl⟩))
          next => exact .inl rfl

/-- What an event keeps, its events keep. -/
theorem Shadow.replay_keeps {P : Shadow → Prop} {evs : List Event} (h : ∀ e ∈ evs, ∀ sh, P sh → P (sh.afterEvent e)) {sh : Shadow}
    (hsh : P sh) : P (sh.replay evs) := by
  induction evs generalizing sh with
  | nil => exact hsh
  | cons e evs ih =>
    exact ih (fun e he => h e (List.mem_cons_of_mem _ he)) (h e (List.mem_cons_self ..) sh hsh)

/-- The shadow as R37 and R38 say, pin by pin. -/
theorem Shadow.ok_iff (sh : Shadow) :
    sh.ok = true ↔ ∀ p, ((sh.at p).mode = .output ∨ (sh.at p).lvl = .x) ∧ (p ≠ .data → (sh.at p).mode ≠ .input) := by
  simp only [Shadow.ok, PinShadow.ok, Bool.and_eq_true, Bool.or_eq_true, decide_eq_true_eq]
  constructor
  · rintro ⟨⟨⟨⟨hclk, hdata⟩, hrst⟩, hclk'⟩, hrst'⟩ (_ | _ | _)
    · exact ⟨hclk, fun _ => hclk'⟩
    · exact ⟨hdata, fun h => absurd rfl h⟩
    · exact ⟨hrst, fun _ => hrst'⟩
  · intro h
    exact ⟨⟨⟨⟨(h .clk).1, (h .data).1⟩, (h .rst).1⟩, (h .clk).2 (by decide)⟩, (h .rst).2 (by decide)⟩

theorem Shadow.afterEvent_ok {cfg : Config} {i : Instr} {e : Event} (h : e.shape.IssuedBy cfg i) {sh : Shadow} (hsh : sh.ok = true) :
    (sh.afterEvent e).ok = true := by
  rw [Shadow.ok_iff] at hsh ⊢
  intro p
  obtain heq | hout | ⟨rfl, heq⟩ | heq | ⟨-, heq⟩ := Shadow.at_afterEvent_cases h sh p
  · rw [heq]; exact hsh p
  · exact ⟨.inl hout, fun _ => by rw [hout]; decide⟩
  · rw [heq]; exact ⟨.inr rfl, fun hp => absurd rfl hp⟩
  · rw [heq]; exact ⟨.inr rfl, fun _ => by decide⟩
  · rw [heq]; exact ⟨.inr rfl, fun _ => by decide⟩

theorem exec_shadow_ok {i : Instr} {s t : State} (h : exec i s = .next t) (hs : s.pins.ok = true) : t.pins.ok = true := by
  obtain ⟨evs, hi⟩ := exec_issues h
  rw [hi.pins]
  exact Shadow.replay_keeps (P := fun sh => sh.ok = true) (fun e he _ => Shadow.afterEvent_ok (exec_issued h hi e he)) hs

/-- Only TEARDOWN makes a configured pin UNCONF. -/
theorem exec_stays_configured {i : Instr} {s t : State} (h : exec i s = .next t) (hi : i ≠ .teardown) {p : Pin}
    (hs : (s.pins.at p).mode ≠ .unconf) : (t.pins.at p).mode ≠ .unconf := by
  obtain ⟨evs, hissues⟩ := exec_issues h
  rw [hissues.pins]
  refine Shadow.replay_keeps (P := fun sh => (sh.at p).mode ≠ .unconf) (fun e he sh hsh => ?_) hs
  obtain heq | hout | ⟨-, heq⟩ | heq | ⟨hteardown, -⟩ := Shadow.at_afterEvent_cases (exec_issued h hissues e he) sh p
  · rw [heq]; exact hsh
  · rw [hout]; decide
  · rw [heq]; decide
  · rw [heq]; decide
  · exact absurd hteardown hi

/-- An INIT that reaches READY leaves clock and CE configured (44_lifecycle.md R220). -/
theorem init_configures {s t : State} (h : exec .init s = .next t) (hs : s.lifecycle ≠ .ready) (ht : t.lifecycle = .ready) :
    t.pins = Shadow.resting := by
  obtain ⟨-, -, rfl⟩ := hostOp_next h
  have hlifecycle := (finishHost_lifecycle (runInit (s.startOp .init))).1.lifecycle
  rw [ht, runInit] at hlifecycle
  rw [runInit]
  split at hlifecycle
  next hpermits =>
    rw [if_pos hpermits]
    have hends := runInitSequence_ends (s.startOp .init)
    cases hx : runInitSequence (s.startOp .init) with
    | done v u => exact (runInitSequence_done hx).2.1
    | failed e u =>
      rw [hx] at hends hlifecycle
      exact absurd (hends.1.symm.trans hlifecycle.symm) hs
  next => exact absurd hlifecycle.symm hs

theorem exec_pinsOwned {i : Instr} {s t : State} (h : exec i s = .next t) (hs : s.pinsOwned) : t.pinsOwned := by
  intro ht
  by_cases hready : s.lifecycle = .ready
  · have hi : i ≠ .teardown := by
      rintro rfl
      exact absurd ((teardown_closes h).1.symm.trans ht) (by decide)
    exact ⟨exec_stays_configured h hi (p := .clk) (hs hready).1, exec_stays_configured h hi (p := .rst) (hs hready).2⟩
  · obtain hharness | hdata | rfl | rfl := instr_kinds i
    · exact absurd ((harness_sameLifecycle hharness h).lifecycle.symm.trans ht) hready
    · exact absurd ((dataOp_sameLifecycle hdata h).lifecycle.symm.trans ht) hready
    · rw [init_configures h hready ht]
      exact ⟨by decide, by decide⟩
    · exact absurd ((teardown_closes h).1.symm.trans ht) (by decide)

/-! ### READY is reached through INIT (10_state.md R31, R32) -/

theorem exec_ready_attempted {i : Instr} {s t : State} (h : exec i s = .next t)
    (hs : s.lifecycle = .ready → s.initAttempted = true) : t.lifecycle = .ready → t.initAttempted = true := by
  intro ht
  obtain hharness | hdata | rfl | rfl := instr_kinds i
  · have hsame := harness_sameLifecycle hharness h
    exact hsame.initAttempted.trans (hs (hsame.lifecycle.symm.trans ht))
  · have hsame := dataOp_sameLifecycle hdata h
    exact hsame.initAttempted.trans (hs (hsame.lifecycle.symm.trans ht))
  · cases hpermits : s.permitsInit with
    | true => exact (init_permitted hpermits h).1
    | false =>
      have hsame := (init_refused hpermits h).1
      exact hsame.initAttempted.trans (hs (hsame.lifecycle.symm.trans ht))
  · exact absurd ((teardown_closes h).1.symm.trans ht) (by decide)

/-! ### The form of the storage (log 14) -/

theorem Chip.apply_wf {c : Chip} (h : c.mem.wf = true) (cmd : Byte) (k : Nat) (v : Byte) : (c.apply cmd k v).mem.wf = true := by
  have hstore : ∀ (P : Prop) [Decidable P] (r : Region) (j : Nat),
      (if P then { c with mem := c.mem.writeSlot r j v } else c).mem.wf = true := fun P _ r j => by
    split
    · exact Memory.writeSlot_wf c.mem r j v h
    · exact h
  unfold Chip.apply
  split
  · exact hstore _ _ _
  · exact hstore _ _ _
  · exact hstore _ _ _
  · exact hstore _ _ _
  all_goals exact h

theorem Chip.shiftIn_wf {c : Chip} (h : c.mem.wf = true) (b : Bool) : (c.shiftIn b).mem.wf = true := by
  unfold Chip.shiftIn
  split
  · exact h
  · split
    · exact h
    · exact Chip.apply_wf h _ _ _

theorem Chip.react_wf {c : Chip} (h : c.mem.wf = true) (sh : Shadow) (free : Bool) (call : Call) :
    (c.react sh free call).mem.wf = true := by
  unfold Chip.react
  split
  case h_3 =>
    split
    · exact Chip.shiftIn_wf h _
    · exact h
  case h_6 => split <;> exact h
  all_goals exact h

theorem Env.after_wf {e : Env} (h : e.storage.wf = true) (sh : Shadow) (c : Call) (r : Response) :
    (e.after sh c r).storage.wf = true := by
  have hdev := Env.after_device e sh c r
  unfold Env.storage at h ⊢
  rw [hdev]
  by_cases hr : r = .err
  · rw [if_pos hr]
    exact h
  · rw [if_neg hr]
    cases hd : e.device with
    | absent => rfl
    | loopback fifo => rfl
    | counterpart chip =>
      rw [hd] at h
      exact Chip.react_wf h _ _ _

theorem Env.replay_wf {evs : List Event} {e : Env} (h : e.storage.wf = true) (sh : Shadow) : (e.replay sh evs).storage.wf = true := by
  induction evs generalizing e sh with
  | nil => exact h
  | cons x evs ih =>
    cases x with
    | call c r => exact ih (Env.after_wf h sh c r) _
    | wait t => exact ih h _

theorem exec_storage_wf {i : Instr} {s t : State} (h : exec i s = .next t) (hs : s.env.storage.wf = true) :
    t.env.storage.wf = true := by
  obtain ⟨evs, hi⟩ := exec_issues h
  rw [hi.env]
  exact Env.replay_wf hs _

/-! ### The invariant -/

/-- Every instruction keeps the invariant, clause by clause. -/
theorem exec_keepsInv {i : Instr} {s t : State} (h : exec i s = .next t) (hs : s.Inv) : t.Inv := by
  obtain ⟨hseq, htxn, hbc, hbuf, hattempted, howned, hshadow, hwf⟩ := hs
  obtain ⟨hseq', htxn'⟩ := exec_idle h ⟨hseq, htxn⟩
  obtain ⟨hbc', hbuf'⟩ := exec_registersOk h ⟨hbc, hbuf⟩
  exact ⟨hseq', htxn', hbc', hbuf', exec_ready_attempted h hattempted, exec_pinsOwned h howned, exec_shadow_ok h hshadow,
    exec_storage_wf h hwf⟩

/-- Settles O48: the step is idle, or runs an instruction on the same registers, and every instruction keeps the invariant. -/
theorem stepKeepsInv : Obligations.StepKeepsInv := by
  intro s t hs h
  obtain ⟨-, rfl⟩ | ⟨r, rest, i, -, -, -, hexec⟩ := step_cases h
  · exact hs
  · exact exec_keepsInv (s := s.popRequest) hexec hs

/-- Settles O49: clause by clause, at the reset values. -/
theorem resetMeetsInv : Obligations.ResetMeetsInv :=
  ⟨rfl, rfl, by decide, by decide, nofun, nofun, by decide, by decide⟩

end Sys2Proof.Machine
end

section
/-! PROOF. Two runs side by side: no rule reads what SR, BC and BUF hold before it writes them (10_state.md R34, R36), nor GPIO_HANDLE
(00_scope.md R8). -/

namespace Sys2Proof.Machine

/-! ### Two states that differ in what is not read -/

/-- The state with another GPIO_HANDLE and other hidden registers. -/
def State.disguise (s : State) (g : Nat) (sr : Byte) (bc : Nat) (buf : List Byte) : State :=
  { s with cfg := { s.cfg with gpioHandle := g }, sr := sr, bc := bc, buf := buf }

/-- `t` is `s` but for GPIO_HANDLE; but for SR and BC too, unless `x`; and but for BUF too, unless `b`. -/
inductive Twin (x b : Bool) (s : State) : State → Prop
  | mk (g : Nat) (sr : Byte) (bc : Nat) (buf : List Byte) (hx : x = true → sr = s.sr ∧ bc = s.bc) (hb : b = true → buf = s.buf) :
    Twin x b s (s.disguise g sr bc buf)

/-- Two attempts end the same way, with the same value or error, in states that are twins. -/
inductive Alike (x b : Bool) {α : Type} : Attempt α → Attempt α → Prop
  | done (a : α) {s t : State} (h : Twin x b s t) : Alike x b (.done a s) (.done a t)
  | failed (e : OpError) {s t : State} (h : Twin x b s t) : Alike x b (.failed e s) (.failed e t)

/-- A part that does the same from twins. -/
def RunsAlike (x b : Bool) {α : Type} (run : State → Attempt α) : Prop := ∀ s t, Twin x b s t → Alike x b (run s) (run t)

section
variable {x b x' b' : Bool} {s t : State} {α β : Type}

/-- Twins that agree on more are twins that agree on less. -/
theorem Twin.weaken (h : Twin x b s t) (hx : x' = true → x = true) (hb : b' = true → b = true) : Twin x' b' s t := by
  obtain ⟨g, sr, bc, buf, hx', hb'⟩ := h
  exact ⟨g, sr, bc, buf, fun h => hx' (hx h), fun h => hb' (hb h)⟩

theorem Alike.weaken {p q : Attempt α} (h : Alike x b p q) (hx : x' = true → x = true) (hb : b' = true → b = true) :
    Alike x' b' p q := by
  cases h with
  | done a h => exact .done a (h.weaken hx hb)
  | failed e h => exact .failed e (h.weaken hx hb)

/-- An update that neither reads nor writes what twins may differ in. -/
theorem Twin.map {F : State → State} (h : Twin x b s t)
    (hF : ∀ s g sr bc buf, F (State.disguise s g sr bc buf) = (F s).disguise g sr bc buf) (hsr : (F s).sr = s.sr)
    (hbc : (F s).bc = s.bc) (hbuf : (F s).buf = s.buf) : Twin x b (F s) (F t) := by
  obtain ⟨g, sr, bc, buf, hx, hb⟩ := h
  rw [hF]
  exact ⟨g, sr, bc, buf, by rwa [hsr, hbc], by rwa [hbuf]⟩

theorem Twin.afterCall (h : Twin x b s t) (c : Call) (r : Response) : Twin x b (s.afterCall c r) (t.afterCall c r) :=
  h.map (F := (State.afterCall · c r)) (fun _ _ _ _ _ => rfl) rfl rfl rfl

theorem Twin.settle (h : Twin x b s t) : Twin x b s.settle t.settle := h.map (fun _ _ _ _ _ => rfl) rfl rfl rfl

theorem Twin.startOp (h : Twin x b s t) (op : Op) : Twin x b (s.startOp op) (t.startOp op) :=
  h.map (F := (State.startOp · op)) (fun _ _ _ _ _ => rfl) rfl rfl rfl

theorem Twin.openTxn (h : Twin x b s t) : Twin x b s.openTxn t.openTxn := h.map (fun _ _ _ _ _ => rfl) rfl rfl rfl

theorem Twin.closeTxn (h : Twin x b s t) : Twin x b s.closeTxn t.closeTxn := h.map (fun _ _ _ _ _ => rfl) rfl rfl rfl

theorem Twin.seekEnd (h : Twin x b s t) (p : Option SeqPos) (m : Nat) : Twin x b (s.seekEnd p m) (t.seekEnd p m) :=
  h.map (F := (State.seekEnd · p m)) (fun _ _ _ _ _ => rfl) rfl rfl rfl

theorem Twin.markInit (h : Twin x b s t) : Twin x b s.markInit t.markInit := h.map (fun _ _ _ _ _ => rfl) rfl rfl rfl

theorem Twin.becomeReady (h : Twin x b s t) : Twin x b s.becomeReady t.becomeReady := h.map (fun _ _ _ _ _ => rfl) rfl rfl rfl

theorem Twin.becomeClosed (h : Twin x b s t) : Twin x b s.becomeClosed t.becomeClosed :=
  h.map (fun _ _ _ _ _ => rfl) rfl rfl rfl

theorem Twin.popRequest (h : Twin x b s t) : Twin x b s.popRequest t.popRequest := h.map (fun _ _ _ _ _ => rfl) rfl rfl rfl

theorem Twin.complete (h : Twin x b s t) (v : Value) : Twin x b (s.complete v) (t.complete v) :=
  h.map (F := (State.complete · v)) (fun _ _ _ _ _ => rfl) rfl rfl rfl

theorem Twin.raise (h : Twin x b s t) (e : OpError) : Twin x b (s.raise e) (t.raise e) :=
  h.map (F := (State.raise · e)) (fun _ _ _ _ _ => rfl) rfl rfl rfl

theorem Twin.handBack (h : Twin x b s t) (r : Returned) : Twin x b (s.handBack r) (t.handBack r) :=
  h.map (F := (State.handBack · r)) (fun _ _ _ _ _ => rfl) rfl rfl rfl

/-- SR and BC are written before they are read: from here on twins agree on them. -/
theorem Twin.loadSr (h : Twin x b s t) (v : Byte) : Twin true b (s.loadSr v) (t.loadSr v) := by
  obtain ⟨g, sr, bc, buf, -, hb⟩ := h
  exact .mk (s := s.loadSr v) g v 0 buf (fun _ => ⟨rfl, rfl⟩) hb

theorem Twin.shiftSr (h : Twin x b s t) : Twin x b s.shiftSr t.shiftSr := by
  obtain ⟨g, sr, bc, buf, hx, hb⟩ := h
  exact .mk (s := s.shiftSr) g (shiftOut sr) bc buf (fun h => ⟨congrArg shiftOut (hx h).1, (hx h).2⟩) hb

theorem Twin.orSr (h : Twin x b s t) (l : Bool) (i : Nat) : Twin x b (s.orSr l i) (t.orSr l i) := by
  obtain ⟨g, sr, bc, buf, hx, hb⟩ := h
  exact .mk (s := s.orSr l i) g (orBit sr l i) bc buf (fun h => ⟨congrArg (orBit · l i) (hx h).1, (hx h).2⟩) hb

theorem Twin.countBit (h : Twin x b s t) : Twin x b s.countBit t.countBit := by
  obtain ⟨g, sr, bc, buf, hx, hb⟩ := h
  exact .mk (s := s.countBit) g sr (bc + 1) buf (fun h => ⟨(hx h).1, congrArg (· + 1) (hx h).2⟩) hb

theorem Twin.keepByte (h : Twin x b s t) (toBuf : Bool) (k : Nat) (v : Byte) :
    Twin x b (s.keepByte toBuf k v) (t.keepByte toBuf k v) := by
  cases toBuf with
  | false => exact h
  | true =>
    obtain ⟨g, sr, bc, buf, hx, hb⟩ := h
    exact .mk (s := s.keepByte true k v) g sr bc (buf.set k v) hx fun h => congrArg (List.set · k v) (hb h)

/-- BUF is written before it is read: from here on twins agree on it. -/
theorem Twin.beginBuf (h : Twin x b s t) : Twin x true s.beginBuf t.beginBuf := by
  obtain ⟨g, sr, bc, buf, hx, -⟩ := h
  exact .mk (s := s.beginBuf) g sr bc (unspecifiedBuf s.opCount) hx fun _ => rfl

theorem Twin.storeBuf (h : Twin x b s t) (bs : List Byte) : Twin x b (s.storeBuf bs) (t.storeBuf bs) := by
  obtain ⟨g, sr, bc, buf, hx, hb⟩ := h
  exact .mk (s := s.storeBuf bs) g sr bc (storeFrom 0 bs buf) hx fun h => congrArg (storeFrom 0 bs) (hb h)

theorem Twin.sr_eq (h : Twin true b s t) : t.sr = s.sr := by
  obtain ⟨g, sr, bc, buf, hx, -⟩ := h
  exact (hx rfl).1

theorem Twin.buf_eq (h : Twin x true s t) : t.buf = s.buf := by
  obtain ⟨g, sr, bc, buf, -, hb⟩ := h
  exact hb rfl

/-! ### The parts of an operation from twins -/

theorem Alike.andThen {p q : Attempt α} {f f' : α → State → Attempt β} (h : Alike x b p q)
    (hf : ∀ a s t, Twin x b s t → Alike x b (f a s) (f' a t)) : Alike x b (p.andThen f) (q.andThen f') := by
  cases h with
  | done a h => exact hf a _ _ h
  | failed e h => exact .failed e h

theorem pinCall_alike (c : Call) : RunsAlike x b (pinCall c) := by
  intro s t h
  have hanswer : t.env.answer c = s.env.answer c := by obtain ⟨⟩ := h; rfl
  have herror : OpError.pinAccess c t.trace.length t.seq = .pinAccess c s.trace.length s.seq := by obtain ⟨⟩ := h; rfl
  unfold pinCall
  rw [hanswer, herror]
  cases s.env.answer c with
  | err => exact .failed _ (h.afterCall c .err)
  | ok => exact .done _ (h.afterCall c .ok)
  | level l => exact .done _ (h.afterCall c (.level l))

theorem callThen_alike {c : Call} {f f' : State → Attempt β} (h : Twin x b s t)
    (hf : ∀ s t, Twin x b s t → Alike x b (f s) (f' t)) : Alike x b (callThen c s f) (callThen c t f') :=
  (pinCall_alike c s t h).andThen fun _ => hf

theorem writeCell_alike : RunsAlike true b writeCell := fun _ _ h =>
  callThen_alike h fun _ v huv => by
    rw [show bitAt v.settle.sr 0 = _ from congrArg (bitAt · 0) huv.settle.sr_eq]
    exact callThen_alike huv.settle fun _ _ h => callThen_alike h.shiftSr fun _ _ h => .done () h.settle.countBit

theorem writeCells_alike (n : Nat) : RunsAlike true b (writeCells n) := by
  intro s t h
  induction n generalizing s t with
  | zero => exact .done () h
  | succ n ih => exact (writeCell_alike s t h).andThen fun _ => ih

theorem writeByte_alike (v : Byte) : RunsAlike x b (writeByte v) := fun s t h => by
  have hcfg : t.cfg.dataOutInit = s.cfg.dataOutInit := by obtain ⟨⟩ := h; rfl
  rw [writeByte, writeByte, hcfg]
  exact callThen_alike h fun _ _ h => (writeCells_alike 8 _ _ (h.loadSr v)).weaken (fun _ => rfl) id

theorem readCell_alike (i : Nat) : RunsAlike true b (readCell i) := fun _ _ h =>
  callThen_alike h fun _ _ h => callThen_alike h.settle fun _ _ h =>
    (pinCall_alike (.get .data) _ _ h.settle).andThen fun l _ _ h => .done () (h.orSr l i).countBit

theorem readCells_alike (n i : Nat) : RunsAlike true b (readCells n i) := by
  intro s t h
  induction n generalizing i s t with
  | zero => exact .done () h
  | succ n ih => exact (readCell_alike i s t h).andThen fun _ => ih (i + 1)

theorem readByte_alike : RunsAlike x b readByte := fun _ _ h =>
  callThen_alike h fun _ _ h => Alike.weaken (x := true) (b := b)
    ((readCells_alike 8 0 _ _ (h.loadSr 0x00#8)).andThen fun _ u v huv => by rw [huv.sr_eq]; exact .done _ huv) (fun _ => rfl) id

theorem beginTxn_alike : RunsAlike x b beginTxn := fun _ _ h =>
  callThen_alike h fun _ _ h => callThen_alike h fun _ _ h => .done () h

theorem tryCalls_alike (cs : List Call) (first : Option OpError) (h : Twin x b s t) :
    (tryCalls cs first t).1 = (tryCalls cs first s).1 ∧ Twin x b (tryCalls cs first s).2 (tryCalls cs first t).2 := by
  induction cs generalizing first s t with
  | nil => exact ⟨rfl, h⟩
  | cons c cs ih =>
    have hcall : (tryCall c first t).1 = (tryCall c first s).1 ∧ Twin x b (tryCall c first s).2 (tryCall c first t).2 := by
      have hpin := pinCall_alike c s t h
      unfold tryCall
      generalize pinCall c s = p at hpin ⊢
      generalize pinCall c t = q at hpin ⊢
      cases hpin with
      | done a h => exact ⟨rfl, h⟩
      | failed e h => exact ⟨rfl, h⟩
    rw [tryCalls, tryCalls, hcall.1]
    exact ih _ hcall.2

theorem endTxn_alike (h : Twin x b s t) : (endTxn t).1 = (endTxn s).1 ∧ Twin x b (endTxn s).2 (endTxn t).2 :=
  tryCalls_alike endCalls none h

theorem runBody_alike (toBuf : Bool) (k : Nat) (ops : List ByteOp) : RunsAlike x b (runBody toBuf k ops) := by
  intro s t h
  induction ops generalizing k s t with
  | nil => exact .done [] h
  | cons op ops ih =>
    cases op with
    | wr v => exact (writeByte_alike v s t h).andThen fun _ => ih k
    | rd =>
      exact (readByte_alike s t h).andThen fun v _ _ h => (ih (k + 1) _ _ (h.keepByte toBuf k v)).andThen fun bs _ _ h =>
        .done (v :: bs) h

theorem runTransaction_alike (toBuf : Bool) (body : List ByteOp) : RunsAlike x b (runTransaction toBuf body) := by
  intro s t h
  have hseq : t.seq = s.seq := by obtain ⟨⟩ := h; rfl
  have hbody := (beginTxn_alike _ _ h.openTxn).andThen fun _ => runBody_alike (x := x) (b := b) toBuf 0 body
  unfold runTransaction
  rw [hseq]
  generalize (beginTxn s.openTxn).andThen (fun _ t => runBody toBuf 0 body t) = p at hbody ⊢
  generalize (beginTxn t.openTxn).andThen (fun _ t => runBody toBuf 0 body t) = q at hbody ⊢
  cases hbody with
  | done bs h =>
    obtain ⟨hfirst, hend⟩ := endTxn_alike h
    dsimp only
    rw [hfirst]
    split
    · exact .done bs hend.closeTxn
    · exact .failed _ hend.closeTxn
  | failed e h => exact .failed e (endTxn_alike (h.seekEnd s.seq body.length)).2.closeTxn

/-! ### The operations from twins -/

theorem runReadDatetime_alike (h : Twin x b s t) : Alike x true (runReadDatetime s) (runReadDatetime t) :=
  (runTransaction_alike true _ _ _ h.beginBuf).andThen fun _ u v huv => by
    rw [huv.buf_eq]
    cases frameDecode (frameOfBuf u.buf) with
    | ok cv => exact .done _ huv
    | error e => exact .failed e huv

theorem runWriteDatetime_alike (cv : Calendar) (h : Twin x b s t) :
    Alike x true (runWriteDatetime cv s) (runWriteDatetime cv t) := by
  have hpad : t.cfg.padByte = s.cfg.padByte := by obtain ⟨⟩ := h; rfl
  cases hf : frameEncode cv with
  | error e =>
    rw [runWriteDatetime_error hf, runWriteDatetime_error hf]
    exact .failed e h.beginBuf
  | ok f =>
    rw [runWriteDatetime_ok hf, runWriteDatetime_ok hf, hpad]
    exact (runTransaction_alike false _ _ _ (h.beginBuf.storeBuf f.toList)).andThen fun _ _ _ h => .done _ h

theorem runReadRam_alike (h : Twin x b s t) : Alike x true (runReadRam s) (runReadRam t) :=
  (runTransaction_alike true _ _ _ h.beginBuf).andThen fun _ u v huv => by
    rw [State.bufBytes, State.bufBytes, huv.buf_eq]
    exact .done _ huv

theorem runWriteRam_alike (block : List Byte) (h : Twin x b s t) : Alike x true (runWriteRam block s) (runWriteRam block t) := by
  rw [runWriteRam_eq, runWriteRam_eq]
  exact (runTransaction_alike false _ _ _ (h.beginBuf.storeBuf _)).andThen fun _ _ _ h => .done _ h

/-- The gate lets a data operation begin BUF in READY alone; elsewhere BUF is as it was. -/
theorem dataGate_alike {op : Op} {run : State → Attempt Value} (hrun : Twin x b s t → Alike x true (run s) (run t))
    (h : Twin x b s t) : Alike x (b || s.lifecycle.permitsData) (dataGate op run s) (dataGate op run t) := by
  have hlifecycle : t.lifecycle = s.lifecycle := by obtain ⟨⟩ := h; rfl
  have herror : t.lifecycleError op = s.lifecycleError op := by obtain ⟨⟩ := h; rfl
  unfold dataGate
  rw [hlifecycle, herror]
  cases s.lifecycle.permitsData with
  | true => exact (hrun h).weaken id fun _ => rfl
  | false => exact .failed _ (h.weaken id (by simp))

theorem runInit_alike : RunsAlike x b runInit := by
  intro s t h
  have hpermits : t.permitsInit = s.permitsInit := by obtain ⟨⟩ := h; rfl
  have herror : t.lifecycleError .init = s.lifecycleError .init := by obtain ⟨⟩ := h; rfl
  unfold runInit
  rw [hpermits, herror]
  split
  · exact callThen_alike h.markInit fun _ _ h => (runTransaction_alike false _ _ _ h).andThen fun _ _ _ h =>
      (runTransaction_alike false _ _ _ h).andThen fun _ _ _ h => .done _ h.becomeReady
  · exact .failed _ h

theorem runTeardown_alike : RunsAlike x b runTeardown := by
  intro s t h
  have hlifecycle : t.lifecycle = s.lifecycle := by obtain ⟨⟩ := h; rfl
  unfold runTeardown
  rw [hlifecycle]
  split
  · exact .done _ h
  · exact callThen_alike h.becomeClosed fun _ _ h => .done _ h

/-! ### Instructions from twins -/

/-- Where one answer is a next state, so is the other, and the two are twins. -/
def AnswersAlike (x b : Bool) (o o' : Host.Outcome State Fault Refusal) : Prop :=
  ∀ u, o = .next u → ∃ v, o' = .next v ∧ Twin x b u v

theorem finishHost_twin {p q : Attempt Value} (h : Alike x b p q) : Twin x b (finishHost p) (finishHost q) := by
  cases h with
  | done v h => exact h.complete v
  | failed e h => exact h.raise e

theorem finishHarness_twin {p q : Attempt Returned} (h : Alike x b p q) : Twin x b (finishHarness p) (finishHarness q) := by
  cases h with
  | done r h => exact h.handBack r
  | failed e h => exact h.handBack (.error e)

theorem hostOp_alike {op : Op} {run : State → Attempt Value} (h : Twin x b s t)
    (hrun : Twin x b (s.startOp op) (t.startOp op) → Alike x b' (run (s.startOp op)) (run (t.startOp op))) :
    AnswersAlike x b' (hostOp op run s) (hostOp op run t) := by
  rintro u hu
  obtain ⟨hseq, htxn, rfl⟩ := hostOp_next hu
  have hidle : t.Idle := by obtain ⟨⟩ := h; exact ⟨hseq, htxn⟩
  exact ⟨_, hostOp_idle hidle, finishHost_twin (hrun (h.startOp op))⟩

theorem harnessTransaction_alike {op : Op} {run : State → Attempt Returned} (h : Twin x b s t) (hrun : RunsAlike x b run) :
    AnswersAlike x b (harnessTransaction op run s) (harnessTransaction op run t) := by
  rintro u hu
  obtain ⟨hseq, htxn, rfl⟩ := harnessTransaction_next hu
  have hidle : t.Idle := by obtain ⟨⟩ := h; exact ⟨hseq, htxn⟩
  exact ⟨_, harnessTransaction_idle hidle, finishHarness_twin (hrun _ _ (h.startOp op))⟩

theorem microOp_alike {op : Op} {run : State → Attempt Returned} (h : Twin x b s t) (hrun : RunsAlike x b run) :
    AnswersAlike x b (microOp op run s) (microOp op run t) := by
  rintro u hu
  obtain ⟨hseq, rfl⟩ := microOp_next hu
  have hrest : t.seq = none := by obtain ⟨⟩ := h; exact hseq
  exact ⟨_, microOp_idle hrest, finishHarness_twin (hrun _ _ (h.startOp op))⟩

theorem codecCall_alike (h : Twin x b s t) (r : Returned) : AnswersAlike x b (codecCall r s) (codecCall r t) := by
  rintro _ ⟨⟩
  exact ⟨_, rfl, h.map (F := fun s => { s with returned := some r }) (fun _ _ _ _ _ => rfl) rfl rfl rfl⟩

theorem RunsAlike.thenReturn {run : State → Attempt α} (hrun : RunsAlike x b run) (v : α → Returned) :
    RunsAlike x b fun s => (run s).andThen fun a t => .done (v a) t :=
  fun s t h => (hrun s t h).andThen fun a _ _ h => .done (v a) h

theorem endTxn_runsAlike : RunsAlike x b fun s => .done (Returned.endStatus (endTxn s).1) (endTxn s).2 := fun s t h => by
  dsimp only
  rw [(endTxn_alike h).1]
  exact .done _ (endTxn_alike h).2

/-- A data operation in READY begins BUF anew. -/
theorem dataOp_alike {i : Instr} (hdata : isDataOp i = true) (h : Twin x b s t) :
    AnswersAlike x (b || s.lifecycle.permitsData) (exec i s) (exec i t) := by
  cases i with
  | readDatetime => exact hostOp_alike h (dataGate_alike runReadDatetime_alike)
  | writeDatetime cv => exact hostOp_alike h (dataGate_alike (runWriteDatetime_alike cv))
  | readRam => exact hostOp_alike h (dataGate_alike runReadRam_alike)
  | writeRam block => exact hostOp_alike h (dataGate_alike (runWriteRam_alike block))
  | _ => cases hdata

theorem exec_alike {i : Instr} (h : Twin x b s t) : AnswersAlike x b (exec i s) (exec i t) := by
  have hdata (hi : isDataOp i = true) : AnswersAlike x b (exec i s) (exec i t) := fun u hu => by
    obtain ⟨v, hv, htwin⟩ := dataOp_alike hi h u hu
    exact ⟨v, hv, htwin.weaken id fun hb => by rw [hb]; rfl⟩
  have hbase : t.cfg.centuryBase = s.cfg.centuryBase := by obtain ⟨⟩ := h; rfl
  cases i with
  | init => exact hostOp_alike h (runInit_alike _ _)
  | teardown => exact hostOp_alike h (runTeardown_alike _ _)
  | readDatetime | writeDatetime _ | readRam | writeRam _ => exact hdata rfl
  | txnBegin => exact microOp_alike h (beginTxn_alike.thenReturn fun _ => .done)
  | txnEnd => exact microOp_alike h endTxn_runsAlike
  | wrByte v => exact microOp_alike h ((writeByte_alike v).thenReturn fun _ => .done)
  | rdByte => exact microOp_alike h (readByte_alike.thenReturn .byte)
  | bcdEnc _ | bcdDec _ | frameEnc _ | frameDec _ => exact codecCall_alike h _
  | yyOfYear year =>
    simp only [exec, execYyOfYear, hbase]
    exact codecCall_alike h _
  | yearOfYy yy =>
    simp only [exec, execYearOfYy, hbase]
    exact codecCall_alike h _
  | _ => exact harnessTransaction_alike h ((runTransaction_alike false _).thenReturn .bytes)

theorem step_alike (h : Twin x b s t) : AnswersAlike x b (step s) (step t) := by
  have hpins : t.cfg.pinsDistinct = s.cfg.pinsDistinct := by obtain ⟨⟩ := h; rfl
  have hrequests : t.requests = s.requests := by obtain ⟨⟩ := h; rfl
  unfold step
  rw [hpins, hrequests]
  split
  · cases s.requests with
    | nil =>
      rintro _ ⟨⟩
      exact ⟨t, rfl, h⟩
    | cons r rest =>
      dsimp only
      cases readRequest r with
      | error why => rintro _ ⟨⟩
      | ok i =>
        simp only [runRead]
        split
        · exact exec_alike h.popRequest
        · rintro _ ⟨⟩
  · rintro _ ⟨⟩

end

/-! ### What is not read -/

/-- Twins of one configuration differ in the hidden registers alone. -/
theorem Twin.withHidden_eq {x b : Bool} {s t : State} (h : Twin x b s t) (hcfg : t.cfg = s.cfg) :
    t.withHidden s.sr s.bc s.buf = s := by
  obtain ⟨g, sr, bc, buf, -, -⟩ := h
  have hcfg' : { s.cfg with gpioHandle := g } = s.cfg := hcfg
  simp only [State.disguise, State.withHidden, hcfg']

/-- Twins that agree on the hidden registers differ in the handle alone. -/
theorem Twin.handle_eq {s t : State} {g : Nat} (h : Twin true true s t) (hcfg : t.cfg = { s.cfg with gpioHandle := g }) :
    t = { s with cfg := { s.cfg with gpioHandle := g } } := by
  obtain ⟨g', sr, bc, buf, hx, hb⟩ := h
  have hcfg' : { s.cfg with gpioHandle := g' } = { s.cfg with gpioHandle := g } := hcfg
  obtain ⟨rfl, rfl⟩ := hx rfl
  obtain rfl := hb rfl
  rw [State.disguise, hcfg']

/-- Settles O52: the state with other hidden registers is a twin, and so are the states the two reach; BUF is the same again where
a data operation began it. -/
theorem hiddenRegistersAreUnread : Obligations.HiddenRegistersAreUnread := by
  intro i s t sr bc buf h
  have htwin : Twin false false s (s.withHidden sr bc buf) := .mk s.cfg.gpioHandle sr bc buf nofun nofun
  obtain ⟨t', ht', hreached⟩ := exec_alike htwin t h
  obtain ⟨evs, hi⟩ := exec_issues h
  obtain ⟨evs', hi'⟩ := exec_issues ht'
  refine ⟨t', ht', hreached.withHidden_eq (hi'.cfg.trans hi.cfg.symm), fun hdata hready => ?_⟩
  obtain ⟨u, hu, hbuf⟩ := dataOp_alike hdata htwin t h
  obtain rfl : u = t' := by
    rw [ht'] at hu
    cases hu
    rfl
  rw [hready] at hbuf
  exact hbuf.buf_eq

/-- Settles O53: the state with another handle is a twin that agrees on the hidden registers; so are the states reached. -/
theorem gpioHandleIsUnread : Obligations.GpioHandleIsUnread := by
  intro s t g h
  have htwin : Twin true true s { s with cfg := { s.cfg with gpioHandle := g } } :=
    .mk g s.sr s.bc s.buf (fun _ => ⟨rfl, rfl⟩) fun _ => rfl
  obtain ⟨v, hv, hreached⟩ := step_alike htwin t h
  obtain ⟨evs, hi⟩ := stepOnlyIssuesEvents _ _ h
  obtain ⟨evs', hi'⟩ := stepOnlyIssuesEvents _ _ hv
  rw [hv, hreached.handle_eq (hi'.cfg.trans (by rw [hi.cfg]))]

end Sys2Proof.Machine
end

section
/-! PROOF. The counterpart's storage: what an instruction does not store to stands (20_memory.md R82, R83, R85). -/

namespace Sys2Proof.Machine

/-! ### Storage after a call -/

/-- Only a rising edge of the clock stores a byte (R81). -/
theorem Chip.react_mem {call : Call} (h : call ≠ .set .clk true) (c : Chip) (sh : Shadow) (free : Bool) :
    (c.react sh free call).mem = c.mem := by
  unfold Chip.react
  split
  case h_3 => exact absurd rfl h
  case h_6 => split <;> rfl
  all_goals rfl

theorem afterCall_storage {c : Call} (h : c ≠ .set .clk true) (s : State) (r : Response) :
    (s.afterCall c r).env.storage = s.env.storage := by
  have hdev := Env.after_device s.env s.pins c r
  rw [State.afterCall_env]
  unfold Env.storage
  rw [hdev]
  by_cases hr : r = .err
  · rw [if_pos hr]
  · rw [if_neg hr]
    cases s.env.device with
    | absent => rfl
    | loopback fifo => rfl
    | counterpart chip => exact Chip.react_mem h chip _ _

/-! ### What a part does not store to -/

/-- A part that leaves the byte at an address as it is, done or failed. -/
def KeepsByteAt (a : Nat) {α : Type} (s : State) (x : Attempt α) : Prop := x.state.env.storage.read a = s.env.storage.read a

/-- One transaction of this body, from a state with the same environment, and then a part that leaves the state as it is. -/
theorem transactionThen_keepsByteAt {α : Type} {a : Nat} {toBuf : Bool} {body : List ByteOp} {s u : State}
    {f : List Byte → State → Attempt α} (hf : ∀ bs t, (f bs t).state = t) (henv : u.env = s.env)
    (ha : ∀ r k, (r, k) ∈ storeSlots (writesOf body) → a ≠ r.base + k) :
    KeepsByteAt a s ((runTransaction toBuf body u).andThen f) := by
  rw [KeepsByteAt, Attempt.andThen_state hf, runTransaction_storage toBuf body u a ha, henv]

theorem dataGate_keepsByteAt {a : Nat} {op : Op} {run : State → Attempt Value} {s : State} (hrun : KeepsByteAt a s (run s)) :
    KeepsByteAt a s (dataGate op run s) := by
  by_cases hready : s.lifecycle = .ready
  · rwa [dataGate_ready hready]
  · rw [dataGate_not_ready hready]
    rfl

theorem runReadDatetime_keepsByteAt {a : Nat} (s : State)
    (ha : ∀ r k, (r, k) ∈ storeSlots (writesOf (readFormat .clockBurstRead)) → a ≠ r.base + k) :
    KeepsByteAt a s (runReadDatetime s) :=
  transactionThen_keepsByteAt (fun _ t => by cases frameDecode (frameOfBuf t.buf) <;> rfl) rfl ha

theorem runWriteDatetime_keepsByteAt {a : Nat} {cv : Calendar} (s : State)
    (ha : ∀ r k, (r, k) ∈ bodySlots (bodyOf s.cfg (.writeDatetime cv)) → a ≠ r.base + k) :
    KeepsByteAt a s (runWriteDatetime cv s) := by
  cases hf : frameEncode cv with
  | error e =>
    rw [runWriteDatetime_error hf]
    rfl
  | ok f =>
    rw [runWriteDatetime_ok hf]
    rw [bodyOf, hf] at ha
    exact transactionThen_keepsByteAt (fun _ _ => rfl) rfl ha

theorem runReadRam_keepsByteAt {a : Nat} (s : State)
    (ha : ∀ r k, (r, k) ∈ storeSlots (writesOf (readFormat .ramBurstRead)) → a ≠ r.base + k) : KeepsByteAt a s (runReadRam s) :=
  transactionThen_keepsByteAt (fun _ _ => rfl) rfl ha

theorem runWriteRam_keepsByteAt {a : Nat} {block : List Byte} (s : State)
    (ha : ∀ r k, (r, k) ∈ bodySlots (bodyOf s.cfg (.writeRam block)) → a ≠ r.base + k) :
    KeepsByteAt a s (runWriteRam block s) := by
  rw [runWriteRam_eq]
  exact transactionThen_keepsByteAt (fun _ _ => rfl) rfl ha

/-- INIT stores to WP and to TC. -/
theorem runInit_keepsByteAt {a : Nat} (s : State) (hwp : a ≠ Region.wp.base + 0) (htc : a ≠ Region.tc.base + 0) :
    KeepsByteAt a s (runInit s) := by
  have hfirst : ∀ r k, (r, k) ∈ storeSlots (writesOf (writeFormat .wpWrite [0x00#8])) → a ≠ r.base + k := by
    intro r k hrk
    obtain ⟨rfl, rfl⟩ := Prod.mk.inj (List.mem_singleton.1 hrk)
    exact hwp
  have hsecond : ∀ r k, (r, k) ∈ storeSlots (writesOf (writeFormat .tcWrite [0x00#8])) → a ≠ r.base + k := by
    intro r k hrk
    obtain ⟨rfl, rfl⟩ := Prod.mk.inj (List.mem_singleton.1 hrk)
    exact htc
  have hcall : ∀ r, (s.markInit.afterCall (.cfg [.clk, .rst] .output (some .low)) r).env.storage.read a = s.env.storage.read a :=
    fun r => by rw [afterCall_storage (by decide)]; rfl
  unfold runInit runInitSequence
  split
  · refine callThen_keeps (P := fun t => t.env.storage.read a = s.env.storage.read a) hcall fun t r ht => ?_
    refine Attempt.andThen_keeps (P := fun t => t.env.storage.read a = s.env.storage.read a) ?_ fun _ u _ hu => ?_
    · rw [runTransaction_storage false _ t a hfirst, ht, hcall r]
    · refine Attempt.andThen_keeps (P := fun t => t.env.storage.read a = s.env.storage.read a) ?_ fun _ _ _ hv => hv
      rw [runTransaction_storage false _ u a hsecond, hu]
  · rfl

theorem runTeardown_keepsByteAt {a : Nat} (s : State) : KeepsByteAt a s (runTeardown s) := by
  have hcall : ∀ r, (s.becomeClosed.afterCall (.rel [.clk, .data, .rst]) r).env.storage.read a = s.env.storage.read a :=
    fun r => by rw [afterCall_storage (by decide)]; rfl
  unfold runTeardown
  split
  · rfl
  · exact callThen_keeps (P := fun t => t.env.storage.read a = s.env.storage.read a) hcall fun _ r ht => ht ▸ hcall r

/-! ### What an instruction does not store to -/

theorem finishHost_env (x : Attempt Value) : (finishHost x).env = x.state.env := by cases x <;> rfl

theorem finishHarness_env (x : Attempt Returned) : (finishHarness x).env = x.state.env := by cases x <;> rfl

theorem hostOp_keepsByteAt {a : Nat} {op : Op} {run : State → Attempt Value} {s t : State}
    (hrun : KeepsByteAt a (s.startOp op) (run (s.startOp op))) (h : hostOp op run s = .next t) :
    t.env.storage.read a = s.env.storage.read a := by
  obtain ⟨-, -, rfl⟩ := hostOp_next h
  rw [finishHost_env]
  exact hrun

theorem microOp_keepsByteAt {α : Type} {a : Nat} {op : Op} {run : State → Attempt α} {v : α → Returned} {s t : State}
    (hrun : KeepsByteAt a (s.startOp op) (run (s.startOp op)))
    (h : microOp op (fun s => (run s).andThen fun a t => .done (v a) t) s = .next t) :
    t.env.storage.read a = s.env.storage.read a := by
  obtain ⟨-, rfl⟩ := microOp_next h
  rw [finishHarness_env, Attempt.andThen_state fun _ _ => rfl]
  exact hrun

theorem txnEnd_storage {s t : State} (h : exec .txnEnd s = .next t) : t.env.storage = s.env.storage := by
  obtain ⟨-, rfl⟩ := microOp_next (op := .txnEnd) (run := fun s => .done (.endStatus (endTxn s).1) (endTxn s).2) h
  exact endTxn_storage (s.startOp .txnEnd)

theorem slotsOf_transaction {i : Instr} (hharness : isHostOp i = false) (halone : startsAlone i = true) (s : State) :
    s.slotsOf i = bodySlots (bodyOf s.cfg i) := by
  cases i with
  | init | readDatetime | writeDatetime _ | readRam | writeRam _ | teardown => cases hharness
  | txnBegin | txnEnd | wrByte _ | rdByte => cases halone
  | bcdEnc _ | bcdDec _ | frameEnc _ | frameDec _ | yyOfYear _ | yearOfYy _ => cases halone
  | _ => rfl

/-- Settles O54: every operation is made of transactions, each of which stores to the slots of its written bytes alone, of parts
that store nothing, and of a WRBYTE, which completes at most one byte. -/
theorem storageOutsideStoredSlotsStands : Obligations.StorageOutsideStoredSlotsStands := by
  intro i s t a h ha
  have hrow (hharness : isHostOp i = false) (halone : startsAlone i = true) : t.env.storage.read a = s.env.storage.read a := by
    obtain ⟨op, body, -, hbody, hexec⟩ := exec_harnessTransaction hharness halone
    rw [slotsOf_transaction hharness halone, hbody] at ha
    rw [hexec] at h
    obtain ⟨-, -, rfl⟩ := harnessTransaction_next h
    rw [finishHarness_env, Attempt.andThen_state fun _ _ => rfl]
    exact runTransaction_storage false body (s.startOp op) a ha
  cases i with
  | init =>
    have hwp := ha .wp 0 (List.mem_cons_self ..)
    have htc := ha .tc 0 (List.mem_cons_of_mem _ (List.mem_cons_self ..))
    exact hostOp_keepsByteAt (runInit_keepsByteAt _ hwp htc) h
  | readDatetime => exact hostOp_keepsByteAt (dataGate_keepsByteAt (runReadDatetime_keepsByteAt _ ha)) h
  | writeDatetime cv => exact hostOp_keepsByteAt (dataGate_keepsByteAt (runWriteDatetime_keepsByteAt _ ha)) h
  | readRam => exact hostOp_keepsByteAt (dataGate_keepsByteAt (runReadRam_keepsByteAt _ ha)) h
  | writeRam block => exact hostOp_keepsByteAt (dataGate_keepsByteAt (runWriteRam_keepsByteAt _ ha)) h
  | teardown => exact hostOp_keepsByteAt (runTeardown_keepsByteAt _) h
  | txnBegin => exact microOp_keepsByteAt (v := fun _ => .done) (congrArg (Memory.read · a) (beginTxn_storage _)) h
  | txnEnd => rw [txnEnd_storage h]
  | wrByte v => exact microOp_keepsByteAt (v := fun _ => .done) (writeByte_storage v _ a ha) h
  | rdByte => exact microOp_keepsByteAt (v := .byte) (congrArg (Memory.read · a) (readByte_storage _)) h
  | bcdEnc _ | bcdDec _ | frameEnc _ | frameDec _ | yyOfYear _ | yearOfYy _ => cases h; rfl
  | _ => exact hrow rfl rfl

end Sys2Proof.Machine
end

section
/-! PROOF. The shadow after an answered call (10_state.md R40); WRBYTE and RDBYTE when no call fails, their registers, their pins and
their clock edges (41_bit_transport.md R140, R141). -/

namespace Sys2Proof.Machine

/-! ### A call answered `Ok` -/

theorem Shadow.after_of_not_err {r : Response} (h : r ≠ .err) (sh : Shadow) (c : Call) : sh.after c r = sh.onOk c := if_neg h

/-- Settles O11: each bullet of R40 is what `onOk` does to the pins a call names, and a call moves no other pin. -/
theorem answeredCallMovesShadow : Obligations.AnsweredCallMovesShadow := by
  intro sh r hr p
  have hput : ∀ v ps, p ∈ ps → (sh.putAll v ps).at p = v := fun v ps hp => by rw [Shadow.at_putAll, if_pos hp]
  simp only [Shadow.after_of_not_err hr]
  refine ⟨fun ps hp => ⟨hput _ _ hp, hput _ _ hp, hput _ _ hp, fun l => congrArg PinShadow.mode (hput _ _ hp)⟩,
    fun ps l hp => hput _ _ hp, fun ps hp => hput _ _ hp,
    fun hout => ⟨sh.at_onOk_set_of_output false hout, sh.at_onOk_set_of_output true hout⟩,
    fun b hunknown => if_neg (by rw [hunknown]; decide), fun q => rfl, fun c hc => ?_⟩
  have hother := sh.at_afterEvent_of_not_named (.call c r) hc
  rwa [Shadow.afterEvent, Shadow.after_of_not_err hr] at hother

/-! ### What events of which none is answered `Err` do, by their layout alone -/

/-- An event of this shape, answered `Ok`. -/
def Shape.answered : Shape → Event
  | .call c => .call c .ok
  | .wait t => .wait t

theorem Shadow.afterEvent_answered {e : Event} (h : e.isErr = false) (sh : Shadow) :
    sh.afterEvent e = sh.afterEvent e.shape.answered := by
  cases e with
  | wait t => rfl
  | call c r =>
    cases r with
    | ok => rfl
    | level l => rfl
    | err => cases h

theorem edgeOf_answered {e : Event} (h : e.isErr = false) (sh : Shadow) : edgeOf sh e = edgeOf sh e.shape.answered := by
  cases e with
  | wait t => rfl
  | call c r =>
    cases r with
    | ok => rfl
    | err => cases h
    | level l =>
      cases c with
      | set p b =>
        cases p with
        | clk => cases b <;> simp [edgeOf, Event.shape, Shape.answered]
        | data => rfl
        | rst => rfl
      | cfg _ _ _ => rfl
      | get _ => rfl
      | rel _ => rfl

theorem noErr_cons {e : Event} {evs : List Event} : noErr (e :: evs) = true ↔ e.isErr = false ∧ noErr evs = true := by
  simp [noErr]

/-- The shadow, the edges and the levels at rising edges of such events are those of the layout, answered. -/
theorem answered_of_noErr {evs : List Event} (hn : noErr evs = true) (sh : Shadow) :
    sh.replay evs = sh.replay ((evs.map Event.shape).map Shape.answered) ∧
    edges sh evs = edges sh ((evs.map Event.shape).map Shape.answered) ∧
    levelsAtRising sh evs = levelsAtRising sh ((evs.map Event.shape).map Shape.answered) := by
  induction evs generalizing sh with
  | nil => exact ⟨rfl, rfl, rfl⟩
  | cons e evs ih =>
    obtain ⟨he, hevs⟩ := noErr_cons.1 hn
    obtain ⟨hreplay, hedges, hlevels⟩ := ih hevs (sh.afterEvent e)
    simp only [List.map_cons, Shadow.replay, edges, levelsAtRising, ← Shadow.afterEvent_answered he, ← edgeOf_answered he]
    exact ⟨hreplay, congrArg _ hedges, by rw [hlevels]⟩

theorem edges_append (sh : Shadow) (a b : List Event) : edges sh (a ++ b) = edges sh a ++ edges (sh.replay a) b := by
  induction a generalizing sh with
  | nil => rfl
  | cons e a ih => exact congrArg _ (ih _)

theorem levelsAtRising_append (sh : Shadow) (a b : List Event) :
    levelsAtRising sh (a ++ b) = levelsAtRising sh a ++ levelsAtRising (sh.replay a) b := by
  induction a generalizing sh with
  | nil => rfl
  | cons e a ih =>
    simp only [List.cons_append, levelsAtRising, Shadow.replay, ih]
    split <;> rfl

theorem countEdge_append (k : Edge) (a b : List (Option Edge)) : countEdge k (a ++ b) = countEdge k a + countEdge k b :=
  List.count_append

/-- A CFG is no edge of the clock (10_state.md R39). -/
theorem countEdge_cfg (k : Edge) (sh : Shadow) (ps : List Pin) (d : Dir) (l : Option InitLevel) (r : Response) (es : List Event) :
    countEdge k (edges sh (.call (.cfg ps d l) r :: es)) = countEdge k (edges (sh.after (.cfg ps d l) r) es) :=
  List.count_cons_of_ne (a := some k) (b := none) nofun

theorem levelsAtRising_cfg (sh : Shadow) (ps : List Pin) (d : Dir) (l : Option InitLevel) (r : Response) (es : List Event) :
    levelsAtRising sh (.call (.cfg ps d l) r :: es) = levelsAtRising (sh.after (.cfg ps d l) r) es :=
  if_neg nofun

/-! ### The cells of a write byte -/

/-- The clock at 1 where it is an output, PIN_DATA at the bit sent: the pins after a write cell. -/
def Shadow.afterWriteCell (sh : Shadow) (b : Bool) : Shadow :=
  { clk := if sh.clk.mode = .output then { mode := .output, lvl := .high } else sh.clk
    data := { mode := .output, lvl := Level.ofBool b }
    rst := sh.rst }

theorem replay_writeCell (cfg : Config) (b : Bool) {sh : Shadow} (hdata : sh.data.mode = .output) :
    sh.replay ((writeCellLayout cfg b).map Shape.answered) = sh.afterWriteCell b := by
  by_cases hclk : sh.clk.mode = .output <;>
    simp [writeCellLayout, Shape.answered, Shadow.replay, Shadow.afterEvent, Shadow.after, Shadow.onOk, Shadow.at, Shadow.put, hclk,
      hdata, Shadow.afterWriteCell, Level.ofBool]

theorem edges_writeCell (cfg : Config) (b : Bool) {sh : Shadow} (hclk : sh.clk.mode = .output) (hdata : sh.data.mode = .output) :
    edges sh ((writeCellLayout cfg b).map Shape.answered) =
      [if sh.clk.lvl = .high then some .falling else none, none, none, some .rising, none] := by
  simp [writeCellLayout, Shape.answered, edges, edgeOf, Shadow.afterEvent, Shadow.after, Shadow.onOk, Shadow.at, Shadow.put, hclk,
    hdata, Level.ofBool]

theorem levels_writeCell (cfg : Config) (b : Bool) {sh : Shadow} (hclk : sh.clk.mode = .output) (hdata : sh.data.mode = .output) :
    levelsAtRising sh ((writeCellLayout cfg b).map Shape.answered) = [Level.ofBool b] := by
  simp [writeCellLayout, Shape.answered, levelsAtRising, edgeOf, Shadow.afterEvent, Shadow.after, Shadow.onOk, Shadow.at,
    Shadow.put, hclk, hdata, Level.ofBool, Shadow.io]

/-- The events of the cells of these bits, answered. -/
def writeCellsAnswered (cfg : Config) (bits : List Bool) : List Event :=
  (bits.flatMap (writeCellLayout cfg)).map Shape.answered

theorem writeCellsAnswered_cons (cfg : Config) (b : Bool) (bits : List Bool) :
    writeCellsAnswered cfg (b :: bits) = (writeCellLayout cfg b).map Shape.answered ++ writeCellsAnswered cfg bits := by
  rw [writeCellsAnswered, List.flatMap_cons, List.map_append]
  rfl

/-- After the cells of some bits the pins are as after a cell of the last. -/
theorem replay_writeCells (cfg : Config) (bits : List Bool) (last : Bool) {sh : Shadow} (hdata : sh.data.mode = .output) :
    sh.replay (writeCellsAnswered cfg (bits ++ [last])) = sh.afterWriteCell last := by
  induction bits generalizing sh with
  | nil =>
    rw [List.nil_append, writeCellsAnswered_cons, Shadow.replay_append, replay_writeCell cfg last hdata]
    rfl
  | cons b bits ih =>
    rw [List.cons_append, writeCellsAnswered_cons, Shadow.replay_append, replay_writeCell cfg b hdata, ih rfl]
    by_cases hclk : sh.clk.mode = .output <;> simp [Shadow.afterWriteCell, hclk]

/-- Each cell has one rising edge, and at it the bit is on IO. -/
theorem rising_writeCells (cfg : Config) (bits : List Bool) {sh : Shadow} (hclk : sh.clk.mode = .output)
    (hdata : sh.data.mode = .output) :
    levelsAtRising sh (writeCellsAnswered cfg bits) = bits.map Level.ofBool ∧
      countEdge .rising (edges sh (writeCellsAnswered cfg bits)) = bits.length := by
  induction bits generalizing sh with
  | nil => exact ⟨rfl, rfl⟩
  | cons b bits ih =>
    obtain ⟨hlevels, hcount⟩ := ih (sh := sh.afterWriteCell b) (by simp [Shadow.afterWriteCell, hclk]) rfl
    rw [writeCellsAnswered_cons, levelsAtRising_append, edges_append, countEdge_append, replay_writeCell cfg b hdata,
      levels_writeCell cfg b hclk hdata, edges_writeCell cfg b hclk hdata, hlevels, hcount]
    refine ⟨rfl, ?_⟩
    rw [List.length_cons, Nat.add_comm]
    split <;> rfl

/-- The first cell has a falling edge where the clock was at 1, and every later one finds it at 1. -/
theorem falling_writeCells (cfg : Config) (b : Bool) (bits : List Bool) {sh : Shadow} (hclk : sh.clk.mode = .output)
    (hdata : sh.data.mode = .output) :
    countEdge .falling (edges sh (writeCellsAnswered cfg (b :: bits))) = (if sh.clk.lvl = .high then 1 else 0) + bits.length := by
  have hcell : countEdge .falling (edges sh ((writeCellLayout cfg b).map Shape.answered)) = if sh.clk.lvl = .high then 1 else 0 := by
    rw [edges_writeCell cfg b hclk hdata]
    split <;> rfl
  rw [writeCellsAnswered_cons, edges_append, countEdge_append, replay_writeCell cfg b hdata, hcell]
  cases bits with
  | nil => rfl
  | cons b' bits =>
    have hout : (sh.afterWriteCell b).clk = { mode := .output, lvl := .high } := if_pos hclk
    rw [falling_writeCells cfg b' bits (by rw [hout]) rfl, hout, if_pos rfl, List.length_cons, Nat.add_comm 1]

/-! ### The cells of a read byte -/

/-- The clock at 0 where it is an output: the pins after a read cell. -/
def Shadow.afterReadCell (sh : Shadow) : Shadow :=
  { sh with clk := if sh.clk.mode = .output then { mode := .output, lvl := .low } else sh.clk }

theorem replay_readCell (cfg : Config) (sh : Shadow) :
    sh.replay ((readCellLayout cfg).map Shape.answered) = sh.afterReadCell := by
  by_cases hclk : sh.clk.mode = .output <;>
    simp [readCellLayout, Shape.answered, Shadow.replay, Shadow.afterEvent, Shadow.after, Shadow.onOk, Shadow.at, Shadow.put, hclk,
      Shadow.afterReadCell, Level.ofBool]

theorem edges_readCell (cfg : Config) {sh : Shadow} (hclk : sh.clk.mode = .output) :
    edges sh ((readCellLayout cfg).map Shape.answered) =
      [if sh.clk.lvl = .low then some .rising else none, none, some .falling, none, none] := by
  simp [readCellLayout, Shape.answered, edges, edgeOf, Shadow.afterEvent, Shadow.after, Shadow.onOk, Shadow.at, Shadow.put, hclk,
    Level.ofBool]

/-- The events of n read cells, answered. -/
def readCellsAnswered (cfg : Config) (n : Nat) : List Event := (List.replicate n (readCellLayout cfg)).flatten.map Shape.answered

theorem readCellsAnswered_succ (cfg : Config) (n : Nat) :
    readCellsAnswered cfg (n + 1) = (readCellLayout cfg).map Shape.answered ++ readCellsAnswered cfg n := by
  rw [readCellsAnswered, List.replicate_succ, List.flatten_cons, List.map_append]
  rfl

theorem Shadow.afterReadCell_afterReadCell (sh : Shadow) : sh.afterReadCell.afterReadCell = sh.afterReadCell := by
  by_cases hclk : sh.clk.mode = .output <;> simp [Shadow.afterReadCell, hclk]

theorem replay_readCells (cfg : Config) (n : Nat) (sh : Shadow) :
    sh.replay (readCellsAnswered cfg (n + 1)) = sh.afterReadCell := by
  induction n generalizing sh with
  | zero =>
    rw [readCellsAnswered_succ, Shadow.replay_append, replay_readCell]
    rfl
  | succ n ih => rw [readCellsAnswered_succ, Shadow.replay_append, replay_readCell, ih, Shadow.afterReadCell_afterReadCell]

/-- Each cell has one falling edge; the first has a rising edge where the clock was at 0, and every later one finds it at 0. -/
theorem edges_readCells (cfg : Config) (n : Nat) {sh : Shadow} (hclk : sh.clk.mode = .output) :
    countEdge .falling (edges sh (readCellsAnswered cfg (n + 1))) = n + 1 ∧
      countEdge .rising (edges sh (readCellsAnswered cfg (n + 1))) = (if sh.clk.lvl = .low then 1 else 0) + n := by
  have hcell : countEdge .falling (edges sh ((readCellLayout cfg).map Shape.answered)) = 1 ∧
      countEdge .rising (edges sh ((readCellLayout cfg).map Shape.answered)) = if sh.clk.lvl = .low then 1 else 0 := by
    rw [edges_readCell cfg hclk]
    split <;> exact ⟨rfl, rfl⟩
  rw [readCellsAnswered_succ, edges_append, countEdge_append, countEdge_append, replay_readCell, hcell.1, hcell.2]
  cases n with
  | zero => exact ⟨rfl, rfl⟩
  | succ n =>
    have hout : sh.afterReadCell.clk = { mode := .output, lvl := .low } := if_pos hclk
    obtain ⟨hfalling, hrising⟩ := edges_readCells cfg n (sh := sh.afterReadCell) (by rw [hout])
    rw [hfalling, hrising, hout, if_pos rfl]
    exact ⟨Nat.add_comm _ _, by rw [Nat.add_comm 1]⟩

/-! ### The two operations when no call fails -/

/-- A micro-op whose run follows the layout of its instruction completes under an ideal capability. -/
theorem microOp_completes {α : Type} {i : Instr} {op : Op} {run : State → Attempt α} {v : α → Returned} {s : State}
    (hexec : exec i s = microOp op (fun s => (run s).andThen fun a t => .done (v a) t) s)
    (hrun : Follows (eventLayout s.cfg i) (s.startOp op) (run (s.startOp op))) (hseq : s.seq = none) (hideal : s.IdealFor i) :
    ∃ a u evs, run (s.startOp op) = .done a u ∧ Completes i s (u.handBack (v a)) evs := by
  obtain ⟨a, u, hu⟩ := hrun.done_of_ideal hideal
  rw [hu] at hrun
  obtain ⟨evs, he, hL, hn⟩ := hrun
  have hnext : exec i s = .next (u.handBack (v a)) := by
    rw [hexec, microOp_idle hseq, hu]
    rfl
  have hissues : Issues s (u.handBack (v a)) evs := finishHarness_issues (x := .done (v a) u) he.toIssues
  exact ⟨a, u, evs, hu, hnext, hissues, hL, hn, rfl⟩

/-- What a completed operation does to the pins and the clock is read off its layout. -/
theorem Completes.answered {i : Instr} {s t : State} {evs : List Event} (h : Completes i s t evs) :
    t.pins = s.pins.replay ((eventLayout s.cfg i).map Shape.answered) ∧
    edges s.pins evs = edges s.pins ((eventLayout s.cfg i).map Shape.answered) ∧
    levelsAtRising s.pins evs = levelsAtRising s.pins ((eventLayout s.cfg i).map Shape.answered) := by
  have hall := answered_of_noErr h.clean s.pins
  rwa [← h.issues.pins, h.layout] at hall

theorem Completes.length {i : Instr} {s t : State} {evs : List Event} (h : Completes i s t evs) :
    evs.length = (eventLayout s.cfg i).length := by
  rw [← h.layout, List.length_map]

theorem wrByte_completes {v : Byte} {s : State} (hseq : s.seq = none) (hideal : s.IdealFor (.wrByte v)) :
    ∃ u evs, writeByte v (s.startOp .wrByte) = .done () u ∧ Completes (.wrByte v) s (u.handBack .done) evs := by
  obtain ⟨_, u, evs, hu, hc⟩ := microOp_completes (i := .wrByte v) (v := fun _ => .done) rfl (writeByte_follows v _) hseq hideal
  exact ⟨u, evs, hu, hc⟩

theorem rdByte_completes {s : State} (hseq : s.seq = none) (hideal : s.IdealFor .rdByte) :
    ∃ b u evs, readByte (s.startOp .rdByte) = .done b u ∧ Completes .rdByte s (u.handBack (.byte b)) evs :=
  microOp_completes (i := .rdByte) (v := .byte) rfl (readByte_follows _) hseq hideal

/-- PIN_DATA is configured, then come the cells (R140). -/
theorem writeByteLayout_answered (cfg : Config) (v : Byte) :
    (writeByteLayout cfg v).map Shape.answered =
      .call (.cfg [.data] .output (some cfg.dataOutInit)) .ok :: writeCellsAnswered cfg (byteBits v) := by
  rw [writeByteLayout, List.map_cons, writeCellsAnswered]
  rfl

theorem readByteLayout_answered (cfg : Config) :
    (readByteLayout cfg).map Shape.answered = .call (.cfg [.data] .input none) .ok :: readCellsAnswered cfg 8 := by
  rw [readByteLayout, List.map_cons, readCellsAnswered]
  rfl

theorem byteBits_eq_cons (v : Byte) : byteBits v = bitAt v 0 :: (byteBits v).tail := rfl

theorem byteBits_eq_append (v : Byte) : byteBits v = (byteBits v).take 7 ++ [bitAt v 7] := rfl

theorem replay_writeByte (cfg : Config) (v : Byte) (sh : Shadow) :
    sh.replay ((writeByteLayout cfg v).map Shape.answered) = sh.afterWriteCell (bitAt v 7) := by
  rw [writeByteLayout_answered, Shadow.replay, byteBits_eq_append, replay_writeCells _ _ _ rfl]
  rfl

theorem replay_readByte (cfg : Config) (sh : Shadow) :
    sh.replay ((readByteLayout cfg).map Shape.answered) =
      { sh.afterReadCell with data := { mode := .input, lvl := .x } } := by
  rw [readByteLayout_answered, Shadow.replay, replay_readCells]
  rfl

/-- Settles O14: WRBYTE follows its layout to the end, and its last cell leaves bit 7 on PIN_DATA. -/
theorem writeByteCompletes : Obligations.WriteByteCompletes := by
  intro v s hseq hideal
  obtain ⟨u, evs, hu, hc⟩ := wrByte_completes hseq hideal
  obtain ⟨hsr, hbc⟩ := writeByte_done hu
  have hpins := hc.answered.1.trans (replay_writeByte s.cfg v s.pins)
  refine ⟨_, evs, hc, hc.length.trans (byteLayout_length s.cfg (.wr v)), rfl, hsr, hbc, ?_, ?_, ?_,
    exec_harnessFrame rfl hc.next⟩ <;> rw [hpins] <;> rfl

/-- Settles O15: cell by cell, once PIN_DATA is configured. -/
theorem writeByteDrivesLsbFirst : Obligations.WriteByteDrivesLsbFirst := by
  intro v s hseq hideal hclk
  obtain ⟨u, evs, -, hc⟩ := wrByte_completes hseq hideal
  obtain ⟨hpins, hedges, hlevels⟩ := hc.answered
  rw [eventLayout, writeByteLayout_answered] at hedges hlevels
  rw [eventLayout, replay_writeByte] at hpins
  have hstart : (s.pins.after (.cfg [.data] .output (some s.cfg.dataOutInit)) .ok).clk = s.pins.clk := rfl
  have hout := (congrArg PinShadow.mode hstart).trans hclk
  obtain ⟨hrise, hcount⟩ := rising_writeCells s.cfg (byteBits v) hout rfl
  have hfall := falling_writeCells s.cfg (bitAt v 0) (byteBits v).tail hout rfl
  refine ⟨_, evs, hc, ?_, ?_, ?_, ?_⟩
  · rw [hlevels, levelsAtRising_cfg, hrise]
    rfl
  · rw [hedges, countEdge_cfg, hcount]
    rfl
  · rw [hedges, countEdge_cfg, byteBits_eq_cons, hfall, hstart]
    split <;> rfl
  · rw [hpins, Shadow.afterWriteCell, if_pos hclk]

theorem byteBits_byteOfBits {bits : List Bool} (h : bits.length = 8) : byteBits (byteOfBits bits) = bits := by
  match bits, h with
  | [a, b, c, d, e, f, g, i], _ =>
    simp [byteBits, byteOfBits, bitAt]

/-- Settles O16: RDBYTE follows its layout to the end, and SR holds the byte of the levels read. -/
theorem readByteCompletes : Obligations.ReadByteCompletes := by
  intro s hseq hideal
  obtain ⟨b, u, evs, hu, hc⟩ := rdByte_completes hseq hideal
  obtain ⟨evs', he, -, hlen, hb, hsr, hbc⟩ := readByte_done hu
  have hissues : Issues s (u.handBack (.byte b)) evs' := finishHarness_issues (x := .done (.byte b) u) he.toIssues
  obtain rfl : evs = evs' := hc.issues.events_unique hissues
  have hbits : (List.range 8).map (bitAt b) = getLevels evs := by
    rw [hb]
    exact byteBits_byteOfBits hlen
  have hpins := hc.answered.1.trans (replay_readByte s.cfg s.pins)
  refine ⟨_, evs, b, hc, hc.length.trans (byteLayout_length s.cfg .rd), rfl, hsr, hbc, hbits, ?_, ?_, ?_,
    exec_harnessFrame rfl hc.next⟩ <;> rw [hpins] <;> rfl

/-- Settles O17: cell by cell, once PIN_DATA is configured. -/
theorem readByteClockEdges : Obligations.ReadByteClockEdges := by
  intro s hseq hideal hclk
  obtain ⟨b, u, evs, -, hc⟩ := rdByte_completes hseq hideal
  obtain ⟨hpins, hedges, -⟩ := hc.answered
  rw [eventLayout, readByteLayout_answered] at hedges
  rw [eventLayout, replay_readByte] at hpins
  have hstart : (s.pins.after (.cfg [.data] .input none) .ok).clk = s.pins.clk := rfl
  obtain ⟨hfall, hrise⟩ := edges_readCells s.cfg 7 ((congrArg PinShadow.mode hstart).trans hclk)
  refine ⟨_, evs, hc, ?_, ?_, ?_⟩
  · rw [hedges, countEdge_cfg, hfall]
  · rw [hedges, countEdge_cfg, hrise, hstart]
    split <;> rfl
  · rw [hpins, Shadow.afterReadCell, if_pos hclk]

end Sys2Proof.Machine
end

section
/-! PROOF. The Transaction Framer: BEGIN and END on every response, TRANSACTION and the command rows when no call fails
(40_transaction_framer.md R120 to R122, 30_encoding.md R90 to R101). -/

namespace Sys2Proof.Machine

/-! ### A call, by its answer -/

/-- A call other than a GET, and what follows it: it was answered `Ok`, or it raises its PinAccessError (00_scope.md R16). -/
theorem callThen_answered {β : Type} {c : Call} (hc : ∀ l, c.okWith l = .ok) (s : State) (f : State → Attempt β) :
    (s.env.answer c = .ok ∧ callThen c s f = f (s.afterCall c .ok)) ∨
    (s.env.answer c = .err ∧ callThen c s f = .failed (.pinAccess c s.trace.length s.seq) (s.afterCall c .err)) := by
  unfold callThen
  obtain ⟨l, hx, hne⟩ | ⟨hx, herr⟩ := pinCall_cases c s
  · have hok := Env.answer_ok hne hc
    rw [hok] at hx
    exact .inl ⟨hok, by rw [hx]; rfl⟩
  · exact .inr ⟨herr, by rw [hx]; rfl⟩

/-- A call with the answer that the environment gives. -/
theorem Issues.call {s : State} {c : Call} {r : Response} (h : s.env.answer c = r) : Issues s (s.afterCall c r) [.call c r] :=
  h ▸ (Emits.afterCall s c).toIssues

/-! ### BEGIN -/

/-- The clock low, answered `Ok`. -/
def State.clockLow (s : State) : State := s.afterCall (.set .clk false) .ok

/-- What BEGIN can do: both calls, or its first failing one last (R120, R244). -/
inductive BeginEnds (s : State) : Attempt Unit → List Event → Prop
  | done : BeginEnds s (.done () (s.clockLow.afterCall (.set .rst true) .ok)) [.call (.set .clk false) .ok, .call (.set .rst true) .ok]
  | first : BeginEnds s (.failed (.pinAccess (.set .clk false) s.trace.length s.seq) (s.afterCall (.set .clk false) .err))
      [.call (.set .clk false) .err]
  | second : BeginEnds s (.failed (.pinAccess (.set .rst true) s.clockLow.trace.length s.clockLow.seq)
      (s.clockLow.afterCall (.set .rst true) .err)) [.call (.set .clk false) .ok, .call (.set .rst true) .err]

theorem beginTxn_ends (s : State) : ∃ x evs, beginTxn s = x ∧ Issues s x.state evs ∧ BeginEnds s x evs := by
  unfold beginTxn
  obtain ⟨hok, hx⟩ | ⟨herr, hx⟩ := callThen_answered (c := .set .clk false) (fun _ => rfl) s fun s =>
    callThen (.set .rst true) s fun s => .done () s
  · obtain ⟨hok', hy⟩ | ⟨herr', hy⟩ := callThen_answered (c := .set .rst true) (fun _ => rfl) s.clockLow fun s => .done () s
    · exact ⟨_, _, hx.trans hy, (Issues.call hok).append (Issues.call hok'), .done⟩
    · exact ⟨_, _, hx.trans hy, (Issues.call hok).append (Issues.call herr'), .second⟩
  · exact ⟨_, _, hx, Issues.call herr, .first⟩

/-- What a harness is handed after a part that hands back a fixed value. -/
theorem finishHarness_returned {α : Type} (x : Attempt α) (r : Returned) :
    (finishHarness (x.andThen fun _ t => .done r t)).returned =
      some (match x.error? with
        | none => r
        | some e => .error e) := by
  cases x <;> rfl

theorem finishHarness_registers (x : Attempt Returned) :
    (finishHarness x).sr = x.state.sr ∧ (finishHarness x).bc = x.state.bc ∧ (finishHarness x).pins = x.state.pins := by
  cases x <;> exact ⟨rfl, rfl, rfl⟩

/-- Fewer events than an ideal capability answers: none of them is answered `Err`. -/
theorem Issues.clean_of_ideal {i : Instr} {s t : State} {evs : List Event} (h : Issues s t evs) (hideal : s.IdealFor i)
    (hcount : callCount (evs.map Event.shape) ≤ callCount (eventLayout s.cfg i)) : noErr evs = true :=
  (Env.idealFor_gave hideal h.gave hcount).1

/-- Settles O19: the three ways BEGIN can end, each written out. -/
theorem beginDrivesClockLowThenCeHigh : Obligations.BeginDrivesClockLowThenCeHigh := by
  intro s hseq
  obtain ⟨x, evs, hrun, hi, hends⟩ := beginTxn_ends (s.startOp .txnBegin)
  obtain ⟨-, hsr, hbc⟩ := beginTxn_same (s.startOp .txnBegin)
  have hnext : exec .txnBegin s = .next (finishHarness ((beginTxn (s.startOp .txnBegin)).andThen fun _ t => .done .done t)) :=
    microOp_idle (op := .txnBegin) (run := fun s => (beginTxn s).andThen fun _ t => .done .done t) hseq
  rw [hrun] at hnext hsr hbc
  have hstate : (x.andThen fun _ t => .done Returned.done t).state = x.state := Attempt.andThen_state fun _ _ => rfl
  have hissues := finishHarness_issues (x := x.andThen fun _ t => .done .done t) (hstate.symm ▸ hi)
  obtain ⟨hsr', hbc', -⟩ := finishHarness_registers (x.andThen fun _ t => .done .done t)
  rw [hstate] at hsr' hbc'
  refine ⟨_, evs, hnext, hissues, exec_harnessFrame rfl hnext, exec_seq hnext hseq, hsr'.trans hsr, hbc'.trans hbc,
    fun hideal => hissues.clean_of_ideal hideal ?_, ?_, fun hlow => ?_⟩
  · show callCount (evs.map Event.shape) ≤ callCount beginLayout
    cases hends <;> decide
  · rw [hissues.pins, finishHarness_returned]
    cases hends with
    | done =>
      refine .inl ⟨rfl, rfl, fun hclk => ?_, fun hrst => ?_, Shadow.at_replay_of_not_named _ _ (p := .data) (by decide)⟩
      · exact (Shadow.at_onOk_set_of_ne _ true (show Pin.clk ≠ .rst by decide)).trans
          (s.pins.at_onOk_set_of_output (p := .clk) false hclk)
      · have hkept := Shadow.at_onOk_set_of_ne s.pins false (show Pin.rst ≠ .clk by decide)
        exact Shadow.at_onOk_set_of_output _ (p := .rst) true ((congrArg PinShadow.mode hkept).trans hrst)
    | first => exact .inr (.inl ⟨rfl, rfl⟩)
    | second =>
      refine .inr (.inr ⟨rfl, ?_⟩)
      simp [Attempt.error?, State.clockLow, State.startOp, SeqPos.next]
  · cases hends <;> simp [edges, edgeOf, hlow]

/-! ### END -/

/-- The events of END with these responses (R121). -/
def endEvents (r1 r2 r3 : Response) : List Event :=
  [.call (.cfg [.data] .input none) r1, .call (.set .clk false) r2, .call (.set .rst false) r3]

theorem endEvents_of_shape {evs : List Event} (h : evs.map Event.shape = endLayout) : ∃ r1 r2 r3, evs = endEvents r1 r2 r3 := by
  match evs, h with
  | [.call c1 r1, .call c2 r2, .call c3 r3], h =>
    simp only [List.map_cons, List.map_nil, Event.shape, endLayout, List.cons.injEq, Shape.call.injEq, and_true] at h
    obtain ⟨rfl, rfl, rfl⟩ := h
    exact ⟨r1, r2, r3, rfl⟩

theorem firstErr_call (c : Call) (r : Response) (evs : List Event) :
    firstErr (.call c r :: evs) = if r = .err then some (0, c) else (firstErr evs).map fun p => (p.1 + 1, p.2) := by
  cases r <;> rfl

/-- The failure END keeps is that of its first event answered `Err`. -/
theorem FirstFailure.eq_firstErr {s : State} {evs : List Event} {e : Option OpError} (h : FirstFailure s evs e) :
    e = (firstErr evs).map fun p => .pinAccess p.2 (s.trace.length + p.1) (s.seq.map (SeqPos.plus · p.1)) := by
  cases e with
  | none => rw [(firstErr_none_iff evs).2 h, Option.map_none]
  | some e =>
    obtain ⟨a, c, b, rfl, hclean, rfl⟩ := h
    rw [firstErr_append_err a b c hclean, Option.map_some]

/-- A call moves no pin that it does not name. -/
theorem Shadow.at_after_of_not_named (sh : Shadow) {c : Call} {p : Pin} (h : p ∉ c.pins) (r : Response) :
    (sh.after c r).at p = sh.at p :=
  sh.at_afterEvent_of_not_named (.call c r) h

/-- A SET of an output, by its answer (10_state.md R40, R41). -/
theorem Shadow.at_after_set (sh : Shadow) {p : Pin} (l : Bool) (r : Response) (h : (sh.at p).mode = .output) :
    (sh.after (.set p l) r).at p = if r = .err then { mode := .unknown, lvl := .x } else { mode := .output, lvl := Level.ofBool l } := by
  rw [Shadow.after]
  split
  · exact (Shadow.at_putAll _ _ _ _).trans (if_pos (List.mem_singleton_self p))
  · exact sh.at_onOk_set_of_output l h

/-- END at the pins: each of its calls moves its own pin alone. -/
theorem replay_endEvents (sh : Shadow) (r1 r2 r3 : Response) :
    (sh.replay (endEvents r1 r2 r3)).at .data = (if r1 = .err then { mode := .unknown, lvl := .x } else { mode := .input, lvl := .x }) ∧
    ((sh.at .clk).mode = .output → (sh.replay (endEvents r1 r2 r3)).at .clk =
      if r2 = .err then { mode := .unknown, lvl := .x } else { mode := .output, lvl := .low }) ∧
    ((sh.at .rst).mode = .output → (sh.replay (endEvents r1 r2 r3)).at .rst =
      if r3 = .err then { mode := .unknown, lvl := .x } else { mode := .output, lvl := .low }) := by
  simp only [endEvents, Shadow.replay, Shadow.afterEvent]
  refine ⟨?_, fun hclk => ?_, fun hrst => ?_⟩
  · rw [Shadow.at_after_of_not_named _ (by decide), Shadow.at_after_of_not_named _ (by decide), Shadow.after]
    split <;> rfl
  · have hkept := sh.at_after_of_not_named (c := .cfg [.data] .input none) (p := .clk) (by decide) r1
    rw [Shadow.at_after_of_not_named _ (by decide), Shadow.at_after_set _ false r2 (by rwa [hkept])]
    rfl
  · have hkept := sh.at_after_of_not_named (c := .cfg [.data] .input none) (p := .rst) (by decide) r1
    have hkept' := (sh.after (.cfg [.data] .input none) r1).at_after_of_not_named (c := .set .clk false) (p := .rst) (by decide) r2
    rw [Shadow.at_after_set _ false r3 (by rwa [hkept', hkept])]
    rfl

theorem edges_endEvents (sh : Shadow) (r1 r2 r3 : Response) :
    edges sh (endEvents r1 r2 r3) = [none, if r2 ≠ .err ∧ sh.clk.lvl = .high then some .falling else none, none] := by
  have hkept : (sh.after (.cfg [.data] .input none) r1).clk = sh.clk :=
    sh.at_after_of_not_named (c := .cfg [.data] .input none) (p := .clk) (by decide) r1
  rw [← hkept]
  rfl

/-- Settles O20: END's three calls, and the first of them answered `Err`. -/
theorem endReleasesThenDropsCe : Obligations.EndReleasesThenDropsCe := by
  intro s hseq
  obtain ⟨evs, he, hshape, hfirst⟩ := endTxn_spec (s.startOp .txnEnd)
  obtain ⟨r1, r2, r3, rfl⟩ := endEvents_of_shape hshape
  obtain ⟨-, hsr, hbc⟩ := endTxn_same (s.startOp .txnEnd)
  have hnext : exec .txnEnd s = .next _ :=
    microOp_idle (op := .txnEnd) (run := fun s => .done (.endStatus (endTxn s).1) (endTxn s).2) hseq
  have hissues := finishHarness_issues (x := .done (.endStatus (endTxn (s.startOp .txnEnd)).1) (endTxn (s.startOp .txnEnd)).2)
    he.toIssues
  obtain ⟨hdata, hclk', hrst'⟩ := replay_endEvents s.pins r1 r2 r3
  refine ⟨_, r1, r2, r3, hnext, hissues, exec_harnessFrame rfl hnext, rfl, hsr, hbc, fun hideal => ?_, ?_, ?_, fun hclk => ?_,
    fun hrst => ?_, ?_⟩
  · have hclean := hissues.clean_of_ideal hideal (Nat.le_refl _)
    have hok := Env.gave_eq_ok endCalls (by simp [endCalls, Call.okWith]) hissues.gave hclean hshape
    simpa [endEvents, endCalls] using hok
  · refine congrArg (fun e => some (Returned.endStatus e)) (hfirst.eq_firstErr.trans ?_)
    simp only [endEvents, firstErr_call, firstErr]
    split_ifs <;> rfl
  · exact (congrArg (Shadow.at · .data) hissues.pins).trans hdata
  · exact (congrArg (Shadow.at · .clk) hissues.pins).trans (hclk' hclk)
  · exact (congrArg (Shadow.at · .rst) hissues.pins).trans (hrst' hrst)
  · exact edges_endEvents s.pins r1 r2 r3

/-! ### The levels read -/

/-- Whether a shape is a GET. -/
def Shape.isGet : Shape → Bool
  | .call (.get _) => true
  | .call (.set _ _) => false
  | .call (.cfg _ _ _) => false
  | .call (.rel _) => false
  | .wait _ => false

/-- Events of which none was answered `Err` have one level for each GET (00_scope.md R16). -/
theorem getLevels_length {e : Env} {sh : Shadow} {evs : List Event} (hgave : e.gave sh evs = true) (hn : noErr evs = true) :
    (getLevels evs).length = (evs.map Event.shape).countP Shape.isGet := by
  induction evs generalizing e sh with
  | nil => rfl
  | cons x evs ih =>
    obtain ⟨hx, hevs⟩ := noErr_cons.1 hn
    cases x with
    | wait t => exact ih hgave hevs
    | call c r =>
      simp only [Env.gave, Bool.and_eq_true, decide_eq_true_eq] at hgave
      obtain ⟨hr, hgave⟩ := hgave
      have ih := ih hgave hevs
      obtain herr | ⟨l, hok⟩ := e.answer_cases c
      · rw [hr, herr] at hx
        cases hx
      · rw [hr, hok]
        cases c with
        | get p =>
          rw [List.map_cons, Event.shape, List.countP_cons_of_pos rfl, ← ih]
          rfl
        | set _ _ => exact ih
        | cfg _ _ _ => exact ih
        | rel _ => exact ih

theorem countP_isGet_byteLayout (cfg : Config) (b : ByteOp) : (byteLayout cfg b).countP Shape.isGet = if b = .rd then 8 else 0 := by
  cases b with
  | wr v => rfl
  | rd => rfl

/-- A transaction samples eight levels for each RDBYTE (41_bit_transport.md R141). -/
theorem countP_isGet_transactionLayout (cfg : Config) (body : List ByteOp) :
    (transactionLayout cfg body).countP Shape.isGet = 8 * body.count .rd := by
  have hbody : (body.flatMap (byteLayout cfg)).countP Shape.isGet = 8 * body.count .rd := by
    induction body with
    | nil => rfl
    | cons b body ih =>
      rw [List.flatMap_cons, List.countP_append, ih, countP_isGet_byteLayout, List.count_cons]
      by_cases hb : b = .rd <;> simp [hb, Nat.mul_add, Nat.add_comm]
  rw [transactionLayout, List.countP_append, List.countP_append, hbody]
  exact Nat.zero_add _

/-! ### TRANSACTION and the command rows when no call fails -/

/-- A transaction that a harness invokes completes under an ideal capability. -/
theorem harnessTransaction_completes {i : Instr} {op : Op} {body : List ByteOp} {s : State}
    (hexec : exec i s = harnessTransaction op (fun s => (runTransaction false body s).andThen fun bs t => .done (.bytes bs) t) s)
    (hlayout : eventLayout s.cfg i = transactionLayout s.cfg body) (hidle : s.Idle) (hideal : s.IdealFor i) :
    ∃ bs u evs, TransactionDone false body (s.startOp op) bs u evs ∧ Completes i s (u.handBack (.bytes bs)) evs := by
  obtain ⟨bs, u, evs, h⟩ := transactionDone_of_ideal false body (s.startOp op) (hlayout ▸ hideal)
  have hnext : exec i s = .next (u.handBack (.bytes bs)) := by
    rw [hexec, harnessTransaction_idle hidle, h.run]
    rfl
  exact ⟨bs, u, evs, h, hnext, finishHarness_issues (x := .done (.bytes bs) u) h.issues, h.layout.trans hlayout.symm, h.clean, rfl⟩

/-- Settles O21: BEGIN, the bytes and END are done under an ideal capability, and hand back the bytes of the levels read. -/
theorem transactionCompletes : Obligations.TransactionCompletes := by
  intro body s hidle hideal
  obtain ⟨bs, u, evs, h, hc⟩ := harnessTransaction_completes (i := .transaction body) (op := .transaction) rfl rfl hidle hideal
  have hlevels : (getLevels evs).length = 8 * body.count .rd := by
    rw [getLevels_length hc.issues.gave hc.clean, h.layout, countP_isGet_transactionLayout]
  exact ⟨_, evs, hc, h.layout, h.length, congrArg (fun bs => some (Returned.bytes bs)) h.bytes, hlevels, h.data,
    exec_harnessFrame rfl hc.next⟩

theorem readsOf_map_wr (data : List Byte) : readsOf (data.map .wr) = 0 := by
  rw [readsOf, List.count_eq_zero]
  simp

/-- A command row is a transaction that a harness invokes, and its wire image is the bytes its body writes (30_encoding.md R100,
R101). -/
theorem commandRow_body {i : Instr} (hrow : isCommandRow i = true) :
    isHostOp i = false ∧ startsAlone i = true ∧ ∀ cfg body, bodyOf cfg i = some body → encode i = some (writesOf body) := by
  cases i with
  | cmdRamBurstWrite data =>
    refine ⟨rfl, rfl, ?_⟩
    rintro _ _ ⟨⟩
    rw [writesOf, writesOf_map_wr]
    rfl
  | cmdWpRead | cmdWpWrite _ | cmdTcRead | cmdTcWrite _ | cmdClockBurstRead | cmdClockBurstWrite _ _ _ | cmdRamBurstRead =>
    refine ⟨rfl, rfl, ?_⟩
    rintro _ _ ⟨⟩
    rfl
  | _ => cases hrow

/-- Settles O22: a command row is the transaction of its format, and its body has one RDBYTE for each byte it returns. -/
theorem commandRowsComplete : Obligations.CommandRowsComplete := by
  intro i s hrow hwf hidle hideal
  obtain ⟨hharness, halone, hencode⟩ := commandRow_body hrow
  obtain ⟨op, body, -, hbody, hexec⟩ := exec_harnessTransaction hharness halone
  have hL : eventLayout s.cfg i = transactionLayout s.cfg body := by
    rw [(eventLayout_oneTransaction (isOneTransaction_of_bodyOf (hbody s.cfg)) s.cfg).1, hbody]
    rfl
  obtain ⟨bs, u, evs, h, hc⟩ := harnessTransaction_completes (hexec s) hL hidle hideal
  refine ⟨_, evs, body, hc, hbody s.cfg, h.layout, hencode s.cfg body (hbody s.cfg),
    congrArg (fun bs => some (Returned.bytes bs)) h.bytes, ?_, h.data, exec_harnessFrame hharness hc.next⟩
  rw [← h.bytes, h.reads]
  have hb := hbody s.cfg
  cases i with
  | cmdRamBurstWrite data =>
    cases hb
    exact readsOf_map_wr data
  | cmdWpRead | cmdWpWrite _ | cmdTcRead | cmdTcWrite _ | cmdClockBurstRead | cmdClockBurstWrite _ _ _ | cmdRamBurstRead =>
    cases hb
    rfl
  | _ => cases hrow

end Sys2Proof.Machine
end

section
/-! PROOF. What each codec function hands its caller (42_bcd_codec.md R160 to R167), and that it writes nothing else (30_encoding.md
R106). -/

namespace Sys2Proof.Machine

/-! ### Codec functions are pure -/

/-- What a codec function hands back: a function of CENTURY_BASE, and constant but for the year adapters. -/
theorem exec_codecFn {i : Instr} (h : isCodecFn i = true) : ∃ f : Nat → Returned,
    (∀ s, exec i s = .next { s with returned := some (f s.cfg.centuryBase) }) ∧
      ((∀ year, i ≠ .yyOfYear year) → (∀ yy, i ≠ .yearOfYy yy) → ∀ a b, f a = f b) := by
  cases i with
  | bcdEnc v => exact ⟨fun _ => handed .byte (bcdEncode none v), fun _ => rfl, fun _ _ _ _ => rfl⟩
  | bcdDec b => exact ⟨fun _ => handed .number (bcdDecode none b), fun _ => rfl, fun _ _ _ _ => rfl⟩
  | frameEnc cv => exact ⟨fun _ => handed .frame (frameEncode cv), fun _ => rfl, fun _ _ _ _ => rfl⟩
  | frameDec raw => exact ⟨fun _ => handed .calendar (frameDecode raw), fun _ => rfl, fun _ _ _ _ => rfl⟩
  | yyOfYear year => exact ⟨fun base => handed .number (yyOfYear base year), fun _ => rfl, fun h _ => absurd rfl (h year)⟩
  | yearOfYy yy => exact ⟨fun base => .number (yearOfYy base yy), fun _ => rfl, fun _ h => absurd rfl (h yy)⟩
  | _ => cases h

/-- Settles O24: every codec function hands back a value of CENTURY_BASE alone. -/
theorem codecFunctionsArePure : Obligations.CodecFunctionsArePure := by
  intro i hcodec
  obtain ⟨f, hexec, hconst⟩ := exec_codecFn hcodec
  have hreturned : ∀ {s t}, exec i s = .next t → t.returned = some (f s.cfg.centuryBase) := fun {s} _ h => by
    rw [hexec s] at h
    cases h
    rfl
  refine ⟨fun s => ⟨_, hexec s⟩, fun s s' t t' h h' hbase => ?_, fun hyear hyy s s' t t' h h' => ?_⟩
  · rw [hreturned h, hreturned h', hbase]
  · rw [hreturned h, hreturned h', hconst hyear hyy]

/-! ### One byte -/

theorem bcdEncode_of_gt {v : Nat} (h : 99 < v) (slot : Option Nat) : bcdEncode slot v = .error (.encode slot v) :=
  if_neg (Nat.not_le.2 h)

/-- Settles O25: the code of v is its tens and units digits, and above 99 there is none. -/
theorem bcdEncoderResult : Obligations.BcdEncoderResult := by
  intro v s
  refine ⟨fun hv => ?_, fun hv => ?_⟩
  · obtain ⟨hhigh, hlow⟩ := bcdCode_nibbles hv
    have hexec : exec (.bcdEnc v) s = .next { s with returned := some (handed .byte (bcdEncode none v)) } := rfl
    rw [bcdEncode_eq_ok_iff.2 ⟨hv, rfl⟩] at hexec
    exact ⟨bcdCode v, hexec, bcdCode_toNat v hv, by omega, by omega⟩
  · have hexec : exec (.bcdEnc v) s = .next { s with returned := some (handed .byte (bcdEncode none v)) } := rfl
    rwa [bcdEncode_of_gt hv] at hexec

theorem bcdDecode_badDigit {b : Byte} (h : 9 < highNibble b ∨ 9 < lowNibble b) (slot : Option Nat) :
    bcdDecode slot b = .error (.decode slot b .badDigit) :=
  if_pos h

/-- Settles O26: a byte decodes exactly where its two nibbles are digits. -/
theorem bcdDecoderResult : Obligations.BcdDecoderResult := by
  refine ⟨fun b s => ⟨fun h => ?_, fun h => ?_⟩, by decide +kernel⟩
  · have hexec : exec (.bcdDec b) s = .next { s with returned := some (handed .number (bcdDecode none b)) } := rfl
    rw [← highNibble_eq, ← lowNibble_eq] at h ⊢
    rwa [bcdDecode_of_digits none h.1 h.2] at hexec
  · have hexec : exec (.bcdDec b) s = .next { s with returned := some (handed .number (bcdDecode none b)) } := rfl
    rw [← highNibble_eq, ← lowNibble_eq] at h
    rwa [bcdDecode_badDigit h] at hexec

/-! ### A frame -/

/-- Settles O28: FRAME_ENC checks the ranges slot by slot, and then codes every slot. -/
theorem frameEncoderResult : Obligations.FrameEncoderResult := by
  intro cv s
  have hexec : exec (.frameEnc cv) s = .next { s with returned := some (handed .frame (frameEncode cv)) } := rfl
  refine ⟨fun hvalid => ?_, fun k hk hok hbad => ?_⟩
  · have hf := frameEncode_valid cv hvalid
    rw [hf] at hexec
    exact ⟨_, hexec, (frameEncode_slots hf).2⟩
  · rwa [frameEncode_bad cv k hk hok hbad] at hexec

/-- The slot recorded is no part of the value decoded. -/
theorem bcdDecode_slot {slot : Option Nat} {b : Byte} {v : Nat} (h : bcdDecode slot b = .ok v) (slot' : Option Nat) :
    bcdDecode slot' b = .ok v := by
  unfold bcdDecode at h ⊢
  split at h
  · cases h
  next hdigits => rwa [if_neg hdigits]

theorem fieldDecode_badDigit {k : Nat} {b : Byte} (h : 9 < highNibble b ∨ 9 < lowNibble b) :
    fieldDecode k b = .error (.decode (some k) b .badDigit) := by
  rw [fieldDecode, bcdDecode_badDigit h]

theorem fieldDecode_outOfRange {k : Nat} (hk : k < 7) {b : Byte} {v : Nat} (h : bcdDecode none b = .ok v) (hr : ¬ inRange k v) :
    fieldDecode k b = .error (.decode (some k) b .outOfRange) := by
  rw [fieldDecode, bcdDecode_slot h]
  exact if_neg fun hin => hr ((fieldInRange_iff k v hk).1 hin)

/-- FRAME_DEC reports its first failing slot (R165). -/
theorem frameDecode_bad {raw : Frame} {k : Nat} {e : OpError} (hk : k < 7)
    (hok : ∀ j, j < k → ∃ v, bcdDecode none (slotOf raw j) = .ok v ∧ inRange j v) (he : fieldDecode k (slotOf raw k) = .error e) :
    frameDecode raw = .error e := by
  have hk' : k < raw.toList.length := hk
  have hfields : fieldsDecode 0 raw.toList = .error e := by
    refine fieldsDecode_err 0 raw.toList k e hk' (fun j hj => ?_) ?_
    · obtain ⟨v, hv, hr⟩ := hok j hj
      rw [Frame.toList_get, Nat.zero_add]
      exact ⟨v, fieldDecode_ok j _ v (hj.trans hk) hv hr⟩
    · rw [Frame.toList_get, Nat.zero_add, he]
  rw [frameDecode, hfields]

/-- The calendar value of these components. -/
def calendarWith (f : Nat → Nat) : Calendar := ⟨f 0, f 1, f 2, f 3, f 4, f 5, f 6⟩

theorem fieldOf_calendarWith (f : Nat → Nat) {k : Nat} (hk : k < 7) : fieldOf (calendarWith f) k = f k := by
  interval_cases k <;> rfl

/-- Settles O29: FRAME_DEC decodes slot by slot, the digits before the range. -/
theorem frameDecoderResult : Obligations.FrameDecoderResult := by
  intro raw s
  have hexec : exec (.frameDec raw) s = .next { s with returned := some (handed .calendar (frameDecode raw)) } := rfl
  refine ⟨fun hslots => ?_, fun k hk hok => ⟨fun hdigit => ?_, fun v hv hr => ?_⟩⟩
  · have hex : ∀ k, ∃ v, k < 7 → bcdDecode none (slotOf raw k) = .ok v ∧ inRange k v := fun k => by
      by_cases hk : k < 7
      · exact (hslots k hk).imp fun _ h _ => h
      · exact ⟨0, fun h => absurd h hk⟩
    choose f hf using hex
    have hdec : frameDecode raw = .ok (calendarWith f) := frameDecode_eq_ok_iff.2 fun k hk => by
      rw [fieldOf_calendarWith f hk]
      exact fieldDecode_ok k _ _ hk (hf k hk).1 (hf k hk).2
    rw [hdec] at hexec
    exact ⟨_, hexec, fun k hk => by rw [fieldOf_calendarWith f hk, (hf k hk).1]⟩
  · rwa [frameDecode_bad hk hok (fieldDecode_badDigit hdigit)] at hexec
  · rwa [frameDecode_bad hk hok (fieldDecode_outOfRange hk hv hr)] at hexec

/-! ### The year -/

theorem yyOfYear_of_mem {base year : Nat} (hlow : base ≤ year) (hhigh : year ≤ base + 99) : yyOfYear base year = .ok (year - base) :=
  if_pos ⟨hlow, hhigh⟩

theorem yyOfYear_of_not_mem {base year : Nat} (h : year < base ∨ base + 99 < year) :
    yyOfYear base year = .error (.encode (some 6) year) :=
  if_neg (by omega)

theorem yearOfYy_of_le {base yy : Nat} (h : yy ≤ 99) : yearOfYy base yy = base + yy := if_pos h

/-- Settles O31: the adapters subtract and add CENTURY_BASE. -/
theorem yearAdaptersResult : Obligations.YearAdaptersResult := by
  intro s
  have hyy : ∀ year, exec (.yyOfYear year) s =
      .next { s with returned := some (handed .number (yyOfYear s.cfg.centuryBase year)) } := fun _ => rfl
  have hyear : ∀ yy, yy ≤ 99 → exec (.yearOfYy yy) s = .next { s with returned := some (.number (s.cfg.centuryBase + yy)) } :=
    fun yy h => by
      rw [← yearOfYy_of_le h]
      rfl
  refine ⟨fun year hlow hhigh => ?_, fun year hout => ?_, hyear⟩
  · have hsum : s.cfg.centuryBase + (year - s.cfg.centuryBase) = year := by omega
    have hle : year - s.cfg.centuryBase ≤ 99 := by omega
    refine ⟨_, hle, hsum, ?_, ?_⟩
    · rw [hyy, yyOfYear_of_mem hlow hhigh]
      rfl
    · rw [hyear _ hle, hsum]
  · rw [hyy, yyOfYear_of_not_mem hout]
    rfl

end Sys2Proof.Machine
end

section
/-! PROOF. The host operations: READ_DATETIME, WRITE_DATETIME and READ_RAM in READY (43_register_codec.md R190 to R192), INIT and
TEARDOWN (44_lifecycle.md R220, R221). -/

namespace Sys2Proof.Machine

/-! ### A host operation that runs to its end -/

/-- A host operation whose run from an idle block issues its layout, no call answered `Err`, completes, whatever it returns. -/
theorem completes_of_run {i : Instr} {op : Op} {run : State → Attempt Value} {s : State} {x : Attempt Value} {evs : List Event}
    (hexec : exec i s = hostOp op run s) (hidle : s.Idle) (hrun : run (s.startOp op) = x) (hi : Issues (s.startOp op) x.state evs)
    (hL : evs.map Event.shape = eventLayout s.cfg i) (hn : noErr evs = true) : Completes i s (finishHost x) evs where
  next := by rw [hexec, hostOp_idle hidle, hrun]
  issues := finishHost_issues hi
  layout := hL
  clean := hn
  seq := by cases x <;> rfl

/-- What a data operation that completes in READY leaves as it was. -/
theorem Completes.dataOp_frame {i : Instr} {s t : State} {evs : List Event} (h : Completes i s t evs) (hdata : isDataOp i = true)
    (hready : s.lifecycle = .ready) : t.lifecycle = .ready ∧ t.initAttempted = s.initAttempted ∧ HostFrame s t :=
  have hsame := dataOp_sameLifecycle hdata h.next
  ⟨hsame.lifecycle.trans hready, hsame.initAttempted, (exec_hostOp_ends (isHostOp_of_isDataOp hdata) h.next).frame⟩

/-! ### The data operations -/

/-- BUF after a transaction that keeps the bytes it reads, from a state where a data operation began BUF. -/
theorem TransactionDone.buf_read {body : List ByteOp} {s t : State} {bs : List Byte} {evs : List Event}
    (h : TransactionDone true body s.beginBuf bs t evs) : t.buf = storeFrom 0 bs (unspecifiedBuf s.opCount) := h.buf

/-- READ_DATETIME past its gate: the frame read, decoded. -/
theorem runReadDatetime_eq {s t : State} {bs : List Byte}
    (h : runTransaction true (readFormat .clockBurstRead) s.beginBuf = .done bs t) :
    runReadDatetime s = match frameDecode (frameOfBuf t.buf) with
      | .ok cv => .done (.calendar cv) t
      | .error e => .failed e t := by
  rw [runReadDatetime, h]
  rfl

/-- Settles O33: the seven bytes read stand in BUF[0..6], and FRAME_DEC of them is the result. -/
theorem readDatetimeCompletes : Obligations.ReadDatetimeCompletes := by
  intro s hidle hready hideal
  obtain ⟨bs, t, evs, h⟩ := transactionDone_of_ideal true (readFormat .clockBurstRead) (s.startOp .readDatetime).beginBuf hideal
  have hbs : bs.length = 7 := h.reads
  have hunspecified := unspecifiedBuf_length (s.startOp .readDatetime).opCount
  have hraw : (frameOfBuf t.buf).toList = bs := by
    rw [h.buf_read]
    exact frameOfBuf_storeFrom hbs (by rw [hunspecified]; decide)
  have hbuf : t.buf.length = 31 ∧ t.buf.take 7 = bs := by
    rw [h.buf_read, storeFrom_length, ← hbs]
    exact ⟨hunspecified, storeFrom_take _ _ (by rw [hunspecified, hbs]; decide)⟩
  have hrun := (dataGate_ready (op := .readDatetime) (run := runReadDatetime) (s := s.startOp .readDatetime) hready).trans
    (runReadDatetime_eq h.run)
  cases hf : frameDecode (frameOfBuf t.buf) with
  | ok cv =>
    rw [hf] at hrun
    have hc := completes_of_run (i := .readDatetime) rfl hidle hrun (h.issues.of_left rfl rfl rfl rfl) h.layout h.clean
    exact ⟨_, evs, frameOfBuf t.buf, hc, h.length, hraw.trans h.bytes, hbuf.1, hbuf.2.trans hraw.symm, by rw [hf]; rfl, h.data,
      hc.dataOp_frame rfl hready⟩
  | error e =>
    rw [hf] at hrun
    have hc := completes_of_run (i := .readDatetime) rfl hidle hrun (h.issues.of_left rfl rfl rfl rfl) h.layout h.clean
    exact ⟨_, evs, frameOfBuf t.buf, hc, h.length, hraw.trans h.bytes, hbuf.1, hbuf.2.trans hraw.symm, by rw [hf]; rfl, h.data,
      hc.dataOp_frame rfl hready⟩

/-- Settles O34: the frame stands in BUF[0..6], and the transaction sends it from there. -/
theorem writeDatetimeCompletes : Obligations.WriteDatetimeCompletes := by
  intro cv f s hf hidle hready hideal
  have hlayout := eventLayout_writeDatetime hf s.cfg
  obtain ⟨bs, t, evs, h⟩ := transactionDone_of_ideal false ((0xBE#8 :: (f.toList ++ [s.cfg.padByte, s.cfg.padByte])).map .wr)
    ((s.startOp .writeDatetime).beginBuf.storeBuf f.toList) (hlayout ▸ hideal)
  have hunspecified := unspecifiedBuf_length (s.startOp .writeDatetime).opCount
  have hrun : dataGate .writeDatetime (runWriteDatetime cv) (s.startOp .writeDatetime) = .done .none t := by
    rw [dataGate_ready (s := s.startOp .writeDatetime) hready, runWriteDatetime_ok hf]
    exact congrArg (Attempt.andThen · _) h.run
  have hc := completes_of_run (i := .writeDatetime cv) rfl hidle hrun (h.issues.of_left rfl rfl rfl rfl)
    (h.layout.trans hlayout.symm) h.clean
  have hbuf : t.buf = storeFrom 0 f.toList (unspecifiedBuf s.opCount) := h.buf
  have hbuf' : t.buf.length = 31 ∧ t.buf.take 7 = f.toList := by
    rw [hbuf, storeFrom_length]
    exact ⟨hunspecified, storeFrom_take f.toList _ (by rw [unspecifiedBuf_length]; exact (by decide : 7 ≤ 31))⟩
  have hlen : evs.length = 415 := by
    rw [h.length]
    simp [Frame.toList]
  exact ⟨_, evs, hc, hlen, h.layout, hbuf'.1, hbuf'.2, rfl, h.data, hc.dataOp_frame rfl hready⟩

/-- Settles O35: FRAME_ENC refuses the value before any pin call. -/
theorem writeDatetimeRefusesBadFields : Obligations.WriteDatetimeRefusesBadFields := by
  intro cv k s hidle hready hk hok hbad
  have hrun : dataGate .writeDatetime (runWriteDatetime cv) (s.startOp .writeDatetime) =
      .failed (.encode (some k) (fieldOf cv k)) (s.startOp .writeDatetime).beginBuf := by
    rw [dataGate_ready (s := s.startOp .writeDatetime) hready, runWriteDatetime_error (frameEncode_bad cv k hk hok hbad)]
  have hnext : exec (.writeDatetime cv) s = .next _ := (hostOp_idle hidle).trans (by rw [hrun])
  exact ⟨_, hnext, rfl, (Issues.nil s).of_right rfl rfl rfl rfl, rfl, rfl, rfl, hready, rfl, ⟨rfl, rfl, rfl, rfl⟩⟩

/-- All the cells of BUF are BUF. -/
theorem bufBytes_all {s : State} {n : Nat} (h : s.buf.length = n) : s.bufBytes n = s.buf := by
  refine List.ext_getElem (by rw [State.bufBytes, List.length_map, List.length_range, h]) fun j _ hj => ?_
  simp [State.bufBytes, bufCell, hj]

/-- Settles O36: the 31 bytes read fill BUF, which is the result. -/
theorem readRamCompletes : Obligations.ReadRamCompletes := by
  intro s hidle hready hideal
  obtain ⟨bs, t, evs, h⟩ := transactionDone_of_ideal true (readFormat .ramBurstRead) (s.startOp .readRam).beginBuf hideal
  have hbs : bs.length = 31 := h.reads
  have hunspecified : (unspecifiedBuf (s.startOp .readRam).opCount).length = 31 := unspecifiedBuf_length _
  have hbuf : t.buf = bs := by
    have htake := storeFrom_take bs (unspecifiedBuf (s.startOp .readRam).opCount) (by rw [hunspecified, hbs])
    rw [List.take_of_length_le (by rw [storeFrom_length, hunspecified, hbs])] at htake
    rw [h.buf_read, htake]
  have hrun : dataGate .readRam runReadRam (s.startOp .readRam) = .done (.bytes bs) t := by
    rw [dataGate_ready (s := s.startOp .readRam) hready, runReadRam, h.run, ← hbuf, ← bufBytes_all (hbuf ▸ hbs)]
    rfl
  have hc := completes_of_run (i := .readRam) rfl hidle hrun (h.issues.of_left rfl rfl rfl rfl) h.layout h.clean
  exact ⟨_, evs, bs, hc, h.length, h.bytes, hbs, hbuf, rfl, h.data, hc.dataOp_frame rfl hready⟩

/-! ### INIT -/

/-- An instruction before an ideal capability meets no `Err`. -/
theorem exec_clean_of_ideal {i : Instr} {s t : State} {evs : List Event} (h : exec i s = .next t) (hi : Issues s t evs)
    (hideal : s.IdealFor i) : noErr evs = true := by
  have hgave := hi.gave
  cases exec_layoutEvents h hi with
  | none => rfl
  | whole hlayout hclean => exact hclean
  | cut hclean hprefix hpost =>
    rename_i pre post c
    obtain ⟨rest, hrest⟩ := hprefix
    have hcut : pre ++ Event.call c .err :: post = (pre ++ [.call c .err]) ++ post := by simp
    rw [hcut, Env.gave_append, Bool.and_eq_true] at hgave
    have hcount : callCount ((pre ++ [Event.call c .err]).map Event.shape) ≤ callCount (eventLayout s.cfg i) := by
      rw [← hrest, callCount_append _ rest, List.map_append]
      exact Nat.le_add_right _ _
    have habsurd := (Env.idealFor_gave hideal hgave.1 hcount).1
    rw [noErr_err] at habsurd
    cases habsurd

/-- Bytes written to the end leave SR at 0x00 and BC at 8 (41_bit_transport.md R140). -/
theorem runBody_writes_registers (toBuf : Bool) (k : Nat) (v : Byte) (data : List Byte) {s t : State} {bs : List Byte}
    (h : runBody toBuf k (.wr v :: data.map .wr) s = .done bs t) : t.sr = 0x00#8 ∧ t.bc = 8 := by
  induction data generalizing v s with
  | nil =>
    obtain ⟨_, u, hu, hrest⟩ := Attempt.andThen_done h
    cases hrest
    exact writeByte_done hu
  | cons w data ih =>
    obtain ⟨_, u, -, hrest⟩ := Attempt.andThen_done h
    exact ih w hrest

theorem runTransaction_writes_registers {toBuf : Bool} {c : Command} {data : List Byte} {s t : State} {bs : List Byte}
    (h : runTransaction toBuf (writeFormat c data) s = .done bs t) : t.sr = 0x00#8 ∧ t.bc = 8 := by
  unfold runTransaction at h
  cases hx : (beginTxn s.openTxn).andThen fun _ t => runBody toBuf 0 (writeFormat c data) t with
  | failed e u =>
    rw [hx] at h
    cases h
  | done v u =>
    obtain ⟨_, w, -, hbody⟩ := Attempt.andThen_done hx
    obtain ⟨hsr, hbc⟩ := runBody_writes_registers toBuf 0 c.code data hbody
    obtain ⟨-, hsr', hbc'⟩ := endTxn_same u
    rw [hx] at h
    dsimp only at h
    cases hend : (endTxn u).1 with
    | some e =>
      rw [hend] at h
      cases h
    | none =>
      rw [hend] at h
      cases h
      exact ⟨hsr'.trans hsr, hbc'.trans hbc⟩

/-- What else INIT's sequence that is done leaves: its value, the registers after the last byte, and BUF as it was (R220). -/
theorem runInitSequence_registers {s t : State} {v : Value} (h : runInitSequence s = .done v t) :
    v = .none ∧ t.sr = 0x00#8 ∧ t.bc = 8 ∧ t.buf = s.buf ∧ t.opCount = s.opCount := by
  obtain ⟨-, h⟩ := callThen_done h
  obtain ⟨_, u, hu, h⟩ := Attempt.andThen_done h
  obtain ⟨_, w, hw, h⟩ := Attempt.andThen_done h
  obtain ⟨rfl, rfl⟩ := Attempt.done.inj h
  obtain ⟨hsr, hbc⟩ := runTransaction_writes_registers hw
  have hkept : ∀ {body : List ByteOp} {s t : State} {bs : List Byte}, runTransaction false body s = .done bs t →
      t.buf = s.buf ∧ t.opCount = s.opCount := fun {body s t bs} hx => by
    have hbuf := runTransaction_keeps_buf body s
    have hcount := (runTransaction_same false body s).opCount
    rw [hx] at hbuf hcount
    exact ⟨hbuf, hcount⟩
  obtain ⟨hubuf, hucount⟩ := hkept hu
  obtain ⟨hwbuf, hwcount⟩ := hkept hw
  exact ⟨rfl, hsr, hbc, hwbuf.trans hubuf, hwcount.trans hucount⟩

theorem permitsInit_iff {s : State} : s.permitsInit = true ↔ s.lifecycle = .uninit ∧ s.initAttempted = false := by
  simp [State.permitsInit]

/-- Settles O39: no call fails, so the sequence is done. -/
theorem initCompletes : Obligations.InitCompletes := by
  intro s hidle huninit hattempted hideal
  have hpermits : s.permitsInit = true := permitsInit_iff.2 ⟨huninit, hattempted⟩
  have hrun : runInit (s.startOp .init) = runInitSequence (s.startOp .init) := if_pos hpermits
  have hnext : exec .init s = .next (finishHost (runInitSequence (s.startOp .init))) := (hostOp_idle hidle).trans (by rw [hrun])
  obtain ⟨evs, hi⟩ := exec_issues hnext
  have hclean := exec_clean_of_ideal hnext hi hideal
  obtain ⟨v, t, hx⟩ := (runInitSequence_failsAtErr (s.startOp .init)).done
    ((issues_of_finishHost (op := .init) hi).of_left rfl rfl rfl rfl) hclean
  have hends := runInitSequence_ends (s.startOp .init)
  rw [hx] at hnext hi hends
  obtain ⟨rfl, hready, hattempted'⟩ := hends
  obtain ⟨-, hpins, -⟩ := runInitSequence_done hx
  obtain ⟨-, hsr, hbc, hbuf, hcount⟩ := runInitSequence_registers hx
  have hlayout : evs.map Event.shape = eventLayout s.cfg .init :=
    exec_layout rfl (by rw [State.refuses_init_iff, hpermits]; decide) (encodable_of_not_writeDatetime (i := .init) nofun) hnext hi hclean
  exact ⟨_, evs, ⟨hnext, hi, hlayout, hclean, rfl⟩, (init_counts hlayout).1, hlayout, hready, hattempted', rfl, hsr, hbc, hpins,
    hbuf, hcount, (exec_hostOp_ends rfl hnext).frame⟩

/-- A refused INIT writes nothing but its LifecycleError (R220). -/
theorem exec_init_refused {s : State} (hidle : s.Idle) (h : s.permitsInit = false) :
    exec .init s = .next { s with result := some (.error (s.lifecycleError .init)) } := by
  have hrun : runInit (s.startOp .init) = .failed (s.lifecycleError .init) (s.startOp .init) := if_neg (Bool.eq_false_iff.1 h)
  have hrest : (s.startOp .init).raise (s.lifecycleError .init) = { s with result := some (.error (s.lifecycleError .init)) } := by
    rw [State.raise, State.startOp, ← hidle.1]
  exact (hostOp_idle hidle).trans (by rw [hrun, finishHost, hrest])

/-- Settles O40: the guard, and the lifecycle a permitted INIT ends in. -/
theorem initRunsAtMostOnce : Obligations.InitRunsAtMostOnce := by
  refine ⟨fun s hidle hguard => exec_init_refused hidle ?_, fun s t hidle huninit hattempted h => ?_⟩
  · rw [Bool.eq_false_iff, Ne, permitsInit_iff]
    rintro ⟨huninit, hattempted⟩
    obtain hlifecycle | hagain := hguard
    · exact hlifecycle huninit
    · rw [hattempted] at hagain
      cases hagain
  · obtain ⟨hattempted', hlifecycle⟩ := init_permitted (permitsInit_iff.2 ⟨huninit, hattempted⟩) h
    have hready : t.lifecycle = .ready ↔ t.result = some (.ok .none) := by
      rw [hlifecycle]
      split
      next hok => exact iff_of_true rfl hok
      next hok => exact iff_of_false nofun hok
    refine ⟨hattempted', hready, fun hnot => ?_⟩
    have huninit' : t.lifecycle = .uninit := hlifecycle.trans (if_neg fun hok => hnot (hready.2 hok))
    have hagain := exec_init_refused (exec_idle h hidle) (by simp [State.permitsInit, hattempted'])
    have herror : t.lifecycleError .init = .lifecycle .init .uninit true := by rw [State.lifecycleError, huninit', hattempted']
    exact ⟨huninit', herror ▸ hagain⟩

/-! ### TEARDOWN -/

/-- A REL of the three pins makes each of them UNCONF, or UNKNOWN where it fails (10_state.md R40, R41). -/
theorem Shadow.at_after_rel_all (sh : Shadow) (r : Response) (p : Pin) :
    (sh.after (.rel [.clk, .data, .rst]) r).at p =
      if r = .err then { mode := .unknown, lvl := .x } else { mode := .unconf, lvl := .x } := by
  have hmem : p ∈ [Pin.clk, .data, .rst] := by cases p <;> decide
  have hput : ∀ v, (sh.putAll v [.clk, .data, .rst]).at p = v := fun v => by rw [Shadow.at_putAll, if_pos hmem]
  rw [Shadow.after]
  split
  · exact hput _
  · exact hput _

/-- Settles O41: one REL, and CLOSED whatever its answer. -/
theorem teardownReleasesOnce : Obligations.TeardownReleasesOnce := by
  intro s hidle
  refine ⟨fun hclosed => ?_, fun hopen => ?_⟩
  · have hrun : runTeardown (s.startOp .teardown) = .done .none (s.startOp .teardown) := if_pos hclosed
    have hrest : (s.startOp .teardown).complete .none = { s with result := some (.ok .none) } := by
      rw [State.complete, State.startOp, ← hidle.1]
    exact (hostOp_idle hidle).trans (by rw [hrun, finishHost, hrest])
  · have hrun : runTeardown (s.startOp .teardown) =
        callThen (.rel [.clk, .data, .rst]) (s.startOp .teardown).becomeClosed fun t => .done Value.none t := if_neg hopen
    obtain ⟨hok, hx⟩ | ⟨herr, hx⟩ := callThen_answered (c := .rel [.clk, .data, .rst]) (fun _ => rfl)
      (s.startOp .teardown).becomeClosed fun t => .done Value.none t
    · have hnext : exec .teardown s = .next _ := (hostOp_idle hidle).trans (by rw [hrun, hx])
      have hi := finishHost_issues (x := .done Value.none _) ((Issues.call hok).of_left (s := s.startOp .teardown) rfl rfl rfl rfl)
      exact ⟨_, .ok, hnext, hi, fun _ => rfl, rfl, rfl, rfl, rfl, rfl, rfl, rfl, ⟨rfl, rfl, rfl, rfl⟩,
        fun _ => ⟨rfl, fun p => s.pins.at_after_rel_all .ok p⟩, fun h => absurd rfl h⟩
    · have hnext : exec .teardown s = .next _ := (hostOp_idle hidle).trans (by rw [hrun, hx])
      have hi := finishHost_issues (x := .failed (.pinAccess (.rel [.clk, .data, .rst]) s.trace.length (some ⟨.teardown, 0⟩)) _)
        ((Issues.call herr).of_left (s := s.startOp .teardown) rfl rfl rfl rfl)
      refine ⟨_, .err, hnext, hi, fun hideal => ?_, rfl, rfl, rfl, rfl, rfl, rfl, rfl, ⟨rfl, rfl, rfl, rfl⟩, nofun,
        fun _ => ⟨rfl, fun p => s.pins.at_after_rel_all .err p⟩⟩
      cases exec_clean_of_ideal hnext hi hideal

end Sys2Proof.Machine
end

section
/-! PROOF. The operations before the reference counterpart: what the read rows return and the write rows store (20_memory.md R82, R83),
the round trips of 43_register_codec.md R196 and R197, and what a write that may fail leaves (20_memory.md R70). -/

namespace Sys2Proof.Machine

/-! ### The command bytes at the counterpart -/

theorem responseByte_wpRead (c : Chip) (k : Nat) :
    (c.openTxn.byteIn 0x8F#8).responseByte k = if k = 0 then some (c.mem.readSlot .wp 0) else none := rfl

theorem responseByte_tcRead (c : Chip) (k : Nat) :
    (c.openTxn.byteIn 0x91#8).responseByte k = if k = 0 then some (c.mem.readSlot .tc 0) else none := rfl

theorem responseByte_clockBurstRead (c : Chip) (k : Nat) :
    (c.openTxn.byteIn 0xBF#8).responseByte k = if k ≤ 8 then some (c.mem.readSlot .clock k) else none := rfl

theorem responseByte_ramBurstRead (c : Chip) (k : Nat) :
    (c.openTxn.byteIn 0xFF#8).responseByte k = if k ≤ 30 then some (c.mem.readSlot .ram k) else none := rfl

/-- The data bytes of a clock burst are stored to the slots 0 to 6 (R83). -/
theorem storeSlot_clockBurstWrite (j : Nat) : storeSlot 0xBE#8 j = if j < 7 then some (.clock, j) else none :=
  if_congr Nat.lt_succ_iff.symm rfl rfl

theorem storeSlot_ramBurstWrite (j : Nat) : storeSlot 0xFE#8 j = if j < 31 then some (.ram, j) else none :=
  if_congr Nat.lt_succ_iff.symm rfl rfl

/-! ### The rows -/

/-- Settles O55: the counterpart answers every level of a read row. -/
theorem readRowsReturnStorage : Obligations.ReadRowsReturnStorage := by
  intro s chip h
  refine ⟨?_, ?_, ?_, ?_⟩
  · exact harnessRead_answers (.command .wpRead) 0x8F#8 1 s chip h (fun _ => chip.mem.readSlot .wp 0) fun j hj => by
      rw [responseByte_wpRead, if_pos (by omega)]
  · exact harnessRead_answers (.command .tcRead) 0x91#8 1 s chip h (fun _ => chip.mem.readSlot .tc 0) fun j hj => by
      rw [responseByte_tcRead, if_pos (by omega)]
  · exact harnessRead_answers (.command .clockBurstRead) 0xBF#8 7 s chip h (chip.mem.readSlot .clock) fun j hj => by
      rw [responseByte_clockBurstRead, if_pos (by omega)]
  · exact harnessRead_answers (.command .ramBurstRead) 0xFF#8 31 s chip h (chip.mem.readSlot .ram) fun j hj => by
      rw [responseByte_ramBurstRead, if_pos (by omega)]

/-- Slot k of the data of a clock burst write is byte k of the frame (20_memory.md R67). -/
theorem getD_frame_append (f : Frame) (pad : List Byte) {k : Nat} (hk : k < 7) : (f.toList ++ pad).getD k 0#8 = slotOf f k := by
  have hlen : k < f.toList.length := hk
  rw [List.getD_append _ _ _ _ hlen]
  rfl

/-- Settles O56: the data byte, or the burst, reaches its slots where the counterpart is not protected. -/
theorem writeRowsStoreTheirData : Obligations.WriteRowsStoreTheirData := by
  intro s chip h
  refine ⟨fun d => ?_, fun d => ?_, fun f p q => ?_, fun data hdata => ?_⟩
  · obtain ⟨t, c, hnext, hmeets, hmem⟩ := harnessWrite_stores (.command .wpWrite) 0x8E#8 [d] s chip h
    rw [byteIn_single_mem chip 0x8E#8 d .wp rfl, if_pos (.inl rfl)] at hmem
    refine ⟨t, hnext, ?_⟩
    rw [slot_eq_counterpart hmeets, hmem]
    exact Memory.readSlot_writeSlot_same chip.mem .wp 0 d h.wf (by decide)
  · obtain ⟨t, c, hnext, hmeets, hmem⟩ := harnessWrite_stores (.command .tcWrite) 0x90#8 [d] s chip h
    rw [byteIn_single_mem chip 0x90#8 d .tc rfl] at hmem
    refine ⟨t, hnext, ?_⟩
    rw [slot_eq_counterpart hmeets, hmem]
    by_cases hwp : chip.mem.readSlot .wp 0 = 0x00#8
    · rw [if_pos hwp, if_pos (.inr ((isProtected_byteIn_iff chip 0x90#8).2 hwp))]
      exact Memory.readSlot_writeSlot_same chip.mem .tc 0 d h.wf (by decide)
    · rw [if_neg hwp, if_neg (by simp [isProtected_byteIn_iff, hwp])]
  · obtain ⟨t, c, hnext, hmeets, hmem⟩ := harnessWrite_stores (.command .clockBurstWrite) 0xBE#8 (f.toList ++ [p, q]) s chip h
    refine ⟨t, hnext, fun k hk => ?_⟩
    have hslots := (Chip.bytesIn_slots chip 0xBE#8 (f.toList ++ [p, q]) .clock 7 h.wf (by decide) (by decide)
      storeSlot_clockBurstWrite).1 k hk
    have hlen : k < (f.toList ++ [p, q]).length := hk.trans (by simp [Frame.toList])
    rw [slot_eq_counterpart hmeets, hmem, hslots, getD_frame_append f [p, q] hk]
    simp only [hlen, and_true]
  · obtain ⟨t, c, hnext, hmeets, hmem⟩ := harnessWrite_stores (.command .ramBurstWrite) 0xFE#8 data s chip h
    refine ⟨t, hnext, fun k hk => ?_⟩
    rw [slot_eq_counterpart hmeets, hmem]
    exact (Chip.bytesIn_slots chip 0xFE#8 data .ram 31 h.wf (by decide) (by decide) storeSlot_ramBurstWrite).1 k hk

/-! ### The data operations before an ideal counterpart -/

/-- READY between operations, before a counterpart that answers every call, the clock's level known: what a data operation needs, and
leaves behind. -/
structure State.ReadyBefore (s : State) (chip : Chip) : Prop where
  idle : s.Idle
  ready : s.lifecycle = .ready
  sees : s.meets chip
  live : s.clockLive
  wf : chip.mem.wf = true

theorem State.ReadyWithChip.before {s : State} {chip : Chip} (h : s.ReadyWithChip chip) : s.ReadyBefore chip :=
  ⟨h.idle, h.ready, ⟨h.attached, h.ideal⟩, .inl h.clock, h.wf⟩

/-- A data operation that writes a burst stores it, and leaves the block ready before the counterpart. -/
theorem dataWrite_stores {i : Instr} {op : Op} {run : State → Attempt Value} {cmd : Byte} {data : List Byte} {v : Value}
    {s u : State} {chip : Chip} (hdata : isDataOp i = true) (hexec : exec i s = hostOp op (dataGate op run) s)
    (hrun : run (s.startOp op) = (runTransaction false ((cmd :: data).map .wr) u).andThen fun _ t => .done v t)
    (henv : u.env = s.env) (hpins : u.pins = s.pins) (h : s.ReadyBefore chip) :
    ∃ t d, exec i s = .next t ∧ t.result = some (.ok v) ∧ t.ReadyBefore d ∧
      d.mem = (data.foldl Chip.byteIn (chip.openTxn.byteIn cmd)).mem := by
  have hmeets : u.meets chip := by rw [State.meets, henv]; exact h.sees
  have hlive : u.clockLive := by rw [State.clockLive, hpins]; exact h.live
  obtain ⟨bs, t, d, hx, hd, -, hmem, ht⟩ := runTransaction_meets false ((cmd :: data).map .wr) u chip hmeets hlive
  have hnext : exec i s = .next (t.complete v) := by
    rw [hexec, hostOp_idle h.idle, dataGate_ready (s := s.startOp op) h.ready, hrun, hx]
    rfl
  have hidle := exec_idle hnext h.idle
  have hready := (dataOp_sameLifecycle hdata hnext).lifecycle.trans h.ready
  rw [writesOf_map_wr] at hmem
  have hwf : d.mem.wf = true := by
    rw [hmem]
    exact Chip.bytesIn_wf data (chip.openTxn.byteIn cmd) cmd rfl h.wf
  exact ⟨_, d, hnext, rfl, ⟨hidle, hready, hd, ht, hwf⟩, hmem⟩

theorem writeDatetime_stores {cv : Calendar} {f : Frame} (hf : frameEncode cv = .ok f) {s : State} {chip : Chip}
    (h : s.ReadyBefore chip) : ∃ t d, exec (.writeDatetime cv) s = .next t ∧ t.result = some (.ok .none) ∧ t.ReadyBefore d ∧
      d.mem = ((f.toList ++ [s.cfg.padByte, s.cfg.padByte]).foldl Chip.byteIn (chip.openTxn.byteIn 0xBE#8)).mem :=
  dataWrite_stores rfl rfl (runWriteDatetime_ok hf (s.startOp .writeDatetime)) rfl rfl h

theorem writeRam_stores (block : List Byte) {s : State} {chip : Chip} (h : s.ReadyBefore chip) :
    ∃ t d, exec (.writeRam block) s = .next t ∧ t.result = some (.ok (.truncated (decide (31 < block.length)))) ∧ t.ReadyBefore d ∧
      d.mem = ((block.take 31).foldl Chip.byteIn (chip.openTxn.byteIn 0xFE#8)).mem :=
  dataWrite_stores rfl rfl (runWriteRam_eq block (s.startOp .writeRam)) rfl rfl h

theorem Frame.toList_eq_range (f : Frame) : (List.range 7).map (slotOf f) = f.toList := rfl

theorem Frame.toList_injective {f g : Frame} (h : f.toList = g.toList) : f = g := by
  cases f
  cases g
  simpa [Frame.toList] using h

/-- READ_DATETIME before a counterpart that holds a frame FRAME_DEC accepts. -/
theorem readDatetime_returns {f : Frame} {cv : Calendar} (hf : frameDecode f = .ok cv) {s : State} {chip : Chip}
    (h : s.ReadyBefore chip) (hslots : ∀ k, k < 7 → chip.mem.readSlot .clock k = slotOf f k) :
    ∃ t, exec .readDatetime s = .next t ∧ t.result = some (.ok (.calendar cv)) := by
  obtain ⟨t, d, hx, -⟩ := readTransaction_meets true 0xBF#8 7 (s.startOp .readDatetime).beginBuf chip h.sees h.live (slotOf f)
    fun j hj => by rw [responseByte_clockBurstRead, if_pos (by omega), hslots j hj]
  obtain ⟨evs, hi, -, -, hbytes, -⟩ := runTransaction_done true _ hx
  have hraw : frameOfBuf t.buf = f := Frame.toList_injective <| by
    rw [(readDatetime_frame (s := s.startOp .readDatetime) hx (hi.of_left rfl rfl rfl rfl)).2, ← hbytes, Frame.toList_eq_range]
  have hrun : runReadDatetime (s.startOp .readDatetime) = .done (.calendar cv) t := by
    rw [runReadDatetime_eq hx, hraw, hf]
  have hnext : exec .readDatetime s = .next (t.complete (.calendar cv)) :=
    (hostOp_idle h.idle).trans (by rw [dataGate_ready (s := s.startOp .readDatetime) h.ready, hrun]; rfl)
  exact ⟨_, hnext, rfl⟩

/-- Settles O57: the frame written stands in the clock's slots, and decodes to the value it codes. -/
theorem datetimeWrittenIsReadBack : Obligations.DatetimeWrittenIsReadBack := by
  intro cv s chip hvalid h hwp
  have hf := frameEncode_valid cv hvalid
  generalize Frame.mk _ _ _ _ _ _ _ = f at hf
  obtain ⟨t, d, hnext, hresult, hd, hmem⟩ := writeDatetime_stores hf h.before
  have hslots : ∀ k, k < 7 → d.mem.readSlot .clock k = slotOf f k := fun k hk => by
    have hlen : k < (f.toList ++ [s.cfg.padByte, s.cfg.padByte]).length := hk.trans (by simp [Frame.toList])
    rw [hmem, (Chip.bytesIn_slots chip 0xBE#8 _ .clock 7 h.wf (by decide) (by decide) storeSlot_clockBurstWrite).1 k hk,
      if_pos ⟨hwp, hlen⟩, getD_frame_append f _ hk]
  obtain ⟨u, hnext', hresult'⟩ := readDatetime_returns (frameDecode_eq_ok_iff_frameEncode.2 hf) hd hslots
  exact ⟨t, u, hnext, hresult, hnext', hresult'⟩

/-- Settles O58: each write fills the first slots of RAM with its first 31 bytes, and leaves WP and the other slots. -/
theorem ramWritesTruncateAndKeepTheRest : Obligations.RamWritesTruncateAndKeepTheRest := by
  intro a b s chip ha hb h hwp
  obtain ⟨t, d, hnext, hresult, hd, hmem⟩ := writeRam_stores a h.before
  obtain ⟨hram, hother⟩ := Chip.bytesIn_slots chip 0xFE#8 (a.take 31) .ram 31 h.wf (by decide) (by decide) storeSlot_ramBurstWrite
  rw [← hmem] at hram hother
  have hwp' : d.mem.readSlot .wp 0 = 0x00#8 := (hother .wp 0 (by decide) (by decide)).trans hwp
  obtain ⟨u, e, hnext', hresult', he, hmem'⟩ := writeRam_stores b hd
  have hram' := (Chip.bytesIn_slots d 0xFE#8 (b.take 31) .ram 31 hd.wf (by decide) (by decide) storeSlot_ramBurstWrite).1
  rw [← hmem'] at hram'
  have htake : b.take 31 = b := List.take_of_length_le (by omega)
  rw [ha] at hresult
  rw [hb] at hresult'
  rw [htake] at hram'
  refine ⟨t, u, hnext, hresult, fun k hk => ?_, hnext', hresult', fun k hk => ?_, fun k hk hk31 => ?_⟩
  · rw [slot_eq_counterpart hd.sees, hram k hk, if_pos ⟨hwp, by rw [List.length_take]; omega⟩]
    simp [List.getD_eq_getElem?_getD, hk]
  · rw [slot_eq_counterpart he.sees, hram' k (by omega), if_pos ⟨hwp', by omega⟩]
  · rw [slot_eq_counterpart he.sees, slot_eq_counterpart hd.sees, hram' k hk31, if_neg (by omega)]

end Sys2Proof.Machine
end

section
/-! PROOF. What a host operation that writes has left in the counterpart's storage, whatever fails: a prefix of its slots (20_memory.md
R70, 43_register_codec.md R191, R193, 44_lifecycle.md R220). -/

namespace Sys2Proof.Machine

/-! ### A burst -/

theorem slot_of_device {s : State} {c : Chip} (h : s.env.device = .counterpart c) (r : Region) (k : Nat) :
    s.env.slot r k = c.mem.readSlot r k := by
  unfold Env.slot Env.storage
  rw [h]

/-- The region's slots hold the first m of these bytes, and every other slot what the counterpart held. -/
def PrefixStored (chip : Chip) (r : Region) (data : List Byte) (e : Env) (m : Nat) : Prop :=
  (∀ k, k < m → e.slot r k = data.getD k 0#8) ∧ (∀ k, m ≤ k → k < r.size → e.slot r k = chip.mem.readSlot r k) ∧
    ∀ r' k, r' ≠ r → k < r'.size → e.slot r' k = chip.mem.readSlot r' k

/-- A run that stores a prefix of these bytes to the first n slots, and all of them where it is done, the clock's level was known and
WP is 0x00. -/
def StoresPrefix (chip : Chip) (r : Region) (data : List Byte) (n : Nat) (s : State) (x : Attempt Value) : Prop :=
  ∃ m, m ≤ min data.length n ∧ PrefixStored chip r data x.state.env m ∧
    (∀ v t, x = .done v t → s.clockLive → chip.mem.readSlot .wp 0 = 0x00#8 → m = min data.length n)

/-- A run that ends in an error before any pin call stores nothing. -/
theorem StoresPrefix.refused {chip : Chip} {r : Region} {data : List Byte} {n : Nat} {s u : State} {e : OpError}
    (h : s.env.device = .counterpart chip) (henv : u.env = s.env) : StoresPrefix chip r data n s (.failed e u) := by
  have hslot : ∀ r k, u.env.slot r k = chip.mem.readSlot r k := fun r k => by rw [henv, slot_of_device h]
  refine ⟨0, Nat.zero_le _, ⟨fun k hk => absurd hk (Nat.not_lt_zero k), fun k _ _ => hslot r k, fun r' k _ _ => hslot r' k⟩,
    fun v t hdone => ?_⟩
  cases hdone

/-- One transaction that writes the burst, from a state with the same pins and environment. -/
theorem StoresPrefix.transaction {chip : Chip} {r : Region} {cmd : Byte} {data : List Byte} {n : Nat} {s u : State} {v : Value}
    (h : s.env.device = .counterpart chip) (hwf : chip.mem.wf = true) (hr : r ≠ .wp) (hn : n ≤ r.size)
    (hslot : ∀ j, storeSlot cmd j = if j < n then some (r, j) else none) (henv : u.env = s.env) (hpins : u.pins = s.pins) :
    StoresPrefix chip r data n s ((runTransaction false ((cmd :: data).map .wr) u).andThen fun _ t => .done v t) := by
  obtain ⟨m, hm, hfirst, hrest, hother, hall⟩ :=
    runTransaction_prefix false cmd data u chip r n (henv ▸ h) hwf hr hn hslot
  have hstate : ((runTransaction false ((cmd :: data).map .wr) u).andThen fun _ t => .done v t).state =
      (runTransaction false (.wr cmd :: data.map .wr) u).state := Attempt.andThen_state fun _ _ => rfl
  refine ⟨m, hm, ?_, fun w t hdone hlive hwp => ?_⟩
  · rw [hstate]
    exact ⟨hfirst, hrest, hother⟩
  · obtain ⟨bs, t', hx, -⟩ := Attempt.andThen_done hdone
    exact hall bs t' hx (by rwa [State.clockLive, hpins]) hwp

theorem StoresPrefix.dataGate {chip : Chip} {r : Region} {data : List Byte} {n : Nat} {s : State} {op : Op}
    {run : State → Attempt Value} (h : s.env.device = .counterpart chip) (hrun : StoresPrefix chip r data n s (run s)) :
    StoresPrefix chip r data n s (dataGate op run s) := by
  by_cases hready : s.lifecycle = .ready
  · rwa [dataGate_ready hready]
  · rw [dataGate_not_ready hready]
    exact .refused h rfl

/-- A host operation that ends `Ok` is one whose run was done. -/
theorem finishHost_ok {x : Attempt Value} {v : Value} (h : (finishHost x).result = some (.ok v)) : ∃ t, x = .done v t := by
  cases x with
  | done w t =>
    cases h
    exact ⟨t, rfl⟩
  | failed e t => cases h

theorem hostOp_storesPrefix {chip : Chip} {r : Region} {data : List Byte} {n : Nat} {s t : State} {op : Op}
    {run : State → Attempt Value} (hrun : StoresPrefix chip r data n (s.startOp op) (run (s.startOp op)))
    (h : hostOp op run s = .next t) :
    ∃ m, m ≤ min data.length n ∧ PrefixStored chip r data t.env m ∧
      ((∃ v, t.result = some (.ok v)) → s.pins.clk.mode = .output → chip.mem.readSlot .wp 0 = 0x00#8 → m = min data.length n) := by
  obtain ⟨-, -, rfl⟩ := hostOp_next h
  obtain ⟨m, hm, hstored, hall⟩ := hrun
  rw [← finishHost_env] at hstored
  refine ⟨m, hm, hstored, fun ⟨v, hv⟩ hclk hwp => ?_⟩
  obtain ⟨u, hu⟩ := finishHost_ok hv
  exact hall v u hu (.inl hclk) hwp

/-- WRITE_RAM stores a prefix of the first 31 bytes of its block. -/
theorem writeRam_prefix {chip : Chip} {block : List Byte} {s t : State} (hdev : s.env.device = .counterpart chip)
    (hwf : chip.mem.wf = true) (h : exec (.writeRam block) s = .next t) :
    ∃ m, m ≤ min block.length 31 ∧ PrefixStored chip .ram (block.take 31) t.env m ∧
      ((∃ v, t.result = some (.ok v)) → s.pins.clk.mode = .output → chip.mem.readSlot .wp 0 = 0x00#8 → m = min block.length 31) := by
  have hrun : StoresPrefix chip .ram (block.take 31) 31 (s.startOp .writeRam) (runWriteRam block (s.startOp .writeRam)) := by
    rw [runWriteRam_eq]
    exact .transaction hdev hwf (by decide) (by decide) storeSlot_ramBurstWrite rfl rfl
  have hlen : min (block.take 31).length 31 = min block.length 31 := by
    rw [List.length_take]
    omega
  have hall := hostOp_storesPrefix (hrun.dataGate (op := .writeRam) hdev) h
  rwa [hlen] at hall

/-- WRITE_DATETIME stores a prefix of its frame. -/
theorem writeDatetime_prefix {chip : Chip} {cv : Calendar} {f : Frame} {s t : State} (hf : frameEncode cv = .ok f)
    (hdev : s.env.device = .counterpart chip) (hwf : chip.mem.wf = true) (h : exec (.writeDatetime cv) s = .next t) :
    ∃ m, m ≤ 7 ∧ PrefixStored chip .clock (f.toList ++ [s.cfg.padByte, s.cfg.padByte]) t.env m ∧
      ((∃ v, t.result = some (.ok v)) → s.pins.clk.mode = .output → chip.mem.readSlot .wp 0 = 0x00#8 → m = 7) := by
  have hrun : StoresPrefix chip .clock (f.toList ++ [s.cfg.padByte, s.cfg.padByte]) 7 (s.startOp .writeDatetime)
      (runWriteDatetime cv (s.startOp .writeDatetime)) := by
    rw [runWriteDatetime_ok hf]
    exact .transaction hdev hwf (by decide) (by decide) storeSlot_clockBurstWrite rfl rfl
  exact hostOp_storesPrefix (hrun.dataGate (op := .writeDatetime) hdev) h

/-- WRITE_DATETIME of a value FRAME_ENC refuses stores nothing, and does not end `Ok`. -/
theorem writeDatetime_refused_stores {chip : Chip} {cv : Calendar} {e : OpError} {s t : State} (hf : frameEncode cv = .error e)
    (hdev : s.env.device = .counterpart chip) (h : exec (.writeDatetime cv) s = .next t) :
    (∀ r k, t.env.slot r k = chip.mem.readSlot r k) ∧ ∀ v, t.result ≠ some (.ok v) := by
  obtain ⟨-, -, rfl⟩ := hostOp_next h
  by_cases hready : (s.startOp .writeDatetime).lifecycle = .ready
  · rw [dataGate_ready hready, runWriteDatetime_error hf]
    exact ⟨slot_of_device hdev, nofun⟩
  · rw [dataGate_not_ready hready]
    exact ⟨slot_of_device hdev, nofun⟩

/-! ### INIT -/

/-- The counterpart's memory after the first m of INIT's two stores: WP, then TC (R220). -/
def initMemory (mem : Memory) : Nat → Memory
  | 0 => mem
  | 1 => mem.writeSlot .wp 0 0x00#8
  | _ + 2 => (mem.writeSlot .wp 0 0x00#8).writeSlot .tc 0 0x00#8

/-- A store to one region leaves the slots of every other. -/
theorem readSlot_writeSlot_region (mem : Memory) {r r' : Region} {k k' : Nat} (v : Byte) (hr : r' ≠ r) (hk : k < r.size)
    (hk' : k' < r'.size) : (mem.writeSlot r k v).readSlot r' k' = mem.readSlot r' k' :=
  Memory.read_writeSlot_other mem r k v _ fun haddr => hr (Region.addr_inj r' r k' k hk' hk haddr).1

theorem initMemory_wp {mem : Memory} (h : mem.wf = true) (m : Nat) :
    (initMemory mem m).readSlot .wp 0 = if 1 ≤ m then 0x00#8 else mem.readSlot .wp 0 := by
  have hstored := Memory.readSlot_writeSlot_same mem .wp 0 0x00#8 h (by decide)
  match m with
  | 0 => rfl
  | 1 => exact hstored
  | n + 2 =>
    rw [if_pos (by omega)]
    exact (readSlot_writeSlot_region _ 0x00#8 (by decide) (by decide) (by decide)).trans hstored

theorem initMemory_tc {mem : Memory} (h : mem.wf = true) {m : Nat} (hm : m ≤ 2) :
    (initMemory mem m).readSlot .tc 0 = if m = 2 then 0x00#8 else mem.readSlot .tc 0 := by
  match m with
  | 0 => rfl
  | 1 => exact readSlot_writeSlot_region mem 0x00#8 (by decide) (by decide) (by decide)
  | 2 => exact Memory.readSlot_writeSlot_same _ .tc 0 0x00#8 (Memory.writeSlot_wf mem .wp 0 0x00#8 h) (by decide)

theorem initMemory_other (mem : Memory) (m : Nat) {r : Region} {k : Nat} (hwp : r ≠ .wp) (htc : r ≠ .tc) (hk : k < r.size) :
    (initMemory mem m).readSlot r k = mem.readSlot r k := by
  have hfirst := readSlot_writeSlot_region mem (k := 0) 0x00#8 hwp (by decide) hk
  match m with
  | 0 => rfl
  | 1 => exact hfirst
  | _ + 2 => exact (readSlot_writeSlot_region _ 0x00#8 htc (by decide) hk).trans hfirst

/-- The counterpart attached here holds this memory. -/
def Env.Holds (e : Env) (mem : Memory) : Prop := ∃ c, e.device = .counterpart c ∧ c.mem = mem

theorem Env.Holds.slot {e : Env} {mem : Memory} (h : e.Holds mem) (r : Region) (k : Nat) : e.slot r k = mem.readSlot r k := by
  obtain ⟨c, hdev, rfl⟩ := h
  unfold Env.slot Env.storage
  rw [hdev]

/-- A run that reaches the memory after some of INIT's stores, and after both where it is done. -/
def InitStores (mem : Memory) (x : Attempt Value) : Prop :=
  ∃ m, m ≤ 2 ∧ x.state.env.Holds (initMemory mem m) ∧ ∀ v t, x = .done v t → m = 2

theorem InitStores.failed {mem : Memory} {e : OpError} {u : State} {m : Nat} (hm : m ≤ 2) (h : u.env.Holds (initMemory mem m)) :
    InitStores mem (.failed e u) := by
  refine ⟨m, hm, h, fun v t hdone => ?_⟩
  cases hdone

/-- A single-byte write row with data 00 stores it or nothing; where it is done it has stored it, if the counterpart stores it at all. -/
theorem storeRow_holds {body : List ByteOp} {cmd : Byte} {r : Region} {s : State} {mem : Memory} (hbody : body = [.wr cmd, .wr 0x00#8])
    (hs : storeSlot cmd 0 = some (r, 0)) (h : s.env.Holds mem) (hfree : r = .wp ∨ mem.readSlot .wp 0 = 0x00#8)
    (hlive : s.clockLive) :
    (∃ e u, runTransaction false body s = .failed e u ∧
      (u.env.Holds mem ∨ u.env.Holds (mem.writeSlot r 0 0x00#8))) ∨
    ∃ bs u, runTransaction false body s = .done bs u ∧ u.env.Holds (mem.writeSlot r 0 0x00#8) ∧ u.clockLive := by
  subst hbody
  obtain ⟨chip, hdev, rfl⟩ := h
  obtain ⟨c, b, hdev', hmem, hall, hlive'⟩ := runTransaction_single false cmd 0x00#8 s chip r hdev hs
  cases hx : runTransaction false [.wr cmd, .wr 0x00#8] s with
  | failed e u =>
    rw [hx] at hdev'
    refine .inl ⟨e, u, rfl, ?_⟩
    cases b with
    | false => exact .inl ⟨c, hdev', hmem⟩
    | true => exact .inr ⟨c, hdev', hmem.trans (if_pos ⟨rfl, hfree⟩)⟩
  | done bs u =>
    rw [hx] at hdev'
    exact .inr ⟨bs, u, rfl, ⟨c, hdev', hmem.trans (if_pos ⟨hall bs u hx hlive, hfree⟩)⟩, (hlive' bs u hx).2 hlive⟩

/-- INIT's second transaction, 90 00, after its first has cleared WP. -/
theorem initSecond_stores {mem : Memory} (hwf : mem.wf = true) {s : State} (h : s.env.Holds (initMemory mem 1))
    (hlive : s.clockLive) : InitStores mem
      ((runTransaction false (writeFormat .tcWrite [0x00#8]) s).andThen fun _ u => .done .none u.becomeReady) := by
  have hcleared : (initMemory mem 1).readSlot .wp 0 = 0x00#8 := initMemory_wp hwf 1
  obtain ⟨e, u, hx, hu⟩ | ⟨bs, u, hx, hu, -⟩ := storeRow_holds (body := writeFormat .tcWrite [0x00#8]) rfl rfl h (.inr hcleared) hlive
  · rw [hx]
    obtain hu | hu := hu
    · exact .failed (m := 1) (by decide) hu
    · exact .failed (m := 2) (by decide) hu
  · rw [hx]
    exact ⟨2, le_rfl, hu, fun _ _ _ => rfl⟩

/-- INIT's two transactions, from a state whose clock is an output. -/
theorem initTransactions_store {mem : Memory} (hwf : mem.wf = true) {s : State} (h : s.env.Holds mem) (hlive : s.clockLive) :
    InitStores mem ((runTransaction false (writeFormat .wpWrite [0x00#8]) s).andThen fun _ t =>
      (runTransaction false (writeFormat .tcWrite [0x00#8]) t).andThen fun _ u => .done .none u.becomeReady) := by
  obtain ⟨e, u, hx, hu⟩ | ⟨bs, u, hx, hu, hlive'⟩ := storeRow_holds (body := writeFormat .wpWrite [0x00#8]) rfl rfl h (.inl rfl) hlive
  · rw [hx]
    obtain hu | hu := hu
    · exact .failed (m := 0) (by decide) hu
    · exact .failed (m := 1) (by decide) hu
  · rw [hx]
    exact initSecond_stores hwf hu hlive'

/-- INIT's CFG reaches no storage, and leaves the clock an output. -/
theorem runInitSequence_stores {chip : Chip} {s : State} (hdev : s.env.device = .counterpart chip) (hwf : chip.mem.wf = true) :
    InitStores chip.mem (runInitSequence s) := by
  have hholds : ∀ r, (s.markInit.afterCall (.cfg [.clk, .rst] .output (some .low)) r).env.Holds chip.mem := fun r => by
    have hreact := afterCall_device s.markInit (.cfg [.clk, .rst] .output (some .low)) r hdev
    refine ⟨_, hreact, ?_⟩
    split <;> rfl
  obtain ⟨r, hr, hx⟩ | ⟨e, hx⟩ := callThen_cases (.cfg [.clk, .rst] .output (some .low)) s.markInit fun s =>
    (runTransaction false (writeFormat .wpWrite [0x00#8]) s).andThen fun _ s =>
    (runTransaction false (writeFormat .tcWrite [0x00#8]) s).andThen fun _ s => .done Value.none s.becomeReady
  · rw [runInitSequence, hx]
    refine initTransactions_store hwf (hholds r) (.inl ?_)
    rw [State.afterCall_pins, Shadow.after, if_neg hr]
    rfl
  · rw [runInitSequence, hx]
    exact .failed (m := 0) (by decide) (hholds .err)

/-- INIT, whatever fails, has made a prefix of its two stores, and both where it ends `Ok`. -/
theorem init_prefix {chip : Chip} {s t : State} (hdev : s.env.device = .counterpart chip) (hwf : chip.mem.wf = true)
    (h : exec .init s = .next t) :
    ∃ m, m ≤ 2 ∧ t.env.Holds (initMemory chip.mem m) ∧ ∀ v, t.result = some (.ok v) → m = 2 := by
  have hrun : InitStores chip.mem (runInit (s.startOp .init)) := by
    by_cases hpermits : (s.startOp .init).permitsInit = true
    · rw [runInit, if_pos hpermits]
      exact runInitSequence_stores hdev hwf
    · rw [runInit, if_neg hpermits]
      exact .failed (m := 0) (by decide) ⟨chip, hdev, rfl⟩
  obtain ⟨m, hm, hstored, hall⟩ := hrun
  obtain ⟨-, -, rfl⟩ := hostOp_next h
  rw [← finishHost_env] at hstored
  refine ⟨m, hm, hstored, fun v hv => ?_⟩
  obtain ⟨u, hu⟩ := finishHost_ok hv
  exact hall v u hu

/-! ### The obligations -/

/-- Settles O59: the slots stored are a prefix of the burst, or of INIT's two stores. -/
theorem writesReachAPrefix : Obligations.WritesReachAPrefix := by
  intro s t chip hdev hwf
  refine ⟨fun block h => ?_, fun cv h => ?_, fun h => ?_⟩
  · obtain ⟨m, hm, ⟨hfirst, hrest, hother⟩, hall⟩ := writeRam_prefix hdev hwf h
    refine ⟨m, hm, fun k hk => ?_, hrest, hother, fun ⟨b, hb⟩ => hall ⟨_, hb⟩⟩
    have hk31 : k < 31 := by omega
    rw [hfirst k hk]
    simp [List.getD_eq_getElem?_getD, hk31]
  · cases hf : frameEncode cv with
    | ok f =>
      obtain ⟨m, hm, ⟨hfirst, hrest, hother⟩, hall⟩ := writeDatetime_prefix hf hdev hwf h
      refine ⟨m, hm, fun k hk => ?_, hrest, hother, fun hok => hall ⟨_, hok⟩⟩
      have hk7 : k < 7 := by omega
      rw [hfirst k hk, getD_frame_append f _ hk7]
      exact (frameEncode_slots hf).2 k hk7
    | error e =>
      obtain ⟨hslot, hfailed⟩ := writeDatetime_refused_stores hf hdev h
      exact ⟨0, Nat.zero_le _, fun k hk => absurd hk (Nat.not_lt_zero k), fun k _ _ => hslot .clock k, fun r k _ _ => hslot r k,
        fun hok => absurd hok (hfailed _)⟩
  · obtain ⟨m, hm, hstored, hall⟩ := init_prefix hdev hwf h
    refine ⟨m, hm, ?_, ?_, fun r k hwp htc hk => ?_, hall .none⟩
    · rw [hstored.slot, initMemory_wp hwf]
    · rw [hstored.slot, initMemory_tc hwf hm]
    · rw [hstored.slot, initMemory_other chip.mem m hwp htc hk]

/-- Settles O60: an INIT that no call fails has made both its stores. -/
theorem initClearsProtection : Obligations.InitClearsProtection := by
  intro s chip hidle huninit hattempted hdev hplan hwf
  obtain ⟨t, evs, ⟨hnext, -⟩, -, -, -, -, hok, -⟩ :=
    initCompletes s hidle huninit hattempted (State.meets_ideal (c := chip) ⟨hdev, hplan⟩ _)
  obtain ⟨m, -, hstored, hall⟩ := init_prefix hdev hwf hnext
  obtain rfl := hall _ hok
  refine ⟨t, hnext, hok, ?_, ?_⟩
  · rw [hstored.slot, initMemory_wp hwf, if_pos (by decide)]
  · rw [hstored.slot, initMemory_tc hwf le_rfl, if_pos rfl]

end Sys2Proof.Machine
end
